-- ==== Sys2Proof/Word.lean ====
section
/-! DEFINITION. The word types of the spec: a byte of LMEM (R60), a 32-bit CSR word (R23), a 64-bit
register or bit pattern (R47), and the 14-bit byte offset of the 16 KiB CSR space (R23). -/

namespace Sys2Proof

/-- One location of LMEM (R60). -/
abbrev Byte := BitVec 8

/-- One 32-bit CSR word, also the command word (R23, R28, R100). -/
abbrev Word := BitVec 32

/-- A 64-bit register, a 64-bit value moved by the cursor, or a binary64 bit pattern (R47). -/
abbrev DWord := BitVec 64

/-- A byte offset into the 16 KiB CSR space, 0x0000 to 0x3FFF (R23). -/
abbrev CsrOffset := BitVec 14

end Sys2Proof
end

