-- ==== Sys2Proof/Config.lean ====
section
/-! DEFINITION. What is fixed for one IMC-CORE (R6): the fixed parameters, the record of the OPEN
parameters, and the FREE VALUES, which the spec leaves to a draw. A free value is an opaque constant:
nothing in Lean can evaluate it or prove a value of it. -/

namespace Sys2Proof.Config

/-! ## Fixed parameters (R6) -/

/-- CH_LAG: the delta predictor's lag in bytes (R6, D23). -/
abbrev chLag : Nat := 3

/-- MAX_CW_LEN: the longest legal codeword (R6, R173, R178). -/
abbrev maxCwLen : Nat := 31

/-- LUT_ENTRIES: the decoder LUT's capacity (R6). -/
abbrev lutEntries : Nat := 256

/-- RD_MAX_BITS: the largest single read or write (R6, R104 (d)). -/
abbrev rdMaxBits : Nat := 64

/-! ## OPEN parameters (R6): carried by the state, never changed by a step (log 5) -/

/-- DCT_IMPL (R6, R220, I11): the matrix product of R213, or a butterfly that is not bit-exact, with its error bound
per element. The spec gives no bound, so it is a parameter, and so is the magnitude of sample up to which it holds
(log 6). -/
inductive DctImpl where
  | exact
  | butterfly (limit bound : ℚ)
  deriving DecidableEq, Repr

/-- An error bound is not negative (R220, log 6). -/
abbrev DctImpl.legal : DctImpl → Prop
  | .exact => True
  | .butterfly _ bound => 0 ≤ bound

/-- The OPEN parameters of the core: LMEM_SIZE, QTABLE and DCT_IMPL (R6). -/
structure Params where
  /-- LMEM_SIZE (R60, D3). -/
  lmemSize : Nat
  /-- QTABLE: the base quantisation table Q[0..63] (R46, R211). -/
  qtable : Vector Word 64
  /-- DCT_IMPL (R220). -/
  dctImpl : DctImpl
  deriving DecidableEq, Repr

/-- The bounds the spec sets for the parameters: 16 <= LMEM_SIZE <= 2^32 (R6) and every entry of QTABLE
an integer from 1 to 2^31 - 1 (R211); and a DCT_IMPL that has a meaning (R220). -/
abbrev Params.legal (p : Params) : Prop :=
  16 ≤ p.lmemSize ∧ p.lmemSize ≤ 2 ^ 32 ∧
    (∀ q ∈ p.qtable.toList, 1 ≤ q.toNat ∧ q.toNat ≤ 2 ^ 31 - 1) ∧ p.dctImpl.legal

/-! ## Free values (R52, R219, R220, R320; log 1) -/

/-- FREE VALUE: the byte a read of LMEM returns where LMEM holds no value (R52), or where the host reads
LMEM while BUSY = 1 (R320). Arguments: the draw counter of the state, and the address. Log 1, log 2. -/
opaque freeByte : Nat → Nat → Byte

/-- FREE VALUE: the word a host CSR read returns while BUSY = 1 (R320, I7). Argument: the draw counter.
Log 1, log 12. -/
opaque freeWord : Nat → Word

/-- FREE VALUE: the 64 bits of which a NaN result takes its sign and payload (R219, I3). Arguments: the draw
counter, and which operation of the command it is. Log 1, log 4. -/
opaque freeNan : Nat → Nat → DWord

/-- FREE VALUE: LUT[i].VAL after power-on (R40, R52). Log 3. -/
opaque powerOnLutVal : Nat → Word

/-- FREE VALUE: LUT[i].SYMLEN, bits [15:0], after power-on (R40, R52). Log 3. -/
opaque powerOnLutSymLen : Nat → BitVec 16

/-- FREE VALUE: BLK[k] after power-on (R43, R52). Log 3. -/
opaque powerOnBlk : Nat → DWord

/-- FREE VALUE: SEQ[k] after power-on (R44, R52). Log 3. -/
opaque powerOnSeq : Nat → DWord

/-- FREE VALUE: what a transform datapath that is not bit-exact makes of BLK (R220), where its error bound leaves the
choice: the first argument is true for DCT_INV. Log 6. -/
opaque dctButterfly : Bool → Vector DWord 64 → Vector DWord 64

end Sys2Proof.Config
end

