-- ==== Sys2Proof/Syntax.lean ====
section
/-! DEFINITION. The commands of IMC-CORE (R2: "instruction" means one command), one constructor per row of
spec/opcode_table.json (R103). The only operand in a command word is the count field N, word[15:8] (R101). -/

namespace Sys2Proof

/-- The 24 commands, in the order of the opcode map (R103). `n` is the 8-bit field N (R100, R101). -/
inductive Instr where
  /-- R124: no operation -/
  | nop
  /-- R140: point the reader at the source region -/
  | bcRinit
  /-- R142: read N bits into RDATA -/
  | bcRead (n : BitVec 8)
  /-- R144: point the writer at the destination region -/
  | bcWinit
  /-- R147: append the low N bits of WDATA -/
  | bcWrite (n : BitVec 8)
  /-- R148: zero-pad and store the partial byte -/
  | bcFlush
  /-- R149: append the source region's bytes through the writer -/
  | bcPutb
  /-- R143: copy bytes from the reader to the destination region -/
  | bcGetb
  /-- R170: histogram, tree, codewords and decoder LUT of the source region -/
  | hufBuild
  /-- R176: encode the source region through CWTAB -/
  | hufPack
  /-- R177: write the Huffman metadata block -/
  | hufMetaWr
  /-- R180: read a Huffman metadata block -/
  | hufMetaRd
  /-- R181: decode COUNT symbols into the destination region -/
  | hufDec
  /-- R214: scale the base table by QUALITY into QS -/
  | qscale
  /-- R215: forward transform of BLK -/
  | dctFwd
  /-- R216: inverse transform of BLK -/
  | dctInv
  /-- R217: divide BLK by QS and round -/
  | quant
  /-- R218: multiply BLK by QS and round -/
  | dequant
  /-- R241: serialise BLK into SEQ in zig-zag order -/
  | zzRead
  /-- R242: place SEQ back into BLK in zig-zag order -/
  | zzWrite
  /-- R244: compact SEQ into a run-length stream -/
  | rlePack
  /-- R245: expand one block's run-length stream into SEQ -/
  | rleUnpack
  /-- R260: delta-code the source region -/
  | deltaEnc
  /-- R261: rebuild bytes from a delta-body record -/
  | deltaDec
  deriving DecidableEq, Repr

end Sys2Proof
end

