-- ==== Sys2Proof/WellFormed.lean ====
section
/-! DEFINITION. Which terms of `Instr` are commands of the spec: the count N of BC_READ and BC_WRITE is 0 to 64
(R100, R104 (d)). Every other command has no operand and is always well formed. -/

namespace Sys2Proof

/-- The count N is legal: 0 to 64 bits (R100, R104 (d)). -/
abbrev countLegal (n : BitVec 8) : Prop := n.toNat ≤ 64

/-- The well-formed commands (R103, R104). -/
def Instr.wellFormed : Instr → Bool
  | .nop => true
  | .bcRinit => true
  | .bcRead n => decide (countLegal n)
  | .bcWinit => true
  | .bcWrite n => decide (countLegal n)
  | .bcFlush => true
  | .bcPutb => true
  | .bcGetb => true
  | .hufBuild => true
  | .hufPack => true
  | .hufMetaWr => true
  | .hufMetaRd => true
  | .hufDec => true
  | .qscale => true
  | .dctFwd => true
  | .dctInv => true
  | .quant => true
  | .dequant => true
  | .zzRead => true
  | .zzWrite => true
  | .rlePack => true
  | .rleUnpack => true
  | .deltaEnc => true
  | .deltaDec => true

end Sys2Proof
end

