-- ==== Sys2Proof/Decode.lean ====
section
/-! DEFINITION. The command word (R100): decoding, total on every 32-bit word and rejecting by name (R104), and
the encoder, both written from the opcode map of R103. -/

namespace Sys2Proof

/-- Why a word is no command: the four cases of R104. All of them raise BadCommand when the word is executed
(R125), so the name is for the reader of a rejection only. -/
inductive Reject where
  /-- R104 (a): word[7:0] is not an OPC of R103 -/
  | reservedOpcode
  /-- R104 (b): word[31:16] is not 0 -/
  | reservedBits
  /-- R104 (c): N is not 0 and the command takes no count -/
  | countNotZero
  /-- R104 (d): BC_READ or BC_WRITE with N above 64 -/
  | countTooLarge
  deriving DecidableEq, Repr

/-- One row of the opcode map (R103): the OPC, whether the command uses N, and the command it stands for, given
the field N. -/
structure OpcodeRow where
  opc : BitVec 8
  usesCount : Bool
  make : BitVec 8 → Instr

/-- A row of a command without operand. -/
def plainRow (opc : BitVec 8) (i : Instr) : OpcodeRow := ⟨opc, false, fun _ => i⟩

/-- The opcode map's control and bit-cursor rows (R103). -/
def cursorRows : List OpcodeRow :=
  [plainRow 0x00 .nop, plainRow 0x01 .bcRinit, ⟨0x02, true, .bcRead⟩, plainRow 0x03 .bcWinit,
   ⟨0x04, true, .bcWrite⟩, plainRow 0x05 .bcFlush, plainRow 0x06 .bcPutb, plainRow 0x07 .bcGetb]

/-- The opcode map's Huffman rows (R103). -/
def huffmanRows : List OpcodeRow :=
  [plainRow 0x10 .hufBuild, plainRow 0x11 .hufPack, plainRow 0x12 .hufMetaWr,
   plainRow 0x13 .hufMetaRd, plainRow 0x14 .hufDec]

/-- The opcode map's transform rows (R103). -/
def transformRows : List OpcodeRow :=
  [plainRow 0x20 .qscale, plainRow 0x21 .dctFwd, plainRow 0x22 .dctInv, plainRow 0x23 .quant,
   plainRow 0x24 .dequant]

/-- The opcode map's zig-zag, run-length and delta rows (R103). -/
def streamRows : List OpcodeRow :=
  [plainRow 0x30 .zzRead, plainRow 0x31 .zzWrite, plainRow 0x38 .rlePack, plainRow 0x39 .rleUnpack,
   plainRow 0x40 .deltaEnc, plainRow 0x41 .deltaDec]

/-- The opcode map (R103). -/
def opcodeRows : List OpcodeRow := cursorRows ++ huffmanRows ++ transformRows ++ streamRows

/-- OPC, word[7:0] (R100). -/
def opcField (w : Word) : BitVec 8 := w.extractLsb' 0 8

/-- N, word[15:8] (R100, R101). -/
def countField (w : Word) : BitVec 8 := w.extractLsb' 8 8

/-- RSV, word[31:16] (R100). -/
def rsvField (w : Word) : BitVec 16 := w.extractLsb' 16 16

/-- The command a row makes of the fields N and RSV (R104 (b) to (d)). -/
def decodeRow (r : OpcodeRow) (n : BitVec 8) (rsv : BitVec 16) : Except Reject Instr :=
  if rsv ≠ 0 then .error .reservedBits
  else if r.usesCount then
    if countLegal n then .ok (r.make n) else .error .countTooLarge
  else if n = 0 then .ok (r.make n) else .error .countNotZero

/-- Decoding of a command word (R103, R104): total, and every illegal word rejected. -/
def decode (w : Word) : Except Reject Instr :=
  match opcodeRows.find? (fun r => r.opc == opcField w) with
  | none => .error .reservedOpcode
  | some r => decodeRow r (countField w) (rsvField w)

/-- The OPC of a command (R103). -/
def opcode : Instr → BitVec 8
  | .nop => 0x00
  | .bcRinit => 0x01
  | .bcRead _ => 0x02
  | .bcWinit => 0x03
  | .bcWrite _ => 0x04
  | .bcFlush => 0x05
  | .bcPutb => 0x06
  | .bcGetb => 0x07
  | .hufBuild => 0x10
  | .hufPack => 0x11
  | .hufMetaWr => 0x12
  | .hufMetaRd => 0x13
  | .hufDec => 0x14
  | .qscale => 0x20
  | .dctFwd => 0x21
  | .dctInv => 0x22
  | .quant => 0x23
  | .dequant => 0x24
  | .zzRead => 0x30
  | .zzWrite => 0x31
  | .rlePack => 0x38
  | .rleUnpack => 0x39
  | .deltaEnc => 0x40
  | .deltaDec => 0x41

/-- The field N of a command: 0 but for BC_READ and BC_WRITE (R101, R103). -/
def countOf : Instr → BitVec 8
  | .bcRead n => n
  | .bcWrite n => n
  | .nop => 0
  | .bcRinit => 0
  | .bcWinit => 0
  | .bcFlush => 0
  | .bcPutb => 0
  | .bcGetb => 0
  | .hufBuild => 0
  | .hufPack => 0
  | .hufMetaWr => 0
  | .hufMetaRd => 0
  | .hufDec => 0
  | .qscale => 0
  | .dctFwd => 0
  | .dctInv => 0
  | .quant => 0
  | .dequant => 0
  | .zzRead => 0
  | .zzWrite => 0
  | .rlePack => 0
  | .rleUnpack => 0
  | .deltaEnc => 0
  | .deltaDec => 0

/-- The word of a command: RSV = 0, then N, then OPC (R100, R103, R107). -/
def encode (i : Instr) : Word := (0 : BitVec 16) ++ countOf i ++ opcode i

/-- The instruction the decoder reads from the word whose bits are `w`, numbered as the opcode table numbers
them; bits at or above `nbits` are 0. A command is one 32-bit word with no byte order to choose (R62, R106). -/
def decodeTableWord (nbits w : Nat) : Option Instr :=
  match decode (BitVec.ofNat 32 (w % 2 ^ nbits)) with
  | .ok i => some i
  | .error _ => none

end Sys2Proof
end

