-- ==== Sys2Proof/Machine/F64.lean ====
section
/-! DEFINITION. IEEE 754 binary64 on bit patterns (R13, R212, R219): exact integer arithmetic, one rounding to
nearest with ties to even, subnormals kept, nothing fused. The pattern of a NaN result is an argument, which the
caller supplies from a free value (R219, I3). -/

namespace Sys2Proof.Machine.F64

/-! ## Fields of a bit pattern -/

/-- The sign, bit 63. -/
def neg (x : DWord) : Bool := x.getLsbD 63

/-- The biased exponent, bits 62..52. -/
def expField (x : DWord) : Nat := (x.extractLsb' 52 11).toNat

/-- The fraction, bits 51..0. -/
def frac (x : DWord) : Nat := (x.extractLsb' 0 52).toNat

/-- A NaN: exponent all ones, fraction not 0. -/
def isNan (x : DWord) : Bool := expField x == 2047 && frac x != 0

/-- An infinity: exponent all ones, fraction 0. -/
def isInf (x : DWord) : Bool := expField x == 2047 && frac x == 0

/-- Finite: neither NaN nor infinity. -/
def isFinite (x : DWord) : Bool := expField x != 2047

/-- `is_zero` of R13: +0.0 or -0.0. -/
def isZero (x : DWord) : Bool := expField x == 0 && frac x == 0

/-- The integer significand of a finite pattern: its magnitude is `mant x * 2 ^ expo x`. -/
def mant (x : DWord) : Nat := if expField x = 0 then frac x else 2 ^ 52 + frac x

/-- The exponent of the significand's last place, for a finite pattern. -/
def expo (x : DWord) : Int := if expField x = 0 then -1074 else (expField x : Int) - 1075

/-- The value of a finite pattern. -/
def value (x : DWord) : ℚ := (if neg x then -1 else 1) * (mant x : ℚ) * (2 : ℚ) ^ expo x

/-! ## Patterns -/

/-- The sign bit alone, so a zero of that sign. -/
def signBit (n : Bool) : DWord := if n then 0x8000000000000000#64 else 0#64

/-- The magnitude pattern of infinity. -/
def infMag : Nat := 0x7FF0000000000000

/-- An infinity of that sign. -/
def inf (n : Bool) : DWord := signBit n ||| BitVec.ofNat 64 infMag

/-- A quiet NaN that takes its sign and payload from the free bits given (R219, I3). -/
def quietNan (free : DWord) : DWord := free ||| 0x7FF8000000000000#64

/-! ## Rounding -/

/-- `m / 2^k` to the nearest integer, ties to even. -/
def shiftRne (m k : Nat) : Nat :=
  if 2 ^ k < 2 * (m % 2 ^ k) ∨ (2 * (m % 2 ^ k) = 2 ^ k ∧ (m / 2 ^ k) % 2 = 1) then m / 2 ^ k + 1
  else m / 2 ^ k

/-- The exponent of the last place that the value `m * 2^e` is rounded to: 53 significant bits, but never
below the subnormals' 2^-1074. -/
def ulpExpo (m : Nat) (e : Int) : Int := max (e + (Nat.log2 m : Int) - 52) (-1074)

/-- `m * 2^e` in units of 2^q, to the nearest integer, ties to even. -/
def roundTo (m : Nat) (e q : Int) : Nat :=
  if q ≤ e then m * 2 ^ (e - q).toNat else shiftRne m (q - e).toNat

/-- The magnitude pattern of `m * 2^e` rounded to binary64, for m > 0: the rounded significand carries into the
exponent field by itself, and everything at or above the pattern of infinity is infinity. -/
def magnitude (m : Nat) (e : Int) : Nat :=
  min ((ulpExpo m e + 1074).toNat * 2 ^ 52 + roundTo m e (ulpExpo m e)) infMag

/-- The binary64 pattern of `±m * 2^e`, rounded to nearest with ties to even (R13, R219). -/
def roundPack (n : Bool) (m : Nat) (e : Int) : DWord :=
  if m = 0 then signBit n else signBit n ||| BitVec.ofNat 64 (magnitude m e)

/-- `f64_of_int` of R13. -/
def ofInt (i : Int) : DWord := roundPack (decide (i < 0)) i.natAbs 0

/-- `f64_of_int` of a natural number. -/
def ofNat (n : Nat) : DWord := roundPack false n 0

/-! ## Arithmetic -/

/-- The signed significand of a finite pattern in units of `2^e`, for `e ≤ expo x`. -/
def scaled (x : DWord) (e : Int) : Int :=
  let m : Nat := mant x * 2 ^ (expo x - e).toNat
  if neg x then -(m : Int) else (m : Int)

/-- The exact sum of two finite patterns, rounded. An exact sum of 0 is -0.0 only when both are negative. -/
def addFinite (a b : DWord) : DWord :=
  let e := min (expo a) (expo b)
  let s := scaled a e + scaled b e
  if s = 0 then signBit (neg a && neg b) else roundPack (decide (s < 0)) s.natAbs e

/-- `f64_add` of R13; `nan` is the pattern of a NaN result. -/
def add (nan a b : DWord) : DWord :=
  if isNan a || isNan b then nan
  else if isInf a then (if isInf b && (neg a != neg b) then nan else a)
  else if isInf b then b
  else addFinite a b

/-- `f64_mul` of R13; `nan` is the pattern of a NaN result. -/
def mul (nan a b : DWord) : DWord :=
  let n := neg a != neg b
  if isNan a || isNan b then nan
  else if isInf a then (if isZero b then nan else inf n)
  else if isInf b then (if isZero a then nan else inf n)
  else roundPack n (mant a * mant b) (expo a + expo b)

/-- The quotient of two significands with 110 more bits, its last bit sticky: enough for one exact rounding. -/
def quotient (p q : Nat) : Nat :=
  2 * (p * 2 ^ 110 / q) + (if p * 2 ^ 110 % q = 0 then 0 else 1)

/-- `f64_div` of R13; `nan` is the pattern of a NaN result. -/
def div (nan a b : DWord) : DWord :=
  let n := neg a != neg b
  if isNan a || isNan b then nan
  else if isInf a then (if isInf b then nan else inf n)
  else if isInf b then signBit n
  else if isZero b then (if isZero a then nan else inf n)
  else roundPack n (quotient (mant a) (mant b)) (expo a - expo b - 111)

/-! ## Decimal numbers -/

/-- A decimal number as a host script writes it (R108, R109): the sign, the digits as one integer, and the power of ten
they are scaled by. -/
structure Decimal where
  neg : Bool
  digits : Nat
  exp10 : Int
  deriving DecidableEq, Repr

/-- `bits(x)` of R109: the binary64 pattern of a decimal number, rounded once to nearest with ties to even where it is
not exact (log 21). The divisor's own size is added to the quotient's bits, so they are enough at every exponent. -/
def Decimal.bits (x : Decimal) : DWord :=
  let p := x.digits * 10 ^ x.exp10.toNat
  let q := 10 ^ (-x.exp10).toNat
  roundPack x.neg (quotient (p * 2 ^ Nat.log2 q) q) (-((Nat.log2 q : Int) + 111))

/-! ## Rounding to an integer, and the tests of R13 -/

/-- `|x|` to the nearest integer, ties away from zero, for a finite `x` with `expo x < 0` (R212): floor, plus 1
when the part below is at least one half. -/
def roundHalfAway (x : DWord) : Nat :=
  let k := (-expo x).toNat
  if 2 ^ k ≤ 2 * (mant x % 2 ^ k) then mant x / 2 ^ k + 1 else mant x / 2 ^ k

/-- `rnd_ha` of R212: NaN, infinities and magnitudes of 2^52 or more are returned unchanged, and the sign of
zero is kept. -/
def rndHa (x : DWord) : DWord :=
  if 1075 ≤ expField x then x else roundPack (neg x) (roundHalfAway x) 0

/-- The integer value of a finite integral pattern, none for a fraction, a NaN or an infinity. -/
def toInt? (x : DWord) : Option Int :=
  if isFinite x then
    let k := (-expo x).toNat
    if mant x % 2 ^ k = 0 then
      let m : Nat := mant x / 2 ^ k * 2 ^ (expo x).toNat
      some (if neg x then -(m : Int) else (m : Int))
    else none
  else none

/-- `is_int16` of R13: finite, integral, and -32768 ≤ x ≤ 32767. -/
def isInt16 (x : DWord) : Bool :=
  match toInt? x with
  | some i => decide (-32768 ≤ i ∧ i ≤ 32767)
  | none => false

/-- Finite and at least 1.0 (the test of R214). -/
def finiteGeOne (x : DWord) : Bool := !neg x && decide (1023 ≤ expField x ∧ expField x ≠ 2047)

end Sys2Proof.Machine.F64
end

