-- ==== Sys2Proof/Machine/Tables.lean ====
section
/-! DEFINITION. The constant tables of the spec: the default quantisation table (R211), the transform basis T
(R210) and the zig-zag order (R240). -/

namespace Sys2Proof.Machine

/-- A fixed-length vector from a function of the index. -/
def tabulate {α : Type} {n : Nat} (f : Fin n → α) : Vector α n := Vector.ofFn f

/-- Element `8*i + j` of an 8×8 array (R43). -/
def at8 (v : Vector DWord 64) (i j : Fin 8) : DWord := v[8 * i.val + j.val]

/-! ## The base quantisation table (R211) -/

/-- The default QTABLE, row by row (R211). -/
def defaultQRows : List (List Nat) :=
  [[16, 11, 10, 16, 24, 40, 51, 61],
   [12, 12, 14, 19, 26, 58, 60, 55],
   [14, 13, 16, 24, 40, 57, 69, 56],
   [14, 17, 22, 29, 51, 87, 80, 62],
   [18, 22, 37, 56, 68, 109, 103, 77],
   [24, 35, 55, 64, 81, 104, 113, 92],
   [49, 64, 78, 87, 103, 121, 120, 101],
   [72, 92, 95, 98, 112, 100, 103, 99]]

/-- An entry of a table written in rows of 8. -/
def rowsAt {α : Type} (d : α) (rows : List (List α)) (k : Nat) : α := (rows.getD (k / 8) []).getD (k % 8) d

/-- The default QTABLE as Q[0..63] (R46, R211). -/
def defaultQTable : Vector Word 64 := tabulate fun k => BitVec.ofNat 32 (rowsAt 0 defaultQRows k.val)

/-- The default parameters: LMEM_SIZE = 2^20, QTABLE of R211, DCT_IMPL = EXACT (R6). -/
def defaultParams : Config.Params := ⟨2 ^ 20, defaultQTable, .exact⟩

/-- QS[k] = f64_of_int(Q[k]), the reset value of QS (R45, R310). -/
def resetQs (q : Vector Word 64) : Vector DWord 64 := tabulate fun k => F64.ofNat (q[k.val]).toNat

/-! ## The transform basis (R210) -/

/-- The magnitudes of T by name: sqrt(1/8) and the cosine entries, as R210 lists their patterns. -/
def basisA : DWord := 0x3FD6A09E667F3BCD#64
/-- 0.49039264020161522 (R210). -/
def basisB : DWord := 0x3FDF6297CFF75CB0#64
/-- 0.46193976625564337 (R210). -/
def basisC : DWord := 0x3FDD906BCF328D46#64
/-- 0.41573480615127262 (R210). -/
def basisD : DWord := 0x3FDA9B66290EA1A3#64
/-- 0.27778511650980109 (R210). -/
def basisE : DWord := 0x3FD1C73B39AE68C8#64
/-- 0.19134171618254489 (R210). -/
def basisF : DWord := 0x3FC87DE2A6AEA963#64
/-- 0.097545161008064138 (R210). -/
def basisG : DWord := 0x3FB8F8B83C69A60B#64

/-- A binary64 pattern with its sign flipped. -/
def flipSign (x : DWord) : DWord := x ^^^ 0x8000000000000000#64

/-- Rows 0 to 3 of T (R210). -/
def basisRowsLow : List (List DWord) :=
  [[basisA, basisA, basisA, basisA, basisA, basisA, basisA, basisA],
   [basisB, basisD, basisE, basisG, flipSign basisG, flipSign basisE, flipSign basisD, flipSign basisB],
   [basisC, basisF, flipSign basisF, flipSign basisC, flipSign basisC, flipSign basisF, basisF, basisC],
   [basisD, flipSign basisG, flipSign basisB, flipSign basisE, basisE, basisB, basisG, flipSign basisD]]

/-- Rows 4 to 7 of T (R210). -/
def basisRowsHigh : List (List DWord) :=
  [[basisA, flipSign basisA, flipSign basisA, basisA, basisA, flipSign basisA, flipSign basisA, basisA],
   [basisE, flipSign basisB, basisG, basisD, flipSign basisD, flipSign basisG, basisB, flipSign basisE],
   [basisF, flipSign basisC, basisC, flipSign basisF, flipSign basisF, basisC, flipSign basisC, basisF],
   [basisG, flipSign basisE, basisD, flipSign basisB, basisB, flipSign basisD, basisE, flipSign basisG]]

/-- The basis T, element (i, j) at 8*i + j (R210). -/
def basisT : Vector DWord 64 := tabulate fun k => rowsAt 0 (basisRowsLow ++ basisRowsHigh) k.val

/-- The transpose of an 8×8 array (R210). -/
def transpose8 (v : Vector DWord 64) : Vector DWord 64 :=
  tabulate fun k => at8 v ⟨k.val % 8, by omega⟩ ⟨k.val / 8, by omega⟩

/-! ## The zig-zag order (R240) -/

/-- ZZ[0..63] as R240 lists it. -/
def zzRows : List (List Nat) :=
  [[0, 1, 8, 16, 9, 2, 3, 10], [17, 24, 32, 25, 18, 11, 4, 5],
   [12, 19, 26, 33, 40, 48, 41, 34], [27, 20, 13, 6, 7, 14, 21, 28],
   [35, 42, 49, 56, 57, 50, 43, 36], [29, 22, 15, 23, 30, 37, 44, 51],
   [58, 59, 52, 45, 38, 31, 39, 46], [53, 60, 61, 54, 47, 55, 62, 63]]

/-- ZZ[k], an index into BLK (R240). -/
def zz (k : Fin 64) : Fin 64 := Fin.ofNat 64 (rowsAt 0 zzRows k.val)

/-- Where the index `i` of BLK stands in ZZ: the k with ZZ[k] = i (R240, R242). -/
def zzPlace (i : Fin 64) : Fin 64 := Fin.ofNat 64 (zzRows.flatten.idxOf i.val)

end Sys2Proof.Machine
end

