-- ==== Sys2Proof/Machine/State.lean ====
section
/-! DEFINITION. The state of IMC-CORE and of the host port (10_state.md), as plain data; the reasons a step can
stop; and the state after power-on reset (R310). -/

namespace Sys2Proof.Machine

/-! ## Why a step stops -/

/-- Model faults. The spec gives a command no access outside LMEM (R10); the region checks of R66 keep it so. -/
inductive Fault where
  /-- Raised by a reader command (BC_READ, BC_GETB, HUF_META_RD, HUF_DEC, RLE_UNPACK, DELTA_DEC) in a state whose
  reader region does not lie inside LMEM. No run from reset reaches one (R66, R140). Safe. Log 10. -/
  | readerOutsideLmem
  /-- Raised by a writer command (BC_WRITE, BC_FLUSH, BC_PUTB, HUF_PACK, HUF_META_WR, RLE_PACK, DELTA_ENC) in a
  state whose writer region does not lie inside LMEM, or holds more bytes than its capacity. No run from reset reaches
  one (R34, R66, R144). Safe. Log 10. -/
  | writerOutsideLmem
  deriving DecidableEq, Repr

/-- Refusals. -/
inductive Refusal where
  /-- Raised by an arm of `exec` whose instruction has no meaning yet. Safe. -/
  | notModelled (mnemonic : String)
  /-- Raised by a host CSR access at an offset that is no multiple of 4: R62, "A model refuses such an access by
  name". Safe. Log 13. -/
  | misalignedCsrAccess
  /-- Raised by a host CSR access that is not one 32-bit word: R62. Safe. Log 13. -/
  | subWordCsrAccess
  deriving DecidableEq, Repr

/-! ## The two agents -/

/-- The two agents (R20). -/
inductive Agent where
  | core
  | host
  deriving DecidableEq, Repr

/-- One transaction of the host (R108, R110). -/
inductive HostOp where
  /-- a 32-bit CSR write of `v` at a byte offset -/
  | csrWrite (off : CsrOffset) (v : Word)
  /-- a 32-bit CSR read at a byte offset -/
  | csrRead (off : CsrOffset)
  /-- a CSR access of another width, which the interface cannot express (R62) -/
  | csrNarrow (off : CsrOffset) (bytes : Nat)
  /-- an LMEM byte write (R60) at an exact address -/
  | lmemWrite (addr : Nat) (v : Byte)
  /-- an LMEM byte read (R60) at an exact address -/
  | lmemRead (addr : Nat)
  /-- the script line `wait`: read STATUS until DONE reads 1 (R108) -/
  | waitDone
  deriving DecidableEq, Repr

/-! ## Registers and tables -/

/-- The STATUS bits (R25). -/
structure Status where
  busy : Bool
  done : Bool
  err : Bool
  ur : Bool
  ovr : Bool
  deriving DecidableEq, Repr

/-- The reader state (R33): R_BASE, R_LEN, R_POS, PADBITS. -/
structure Reader where
  base : Word
  len : Word
  pos : DWord
  pad : DWord
  deriving DecidableEq, Repr

/-- The writer state (R34): W_BASE, W_CAP, W_BYTES, and W_ACC's fields NACC (0 to 7) and ACC. -/
structure Writer where
  base : Word
  cap : Word
  bytes : Word
  nacc : Fin 8
  acc : Byte
  deriving DecidableEq, Repr

/-- One entry of the LUT RAM (R40). -/
structure LutEntry where
  sym : Byte
  len : Byte
  val : Word
  deriving DecidableEq, Repr

/-- One entry of the codeword table (R41). -/
structure Codeword where
  val : Word
  len : Byte
  deriving DecidableEq, Repr

/-- The whole state: the core's (10_state.md), LMEM, the host port, and the model's draw counter. -/
structure State where
  /-- the OPEN parameters and Q[0..63]: fixed, no step changes them (R6, R46; log 5, log 6) -/
  params : Config.Params
  /-- CTRL.IE (R24) -/
  ctrlIe : Bool
  /-- STATUS (R25) -/
  st : Status
  /-- ERRCODE (R26) -/
  errCode : Byte
  /-- ERRINFO (R27) -/
  errInfo : DWord
  /-- CMD: the last accepted command word (R28) -/
  cmd : Word
  /-- SRC_ADDR (R29) -/
  srcAddr : Word
  /-- SRC_LEN (R29) -/
  srcLen : Word
  /-- DST_ADDR (R30) -/
  dstAddr : Word
  /-- DST_LEN (R30) -/
  dstLen : Word
  /-- WDATA (R31) -/
  wData : DWord
  /-- RDATA (R32) -/
  rData : DWord
  /-- the reader state (R33) -/
  rd : Reader
  /-- the writer state (R34) -/
  wr : Writer
  /-- MAXLEN (R35) -/
  maxLen : BitVec 16
  /-- LUTCNT (R36) -/
  lutCnt : BitVec 16
  /-- COUNT (R37) -/
  count : DWord
  /-- QUALITY (R38) -/
  quality : DWord
  /-- DLEN (R39) -/
  dLen : DWord
  /-- the LUT RAM (R40) -/
  lut : Vector LutEntry 256
  /-- the codeword table CWTAB (R41) -/
  cwtab : Vector Codeword 256
  /-- the histogram HIST (R42) -/
  hist : Vector Word 256
  /-- the block register BLK (R43) -/
  blk : Vector DWord 64
  /-- the sequence register SEQ (R44) -/
  seq : Vector DWord 64
  /-- the scaled quantisation table QS (R45) -/
  qs : Vector DWord 64
  /-- LMEM (R49, R60): the bytes that hold a value, by rising address (log 2) -/
  lmem : List Host.Cell
  /-- the pending command latch (R48 (a), R121) -/
  latch : Option Word
  /-- the host's transactions still to come (R108, R110; log 7) -/
  script : List HostOp
  /-- which agent moves next, while this lists one (R20; log 7) -/
  sched : List Agent
  /-- what the host's last read returned (R108; log 7) -/
  hostData : Word
  /-- the draw counter: the model's own field (log 1) -/
  draws : Nat
  deriving DecidableEq, Repr

/-! ## Power-on reset -/

/-- LUT[i] after power-on: no value of the spec (R52), so a free value (log 3). -/
def powerOnLutEntry (i : Nat) : LutEntry :=
  ⟨(Config.powerOnLutSymLen i).extractLsb' 0 8, (Config.powerOnLutSymLen i).extractLsb' 8 8,
    Config.powerOnLutVal i⟩

/-- The state after power-on reset, for given parameters (R310). -/
def State.powerOn (p : Config.Params) : State where
  params := p
  ctrlIe := false
  st := ⟨false, false, false, false, false⟩
  errCode := 0
  errInfo := 0
  cmd := 0
  srcAddr := 0
  srcLen := 0
  dstAddr := 0
  dstLen := 0
  wData := 0
  rData := 0
  rd := ⟨0, 0, 0, 0⟩
  wr := ⟨0, 0, 0, 0, 0⟩
  maxLen := 0
  lutCnt := 0
  count := 0
  quality := 0x3FF0000000000000#64
  dLen := 0
  lut := tabulate fun i => powerOnLutEntry i.val
  cwtab := Vector.replicate 256 ⟨0, 0⟩
  hist := Vector.replicate 256 0
  blk := tabulate fun k => Config.powerOnBlk k.val
  seq := tabulate fun k => Config.powerOnSeq k.val
  qs := resetQs p.qtable
  lmem := []
  latch := none
  script := []
  sched := []
  hostData := 0
  draws := 0

/-- The machine right after reset, with the default parameters (R6, R310). -/
def State.reset : State := State.powerOn defaultParams

end Sys2Proof.Machine
end

