-- ==== Sys2Proof/Machine/Operands.lean ====
section
/-! DEFINITION. The operand forms of the commands (R101, R102): LMEM regions named by two registers, their validity
and overlap (R66, R67), the cursor regions, and the halves of a 64-bit register (R47). -/

namespace Sys2Proof.Machine

/-! ## Regions -/

/-- A region of LMEM: a base and a length in bytes (R29, R30, R66). -/
structure Region where
  base : Word
  len : Word
  deriving DecidableEq, Repr

/-- The source region SRC_ADDR, SRC_LEN (R29). -/
def srcRegion (s : State) : Region := ⟨s.srcAddr, s.srcLen⟩

/-- The destination region DST_ADDR, DST_LEN (R30). -/
def dstRegion (s : State) : Region := ⟨s.dstAddr, s.dstLen⟩

/-- The reader's region R_BASE, R_LEN (R33). -/
def readerRegion (s : State) : Region := ⟨s.rd.base, s.rd.len⟩

/-- The writer's region W_BASE, W_CAP (R34). -/
def writerRegion (s : State) : Region := ⟨s.wr.base, s.wr.cap⟩

/-- `base + len`, exactly, as the 64-bit info of R66. -/
def Region.endSum (r : Region) : DWord := r.base.zeroExtend 64 + r.len.zeroExtend 64

/-- A valid region: `base + len ≤ LMEM_SIZE`, the sum exact (R66). -/
def Region.valid (r : Region) (lmemSize : Nat) : Bool := decide (r.base.toNat + r.len.toNat ≤ lmemSize)

/-- Two regions overlap (R67). -/
def Region.overlaps (a b : Region) : Bool :=
  decide (0 < a.len.toNat ∧ 0 < b.len.toNat ∧ a.base.toNat < b.base.toNat + b.len.toNat ∧
    b.base.toNat < a.base.toNat + a.len.toNat)

/-- The address is one of the region's bytes. -/
def Region.contains (r : Region) (a : Nat) : Bool :=
  decide (r.base.toNat ≤ a ∧ a < r.base.toNat + r.len.toNat)

/-! ## The cursors' standing -/

/-- The reader's region lies in LMEM (R10, R66, R140). -/
def readerOk (s : State) : Bool := (readerRegion s).valid s.params.lmemSize

/-- The writer's region lies in LMEM and W_BYTES ≤ W_CAP (R10, R34, R66, R144). -/
def writerOk (s : State) : Bool :=
  (writerRegion s).valid s.params.lmemSize && decide (s.wr.bytes.toNat ≤ s.wr.cap.toNat)

/-! ## Halves of a 64-bit register (R47) -/

/-- Which 32-bit word of a 64-bit register (R47). -/
inductive Half where
  | lo
  | hi
  deriving DecidableEq, Repr

/-- One word of a 64-bit register: LO is bits [31:0], HI bits [63:32] (R47). -/
def half (h : Half) (x : DWord) : Word :=
  match h with
  | .lo => x.extractLsb' 0 32
  | .hi => x.extractLsb' 32 32

/-- A host write to one word changes only those 32 bits (R47). -/
def withHalf (h : Half) (v : Word) (x : DWord) : DWord :=
  match h with
  | .lo => half .hi x ++ v
  | .hi => v ++ half .lo x

end Sys2Proof.Machine
end

