-- ==== Sys2Proof/Machine/Flags.lean ====
section
/-! DEFINITION. The STATUS bits and their writers (R25, R50), and the interrupt output (R51, R286). IMC-CORE has no
arithmetic flags. -/

namespace Sys2Proof.Machine

/-- STATUS as a word: BUSY 0, DONE 1, ERR 2, UR 3, OVR 4, reserved bits 0 (R25). -/
def statusWord (f : Status) : Word :=
  (0 : BitVec 27) ++ BitVec.ofBool f.ovr ++ BitVec.ofBool f.ur ++ BitVec.ofBool f.err ++
    BitVec.ofBool f.done ++ BitVec.ofBool f.busy

/-- Acceptance of a command: BUSY set, DONE and ERR cleared, UR and OVR kept (R121). -/
def Status.accepted (f : Status) : Status := { f with busy := true, done := false, err := false }

/-- Completion without error: BUSY cleared, DONE set (R123). -/
def Status.completed (f : Status) : Status := { f with busy := false, done := true }

/-- Completion with an error: ERR set too (R282). -/
def Status.failed (f : Status) : Status := { f with busy := false, done := true, err := true }

/-- A host write to STATUS: writing 1 clears DONE, ERR, UR or OVR; BUSY is read-only (R23, R25). -/
def Status.acknowledged (f : Status) (v : Word) : Status :=
  { f with
    done := f.done && !v.getLsbD 1
    err := f.err && !v.getLsbD 2
    ur := f.ur && !v.getLsbD 3
    ovr := f.ovr && !v.getLsbD 4 }

/-- The sticky soft failure flag of the reader (R25, R141). -/
def setUr (s : State) : State := { s with st := { s.st with ur := true } }

/-- The sticky flag of a dropped host write (R25, R320). -/
def setOvr (s : State) : State := { s with st := { s.st with ovr := true } }

/-- The interrupt output: a level, IE and DONE (R51, R286). -/
def irq (s : State) : Bool := s.ctrlIe && s.st.done

end Sys2Proof.Machine
end

