-- ==== Sys2Proof/Machine/Ops.lean ====
section
/-! DEFINITION. The shared operations: LMEM (R10, R60), the errors and trap entry with the acknowledgement beside it
(R12, R280 to R285), acceptance and completion of a command (R121, R123), and the cursor primitives ReadBits, WriteBits
and Flush (R141, R145, R146). -/

namespace Sys2Proof.Machine

/-! ## Memory: the bytes that hold a value, by strictly rising address -/

/-- The canonical form of LMEM's list: addresses strictly rising. An unlisted byte holds no value (R52), so no entry
can equal what an unlisted address reads as (log 2). -/
abbrev Memory.wf (m : List Host.Cell) : Prop := m.Pairwise (fun x y => x.1 < y.1)

/-- The byte at an address, none where it holds no value (R52). -/
def Memory.read? : List Host.Cell → Nat → Option Byte
  | [], _ => none
  | c :: m, a => if c.1 = a then some c.2 else Memory.read? m a

/-- Store one byte, keeping the canonical form. -/
def Memory.write : List Host.Cell → Nat → Byte → List Host.Cell
  | [], a, v => [(a, v)]
  | c :: m, a, v =>
    if a < c.1 then (a, v) :: c :: m
    else if a = c.1 then (a, v) :: m
    else c :: Memory.write m a v

/-- Store bytes at rising addresses from `a`. -/
def Memory.writeList : List Host.Cell → Nat → List Byte → List Host.Cell
  | m, _, [] => m
  | m, a, v :: vs => Memory.writeList (Memory.write m a v) (a + 1) vs

/-- `MemRead(addr, 1)` of R10. A byte that holds no value reads as a free value (R52's draw, log 2). -/
def memRead (s : State) (a : Nat) : Byte := (Memory.read? s.lmem a).getD (Config.freeByte s.draws a)

/-- `MemWrite(addr, 1, v)` of R10. -/
def memWrite (s : State) (a : Nat) (v : Byte) : State := { s with lmem := Memory.write s.lmem a v }

/-- The bytes of a region, in address order. -/
def regionBytes (s : State) (r : Region) : List Byte :=
  (List.range r.len.toNat).map fun i => memRead s (r.base.toNat + i)

/-! ## Errors and trap entry -/

/-- The error kinds (R280). -/
inductive ErrorKind where
  | badData
  | emptyInput
  | invalidLut
  | codeTooLong
  | encodingError
  | outOfRange
  | badCommand
  | quantRange
  | overlap
  deriving DecidableEq, Repr

/-- The numeric code of an error (R280). -/
def ErrorKind.code : ErrorKind → Byte
  | .badData => 1
  | .emptyInput => 2
  | .invalidLut => 3
  | .codeTooLong => 4
  | .encodingError => 5
  | .outOfRange => 6
  | .badCommand => 7
  | .quantRange => 8
  | .overlap => 9

/-- Completion without error (R123): BUSY 0, DONE 1, the latch empty. The draw counter moves on (log 1). -/
def complete (s : State) : State :=
  { s with st := s.st.completed, latch := none, draws := s.draws + 1 }

/-- Trap entry, `raise E(info)` (R12, R282): ERRCODE, ERRINFO and ERR are written, BUSY 0, DONE 1, the latch empty. No
other state changes. The draw counter moves on (log 1). -/
def trapEntry (e : ErrorKind) (info : DWord) (s : State) : State :=
  { s with
    errCode := e.code
    errInfo := info
    st := s.st.failed
    latch := none
    draws := s.draws + 1 }

/-- The host's acknowledgement, in place of a trap return (R285): a write to STATUS, W1C per bit (R25). ERRCODE and
ERRINFO keep their values. -/
def acknowledge (v : Word) (s : State) : State := { s with st := s.st.acknowledged v }

/-- Acceptance of a command word (R121). -/
def acceptCommand (w : Word) (s : State) : State :=
  { s with
    cmd := w
    latch := some w
    st := s.st.accepted
    errCode := 0
    errInfo := 0 }

/-! ## A command's run -/

/-- Where a command's pseudocode stands: going on with a value, or at a `raise` (R12). The state of a raise is the
state before trap entry: what was written before the raise stays written (R282). -/
inductive Run (α : Type) where
  | ok (a : α) (s : State)
  | raised (e : ErrorKind) (info : DWord) (s : State)
  deriving DecidableEq, Repr

/-- Go on in program order; nothing after a raise has effect (R282). -/
def Run.andThen {α β : Type} (r : Run α) (k : α → State → Run β) : Run β :=
  match r with
  | .ok a s => k a s
  | .raised e info s => .raised e info s

/-- The end of a command: completion (R123) or trap entry (R282). -/
def Run.close (r : Run Unit) : State :=
  match r with
  | .ok _ s => complete s
  | .raised e info s => trapEntry e info s

/-- A command's outcome: always a next state. -/
def finish (r : Run Unit) : Host.Outcome State Fault Refusal := .next r.close

/-- The outcome of a reader command: R10 requires the reader's region to lie in LMEM (log 10). -/
def finishReader (s : State) (r : Run Unit) : Host.Outcome State Fault Refusal :=
  if readerOk s then finish r else .fault .readerOutsideLmem

/-- The outcome of a writer command: R10 requires the writer's region to lie in LMEM (log 10). -/
def finishWriter (s : State) (r : Run Unit) : Host.Outcome State Fault Refusal :=
  if writerOk s then finish r else .fault .writerOutsideLmem

/-- The region check (R66). -/
def requireValid (r : Region) (s : State) : Run Unit :=
  if r.valid s.params.lmemSize then .ok () s else .raised .outOfRange r.endSum s

/-- The overlap check (R67). -/
def requireDisjoint (a b : Region) (s : State) : Run Unit :=
  if a.overlaps b then .raised .overlap 0 s else .ok () s

/-- BadCommand with the word as info (R104, R125). -/
def badCommand (w : Word) (s : State) : Run Unit := .raised .badCommand (w.zeroExtend 64) s

/-! ## The reader (R141) -/

/-- One turn of ReadBits' loop: the next bit, bit 7 of a byte first, or a padding 0 past the end with UR set and
PADBITS counted. R_POS advances either way, modulo 2^64 (R141). -/
def readBit (s : State) : Bool × State :=
  let byte := s.rd.pos.toNat / 8
  if byte < s.rd.len.toNat then
    ((memRead s (s.rd.base.toNat + byte)).getLsbD (7 - s.rd.pos.toNat % 8),
      { s with rd := { s.rd with pos := s.rd.pos + 1 } })
  else
    (false, setUr { s with rd := { s.rd with pos := s.rd.pos + 1, pad := s.rd.pad + 1 } })

/-- ReadBits' loop: `n` more bits shifted into `v` (R141). -/
def readBitsFrom : Nat → DWord → State → DWord × State
  | 0, v, s => (v, s)
  | n + 1, v, s =>
    match readBit s with
    | (b, t) => readBitsFrom n ((v <<< 1) ||| (BitVec.ofBool b).zeroExtend 64) t

/-- `ReadBits(n)` (R141): the first bit read is the most significant of the n. -/
def readBits (n : Nat) (s : State) : DWord × State := readBitsFrom n 0 s

/-- Several fields read one after the other: their widths in order (R141, R61). -/
def readFields : List Nat → State → List DWord × State
  | [], s => ([], s)
  | n :: ns, s =>
    match readBits n s with
    | (v, t) =>
      match readFields ns t with
      | (vs, u) => (v :: vs, u)

/-! ## The writer (R145, R146) -/

/-- One turn of WriteBits' loop: the bit goes to position 7 - NACC of the partial byte. The bit that would complete a
byte that does not fit is refused (R145). -/
def writeBit (b : Bool) (s : State) : Run Unit :=
  if s.wr.nacc = 7 ∧ s.wr.bytes = s.wr.cap then .raised .outOfRange (writerRegion s).endSum s
  else
    let acc := s.wr.acc ||| ((BitVec.ofBool b).zeroExtend 8 <<< (7 - s.wr.nacc.val))
    if s.wr.nacc = 7 then
      .ok () { memWrite s (s.wr.base.toNat + s.wr.bytes.toNat) acc with
        wr := { s.wr with bytes := s.wr.bytes + 1, nacc := 0, acc := 0 } }
    else .ok () { s with wr := { s.wr with nacc := s.wr.nacc + 1, acc := acc } }

/-- `WriteBits(n, v)` (R145): the low n bits of v, most significant first. -/
def writeBits : Nat → DWord → State → Run Unit
  | 0, _, s => .ok () s
  | n + 1, v, s => (writeBit (v.getLsbD n) s).andThen fun _ t => writeBits n v t

/-- One field of a stream: a width in bits and a value (R61). -/
abbrev Field := Nat × DWord

/-- Several fields written one after the other (R145, R61). -/
def writeFields : List Field → State → Run Unit
  | [], s => .ok () s
  | f :: fs, s => (writeBits f.1 f.2 s).andThen fun _ t => writeFields fs t

/-- `Flush()` (R146): zero-pad and store the partial byte; nothing when NACC = 0. -/
def flush (s : State) : Run Unit :=
  if s.wr.nacc = 0 then .ok () s else writeBits (8 - s.wr.nacc.val) 0 s

/-- A byte as a field of 8 bits. -/
def byteField (b : Byte) : Field := (8, b.zeroExtend 64)

end Sys2Proof.Machine
end

