-- ==== Sys2Proof/Machine/BitCursor.lean ====
section
/-! DEFINITION. The bit-cursor family (41_bitcursor.md): BC_RINIT, BC_READ, BC_GETB, BC_WINIT, BC_WRITE, BC_FLUSH,
BC_PUTB. -/

namespace Sys2Proof.Machine

/-- BC_RINIT's run (R140). -/
def runBcRinit (s : State) : Run Unit :=
  (requireValid (srcRegion s) s).andThen fun _ s =>
    .ok () { s with rd := ⟨s.srcAddr, s.srcLen, 0, 0⟩, st := { s.st with ur := false } }

/-- BC_RINIT: point the reader at the source region (R140). -/
def execBcRinit (s : State) : Host.Outcome State Fault Refusal := finish (runBcRinit s)

/-- BC_READ's run for a legal count (R142). -/
def runBcRead (n : BitVec 8) (s : State) : Run Unit :=
  match readBits n.toNat s with
  | (v, t) => .ok () { t with rData := v }

/-- BC_READ n: read n bits into RDATA (R142). A term with n above 64 is the illegal word of R104 (d) (log 15). -/
def execBcRead (n : BitVec 8) (s : State) : Host.Outcome State Fault Refusal :=
  if countLegal n then finishReader s (runBcRead n s) else finish (badCommand (encode (.bcRead n)) s)

/-- BC_GETB's run (R143): DST_LEN bytes through the reader into the destination region. -/
def runBcGetb (s : State) : Run Unit :=
  (requireValid (dstRegion s) s).andThen fun _ s =>
    (requireDisjoint (readerRegion s) (dstRegion s) s).andThen fun _ s =>
      match readFields (List.replicate s.dstLen.toNat 8) s with
      | (vs, t) =>
        .ok () { t with lmem := Memory.writeList t.lmem t.dstAddr.toNat (vs.map (·.setWidth 8)) }

/-- BC_GETB: copy DST_LEN bytes from the reader to the destination region (R143). -/
def execBcGetb (s : State) : Host.Outcome State Fault Refusal := finishReader s (runBcGetb s)

/-- BC_WINIT's run (R144). -/
def runBcWinit (s : State) : Run Unit :=
  (requireValid (dstRegion s) s).andThen fun _ s => .ok () { s with wr := ⟨s.dstAddr, s.dstLen, 0, 0, 0⟩ }

/-- BC_WINIT: point the writer at the destination region (R144). -/
def execBcWinit (s : State) : Host.Outcome State Fault Refusal := finish (runBcWinit s)

/-- BC_WRITE n: append the low n bits of WDATA (R147). A term with n above 64 is the illegal word of R104 (d)
(log 15). -/
def execBcWrite (n : BitVec 8) (s : State) : Host.Outcome State Fault Refusal :=
  if countLegal n then finishWriter s (writeBits n.toNat s.wData s)
  else finish (badCommand (encode (.bcWrite n)) s)

/-- BC_FLUSH: zero-pad and store the partial byte (R148). -/
def execBcFlush (s : State) : Host.Outcome State Fault Refusal := finishWriter s (flush s)

/-- BC_PUTB's run (R149): the source bytes through the writer, in address order (log 14). -/
def runBcPutb (s : State) : Run Unit :=
  (requireValid (srcRegion s) s).andThen fun _ s =>
    (requireDisjoint (srcRegion s) (writerRegion s) s).andThen fun _ s =>
      writeFields ((regionBytes s (srcRegion s)).map byteField) s

/-- BC_PUTB: append SRC_LEN bytes from the source region through the writer (R149). -/
def execBcPutb (s : State) : Host.Outcome State Fault Refusal := finishWriter s (runBcPutb s)

end Sys2Proof.Machine
end

