-- ==== Sys2Proof/Machine/Control.lean ====
section
/-! DEFINITION. The control family (40_command.md): NOP. -/

namespace Sys2Proof.Machine

/-- NOP (R124): nothing but completion. -/
def execNop (s : State) : Host.Outcome State Fault Refusal := finish (.ok () s)

end Sys2Proof.Machine
end

