-- ==== Sys2Proof/Machine/Delta.lean ====
section
/-! DEFINITION. The delta family (45_delta.md): DELTA_ENC, DELTA_DEC. -/

namespace Sys2Proof.Machine

/-! ## The record (R259) -/

/-- The difference of byte i from the byte CH_LAG before it, as an integer (R259). -/
def deltaAt (xs : List Byte) (i : Nat) : Int :=
  ((xs.getD i 0).toNat : Int) - ((xs.getD (i - Config.chLag) 0).toNat : Int)

/-- M[i]: verbatim for i < CH_LAG, else the magnitude of the difference (R259). -/
def magnitudeAt (xs : List Byte) (i : Nat) : Byte :=
  if i < Config.chLag then xs.getD i 0 else BitVec.ofNat 8 (deltaAt xs i).natAbs

/-- The magnitude stream M[0 .. N-1] (R259). -/
def magnitudes (xs : List Byte) : List Byte := (List.range xs.length).map (magnitudeAt xs)

/-- The sign bits G[0 .. N - CH_LAG - 1]: 1 for a negative difference (R259). -/
def signs (xs : List Byte) : List Bool :=
  (List.range (xs.length - Config.chLag)).map fun j => decide (deltaAt xs (j + Config.chLag) < 0)

/-- S: the sign stream's length in bytes (R259). -/
def signBytes (l : Nat) : Nat := (l + 7) / 8

/-- The delta-body record of a byte string, field by field (R259, R260). -/
def deltaFields (xs : List Byte) : List Field :=
  [(64, BitVec.ofNat 64 xs.length)] ++ (magnitudes xs).map byteField ++
    [(64, BitVec.ofNat 64 (signBytes (signs xs).length))] ++
    (signs xs).map (fun g => (1, (BitVec.ofBool g).zeroExtend 64)) ++
    [(8 * signBytes (signs xs).length - (signs xs).length, 0)]

/-! ## DELTA_ENC -/

/-- DELTA_ENC's run (R260): the record of the source bytes through the writer; DLEN only on success (log 14). -/
def runDeltaEnc (s : State) : Run Unit :=
  (requireValid (srcRegion s) s).andThen fun _ s =>
    (requireDisjoint (srcRegion s) (writerRegion s) s).andThen fun _ s =>
      (writeFields (deltaFields (regionBytes s (srcRegion s))) s).andThen fun _ t =>
        .ok () { t with dLen := s.srcLen.zeroExtend 64 }

/-- DELTA_ENC (R260). -/
def execDeltaEnc (s : State) : Host.Outcome State Fault Refusal := finishWriter s (runDeltaEnc s)

/-! ## DELTA_DEC -/

/-- The rebuilt value of index `i`, an exact integer: verbatim, or the byte CH_LAG before it plus or minus the
magnitude (R261). -/
def rebuildAt (ms : List Byte) (gs : List Bool) (xs : List Byte) (i : Nat) : Int :=
  if i < Config.chLag then ((ms.getD i 0).toNat : Int)
  else
    let p : Int := (xs.getD (i - Config.chLag) 0).toNat
    let m : Int := (ms.getD i 0).toNat
    if gs.getD (i - Config.chLag) false then p - m else p + m

/-- DELTA_DEC's last loop (R261): `k` more bytes; `xs` are the bytes rebuilt so far, in order. A value outside 0..255
raises BadData with its index. -/
def rebuildLoop (ms : List Byte) (gs : List Bool) (dst : Nat) : Nat → List Byte → State → Run Unit
  | 0, _, s => .ok () s
  | k + 1, xs, s =>
    let x := rebuildAt ms gs xs xs.length
    if x < 0 ∨ 255 < x then .raised .badData (BitVec.ofNat 64 xs.length) s
    else
      rebuildLoop ms gs dst k (xs ++ [BitVec.ofInt 8 x])
        (memWrite s (dst + xs.length) (BitVec.ofInt 8 x))

/-- DELTA_DEC after the magnitudes and S are read (R261): the checks on S, the sign stream, the rebuilt bytes. -/
def deltaDecTail (n : Nat) (ms : List Byte) (pad0 sLen : DWord) (t : State) : Run Unit :=
  if t.rd.pad ≠ pad0 then .raised .badData t.rd.pos t
  else if 8 * sLen.toNat < n - Config.chLag then .raised .badData sLen t
  else if 8 * t.rd.len.toNat < 8 * sLen.toNat + t.rd.pos.toNat then .raised .badData t.rd.pos t
  else
    match readFields (List.replicate (8 * sLen.toNat) 1) t with
    | (gs, u) =>
      (rebuildLoop ms (gs.map fun g => decide (g ≠ 0)) u.dstAddr.toNat n [] u).andThen fun _ v =>
        .ok () { v with dLen := BitVec.ofNat 64 n }

/-- DELTA_DEC's run (R261). OutOfRange(N) leaves R_POS past N, as R261's pseudocode says and R283's list does not (log
23). -/
def runDeltaDec (s : State) : Run Unit :=
  (requireValid (dstRegion s) s).andThen fun _ s =>
    (requireDisjoint (readerRegion s) (dstRegion s) s).andThen fun _ s =>
      match readBits 64 s with
      | (n, s1) =>
        if s1.rd.pad ≠ s.rd.pad then .raised .badData s1.rd.pos s1
        else if s1.dstLen.toNat < n.toNat then .raised .outOfRange n s1
        else
          match readFields (List.replicate n.toNat 8) s1 with
          | (ms, s2) =>
            match readBits 64 s2 with
            | (sLen, t) => deltaDecTail n.toNat (ms.map (·.setWidth 8)) s.rd.pad sLen t

/-- DELTA_DEC (R261). -/
def execDeltaDec (s : State) : Host.Outcome State Fault Refusal := finishReader s (runDeltaDec s)

end Sys2Proof.Machine
end

