-- ==== Sys2Proof/Machine/Huffman.lean ====
section
/-! DEFINITION. The Huffman family (42_huffman.md): HUF_BUILD, HUF_PACK, HUF_META_WR, HUF_META_RD, HUF_DEC. -/

namespace Sys2Proof.Machine

/-! ## Building the code (R170 to R175) -/

/-- A tree of the arena (R171): a leaf with its symbol, or an internal node with its two children. -/
inductive HufTree where
  | leaf (sym : Byte)
  | node (left right : HufTree)
  deriving DecidableEq, Repr

/-- A node of the arena: weight, arrival number and tree (R171). -/
structure ArenaNode where
  w : Nat
  arr : Nat
  tree : HufTree
  deriving DecidableEq, Repr

/-- `a` comes before `b` in the order (w, arr): smaller weight first, then smaller arrival number (R171). -/
def arenaBefore (a b : ArenaNode) : Bool := decide (a.w < b.w ∨ (a.w = b.w ∧ a.arr < b.arr))

/-- The least of `x` and the nodes of a list, and the others (R171). -/
def extractLeast : ArenaNode → List ArenaNode → ArenaNode × List ArenaNode
  | x, [] => (x, [])
  | x, y :: ys =>
    if arenaBefore y x then
      match extractLeast y ys with
      | (m, rest) => (m, x :: rest)
    else
      match extractLeast x ys with
      | (m, rest) => (m, y :: rest)

/-- The internal node over two extracted nodes: the first extracted is the left child (R171). -/
def mergeNodes (a b : ArenaNode) (arr : Nat) : ArenaNode := ⟨a.w + b.w, arr, .node a.tree b.tree⟩

/-- BuildTree's loop (R171), `k` merges at most: the arena is `x :: rest`, and `arr` is the next arrival number. -/
def mergeLoop : Nat → ArenaNode → List ArenaNode → Nat → HufTree
  | 0, x, _, _ => x.tree
  | k + 1, x, rest, arr =>
    match extractLeast x rest with
    | (a, []) => a.tree
    | (a, y :: ys) =>
      match extractLeast y ys with
      | (b, others) => mergeLoop k (mergeNodes a b arr) others (arr + 1)

/-- The symbols that occur, ascending, with their counts (R171). -/
def occurring (h : Byte → Nat) : List (Byte × Nat) :=
  ((List.range 256).map fun s => (BitVec.ofNat 8 s, h (BitVec.ofNat 8 s))).filter fun p => decide (0 < p.2)

/-- The leaves of the arena: one per occurring symbol, in ascending symbol order, arriving in that order (R171). -/
def arenaLeaves (h : Byte → Nat) : List ArenaNode :=
  (occurring h).mapIdx fun i p => ⟨p.2, i, .leaf p.1⟩

/-- `BuildTree(H)` (R171), none when no symbol occurs. -/
def buildTree (h : Byte → Nat) : Option HufTree :=
  match arenaLeaves h with
  | [] => none
  | x :: rest => some (mergeLoop rest.length x rest (rest.length + 1))

/-- A symbol with its codeword: an unsigned value and a length (R172). -/
structure SymCode where
  sym : Byte
  code : Nat
  len : Nat
  deriving DecidableEq, Repr

/-- `Codewords(root)` (R172): 0 for a left branch, 1 for a right branch, the first branch most significant. The leaves
come out left to right. -/
def codewords : HufTree → Nat → Nat → List SymCode
  | .leaf s, code, len => [⟨s, code, len⟩]
  | .node l r, code, len => codewords l (2 * code) (len + 1) ++ codewords r (2 * code + 1) (len + 1)

/-- D: the greatest leaf depth (R173). -/
def maxDepth (cs : List SymCode) : Nat := cs.foldr (fun c d => max c.len d) 0

/-- The LUT entry of a leaf: its value left-justified to D bits (R174). -/
def lutEntryOf (d : Nat) (c : SymCode) : LutEntry :=
  ⟨c.sym, BitVec.ofNat 8 c.len, BitVec.ofNat 32 (c.code * 2 ^ (d - c.len))⟩

/-- Insert an entry in ascending order of VAL (R174). -/
def insertByVal (e : LutEntry) : List LutEntry → List LutEntry
  | [] => [e]
  | x :: xs => if e.val.toNat ≤ x.val.toNat then e :: x :: xs else x :: insertByVal e xs

/-- `FlattenLUT(code, len, D)` (R174): one entry per leaf, ascending in VAL. -/
def flattenLut (d : Nat) (cs : List SymCode) : List LutEntry :=
  (cs.map (lutEntryOf d)).foldr insertByVal []

/-- CWTAB[s] after a build: the symbol's codeword, or (0, 0) where it does not occur (R170). -/
def codewordOf (cs : List SymCode) (s : Byte) : Codeword :=
  match cs.find? (fun c => c.sym == s) with
  | some c => ⟨BitVec.ofNat 32 c.code, BitVec.ofNat 8 c.len⟩
  | none => ⟨0, 0⟩

/-- The histogram of a byte string (R170). -/
def histogram (xs : List Byte) : Vector Word 256 :=
  tabulate fun i => BitVec.ofNat 32 (xs.count (BitVec.ofNat 8 i.val))

/-- Entries 0 to k - 1 of the LUT replaced, the others unchanged (R170, R180). -/
def fillLut (old : Vector LutEntry 256) (es : List LutEntry) : Vector LutEntry 256 :=
  tabulate fun i => es.getD i.val old[i.val]

/-- HUF_BUILD once the histogram stands (R170): EmptyInput, CodeTooLong, or the tables. -/
def buildCode (xs : List Byte) (s : State) : Run Unit :=
  let k := (occurring fun b => xs.count b).length
  match buildTree (fun b => xs.count b) with
  | none => .raised .emptyInput (BitVec.ofNat 64 k) s
  | some root =>
    if k < 2 then .raised .emptyInput (BitVec.ofNat 64 k) s
    else
      let cs := codewords root 0 0
      let d := maxDepth cs
      if 32 ≤ d then .raised .codeTooLong (BitVec.ofNat 64 d) s
      else
        .ok () { s with
          cwtab := tabulate fun i => codewordOf cs (BitVec.ofNat 8 i.val)
          lut := fillLut s.lut (flattenLut d cs)
          lutCnt := BitVec.ofNat 16 k
          maxLen := BitVec.ofNat 16 d
          count := BitVec.ofNat 64 xs.length }

/-- HUF_BUILD's run (R170). HIST is written before the code is built, so it stays written on an error. -/
def runHufBuild (s : State) : Run Unit :=
  (requireValid (srcRegion s) s).andThen fun _ s =>
    let xs := regionBytes s (srcRegion s)
    buildCode xs { s with hist := histogram xs }

/-- HUF_BUILD (R170). -/
def execHufBuild (s : State) : Host.Outcome State Fault Refusal := finish (runHufBuild s)

/-! ## Encoding (R176) -/

/-- The codeword of a byte in CWTAB. -/
def cwAt (t : Vector Codeword 256) (b : Byte) : Codeword := t[b.toNat]

/-- The codewords of the bytes as fields, up to the first byte without one, and that byte's index from `i`
(R176). -/
def packFields (t : Vector Codeword 256) : Nat → List Byte → List Field × Option Nat
  | _, [] => ([], none)
  | i, b :: bs =>
    if (cwAt t b).len = 0 then ([], some i)
    else
      match packFields t (i + 1) bs with
      | (fs, bad) => (((cwAt t b).len.toNat, (cwAt t b).val.zeroExtend 64) :: fs, bad)

/-- HUF_PACK's run (R176): the source bytes' codewords, BadData at the first byte without one, then the flush
(log 14). R321 (c) says that no writer command flushes; the flush is R176's own (log 24). -/
def runHufPack (s : State) : Run Unit :=
  (requireValid (srcRegion s) s).andThen fun _ s =>
    (requireDisjoint (srcRegion s) (writerRegion s) s).andThen fun _ s =>
      match packFields s.cwtab 0 (regionBytes s (srcRegion s)) with
      | (fs, bad) =>
        (writeFields fs s).andThen fun _ t =>
          match bad with
          | some i => .raised .badData (BitVec.ofNat 64 i) t
          | none => flush t

/-- HUF_PACK (R176). -/
def execHufPack (s : State) : Host.Outcome State Fault Refusal := finishWriter s (runHufPack s)

/-! ## The metadata block (R77, R177, R178, R180) -/

/-- The info of InvalidLUT: a check's letter in the top byte, and x (R178). -/
def lutInfo (letter x : Nat) : DWord := BitVec.ofNat 64 (letter * 2 ^ 56 + x)

/-- LUT[i], the entry at an index below 256. -/
def lutAt (t : Vector LutEntry 256) (i : Nat) : LutEntry := (t[i]?).getD ⟨0, 0, 0⟩

/-- The three fields of LUT entry i in the metadata block: sym, len, code (R77). -/
def entryFields (e : LutEntry) : List Field :=
  [(8, e.sym.zeroExtend 64), (8, e.len.zeroExtend 64), (32, e.val.zeroExtend 64)]

/-- The metadata block's fields (R77). -/
def metaFields (s : State) : List Field :=
  [(16, s.maxLen.zeroExtend 64), (64, s.count), (16, s.lutCnt.zeroExtend 64)] ++
    (List.range s.lutCnt.toNat).flatMap fun i => entryFields (lutAt s.lut i)

/-- HUF_META_WR's run (R177). -/
def runHufMetaWr (s : State) : Run Unit :=
  if 256 < s.lutCnt.toNat then .raised .invalidLut (lutInfo 2 s.lutCnt.toNat) s
  else writeFields (metaFields s) s

/-- HUF_META_WR (R177). -/
def execHufMetaWr (s : State) : Host.Outcome State Fault Refusal := finishWriter s (runHufMetaWr s)

/-- Checks (c) to (f) of R178 for the entry at index `i`: the info of the first that fails. -/
def entryFault (m : Nat) (e : Nat → LutEntry) (i : Nat) : Option DWord :=
  if i = 0 ∧ (e 0).val.toNat ≠ 0 then some (lutInfo 3 i)
  else if 0 < i ∧ (e i).val.toNat ≤ (e (i - 1)).val.toNat then some (lutInfo 4 i)
  else if (e i).len.toNat < 1 ∨ m < (e i).len.toNat then some (lutInfo 5 i)
  else if 2 ^ m ≤ (e i).val.toNat then some (lutInfo 6 i)
  else none

/-- Checks (c) to (f) of R178 over `k` entries from index `i`, in order. -/
def entriesFault (m : Nat) (e : Nat → LutEntry) : Nat → Nat → Option DWord
  | 0, _ => none
  | k + 1, i =>
    match entryFault m e i with
    | some info => some info
    | none => entriesFault m e k (i + 1)

/-- LUT validity (R178): none when valid, else the info of the first failing check. -/
def lutFault (m n : Nat) (e : Nat → LutEntry) : Option DWord :=
  if m < 1 ∨ Config.maxCwLen < m then some (lutInfo 1 m)
  else if n < 2 ∨ Config.lutEntries < n then some (lutInfo 2 n)
  else entriesFault m e n 0

/-- The entries of a metadata block from their fields: sym, len, code, repeated (R77). -/
def entriesOf : List DWord → List LutEntry
  | sym :: len :: val :: rest => ⟨sym.setWidth 8, len.setWidth 8, val.setWidth 32⟩ :: entriesOf rest
  | _ => []

/-- The widths of n entries (R77). -/
def entryWidths (n : Nat) : List Nat := (List.replicate n [8, 8, 32]).flatten

/-- HUF_META_RD after its header is read (R180): the count check, the entries, truncation, validity. InvalidLUT leaves
R_POS past what was read, as R180 says and R283's list does not (log 23). -/
def metaRdEntries (pad0 m c n : DWord) (s : State) : Run Unit :=
  if s.rd.pad ≠ pad0 then .raised .badData s.rd.pos s
  else if n.toNat < 2 ∨ 256 < n.toNat then .raised .invalidLut (lutInfo 2 n.toNat) s
  else
    match readFields (entryWidths n.toNat) s with
    | (vs, t) =>
      let es := entriesOf vs
      if t.rd.pad ≠ pad0 then .raised .badData t.rd.pos t
      else
        match lutFault m.toNat n.toNat (fun i => es.getD i ⟨0, 0, 0⟩) with
        | some info => .raised .invalidLut info t
        | none =>
          .ok () { t with
            maxLen := m.setWidth 16
            count := c
            lutCnt := n.setWidth 16
            lut := fillLut t.lut es }

/-- HUF_META_RD's run (R180). -/
def runHufMetaRd (s : State) : Run Unit :=
  match readBits 16 s with
  | (m, s1) =>
    match readBits 64 s1 with
    | (c, s2) =>
      match readBits 16 s2 with
      | (n, s3) => metaRdEntries s.rd.pad m c n s3

/-- HUF_META_RD (R180). -/
def execHufMetaRd (s : State) : Host.Outcome State Fault Refusal := finishReader s (runHufMetaRd s)

/-! ## Decoding (R179, R181) -/

/-- `lookup(w)` of R179, searching down from index `j`: the entry with the greatest index whose VAL is at
most w. -/
def lookupDown (e : Nat → LutEntry) (w : Nat) : Nat → LutEntry
  | 0 => e 0
  | j + 1 => if (e (j + 1)).val.toNat ≤ w then e (j + 1) else lookupDown e w j

/-- `lookup(w)` (R179). -/
def lookup (e : Nat → LutEntry) (n w : Nat) : LutEntry := lookupDown e w (n - 1)

/-- HUF_DEC's loop (R181): `k` more symbols, the next at address `a`; `w` is the window. -/
def decodeLoop : Nat → Nat → DWord → State → State
  | 0, _, _, s => s
  | k + 1, a, w, s =>
    let e := lookup (lutAt s.lut) s.lutCnt.toNat w.toNat
    match readBits e.len.toNat (memWrite s a e.sym) with
    | (v, t) =>
      decodeLoop k (a + 1) (((w <<< e.len.toNat) ||| v) &&& BitVec.ofNat 64 (2 ^ s.maxLen.toNat - 1)) t

/-- HUF_DEC's run (R181): the LUT, the region, COUNT, the overlap; then the window and the loop. -/
def runHufDec (s : State) : Run Unit :=
  match lutFault s.maxLen.toNat s.lutCnt.toNat (lutAt s.lut) with
  | some info => .raised .invalidLut info s
  | none =>
    (requireValid (dstRegion s) s).andThen fun _ s =>
      if s.dstLen.toNat < s.count.toNat then .raised .outOfRange s.count s
      else
        (requireDisjoint (readerRegion s) (dstRegion s) s).andThen fun _ s =>
          match readBits s.maxLen.toNat s with
          | (w, t) => .ok () (decodeLoop t.count.toNat t.dstAddr.toNat w t)

/-- HUF_DEC (R181). -/
def execHufDec (s : State) : Host.Outcome State Fault Refusal := finishReader s (runHufDec s)

end Sys2Proof.Machine
end

