-- ==== Sys2Proof/Machine/Transform.lean ====
section
/-! DEFINITION. The transform family (43_transform.md): QSCALE, DCT_FWD, DCT_INV, QUANT, DEQUANT. The pattern of a NaN
result is a free value per operation of the command (R219, I3, log 4). -/

namespace Sys2Proof.Machine

/-- The pattern of a NaN result of the command's operation number `site` (R219, I3): a quiet NaN whose sign and payload
are free (log 4). -/
def nanAt (draws site : Nat) : DWord := F64.quietNan (Config.freeNan draws site)

/-- The terms `m + 1 .. 7` of one element of MatMul added to `acc`, left to right (R213). `site` numbers the
element's operations. -/
def dotFrom (draws site : Nat) (a b : Fin 8 → DWord) : List (Fin 8) → DWord → DWord
  | [], acc => acc
  | m :: ms, acc =>
    dotFrom draws site a b ms
      (F64.add (nanAt draws (site + 2 * m.val + 1)) acc
        (F64.mul (nanAt draws (site + 2 * m.val)) (a m) (b m)))

/-- One element of MatMul: the product at m = 0, then the terms m = 1 .. 7 in turn (R213). -/
def dot8 (draws site : Nat) (a b : Fin 8 → DWord) : DWord :=
  dotFrom draws site a b [1, 2, 3, 4, 5, 6, 7] (F64.mul (nanAt draws site) (a 0) (b 0))

/-- `MatMul(A, B)` of R213: a fresh 8×8 array. `base` numbers the product's operations. -/
def matMul (draws base : Nat) (a b : Vector DWord 64) : Vector DWord 64 :=
  tabulate fun k =>
    dot8 draws (base + 16 * k.val) (fun m => at8 a ⟨k.val / 8, by omega⟩ m)
      (fun m => at8 b m ⟨k.val % 8, by omega⟩)

/-- The forward transform `(T · B) · Tᵗ` (R215). -/
def forwardExact (draws : Nat) (b : Vector DWord 64) : Vector DWord 64 :=
  matMul draws 1024 (matMul draws 0 basisT b) (transpose8 basisT)

/-- The inverse transform `(Tᵗ · B) · T` (R216). -/
def inverseExact (draws : Nat) (b : Vector DWord 64) : Vector DWord 64 :=
  matMul draws 1024 (matMul draws 0 (transpose8 basisT) b) basisT

/-- Every element is finite and of magnitude at most `limit`: the blocks for which a butterfly's error bound holds
(R220, log 6). -/
def blockWithin (limit : ℚ) (b : Vector DWord 64) : Bool :=
  (List.finRange 64).all fun k => F64.isFinite b[k.val] && decide (|F64.value b[k.val]| ≤ limit)

/-- A pattern within the error bound of a finite exact one (R220, I11). -/
def withinBound (bound : ℚ) (exact x : DWord) : Bool :=
  F64.isFinite x && decide (|F64.value x - F64.value exact| ≤ bound)

/-- One element of a butterfly's result (R220, I11, log 6): free, but within the error bound of the exact element where
the bound holds. -/
def boundedElement (bound : ℚ) (holds : Bool) (exact free : DWord) : DWord :=
  if holds && F64.isFinite exact && !withinBound bound exact free then exact else free

/-- A butterfly's result, from the exact result and the free one (R220, log 6). -/
def butterfly (limit bound : ℚ) (b exact free : Vector DWord 64) : Vector DWord 64 :=
  tabulate fun k => boundedElement bound (blockWithin limit b) exact[k.val] free[k.val]

/-- A transform's datapath: the exact result, or a butterfly's that is not bit-exact (R220, log 6). -/
def datapath (s : State) (inverse : Bool) (exact : Vector DWord 64) : Vector DWord 64 :=
  match s.params.dctImpl with
  | .exact => exact
  | .butterfly limit bound => butterfly limit bound s.blk exact (Config.dctButterfly inverse s.blk)

/-- DCT_FWD's datapath (R215, R220). -/
def forwardDct (s : State) : Vector DWord 64 := datapath s false (forwardExact s.draws s.blk)

/-- DCT_INV's datapath (R216, R220). -/
def inverseDct (s : State) : Vector DWord 64 := datapath s true (inverseExact s.draws s.blk)

/-- DCT_FWD (R215). -/
def execDctFwd (s : State) : Host.Outcome State Fault Refusal := finish (.ok () { s with blk := forwardDct s })

/-- DCT_INV (R216). -/
def execDctInv (s : State) : Host.Outcome State Fault Refusal := finish (.ok () { s with blk := inverseDct s })

/-- `rnd_ha(f64_div(BLK[k], QS[k]))` for every k (R217). -/
def quantised (s : State) : Vector DWord 64 :=
  tabulate fun k => F64.rndHa (F64.div (nanAt s.draws k.val) s.blk[k.val] s.qs[k.val])

/-- QUANT (R217). -/
def execQuant (s : State) : Host.Outcome State Fault Refusal := finish (.ok () { s with blk := quantised s })

/-- `rnd_ha(f64_mul(BLK[k], QS[k]))` for every k (R218). -/
def dequantised (s : State) : Vector DWord 64 :=
  tabulate fun k => F64.rndHa (F64.mul (nanAt s.draws k.val) s.blk[k.val] s.qs[k.val])

/-- DEQUANT (R218). -/
def execDequant (s : State) : Host.Outcome State Fault Refusal := finish (.ok () { s with blk := dequantised s })

/-- `t[k] = rnd_ha(f64_mul(f64_of_int(Q[k]), QUALITY))` (R214). -/
def scaledQ (s : State) : Vector DWord 64 :=
  tabulate fun k =>
    F64.rndHa (F64.mul (nanAt s.draws k.val) (F64.ofNat (s.params.qtable[k.val]).toNat) s.quality)

/-- QSCALE's run (R214): the first scaled entry that is not a finite value of at least 1 raises QuantRange. -/
def runQscale (s : State) : Run Unit :=
  match (List.finRange 64).find? (fun k => !F64.finiteGeOne (scaledQ s)[k.val]) with
  | some k => .raised .quantRange (BitVec.ofNat 64 k.val) s
  | none => .ok () { s with qs := scaledQ s }

/-- QSCALE (R214). -/
def execQscale (s : State) : Host.Outcome State Fault Refusal := finish (runQscale s)

end Sys2Proof.Machine
end

