-- ==== Sys2Proof/Machine/ZigzagRle.lean ====
section
/-! DEFINITION. The zig-zag and run-length family (44_zigzag_rle.md): ZZ_READ, ZZ_WRITE, RLE_PACK, RLE_UNPACK. -/

namespace Sys2Proof.Machine

/-! ## Zig-zag (R240 to R242) -/

/-- `SEQ[k] <- BLK[ZZ[k]]` for every k (R241): bit patterns are moved. -/
def zigzagOf (b : Vector DWord 64) : Vector DWord 64 := tabulate fun k => b[(zz k).val]

/-- `BLK[ZZ[k]] <- SEQ[k]` for every k (R242): BLK[i] is the element of SEQ at i's place in ZZ. -/
def unzigzagOf (q : Vector DWord 64) : Vector DWord 64 := tabulate fun i => q[(zzPlace i).val]

/-- ZZ_READ (R241). -/
def execZzRead (s : State) : Host.Outcome State Fault Refusal := finish (.ok () { s with seq := zigzagOf s.blk })

/-- ZZ_WRITE (R242). -/
def execZzWrite (s : State) : Host.Outcome State Fault Refusal :=
  finish (.ok () { s with blk := unzigzagOf s.seq })

/-! ## Run-length packing (R243, R244) -/

/-- A value RLE_PACK can code: a zero, or an integer in -32768..32767 (R244). -/
def rleCodable (x : DWord) : Bool := F64.isZero x || F64.isInt16 x

/-- `sint_to_bits16` of R244: the integer value modulo 2^16. -/
def int16Bits (x : DWord) : BitVec 16 := BitVec.ofInt 16 ((F64.toInt? x).getD 0)

/-- One 24-bit pair: skip, then value (R243). -/
def pairFields (skip : Nat) (value : BitVec 16) : List Field :=
  [(8, BitVec.ofNat 64 skip), (16, value.zeroExtend 64)]

/-- The pairs of a coefficient sequence, `run` zeros pending, closed by the sentinel pair (0, 0) (R243, R244). -/
def rleFields : Nat → List DWord → List Field
  | _, [] => pairFields 0 0
  | run, x :: xs =>
    if F64.isZero x then rleFields (run + 1) xs
    else pairFields run (int16Bits x) ++ rleFields 0 xs

/-- RLE_PACK's run (R244): every value is checked before any write. -/
def runRlePack (s : State) : Run Unit :=
  match (List.finRange 64).find? (fun k => !rleCodable s.seq[k.val]) with
  | some k => .raised .outOfRange (BitVec.ofNat 64 k.val) s
  | none => writeFields (rleFields 0 s.seq.toList) s

/-- RLE_PACK (R244). -/
def execRlePack (s : State) : Host.Outcome State Fault Refusal := finishWriter s (runRlePack s)

/-! ## Run-length unpacking (R245) -/

/-- RLE_UNPACK's loop (R245): `S` so far and the next index `k`. The bound 65 of R126 is never exhausted: each pair
but the sentinel fills a slot, and past 64 slots any data pair raises (log 16). -/
def unpackLoop : Nat → DWord → Vector DWord 64 → Nat → State → Run (Vector DWord 64)
  | 0, _, _, _, s => .raised .badData s.rd.pos s
  | fuel + 1, pad0, S, k, s =>
    match readBits 8 s with
    | (skip, s1) =>
      match readBits 16 s1 with
      | (v, t) =>
        if t.rd.pad ≠ pad0 then .raised .badData t.rd.pos t
        else if skip = 0 ∧ v = 0 then .ok S t
        else if v = 0 then .raised .badData t.rd.pos t
        else if 63 < k + skip.toNat then .raised .badData t.rd.pos t
        else
          unpackLoop fuel pad0
            (S.setIfInBounds (k + skip.toNat) (F64.ofInt (v.setWidth 16).toInt)) (k + skip.toNat + 1) t

/-- RLE_UNPACK's run (R245): SEQ is written only on success. -/
def runRleUnpack (s : State) : Run Unit :=
  (unpackLoop 65 s.rd.pad (Vector.replicate 64 0) 0 s).andThen fun S t => .ok () { t with seq := S }

/-- RLE_UNPACK (R245). -/
def execRleUnpack (s : State) : Host.Outcome State Fault Refusal := finishReader s (runRleUnpack s)

end Sys2Proof.Machine
end

