-- ==== Sys2Proof/Machine/Dispatch.lean ====
section
/-! DEFINITION. Which meaning each command has (R103, R125): one arm per constructor of Instr. -/

namespace Sys2Proof.Machine

def exec (i : Instr) (s : State) : Host.Outcome State Fault Refusal :=
  match i with
  | .nop => Sys2Proof.Machine.execNop s
  | .bcRinit => Sys2Proof.Machine.execBcRinit s
  | .bcRead n => Sys2Proof.Machine.execBcRead n s
  | .bcWinit => Sys2Proof.Machine.execBcWinit s
  | .bcWrite n => Sys2Proof.Machine.execBcWrite n s
  | .bcFlush => Sys2Proof.Machine.execBcFlush s
  | .bcPutb => Sys2Proof.Machine.execBcPutb s
  | .bcGetb => Sys2Proof.Machine.execBcGetb s
  | .hufBuild => Sys2Proof.Machine.execHufBuild s
  | .hufPack => Sys2Proof.Machine.execHufPack s
  | .hufMetaWr => Sys2Proof.Machine.execHufMetaWr s
  | .hufMetaRd => Sys2Proof.Machine.execHufMetaRd s
  | .hufDec => Sys2Proof.Machine.execHufDec s
  | .qscale => Sys2Proof.Machine.execQscale s
  | .dctFwd => Sys2Proof.Machine.execDctFwd s
  | .dctInv => Sys2Proof.Machine.execDctInv s
  | .quant => Sys2Proof.Machine.execQuant s
  | .dequant => Sys2Proof.Machine.execDequant s
  | .zzRead => Sys2Proof.Machine.execZzRead s
  | .zzWrite => Sys2Proof.Machine.execZzWrite s
  | .rlePack => Sys2Proof.Machine.execRlePack s
  | .rleUnpack => Sys2Proof.Machine.execRleUnpack s
  | .deltaEnc => Sys2Proof.Machine.execDeltaEnc s
  | .deltaDec => Sys2Proof.Machine.execDeltaDec s

end Sys2Proof.Machine
end

