-- ==== Sys2Proof/Machine/HostPort.lean ====
section
/-! DEFINITION. The host port: the CSR map (R23), the access kinds, LMEM accesses (R60), the busy protocol (R121,
R320) and the soft reset (R311). -/

namespace Sys2Proof.Machine

/-! ## The CSR map (R23) -/

/-- The assigned words of the CSR space, by name (R23). -/
inductive Csr where
  | id
  | ctrl
  | status
  | errCode
  | errInfo (h : Half)
  | cmd
  | srcAddr
  | srcLen
  | dstAddr
  | dstLen
  | wData (h : Half)
  | rData (h : Half)
  | rBase
  | rLen
  | rPos (h : Half)
  | padBits (h : Half)
  | wBase
  | wCap
  | wBytes
  | wAcc
  | maxLen
  | lutCnt
  | count (h : Half)
  | quality (h : Half)
  | dLen (h : Half)
  | lutVal (i : Fin 256)
  | lutSymLen (i : Fin 256)
  | cwVal (i : Fin 256)
  | cwLen (i : Fin 256)
  | hist (i : Fin 256)
  | blk (k : Fin 64) (h : Half)
  | seq (k : Fin 64) (h : Half)
  | qs (k : Fin 64) (h : Half)
  | q (k : Fin 64)
  deriving DecidableEq, Repr

/-- The control words, 0x000 to 0x018 (R23). -/
def controlCsrs : List (Nat × Csr) :=
  [(0x000, .id), (0x004, .ctrl), (0x008, .status), (0x00C, .errCode), (0x010, .errInfo .lo),
   (0x014, .errInfo .hi), (0x018, .cmd)]

/-- The operand words, 0x020 to 0x03C (R23). -/
def operandCsrs : List (Nat × Csr) :=
  [(0x020, .srcAddr), (0x024, .srcLen), (0x028, .dstAddr), (0x02C, .dstLen), (0x030, .wData .lo),
   (0x034, .wData .hi), (0x038, .rData .lo), (0x03C, .rData .hi)]

/-- The cursor words, 0x040 to 0x064 (R23). -/
def cursorCsrs : List (Nat × Csr) :=
  [(0x040, .rBase), (0x044, .rLen), (0x048, .rPos .lo), (0x04C, .rPos .hi), (0x050, .padBits .lo),
   (0x054, .padBits .hi), (0x058, .wBase), (0x05C, .wCap), (0x060, .wBytes), (0x064, .wAcc)]

/-- The coder words, 0x070 to 0x08C (R23). -/
def coderCsrs : List (Nat × Csr) :=
  [(0x070, .maxLen), (0x074, .lutCnt), (0x078, .count .lo), (0x07C, .count .hi), (0x080, .quality .lo),
   (0x084, .quality .hi), (0x088, .dLen .lo), (0x08C, .dLen .hi)]

/-- The words below 0x800 (R23); every other offset there is reserved. -/
def namedCsrs : List (Nat × Csr) := controlCsrs ++ operandCsrs ++ cursorCsrs ++ coderCsrs

/-- Which half an offset names in an array of 64-bit elements (R47). -/
def halfAt (o : Nat) : Half := if o / 4 % 2 = 0 then .lo else .hi

/-- The word at an aligned byte offset; none for a reserved offset (R23). -/
def csrOf (off : CsrOffset) : Option Csr :=
  let o := off.toNat
  if o < 0x800 then (namedCsrs.find? fun p => p.1 == o).map Prod.snd
  else if o < 0x1000 then
    let i := Fin.ofNat 256 ((o - 0x800) / 8)
    some (match halfAt o with | .lo => .lutVal i | .hi => .lutSymLen i)
  else if o < 0x1800 then
    let i := Fin.ofNat 256 ((o - 0x1000) / 8)
    some (match halfAt o with | .lo => .cwVal i | .hi => .cwLen i)
  else if o < 0x1C00 then some (.hist (Fin.ofNat 256 ((o - 0x1800) / 4)))
  else if o < 0x2000 then none
  else if o < 0x2200 then some (.blk (Fin.ofNat 64 ((o - 0x2000) / 8)) (halfAt o))
  else if o < 0x2400 then some (.seq (Fin.ofNat 64 ((o - 0x2200) / 8)) (halfAt o))
  else if o < 0x2600 then some (.qs (Fin.ofNat 64 ((o - 0x2400) / 8)) (halfAt o))
  else if o < 0x2700 then some (.q (Fin.ofNat 64 ((o - 0x2600) / 4)))
  else none

/-- The offset of a half within an element (R47). -/
def halfOffset : Half → Nat
  | .lo => 0
  | .hi => 4

/-- A CSR's byte offset as a number (R23). -/
def csrOffsetNat : Csr → Nat
  | .id => 0x000
  | .ctrl => 0x004
  | .status => 0x008
  | .errCode => 0x00C
  | .errInfo h => 0x010 + halfOffset h
  | .cmd => 0x018
  | .srcAddr => 0x020
  | .srcLen => 0x024
  | .dstAddr => 0x028
  | .dstLen => 0x02C
  | .wData h => 0x030 + halfOffset h
  | .rData h => 0x038 + halfOffset h
  | .rBase => 0x040
  | .rLen => 0x044
  | .rPos h => 0x048 + halfOffset h
  | .padBits h => 0x050 + halfOffset h
  | .wBase => 0x058
  | .wCap => 0x05C
  | .wBytes => 0x060
  | .wAcc => 0x064
  | .maxLen => 0x070
  | .lutCnt => 0x074
  | .count h => 0x078 + halfOffset h
  | .quality h => 0x080 + halfOffset h
  | .dLen h => 0x088 + halfOffset h
  | .lutVal i => 0x800 + 8 * i.val
  | .lutSymLen i => 0x804 + 8 * i.val
  | .cwVal i => 0x1000 + 8 * i.val
  | .cwLen i => 0x1004 + 8 * i.val
  | .hist i => 0x1800 + 4 * i.val
  | .blk k h => 0x2000 + 8 * k.val + halfOffset h
  | .seq k h => 0x2200 + 8 * k.val + halfOffset h
  | .qs k h => 0x2400 + 8 * k.val + halfOffset h
  | .q k => 0x2600 + 4 * k.val

/-- A CSR's byte offset (R23). -/
def csrOffset (c : Csr) : CsrOffset := BitVec.ofNat 14 (csrOffsetNat c)

/-! ## Reads (R22 to R47) -/

/-- ID: the ASCII bytes "IMC1" (R22). -/
def idWord : Word := 0x494D4331

/-- W_ACC: NACC in [11:8], ACC in [7:0] (R34). -/
def wAccWord (w : Writer) : Word := (BitVec.ofNat 4 w.nacc.val ++ w.acc).zeroExtend 32

/-- The current value of a CSR word, reserved bits 0 (R23). SRST reads 0 (R24). -/
def csrValue (s : State) : Csr → Word
  | .id => idWord
  | .ctrl => (BitVec.ofBool s.ctrlIe ++ (0 : BitVec 1)).zeroExtend 32
  | .status => statusWord s.st
  | .errCode => s.errCode.zeroExtend 32
  | .errInfo h => half h s.errInfo
  | .cmd => s.cmd
  | .srcAddr => s.srcAddr
  | .srcLen => s.srcLen
  | .dstAddr => s.dstAddr
  | .dstLen => s.dstLen
  | .wData h => half h s.wData
  | .rData h => half h s.rData
  | .rBase => s.rd.base
  | .rLen => s.rd.len
  | .rPos h => half h s.rd.pos
  | .padBits h => half h s.rd.pad
  | .wBase => s.wr.base
  | .wCap => s.wr.cap
  | .wBytes => s.wr.bytes
  | .wAcc => wAccWord s.wr
  | .maxLen => s.maxLen.zeroExtend 32
  | .lutCnt => s.lutCnt.zeroExtend 32
  | .count h => half h s.count
  | .quality h => half h s.quality
  | .dLen h => half h s.dLen
  | .lutVal i => s.lut[i.val].val
  | .lutSymLen i => (s.lut[i.val].len ++ s.lut[i.val].sym).zeroExtend 32
  | .cwVal i => s.cwtab[i.val].val
  | .cwLen i => s.cwtab[i.val].len.zeroExtend 32
  | .hist i => s.hist[i.val]
  | .blk k h => half h s.blk[k.val]
  | .seq k h => half h s.seq[k.val]
  | .qs k h => half h s.qs[k.val]
  | .q k => s.params.qtable[k.val]

/-- The bits of a CSR word the map uses (R23, "width used"). -/
def csrMask : Csr → Word
  | .ctrl => 0x3
  | .status => 0x1F
  | .errCode => 0xFF
  | .wAcc => 0xFFF
  | .maxLen => 0xFFFF
  | .lutCnt => 0xFFFF
  | .lutSymLen _ => 0xFFFF
  | .cwLen _ => 0xFF
  | .id => 0xFFFFFFFF
  | .errInfo _ => 0xFFFFFFFF
  | .cmd => 0xFFFFFFFF
  | .srcAddr => 0xFFFFFFFF
  | .srcLen => 0xFFFFFFFF
  | .dstAddr => 0xFFFFFFFF
  | .dstLen => 0xFFFFFFFF
  | .wData _ => 0xFFFFFFFF
  | .rData _ => 0xFFFFFFFF
  | .rBase => 0xFFFFFFFF
  | .rLen => 0xFFFFFFFF
  | .rPos _ => 0xFFFFFFFF
  | .padBits _ => 0xFFFFFFFF
  | .wBase => 0xFFFFFFFF
  | .wCap => 0xFFFFFFFF
  | .wBytes => 0xFFFFFFFF
  | .count _ => 0xFFFFFFFF
  | .quality _ => 0xFFFFFFFF
  | .dLen _ => 0xFFFFFFFF
  | .lutVal _ => 0xFFFFFFFF
  | .cwVal _ => 0xFFFFFFFF
  | .hist _ => 0xFFFFFFFF
  | .blk _ _ => 0xFFFFFFFF
  | .seq _ _ => 0xFFFFFFFF
  | .qs _ _ => 0xFFFFFFFF
  | .q _ => 0xFFFFFFFF

/-- The CSRs whose value the host may rely on while BUSY = 1: ID, CTRL, STATUS, CMD, ERRCODE, ERRINFO (R320). -/
def stableWhileBusy : Csr → Bool
  | .id => true
  | .ctrl => true
  | .status => true
  | .cmd => true
  | .errCode => true
  | .errInfo _ => true
  | _ => false

/-- What a host read of a CSR word returns: its value, or, while BUSY = 1, a draw of the location's width for every
CSR but those of R320 (log 12). -/
def csrRead (s : State) (c : Csr) : Word :=
  if s.st.busy && !stableWhileBusy c then Config.freeWord s.draws &&& csrMask c else csrValue s c

/-- A host CSR read: the value goes to the host (R108); a reserved offset reads 0 (R23). No state of the core
changes (R65). -/
def hostCsrRead (off : CsrOffset) (s : State) : State :=
  { s with
    hostData := match csrOf off with
      | some c => csrRead s c
      | none => 0
    draws := s.draws + 1 }

/-- A host LMEM read (R60): 0x00 at or above LMEM_SIZE; a draw while BUSY = 1 (R320) or where LMEM holds no value
(R52). -/
def hostLmemRead (a : Nat) (s : State) : State :=
  { s with
    hostData :=
      if s.st.busy then (Config.freeByte s.draws a).zeroExtend 32
      else if a < s.params.lmemSize then (memRead s a).zeroExtend 32
      else 0
    draws := s.draws + 1 }

/-! ## Writes -/

/-- The soft reset (R311): every piece of the core's state takes the soft-reset column of R310; LUT, BLK, SEQ and LMEM
are preserved, and so is what is not the core's: the host's own state and the draw counter. -/
def softReset (s : State) : State :=
  { State.powerOn s.params with
    lut := s.lut
    blk := s.blk
    seq := s.seq
    lmem := s.lmem
    script := s.script
    sched := s.sched
    hostData := s.hostData
    draws := s.draws }

/-- A host write to CTRL (R24, R311): SRST resets, and then the write's IE bit is ignored; else IE takes bit 1. -/
def writeCtrl (v : Word) (s : State) : State :=
  if v.getLsbD 0 then softReset s else { s with ctrlIe := v.getLsbD 1 }

/-- A host write to CMD (R121): accepted when BUSY = 0, else dropped with OVR set. -/
def writeCmd (w : Word) (s : State) : State := if s.st.busy then setOvr s else acceptCommand w s

/-- What a host write stores in a CSR that is not CTRL, STATUS or CMD (R23): RW words take the value's used bits, RO
words ignore it. -/
def storeCsr (c : Csr) (v : Word) (s : State) : State :=
  match c with
  | .srcAddr => { s with srcAddr := v }
  | .srcLen => { s with srcLen := v }
  | .dstAddr => { s with dstAddr := v }
  | .dstLen => { s with dstLen := v }
  | .wData h => { s with wData := withHalf h v s.wData }
  | .maxLen => { s with maxLen := v.extractLsb' 0 16 }
  | .lutCnt => { s with lutCnt := v.extractLsb' 0 16 }
  | .count h => { s with count := withHalf h v s.count }
  | .quality h => { s with quality := withHalf h v s.quality }
  | .lutVal i => { s with lut := s.lut.set i.val { s.lut[i.val] with val := v } }
  | .lutSymLen i =>
    { s with
      lut := s.lut.set i.val { s.lut[i.val] with sym := v.extractLsb' 0 8, len := v.extractLsb' 8 8 } }
  | .blk k h => { s with blk := s.blk.set k.val (withHalf h v s.blk[k.val]) }
  | .seq k h => { s with seq := s.seq.set k.val (withHalf h v s.seq[k.val]) }
  | .id => s
  | .ctrl => s
  | .status => s
  | .errCode => s
  | .errInfo _ => s
  | .cmd => s
  | .rData _ => s
  | .rBase => s
  | .rLen => s
  | .rPos _ => s
  | .padBits _ => s
  | .wBase => s
  | .wCap => s
  | .wBytes => s
  | .wAcc => s
  | .dLen _ => s
  | .cwVal _ => s
  | .cwLen _ => s
  | .hist _ => s
  | .qs _ _ => s
  | .q _ => s

/-- A host write to a word that the busy protocol protects: dropped with OVR set while BUSY = 1 (R320, log 11); a
reserved offset ignores it (R23). -/
def writeProtected (c : Option Csr) (v : Word) (s : State) : State :=
  if s.st.busy then setOvr s
  else
    match c with
    | some c => storeCsr c v s
    | none => s

/-- A host CSR write (R23, R121, R311, R320). -/
def hostCsrWrite (off : CsrOffset) (v : Word) (s : State) : State :=
  match csrOf off with
  | some .ctrl => writeCtrl v s
  | some .status => acknowledge v s
  | some .cmd => writeCmd v s
  | c => writeProtected c v s

/-- A host LMEM write (R60, R320): dropped with OVR set while BUSY = 1; ignored at or above LMEM_SIZE. While BUSY = 1 a
write at or above LMEM_SIZE, which R60 has no effect of and R320 sets OVR for, sets OVR (log 22). -/
def hostLmemWrite (a : Nat) (v : Byte) (s : State) : State :=
  if s.st.busy then setOvr s
  else if a < s.params.lmemSize then memWrite s a v
  else s

/-! ## One transaction -/

/-- A CSR offset is naturally aligned (R62). -/
def aligned (off : CsrOffset) : Bool := decide (off.toNat % 4 = 0)

/-- One poll of `wait` (R108): a read of STATUS; the line stays until DONE reads 1. -/
def pollDone (s : State) : State :=
  { hostCsrRead (csrOffset .status) s with
    script := if s.st.done then s.script else .waitDone :: s.script }

/-- One transaction of the host (R108, R110), the head of its script already taken off. Misaligned and sub-word CSR
accesses are refused by name (R62, log 13). -/
def hostAct (op : HostOp) (s : State) : Host.Outcome State Fault Refusal :=
  match op with
  | .csrWrite off v =>
    if aligned off then .next (hostCsrWrite off v s) else .refused .misalignedCsrAccess
  | .csrRead off => if aligned off then .next (hostCsrRead off s) else .refused .misalignedCsrAccess
  | .csrNarrow _ _ => .refused .subWordCsrAccess
  | .lmemWrite a v => .next (hostLmemWrite a v s)
  | .lmemRead a => .next (hostLmemRead a s)
  | .waitDone => .next (pollDone s)

/-! ## Turns -/

/-- Which agent moves next: the schedule says; when it is empty, a latched command goes before the host, which is the
weak fairness of R122 (log 7). -/
def turn (s : State) : Agent :=
  match s.sched with
  | a :: _ => a
  | [] => if s.latch.isSome then .core else .host

/-- The state with that turn taken off the schedule. -/
def taken (s : State) : State := { s with sched := s.sched.tail }

/-- The host's step: its next transaction, or nothing when the script is at its end (log 9). -/
def hostStep (s : State) : Host.Outcome State Fault Refusal :=
  match s.script with
  | [] => .next s
  | op :: rest => hostAct op { s with script := rest }

end Sys2Proof.Machine
end

