-- ==== Sys2Proof/Machine/Step.lean ====
section
/-! DEFINITION. One step: a turn of the core or of the host (R20, R122), and how a command comes to be the one the next
step runs. -/

namespace Sys2Proof.Machine

/-- The core's step (R122, R125): the latched word is decoded; an illegal word raises BadCommand with the word as info,
and nothing else. With no command latched the core is idle (R310, log 9). -/
def coreStep (s : State) : Host.Outcome State Fault Refusal :=
  match s.latch with
  | none => .next s
  | some w =>
    match decode w with
    | .ok i => exec i s
    | .error _ => finish (badCommand w s)

/-- One step of the machine: the agent whose turn it is moves (R20, log 7). -/
def step (s : State) : Host.Outcome State Fault Refusal :=
  match turn s with
  | .core => coreStep (taken s)
  | .host => hostStep (taken s)

/-- The state in which the very next step runs the command word whose bits are `w`: the acceptance of a CMD write with
that word (R121), with the core's turn put first (log 8). Bits at or above `nbits` are 0. -/
def State.withFetchWord (s : State) (nbits w : Nat) : State :=
  { acceptCommand (BitVec.ofNat 32 (w % 2 ^ nbits)) s with sched := .core :: s.sched }

end Sys2Proof.Machine
end

