-- ==== Sys2Proof/Machine/HostScript.lean ====
section
/-! DEFINITION. The host script (R107 to R110): its lines and pseudo-instructions, and the transactions they expand
to. -/

namespace Sys2Proof.Machine

/-- A 64-bit register or array element, named without its half (R47, R109). -/
inductive WideCsr where
  | errInfo
  | wData
  | rData
  | rPos
  | padBits
  | count
  | quality
  | dLen
  | blk (k : Fin 64)
  | seq (k : Fin 64)
  | qs (k : Fin 64)
  deriving DecidableEq, Repr

/-- The word of a 64-bit register (R47). -/
def WideCsr.word (h : Half) : WideCsr → Csr
  | .errInfo => .errInfo h
  | .wData => .wData h
  | .rData => .rData h
  | .rPos => .rPos h
  | .padBits => .padBits h
  | .count => .count h
  | .quality => .quality h
  | .dLen => .dLen h
  | .blk k => .blk k h
  | .seq k => .seq k h
  | .qs k => .qs k h

/-- One line of a host script (R108), and the five pseudo-instructions of R109. The address of `mem` and `dump` is an
exact number (R7). -/
inductive ScriptLine where
  | wr (c : Csr) (v : Word)
  | rd (c : Csr)
  | cmd (i : Instr)
  | wait
  | mem (a : Nat) (bs : List Byte)
  | dump (a n : Nat)
  | run (i : Instr)
  | wr64 (c : WideCsr) (v : DWord)
  | wrf (c : WideCsr) (x : F64.Decimal)
  | src (a l : Word)
  | dst (a l : Word)
  deriving DecidableEq, Repr

/-- A CSR write by name (R108). -/
def writeOp (c : Csr) (v : Word) : HostOp := .csrWrite (csrOffset c) v

/-- The two CSR writes of a 64-bit register, low half first (R109). -/
def wideWriteOps (c : WideCsr) (v : DWord) : List HostOp :=
  [writeOp (c.word .lo) (half .lo v), writeOp (c.word .hi) (half .hi v)]

/-- The transactions of one line (R108, R109, R110). -/
def ScriptLine.expand : ScriptLine → List HostOp
  | .wr c v => [writeOp c v]
  | .rd c => [.csrRead (csrOffset c)]
  | .cmd i => [writeOp .cmd (encode i)]
  | .wait => [.waitDone]
  | .mem a bs => bs.mapIdx fun i b => .lmemWrite (a + i) b
  | .dump a n => (List.range n).map fun i => .lmemRead (a + i)
  | .run i => [writeOp .cmd (encode i), .waitDone]
  | .wr64 c v => wideWriteOps c v
  | .wrf c x => wideWriteOps c x.bits
  | .src a l => [writeOp .srcAddr a, writeOp .srcLen l]
  | .dst a l => [writeOp .dstAddr a, writeOp .dstLen l]

/-- The transactions of a script (R110). -/
def expandScript (ls : List ScriptLine) : List HostOp := ls.flatMap ScriptLine.expand

end Sys2Proof.Machine
end

