-- ==== Sys2Proof/Safety.lean ====
section
/-! DEFINITION. The terms in which claims about the machine are made: the invariant of its states, a safe state, the
bit string the reader sees and the writer has produced, and what each command may write (R102). -/

namespace Sys2Proof.Machine

/-! ## The invariant -/

/-- LMEM's list is canonical and lists only addresses that exist (R60). -/
def lmemOk (s : State) : Prop := Memory.wf s.lmem ∧ ∀ c ∈ s.lmem, c.1 < s.params.lmemSize

/-- The latch is present exactly while BUSY = 1 (R48 (a)); it holds the word CMD reads (R28, R121); and while BUSY = 1
acceptance's clears of DONE, ERR, ERRCODE and ERRINFO stand (R121, R123). -/
def latchOk (s : State) : Prop :=
  s.st.busy = s.latch.isSome ∧ (∀ w, s.latch = some w → s.cmd = w) ∧
    (s.st.busy = true → s.st.done = false ∧ s.st.err = false ∧ s.errCode = 0 ∧ s.errInfo = 0)

/-- The unused low bits of ACC are 0 (R34). -/
def accClean (w : Writer) : Prop := w.acc.toNat % 2 ^ (8 - w.nacc.val) = 0

/-- The reader's and the writer's regions lie in LMEM, 0 ≤ W_BYTES ≤ W_CAP, and the unused bits of ACC are 0 (R34,
R66). -/
def cursorsOk (s : State) : Prop := readerOk s = true ∧ writerOk s = true ∧ accClean s.wr

/-- ERRCODE holds 0 or the code of an error that some command raises: never 5, never 10 to 255 (R280, R221). -/
def errCodeOk (s : State) : Prop :=
  s.errCode = 0 ∨ ∃ e : ErrorKind, e ≠ .encodingError ∧ s.errCode = e.code

/-- Every QS[k] is a finite value of at least 1 (R217). -/
def qsOk (s : State) : Prop := ∀ k : Fin 64, F64.finiteGeOne s.qs[k.val] = true

/-- The invariant of the machine. -/
def Inv (s : State) : Prop :=
  s.params.legal ∧ lmemOk s ∧ latchOk s ∧ cursorsOk s ∧ errCodeOk s ∧ qsOk s

/-- A state whose step does not end in a model fault. -/
def Safe (s : State) : Prop := ∀ r, step s ≠ .fault r

/-- The host's next transaction is one the CSR interface can express (R62). -/
def hostOpOk : HostOp → Bool
  | .csrWrite off _ => aligned off
  | .csrRead off => aligned off
  | .csrNarrow _ _ => false
  | .lmemWrite _ _ => true
  | .lmemRead _ => true
  | .waitDone => true

/-- The words of the map with access kind RW that hold data (R23); CTRL, STATUS and CMD have rules of their own. -/
def Csr.writable : Csr → Bool
  | .srcAddr => true
  | .srcLen => true
  | .dstAddr => true
  | .dstLen => true
  | .wData _ => true
  | .maxLen => true
  | .lutCnt => true
  | .count _ => true
  | .quality _ => true
  | .lutVal _ => true
  | .lutSymLen _ => true
  | .blk _ _ => true
  | .seq _ _ => true
  | _ => false

/-! ## Bit strings (R61, R141, R145) -/

/-- The value of a bit string, first bit most significant (R61). -/
def valueOf (bs : List Bool) : Nat := bs.foldl (fun v b => 2 * v + b.toNat) 0

/-- The low n bits of a value, most significant first (R61, R145). -/
def bitsMsb (n : Nat) (v : DWord) : List Bool := (List.range n).map fun j => v.getLsbD (n - 1 - j)

/-- The bit string of a list of fields. -/
def fieldBits (fs : List Field) : List Bool := fs.flatMap fun f => bitsMsb f.1 f.2

/-- The bit position lies past the reader's region (R141). -/
def pastEnd (s : State) (p : DWord) : Bool := decide (s.rd.len.toNat ≤ p.toNat / 8)

/-- Bit `p` of the reader's region, bit 7 of byte R_BASE first; 0 past the end (R33, R141). -/
def streamBit (s : State) (p : DWord) : Bool :=
  if pastEnd s p then false
  else (memRead s (s.rd.base.toNat + p.toNat / 8)).getLsbD (7 - p.toNat % 8)

/-- The n bits of the reader's region from position `p` (R141). -/
def streamBits (s : State) (p : DWord) (n : Nat) : List Bool :=
  (List.range n).map fun j => streamBit s (p + BitVec.ofNat 64 j)

/-- How many of the next n bits lie past the end (R141). -/
def padCount (s : State) (n : Nat) : Nat :=
  (List.range n).countP fun j => pastEnd s (s.rd.pos + BitVec.ofNat 64 j)

/-- The state after the reader has moved over n bits: R_POS, PADBITS and UR, and nothing else (R141). -/
def afterRead (s : State) (n : Nat) : State :=
  { s with
    rd := { s.rd with
      pos := s.rd.pos + BitVec.ofNat 64 n
      pad := s.rd.pad + BitVec.ofNat 64 (padCount s n) }
    st := { s.st with ur := s.st.ur || decide (0 < padCount s n) } }

/-- How many bits the writer has taken since BC_WINIT (R34). -/
def writtenBits (w : Writer) : Nat := 8 * w.bytes.toNat + w.nacc.val

/-- Bit `p` of what the writer has produced: from LMEM for completed bytes, from ACC for the partial byte (R34). -/
def outBit (s : State) (p : Nat) : Option Bool :=
  if p / 8 < s.wr.bytes.toNat then
    (Memory.read? s.lmem (s.wr.base.toNat + p / 8)).map fun b => b.getLsbD (7 - p % 8)
  else if p < writtenBits s.wr then some (s.wr.acc.getLsbD (7 - p % 8))
  else none

/-- The writer has room for k more bits: the bytes they complete fit in W_CAP (R145). -/
def roomFor (w : Writer) (k : Nat) : Prop := (writtenBits w + k) / 8 ≤ w.cap.toNat

/-- `t` is `s` with the bits `bs` appended through the writer: the earlier bits stay, the new ones follow, only the
bytes the writer completed are stored, and no other state differs (R145). -/
def Appends (s t : State) (bs : List Bool) : Prop :=
  t = { s with lmem := t.lmem, wr := { t.wr with base := s.wr.base, cap := s.wr.cap } } ∧
    writtenBits t.wr = writtenBits s.wr + bs.length ∧
    (∀ p, p < writtenBits s.wr → outBit t p = outBit s p) ∧
    (∀ j (h : j < bs.length), outBit t (writtenBits s.wr + j) = some bs[j]) ∧
    (∀ a, ¬(s.wr.base.toNat + s.wr.bytes.toNat ≤ a ∧ a < s.wr.base.toNat + t.wr.bytes.toNat) →
      Memory.read? t.lmem a = Memory.read? s.lmem a) ∧
    accClean t.wr

/-! ## What a command may write (R102, R283) and raise (R280) -/

/-- The groups of state that R102 names as written by some command. STATUS' other bits, ERRCODE and ERRINFO are written
by every command's completion and are in no group. -/
inductive Group where
  /-- R_BASE, R_LEN -/
  | readerRegion
  /-- R_POS, PADBITS, STATUS.UR -/
  | readerPos
  | rData
  /-- W_BASE, W_CAP -/
  | writerRegion
  /-- W_BYTES, W_ACC -/
  | writerPos
  | lmem
  | hist
  | cwtab
  | lut
  | lutCnt
  | maxLen
  | count
  | qs
  | blk
  | seq
  | dLen
  deriving DecidableEq, Repr

/-- A group of state is the same in both states. -/
def Group.same (s t : State) : Group → Prop
  | .readerRegion => t.rd.base = s.rd.base ∧ t.rd.len = s.rd.len
  | .readerPos => t.rd.pos = s.rd.pos ∧ t.rd.pad = s.rd.pad ∧ t.st.ur = s.st.ur
  | .rData => t.rData = s.rData
  | .writerRegion => t.wr.base = s.wr.base ∧ t.wr.cap = s.wr.cap
  | .writerPos => t.wr.bytes = s.wr.bytes ∧ t.wr.nacc = s.wr.nacc ∧ t.wr.acc = s.wr.acc
  | .lmem => t.lmem = s.lmem
  | .hist => t.hist = s.hist
  | .cwtab => t.cwtab = s.cwtab
  | .lut => t.lut = s.lut
  | .lutCnt => t.lutCnt = s.lutCnt
  | .maxLen => t.maxLen = s.maxLen
  | .count => t.count = s.count
  | .qs => t.qs = s.qs
  | .blk => t.blk = s.blk
  | .seq => t.seq = s.seq
  | .dLen => t.dLen = s.dLen

/-- R102's column "writes". -/
def writes : Instr → List Group
  | .nop => []
  | .bcRinit => [.readerRegion, .readerPos]
  | .bcRead _ => [.rData, .readerPos]
  | .bcGetb => [.lmem, .readerPos]
  | .bcWinit => [.writerRegion, .writerPos]
  | .bcWrite _ => [.lmem, .writerPos]
  | .bcFlush => [.lmem, .writerPos]
  | .bcPutb => [.lmem, .writerPos]
  | .hufBuild => [.hist, .cwtab, .lut, .lutCnt, .maxLen, .count]
  | .hufPack => [.lmem, .writerPos]
  | .hufMetaWr => [.lmem, .writerPos]
  | .hufMetaRd => [.maxLen, .count, .lutCnt, .lut, .readerPos]
  | .hufDec => [.lmem, .readerPos]
  | .qscale => [.qs]
  | .dctFwd => [.blk]
  | .dctInv => [.blk]
  | .quant => [.blk]
  | .dequant => [.blk]
  | .zzRead => [.seq]
  | .zzWrite => [.blk]
  | .rlePack => [.lmem, .writerPos]
  | .rleUnpack => [.seq, .readerPos]
  | .deltaEnc => [.lmem, .writerPos, .dLen]
  | .deltaDec => [.lmem, .readerPos, .dLen]

/-- What a command that raises may have changed before it: R283's list, and R_POS where R180 and R261 advance it before
InvalidLUT and OutOfRange(N), which R283 leaves out (log 23). -/
def raisedWrites : Instr → List Group
  | .bcWrite _ => [.lmem, .writerPos]
  | .bcFlush => [.lmem, .writerPos]
  | .bcPutb => [.lmem, .writerPos]
  | .hufPack => [.lmem, .writerPos]
  | .hufMetaWr => [.lmem, .writerPos]
  | .rlePack => [.lmem, .writerPos]
  | .deltaEnc => [.lmem, .writerPos]
  | .hufBuild => [.hist]
  | .hufMetaRd => [.readerPos]
  | .rleUnpack => [.readerPos]
  | .deltaDec => [.lmem, .readerPos]
  | .nop => []
  | .bcRinit => []
  | .bcRead _ => []
  | .bcGetb => []
  | .bcWinit => []
  | .hufDec => []
  | .qscale => []
  | .dctFwd => []
  | .dctInv => []
  | .quant => []
  | .dequant => []
  | .zzRead => []
  | .zzWrite => []

/-- R280's column "raised by", read by command. BadCommand is the dispatch's; BC_READ and BC_WRITE raise it for a term
whose count is above 64 (log 15). -/
def raises : Instr → List ErrorKind
  | .nop => []
  | .bcRinit => [.outOfRange]
  | .bcRead _ => [.badCommand]
  | .bcGetb => [.outOfRange, .overlap]
  | .bcWinit => [.outOfRange]
  | .bcWrite _ => [.outOfRange, .badCommand]
  | .bcFlush => [.outOfRange]
  | .bcPutb => [.outOfRange, .overlap]
  | .hufBuild => [.outOfRange, .emptyInput, .codeTooLong]
  | .hufPack => [.outOfRange, .overlap, .badData]
  | .hufMetaWr => [.outOfRange, .invalidLut]
  | .hufMetaRd => [.badData, .invalidLut]
  | .hufDec => [.invalidLut, .outOfRange, .overlap]
  | .qscale => [.quantRange]
  | .dctFwd => []
  | .dctInv => []
  | .quant => []
  | .dequant => []
  | .zzRead => []
  | .zzWrite => []
  | .rlePack => [.outOfRange]
  | .rleUnpack => [.badData]
  | .deltaEnc => [.outOfRange, .overlap]
  | .deltaDec => [.outOfRange, .overlap, .badData]

/-- The region whose bytes a command may store to: the writer's, or the destination; none for a command that stores
nothing (R102, R66). -/
def storeRegion (s : State) : Instr → Option Region
  | .bcWrite _ => some (writerRegion s)
  | .bcFlush => some (writerRegion s)
  | .bcPutb => some (writerRegion s)
  | .hufPack => some (writerRegion s)
  | .hufMetaWr => some (writerRegion s)
  | .rlePack => some (writerRegion s)
  | .deltaEnc => some (writerRegion s)
  | .bcGetb => some (dstRegion s)
  | .hufDec => some (dstRegion s)
  | .deltaDec => some (dstRegion s)
  | .nop => none
  | .bcRinit => none
  | .bcRead _ => none
  | .bcWinit => none
  | .hufBuild => none
  | .hufMetaRd => none
  | .qscale => none
  | .dctFwd => none
  | .dctInv => none
  | .quant => none
  | .dequant => none
  | .zzRead => none
  | .zzWrite => none
  | .rleUnpack => none

/-- `t` differs from `s` at most in the groups listed, in the bits and the latch that every command's end writes (R102,
R123, R282), and in the model's draw counter (log 1). -/
def Framed (ws : List Group) (s t : State) : Prop :=
  (t.params = s.params ∧ t.ctrlIe = s.ctrlIe ∧ t.st.ovr = s.st.ovr ∧ t.cmd = s.cmd ∧ t.srcAddr = s.srcAddr ∧
    t.srcLen = s.srcLen ∧ t.dstAddr = s.dstAddr ∧ t.dstLen = s.dstLen ∧ t.wData = s.wData ∧
    t.quality = s.quality ∧ t.script = s.script ∧ t.sched = s.sched ∧ t.hostData = s.hostData) ∧
    ∀ g : Group, g ∉ ws → g.same s t

/-! ## Binary64 as rational numbers (R13, R212, R219) -/

/-- The value of a decimal number (R109). -/
def F64.Decimal.value (x : F64.Decimal) : ℚ := (if x.neg then -1 else 1) * (x.digits : ℚ) * (10 : ℚ) ^ x.exp10

/-- A quiet NaN: fraction bit 51 set (R219). -/
def F64.isQuietNan (x : DWord) : Bool := F64.isNan x && x.getLsbD 51

/-- The overflow threshold of binary64: halfway between the greatest finite value and 2^1024. -/
def F64.overflow : ℚ := (2 : ℚ) ^ (1024 : ℤ) - 2 ^ (970 : ℤ)

/-- `x` is `q` rounded to binary64, to nearest with ties to even: below the overflow threshold no finite pattern is
nearer, and where another value is equally near the significand of `x` is even; at or above it the infinity of q's
sign. A `q` that is not 0 keeps its sign. (R13, R219.) -/
def F64.RoundsTo (q : ℚ) (x : DWord) : Prop :=
  (q ≠ 0 → F64.neg x = decide (q < 0)) ∧
    (|q| < F64.overflow → F64.isFinite x = true ∧
      ∀ y : DWord, F64.isFinite y = true →
        |F64.value x - q| ≤ |F64.value y - q| ∧
          (|F64.value y - q| = |F64.value x - q| → F64.value y = F64.value x ∨ F64.mant x % 2 = 0)) ∧
    (F64.overflow ≤ |q| → x = F64.inf (decide (q < 0)))

/-- The accuracy property of a transform datapath that is not bit-exact (R220, I11): over a block of finite samples of
magnitude at most `limit`, every element of the result whose exact value is finite is finite too, and off by at most
`bound` (log 6). -/
def DctAccurate (limit bound : ℚ) (block exact result : Vector DWord 64) : Prop :=
  (∀ k : Fin 64, F64.isFinite block[k.val] = true ∧ |F64.value block[k.val]| ≤ limit) →
    ∀ k : Fin 64, F64.isFinite exact[k.val] = true →
      F64.isFinite result[k.val] = true ∧ |F64.value result[k.val] - F64.value exact[k.val]| ≤ bound

/-! ## Streams (R240, R243, R259) -/

/-- R240's generation of the zig-zag order: anti-diagonals 0 to 14, an odd one with the row increasing, an even one with
the row decreasing. -/
def diagonalOrder : List Nat :=
  (List.range 15).flatMap fun d =>
    let rows := (List.range 8).filter fun r => r ≤ d ∧ d - r < 8
    (if d % 2 = 1 then rows else rows.reverse).map fun r => 8 * r + (d - r)

/-- The zeros since the last non-zero coefficient before index k, or since the start (R243). -/
def zerosBefore (q : Vector DWord 64) (k : Nat) : Nat := ((q.toList.take k).reverse.takeWhile F64.isZero).length

/-- R243's stream of a coefficient sequence: for every non-zero coefficient its skip, 8 bits, and its value, 16 bits;
then the sentinel. -/
def rleStream (q : Vector DWord 64) : List Bool :=
  ((List.finRange 64).filter fun k => !F64.isZero q[k.val]).flatMap (fun k =>
    bitsMsb 8 (BitVec.ofNat 64 (zerosBefore q k.val)) ++ bitsMsb 16 ((int16Bits q[k.val]).zeroExtend 64)) ++
    List.replicate 24 false

/-- The skip of pair j of the stream at R_POS (R245). -/
def skipAt (s : State) (j : Nat) : Nat := valueOf (streamBits s (s.rd.pos + BitVec.ofNat 64 (24 * j)) 8)

/-- The 16 bits of value of pair j of the stream at R_POS (R245). -/
def pairAt (s : State) (j : Nat) : Nat := valueOf (streamBits s (s.rd.pos + BitVec.ofNat 64 (24 * j + 8)) 16)

/-- Where pair j places its value: the skips and the values before it, and its own skip (R245). -/
def placeAt (s : State) : Nat → Nat
  | 0 => skipAt s 0
  | j + 1 => placeAt s j + 1 + skipAt s (j + 1)

/-- Pair j is a data pair that fits: inside the stream, its value not 0, its place inside the block (R245). -/
def dataPair (s : State) (j : Nat) : Prop :=
  padCount s (24 * (j + 1)) = 0 ∧ pairAt s j ≠ 0 ∧ placeAt s j ≤ 63

/-- The sign bits of R259 as a bit string, padded with zeros to whole bytes. -/
def signString (xs : List Byte) : List Bool :=
  (List.range (8 * ((xs.length - 3 + 7) / 8))).map fun j =>
    decide (j < xs.length - 3 ∧ (xs.getD (j + 3) 0).toNat < (xs.getD j 0).toNat)

/-- Byte i of the magnitude stream of R259: verbatim for the first pixel, else the size of the difference. -/
def magnitudeByte (xs : List Byte) (i : Nat) : Nat :=
  if i < 3 then (xs.getD i 0).toNat
  else ((xs.getD i 0).toNat - (xs.getD (i - 3) 0).toNat) + ((xs.getD (i - 3) 0).toNat - (xs.getD i 0).toNat)

/-- The delta-body record of a byte string (R259). -/
def deltaRecord (xs : List Byte) : List Bool :=
  bitsMsb 64 (BitVec.ofNat 64 xs.length) ++
    ((List.range xs.length).flatMap fun i => bitsMsb 8 (BitVec.ofNat 64 (magnitudeByte xs i))) ++
    bitsMsb 64 (BitVec.ofNat 64 ((xs.length - 3 + 7) / 8)) ++ signString xs

/-! ## Huffman codes (R171, R175, R178, R181) -/

/-- `BuildTree` as a relation (R171): `A` is the arena in any order and `arr` the next arrival number; the two nodes of
smallest weight, and among equal weights of smallest arrival number, are merged under a node of the sum of their
weights, the first extracted on the left, until one node is left. -/
inductive Builds : List ArenaNode → Nat → HufTree → Prop
  | root (x : ArenaNode) (arr : Nat) : Builds [x] arr x.tree
  | merge {A rest : List ArenaNode} {a b : ArenaNode} {arr : Nat} {t : HufTree} (perm : A.Perm (a :: b :: rest))
      (least : ∀ y ∈ b :: rest, a.w < y.w ∨ (a.w = y.w ∧ a.arr < y.arr))
      (second : ∀ y ∈ rest, b.w < y.w ∨ (b.w = y.w ∧ b.arr < y.arr))
      (next : Builds ({ w := a.w + b.w, arr := arr, tree := .node a.tree b.tree } :: rest) (arr + 1) t) :
      Builds A arr t

/-- The subtree at the end of a path from the root: false is left, true is right (R172). -/
def HufTree.follow : HufTree → List Bool → Option HufTree
  | t, [] => some t
  | .leaf _, _ :: _ => none
  | .node l r, b :: bs => if b then r.follow bs else l.follow bs

/-- R178's validity predicate, clauses (a) to (f). -/
def lutValid (m n : Nat) (e : Nat → LutEntry) : Prop :=
  (1 ≤ m ∧ m ≤ 31) ∧ (2 ≤ n ∧ n ≤ 256) ∧ (e 0).val.toNat = 0 ∧
    (∀ i, 0 < i → i < n → (e (i - 1)).val.toNat < (e i).val.toNat) ∧
    (∀ i, i < n → 1 ≤ (e i).len.toNat ∧ (e i).len.toNat ≤ m) ∧ ∀ i, i < n → (e i).val.toNat < 2 ^ m

/-- The entry of the greatest index below n whose VAL is at most w (R179). -/
def IsLookup (e : Nat → LutEntry) (n w : Nat) (x : LutEntry) : Prop :=
  ∃ j, j < n ∧ x = e j ∧ (e j).val.toNat ≤ w ∧ ∀ i, j < i → i < n → w < (e i).val.toNat

/-- The bit string of a byte's codeword in CWTAB (R41, R176). -/
def codeBits (t : Vector Codeword 256) (b : Byte) : List Bool :=
  bitsMsb (cwAt t b).len.toNat ((cwAt t b).val.zeroExtend 64)

/-- Zeros from a bit position up to the next multiple of 8 (R146). -/
def padBits (p : Nat) : List Bool := List.replicate ((8 - p % 8) % 8) false

/-- Entry i of the metadata block at R_POS: sym, len, code (R77, R180). -/
def metaEntry (s : State) (i : Nat) : LutEntry where
  sym := BitVec.ofNat 8 (valueOf (streamBits s (s.rd.pos + BitVec.ofNat 64 (96 + 48 * i)) 8))
  len := BitVec.ofNat 8 (valueOf (streamBits s (s.rd.pos + BitVec.ofNat 64 (104 + 48 * i)) 8))
  val := BitVec.ofNat 32 (valueOf (streamBits s (s.rd.pos + BitVec.ofNat 64 (112 + 48 * i)) 32))

/-- The metadata block of R77 as a bit string. -/
def metaBits (s : State) : List Bool :=
  bitsMsb 16 (s.maxLen.zeroExtend 64) ++ bitsMsb 64 s.count ++ bitsMsb 16 (s.lutCnt.zeroExtend 64) ++
    (List.range s.lutCnt.toNat).flatMap fun i =>
      bitsMsb 8 ((lutAt s.lut i).sym.zeroExtend 64) ++ bitsMsb 8 ((lutAt s.lut i).len.zeroExtend 64) ++
        bitsMsb 32 ((lutAt s.lut i).val.zeroExtend 64)

end Sys2Proof.Machine
end

