-- ==== Sys2Proof/Certificates/Slice0/Obligations.lean ====
section
/-! DEFINITION. The statements for the provers. `complete` and `trapEntry` are completion (R123) and trap entry (R282);
`streamBits`, `afterRead`, `Appends` and `fieldBits` are the reader's and the writer's bit strings (Safety.lean). Every
statement about a command gives its encoding, its result and each of its errors, over every state that meets the named
parts of the invariant. -/

open Sys2Proof Sys2Proof.Machine

/-! ## Encoding and dispatch (30_encoding.md, 40_command.md) -/

/-- R103, R104, R107: a word decodes to an instruction exactly when the instruction is well formed and the word is its
encoding, so no bit of a word is ignored, decoding gives back every encoded command at every count N, and two words
never stand for one command. -/
def Obligations.DecodeAndEncodeAgree : Prop :=
  ∀ (w : Word) (i : Instr), decode w = .ok i ↔ i.wellFormed = true ∧ encode i = w

/-- R104: a word is illegal exactly in the four cases (a) to (d). -/
def Obligations.IllegalWordsAreTheFourCases : Prop :=
  ∀ w : Word, (∃ r, decode w = .error r) ↔
    ((w.extractLsb' 0 8).toNat ∉ [0x00, 0x01, 0x02, 0x03, 0x04, 0x05, 0x06, 0x07, 0x10, 0x11, 0x12, 0x13, 0x14,
        0x20, 0x21, 0x22, 0x23, 0x24, 0x30, 0x31, 0x38, 0x39, 0x40, 0x41] ∨
      w.extractLsb' 16 16 ≠ 0 ∨
      ((w.extractLsb' 0 8).toNat ∉ [0x02, 0x04] ∧ w.extractLsb' 8 8 ≠ 0) ∨
      ((w.extractLsb' 0 8).toNat ∈ [0x02, 0x04] ∧ 64 < (w.extractLsb' 8 8).toNat))

/-- R103: words written out from the opcode map, one of each family. -/
def Obligations.OpcodeMapWordsDecode : Prop :=
  decode 0x00000000#32 = .ok .nop ∧ decode 0x00000402#32 = .ok (.bcRead 4) ∧
    decode 0x00004004#32 = .ok (.bcWrite 64) ∧ decode 0x00000007#32 = .ok .bcGetb ∧
    decode 0x00000010#32 = .ok .hufBuild ∧ decode 0x00000014#32 = .ok .hufDec ∧
    decode 0x00000020#32 = .ok .qscale ∧ decode 0x00000031#32 = .ok .zzWrite ∧
    decode 0x00000038#32 = .ok .rlePack ∧ decode 0x00000041#32 = .ok .deltaDec

/-- R122, R125: on the core's turn a latched word that decodes runs as its command. The state the command runs in is
the step's own but for the turn taken off the schedule (the model's own field, log 7). -/
def Obligations.StepRunsTheDecodedCommand : Prop :=
  ∀ (s : State) (w : Word) (i : Instr), s.latch = some w → s.sched.head? ≠ some .host → decode w = .ok i →
    step s = exec i { s with sched := s.sched.tail }

/-- R104, R105, R125: on the core's turn an illegal word raises BadCommand with the word as info, and changes no other
state: ERRCODE 7, ERRINFO the word, ERR and DONE set, BUSY and the latch cleared (R282). The schedule and the draw
counter are the model's own fields (log 1, log 7). -/
def Obligations.IllegalWordRaisesBadCommand : Prop :=
  ∀ (s : State) (w : Word) (r : Reject), s.latch = some w → s.sched.head? ≠ some .host → decode w = .error r →
    step s = .next { s with
      errCode := 7
      errInfo := w.zeroExtend 64
      st := { s.st with busy := false, done := true, err := true }
      latch := none
      sched := s.sched.tail
      draws := s.draws + 1 }

/-- R124: NOP changes only the bits of completion, BUSY and DONE, and empties the latch (R123). -/
def Obligations.NopOnlyCompletes : Prop :=
  encode .nop = 0x00000000#32 ∧ ∀ s : State,
    exec .nop s = .next { s with
      st := { s.st with busy := false, done := true }
      latch := none
      draws := s.draws + 1 }

/-- R123: every command that ends in a next state has BUSY = 0, DONE = 1 and an empty latch there, and ERR is set
exactly when it was set before or the command raised; without a raise ERRCODE and ERRINFO are as before. -/
def Obligations.EveryCommandCompletes : Prop :=
  ∀ (i : Instr) (s t : State), exec i s = .next t →
    t.st.busy = false ∧ t.st.done = true ∧ t.latch = none ∧
      ((t.st.err = s.st.err ∧ t.errCode = s.errCode ∧ t.errInfo = s.errInfo) ∨
        (t.st.err = true ∧ ∃ e : ErrorKind, t.errCode = e.code))

/-! ## Host port and protocol (10_state.md, 40_command.md, 60_exceptions.md, 70_reset_and_hazards.md) -/

/-- R121: a host write to CMD with BUSY = 0 is accepted, whatever the word; with BUSY = 1 it is dropped and sets OVR,
and nothing else changes. UR and OVR are not cleared by acceptance. (`script` and `sched` are the host's and the
model's own, log 7.) -/
def Obligations.CmdWriteIsAcceptedOrDropped : Prop :=
  ∀ (s : State) (w : Word) (rest : List HostOp), turn s = .host → s.script = .csrWrite 0x018 w :: rest →
    (s.st.busy = false → step s = .next { s with
      cmd := w
      latch := some w
      st := { s.st with busy := true, done := false, err := false }
      errCode := 0
      errInfo := 0
      script := rest
      sched := s.sched.tail }) ∧
    (s.st.busy = true → step s = .next { s with
      st := { s.st with ovr := true }
      script := rest
      sched := s.sched.tail })

/-- R320: while BUSY = 1 a host write to any CSR word but CTRL and STATUS, and a host LMEM write, is dropped and sets
OVR; nothing else changes. (That a write to a read-only or reserved word sets OVR too is log 11, and that an LMEM write
at or above LMEM_SIZE does is log 22.) -/
def Obligations.WritesWhileBusyAreDropped : Prop :=
  ∀ (s : State) (rest : List HostOp), turn s = .host → s.st.busy = true →
    (∀ (off : CsrOffset) (v : Word), off.toNat % 4 = 0 → off ≠ 0x004 → off ≠ 0x008 →
      s.script = .csrWrite off v :: rest →
      step s = .next { s with
        st := { s.st with ovr := true }
        script := rest
        sched := s.sched.tail }) ∧
    (∀ (a : Nat) (v : Byte), s.script = .lmemWrite a v :: rest →
      step s = .next { s with
        st := { s.st with ovr := true }
        script := rest
        sched := s.sched.tail })

/-- R25, R285: a host write to STATUS clears DONE, ERR, UR and OVR where its bit is 1 and leaves them where it is 0,
also while BUSY = 1; BUSY, ERRCODE, ERRINFO and everything else keep their values. -/
def Obligations.StatusWriteAcknowledges : Prop :=
  ∀ (s : State) (v : Word) (rest : List HostOp), turn s = .host → s.script = .csrWrite 0x008 v :: rest →
    ∃ t, step s = .next t ∧
      t = { s with st := t.st, script := rest, sched := s.sched.tail } ∧
      t.st.busy = s.st.busy ∧
      (t.st.done = true ↔ s.st.done = true ∧ v.getLsbD 1 = false) ∧
      (t.st.err = true ↔ s.st.err = true ∧ v.getLsbD 2 = false) ∧
      (t.st.ur = true ↔ s.st.ur = true ∧ v.getLsbD 3 = false) ∧
      (t.st.ovr = true ↔ s.st.ovr = true ∧ v.getLsbD 4 = false)

/-- R310, R311: a host write to CTRL with bit 0 = 1 is the soft reset, also while BUSY = 1: the latched command is
discarded, the core's registers and tables take the soft-reset column, and LMEM, LUT, BLK, SEQ and Q are preserved. The
write's own IE bit is ignored. -/
def Obligations.SoftResetPreservesTheBuffers : Prop :=
  ∀ (s : State) (v : Word) (rest : List HostOp), turn s = .host → s.script = .csrWrite 0x004 v :: rest →
    v.getLsbD 0 = true →
    ∃ t, step s = .next t ∧
      t.latch = none ∧ t.st = ⟨false, false, false, false, false⟩ ∧ t.ctrlIe = false ∧ t.errCode = 0 ∧
      t.errInfo = 0 ∧ t.cmd = 0 ∧ t.srcAddr = 0 ∧ t.srcLen = 0 ∧ t.dstAddr = 0 ∧ t.dstLen = 0 ∧ t.wData = 0 ∧
      t.rData = 0 ∧ t.rd = ⟨0, 0, 0, 0⟩ ∧ t.wr = ⟨0, 0, 0, 0, 0⟩ ∧ t.maxLen = 0 ∧ t.lutCnt = 0 ∧ t.count = 0 ∧
      t.quality = 0x3FF0000000000000#64 ∧ t.dLen = 0 ∧ (∀ i : Fin 256, t.hist[i.val] = 0) ∧
      (∀ i : Fin 256, t.cwtab[i.val] = ⟨0, 0⟩) ∧
      (∀ k : Fin 64, t.qs[k.val] = F64.ofNat (s.params.qtable[k.val]).toNat) ∧
      t.params = s.params ∧ t.lmem = s.lmem ∧ t.lut = s.lut ∧ t.blk = s.blk ∧ t.seq = s.seq

/-- R24: a host write to CTRL with bit 0 = 0 sets IE to bit 1 at once, also while BUSY = 1, and nothing else
changes. -/
def Obligations.CtrlWriteSetsInterruptEnable : Prop :=
  ∀ (s : State) (v : Word) (rest : List HostOp), turn s = .host → s.script = .csrWrite 0x004 v :: rest →
    v.getLsbD 0 = false →
    step s = .next { s with ctrlIe := v.getLsbD 1, script := rest, sched := s.sched.tail }

/-- R51, R286: irq is IE and DONE, so after every command that ends in a next state it is IE, after acceptance it is 0,
and after a write of 1 to DONE it is 0. -/
def Obligations.InterruptFollowsCompletion : Prop :=
  (∀ s : State, irq s = (s.ctrlIe && s.st.done)) ∧
    (∀ (i : Instr) (s t : State), exec i s = .next t → irq t = s.ctrlIe) ∧
    (∀ (w : Word) (s : State), irq (acceptCommand w s) = false) ∧
    (∀ (v : Word) (s : State), v.getLsbD 1 = true → irq (acknowledge v s) = false)

/-- R310: what power-on reset leaves, with the default parameters of R6: LMEM_SIZE = 2^20, the table of R211 and
DCT_IMPL = EXACT; LMEM lists no byte, since none holds a value (R52), and the core is idle. -/
def Obligations.PowerOnReset : Prop :=
  State.reset.latch = none ∧ State.reset.st = ⟨false, false, false, false, false⟩ ∧ State.reset.ctrlIe = false ∧
    State.reset.errCode = 0 ∧ State.reset.errInfo = 0 ∧ State.reset.cmd = 0 ∧ State.reset.srcAddr = 0 ∧
    State.reset.srcLen = 0 ∧ State.reset.dstAddr = 0 ∧ State.reset.dstLen = 0 ∧ State.reset.wData = 0 ∧
    State.reset.rData = 0 ∧ State.reset.rd = ⟨0, 0, 0, 0⟩ ∧ State.reset.wr = ⟨0, 0, 0, 0, 0⟩ ∧
    State.reset.maxLen = 0 ∧ State.reset.lutCnt = 0 ∧ State.reset.count = 0 ∧
    State.reset.quality = 0x3FF0000000000000#64 ∧ State.reset.dLen = 0 ∧ State.reset.lmem = [] ∧
    (∀ i : Fin 256, State.reset.hist[i.val] = 0 ∧ State.reset.cwtab[i.val] = ⟨0, 0⟩) ∧
    (∀ k : Fin 64, State.reset.qs[k.val] = F64.ofNat (State.reset.params.qtable[k.val]).toNat) ∧
    State.reset.params.lmemSize = 2 ^ 20 ∧ State.reset.params.dctImpl = .exact ∧
    State.reset.params.qtable.toList.map (·.toNat) =
      [16, 11, 10, 16, 24, 40, 51, 61, 12, 12, 14, 19, 26, 58, 60, 55,
        14, 13, 16, 24, 40, 57, 69, 56, 14, 17, 22, 29, 51, 87, 80, 62,
        18, 22, 37, 56, 68, 109, 103, 77, 24, 35, 55, 64, 81, 104, 113, 92,
        49, 64, 78, 87, 103, 121, 120, 101, 72, 92, 95, 98, 112, 100, 103, 99] ∧
    irq State.reset = false ∧ csrValue State.reset .id = 0x494D4331#32

/-- R23: every assigned word of the CSR space is the one at its own offset, which is aligned and below 0x4000. -/
def Obligations.CsrMapRoundTrip : Prop :=
  ∀ c : Csr, csrOffsetNat c < 0x4000 ∧ csrOffsetNat c % 4 = 0 ∧ csrOf (csrOffset c) = some c

/-- R23: the reserved offsets are those the map leaves out; a host read of one gives 0, and an idle host write to one
changes nothing. (That the read gives 0 also while BUSY = 1 is the model's deduction, log 12.) -/
def Obligations.ReservedOffsetsReadZero : Prop :=
  (∀ off : CsrOffset, off.toNat % 4 = 0 → (csrOf off = none ↔
      off.toNat = 0x01C ∨ off.toNat = 0x068 ∨ off.toNat = 0x06C ∨ (0x090 ≤ off.toNat ∧ off.toNat ≤ 0x7FC) ∨
        (0x1C00 ≤ off.toNat ∧ off.toNat ≤ 0x1FFC) ∨ 0x2700 ≤ off.toNat)) ∧
    (∀ (off : CsrOffset) (v : Word) (s : State), csrOf off = none →
      (hostCsrRead off s).hostData = 0 ∧ (s.st.busy = false → hostCsrWrite off v s = s))

/-- R65, R108: a host CSR read, a host LMEM read and a poll of `wait` change nothing but what the host learns (and the
model's own script, turn and draw counter, log 1, log 7); the line `wait` stays until DONE reads 1 (log 18). R23, R60,
R320: with BUSY = 0 the host learns the word's current value, LMEM's byte, or 0x00 at or above LMEM_SIZE; while BUSY = 1
it learns the current value of ID, CTRL, STATUS, CMD, ERRCODE and ERRINFO, and a read of any other word or of LMEM gives
a draw. (That a draw has the width the map uses, and that it is one at every LMEM address, is the model's deduction, log
12.) -/
def Obligations.HostReadsHaveNoSideEffect : Prop :=
  ∀ (s : State) (rest : List HostOp), turn s = .host →
    let learns : Word → State := fun v =>
      { s with hostData := v, script := rest, sched := s.sched.tail, draws := s.draws + 1 }
    let stable : List Csr := [.id, .ctrl, .status, .cmd, .errCode, .errInfo .lo, .errInfo .hi]
    (∀ off : CsrOffset, off.toNat % 4 = 0 → s.script = .csrRead off :: rest →
      ∃ v, step s = .next (learns v) ∧ ∀ c : Csr, csrOf off = some c →
        (s.st.busy = false ∨ c ∈ stable → v = csrValue s c) ∧
        (s.st.busy = true → c ∉ stable → v = Config.freeWord s.draws &&& csrMask c)) ∧
    (∀ a : Nat, s.script = .lmemRead a :: rest →
      ∃ v, step s = .next (learns v) ∧
        (s.st.busy = true → v = (Config.freeByte s.draws a).zeroExtend 32) ∧
        (s.st.busy = false → s.params.lmemSize ≤ a → v = 0) ∧
        (s.st.busy = false → a < s.params.lmemSize →
          (∀ b, Memory.read? s.lmem a = some b → v = b.zeroExtend 32) ∧
          (Memory.read? s.lmem a = none → v = (Config.freeByte s.draws a).zeroExtend 32))) ∧
    (s.script = .waitDone :: rest →
      step s = .next { learns (csrValue s .status) with
        script := if s.st.done then rest else .waitDone :: rest })

/-- R47: an idle host write to one word of a 64-bit register or array element changes those 32 bits, leaves the other
half, and a host read returns each half's current bits. Shown for WDATA and for BLK[k]. -/
def Obligations.RegisterHalvesAreIndependent : Prop :=
  ∀ (s : State) (k : Fin 64) (v : Word), s.st.busy = false →
    (csrRead (hostCsrWrite (csrOffset (.blk k .lo)) v s) (.blk k .lo) = v ∧
      csrRead (hostCsrWrite (csrOffset (.blk k .lo)) v s) (.blk k .hi) = csrRead s (.blk k .hi) ∧
      csrRead (hostCsrWrite (csrOffset (.blk k .hi)) v s) (.blk k .hi) = v ∧
      csrRead (hostCsrWrite (csrOffset (.blk k .hi)) v s) (.blk k .lo) = csrRead s (.blk k .lo) ∧
      (∀ (j : Fin 64) (h : Half), j ≠ k →
        csrRead (hostCsrWrite (csrOffset (.blk k h)) v s) (.blk j h) = csrRead s (.blk j h))) ∧
    (csrRead (hostCsrWrite (csrOffset (.wData .lo)) v s) (.wData .lo) = v ∧
      csrRead (hostCsrWrite (csrOffset (.wData .lo)) v s) (.wData .hi) = csrRead s (.wData .hi) ∧
      csrRead (hostCsrWrite (csrOffset (.wData .hi)) v s) (.wData .hi) = v ∧
      csrRead (hostCsrWrite (csrOffset (.wData .hi)) v s) (.wData .lo) = csrRead s (.wData .lo))

/-- R60: with BUSY = 0, a host LMEM write below LMEM_SIZE stores its byte, a later host read returns it, and every other
byte stays; at or above LMEM_SIZE a write changes nothing and a read returns 0x00. -/
def Obligations.HostLmemAccess : Prop :=
  ∀ (s : State) (a : Nat) (v : Byte), s.st.busy = false →
    (a < s.params.lmemSize →
      (hostLmemRead a (hostLmemWrite a v s)).hostData = v.zeroExtend 32 ∧
        hostLmemWrite a v s = { s with lmem := (hostLmemWrite a v s).lmem } ∧
        ∀ b : Nat, b ≠ a →
          Memory.read? (hostLmemWrite a v s).lmem b = Memory.read? s.lmem b) ∧
    (s.params.lmemSize ≤ a → hostLmemWrite a v s = s ∧ (hostLmemRead a s).hostData = 0)

/-! ## Bit cursor (41_bitcursor.md) -/

/-- R140: BC_RINIT points the reader at the source region and clears R_POS, PADBITS and UR; an invalid region raises
OutOfRange(SRC_ADDR + SRC_LEN) with the reader unchanged. -/
def Obligations.BcRinitPointsTheReader : Prop :=
  encode .bcRinit = 0x00000001#32 ∧ ∀ s : State,
    (s.srcAddr.toNat + s.srcLen.toNat ≤ s.params.lmemSize →
      exec .bcRinit s = .next (complete { s with
        rd := { base := s.srcAddr, len := s.srcLen, pos := 0, pad := 0 }
        st := { s.st with ur := false } })) ∧
    (s.params.lmemSize < s.srcAddr.toNat + s.srcLen.toNat →
      exec .bcRinit s = .next (trapEntry .outOfRange (s.srcAddr.zeroExtend 64 + s.srcLen.zeroExtend 64) s))

/-- R142: BC_READ n puts the region's next n bits, first bit most significant and zeros past the end, right-justified
in RDATA, and moves R_POS, PADBITS and UR over them; nothing else changes but the completion. (The last clause is the
model's own: no word decodes to a count above 64, and log 15 gives that term BadCommand with the word of that count.) -/
def Obligations.BcReadReturnsTheNextBits : Prop :=
  ∀ (n : BitVec 8) (s : State),
    (n.toNat ≤ 64 → (encode (.bcRead n)).toNat = n.toNat * 256 + 2 ∧
      (readerOk s = true → exec (.bcRead n) s = .next (complete { afterRead s n.toNat with
        rData := BitVec.ofNat 64 (valueOf (streamBits s s.rd.pos n.toNat)) }))) ∧
    (64 < n.toNat →
      exec (.bcRead n) s = .next (trapEntry .badCommand (BitVec.ofNat 64 (n.toNat * 256 + 2)) s))

/-- R143: BC_GETB copies DST_LEN bytes of 8 bits each from the reader's position into the destination region, every
other byte of LMEM as before; the region and the overlap are checked first and raise with no access. -/
def Obligations.BcGetbCopiesBytes : Prop :=
  encode .bcGetb = 0x00000007#32 ∧ ∀ s : State, readerOk s = true →
    (s.params.lmemSize < s.dstAddr.toNat + s.dstLen.toNat →
      exec .bcGetb s = .next (trapEntry .outOfRange (s.dstAddr.zeroExtend 64 + s.dstLen.zeroExtend 64) s)) ∧
    (s.dstAddr.toNat + s.dstLen.toNat ≤ s.params.lmemSize →
      ((readerRegion s).overlaps (dstRegion s) = true → exec .bcGetb s = .next (trapEntry .overlap 0 s)) ∧
      ((readerRegion s).overlaps (dstRegion s) = false →
        ∃ m, exec .bcGetb s = .next (complete { afterRead s (8 * s.dstLen.toNat) with lmem := m }) ∧
          ∀ a : Nat, Memory.read? m a =
            if s.dstAddr.toNat ≤ a ∧ a < s.dstAddr.toNat + s.dstLen.toNat then
              some (BitVec.ofNat 8 (valueOf (streamBits s
                (s.rd.pos + BitVec.ofNat 64 (8 * (a - s.dstAddr.toNat))) 8)))
            else Memory.read? s.lmem a))

/-- R144: BC_WINIT points the writer at the destination region and discards pending bits; an invalid region raises
OutOfRange(DST_ADDR + DST_LEN) with the writer unchanged. -/
def Obligations.BcWinitPointsTheWriter : Prop :=
  encode .bcWinit = 0x00000003#32 ∧ ∀ s : State,
    (s.dstAddr.toNat + s.dstLen.toNat ≤ s.params.lmemSize →
      exec .bcWinit s = .next (complete { s with
        wr := { base := s.dstAddr, cap := s.dstLen, bytes := 0, nacc := 0, acc := 0 } })) ∧
    (s.params.lmemSize < s.dstAddr.toNat + s.dstLen.toNat →
      exec .bcWinit s = .next (trapEntry .outOfRange (s.dstAddr.zeroExtend 64 + s.dstLen.zeroExtend 64) s))

/-- R147 with R145: BC_WRITE n appends the low n bits of WDATA, most significant first, when the bytes they complete
fit in W_CAP; else the bits that fit stay written, NACC = 7, and OutOfRange(W_BASE + W_CAP) is raised. (The last clause
is the model's own: no word decodes to a count above 64, and log 15 gives that term BadCommand with the word of that
count.) -/
def Obligations.BcWriteAppendsBits : Prop :=
  ∀ (n : BitVec 8) (s : State),
    (n.toNat ≤ 64 → (encode (.bcWrite n)).toNat = n.toNat * 256 + 4 ∧
      (writerOk s = true → accClean s.wr →
        (roomFor s.wr n.toNat → ∃ t, exec (.bcWrite n) s = .next (complete t) ∧
          Appends s t (bitsMsb n.toNat s.wData)) ∧
        (¬roomFor s.wr n.toNat → ∃ t,
          exec (.bcWrite n) s = .next (trapEntry .outOfRange (s.wr.base.zeroExtend 64 + s.wr.cap.zeroExtend 64) t) ∧
          Appends s t ((bitsMsb n.toNat s.wData).take (8 * s.wr.cap.toNat + 7 - writtenBits s.wr)) ∧
          t.wr.nacc = 7 ∧ t.wr.bytes = s.wr.cap))) ∧
    (64 < n.toNat →
      exec (.bcWrite n) s = .next (trapEntry .badCommand (BitVec.ofNat 64 (n.toNat * 256 + 4)) s))

/-- R146, R148: BC_FLUSH does nothing when NACC = 0; else it appends zeros up to the byte, after which NACC = 0; when
that byte does not fit it raises OutOfRange(W_BASE + W_CAP) with NACC = 7. -/
def Obligations.BcFlushPadsThePartialByte : Prop :=
  encode .bcFlush = 0x00000005#32 ∧ ∀ s : State, writerOk s = true → accClean s.wr →
    (s.wr.nacc = 0 → exec .bcFlush s = .next (complete s)) ∧
    (s.wr.nacc ≠ 0 → s.wr.bytes ≠ s.wr.cap → ∃ t, exec .bcFlush s = .next (complete t) ∧
      Appends s t (List.replicate (8 - s.wr.nacc.val) false) ∧ t.wr.nacc = 0) ∧
    (s.wr.nacc ≠ 0 → s.wr.bytes = s.wr.cap → ∃ t,
      exec .bcFlush s = .next (trapEntry .outOfRange (s.wr.base.zeroExtend 64 + s.wr.cap.zeroExtend 64) t) ∧
      Appends s t (List.replicate (7 - s.wr.nacc.val) false) ∧ t.wr.nacc = 7 ∧ t.wr.bytes = s.wr.cap)

/-- R149: BC_PUTB appends the source region's bytes in order, each most significant bit first, at any bit alignment; the
region and the overlap are checked first and raise with no access; a writer overflow keeps the bits that fit. -/
def Obligations.BcPutbAppendsBytes : Prop :=
  encode .bcPutb = 0x00000006#32 ∧ ∀ s : State, writerOk s = true → accClean s.wr →
    (s.params.lmemSize < s.srcAddr.toNat + s.srcLen.toNat →
      exec .bcPutb s = .next (trapEntry .outOfRange (s.srcAddr.zeroExtend 64 + s.srcLen.zeroExtend 64) s)) ∧
    (s.srcAddr.toNat + s.srcLen.toNat ≤ s.params.lmemSize →
      ((srcRegion s).overlaps (writerRegion s) = true → exec .bcPutb s = .next (trapEntry .overlap 0 s)) ∧
      ((srcRegion s).overlaps (writerRegion s) = false →
        let bits := (regionBytes s (srcRegion s)).flatMap fun b => bitsMsb 8 (b.zeroExtend 64)
        (roomFor s.wr bits.length → ∃ t, exec .bcPutb s = .next (complete t) ∧ Appends s t bits) ∧
        (¬roomFor s.wr bits.length → ∃ t,
          exec .bcPutb s =
            .next (trapEntry .outOfRange (s.wr.base.zeroExtend 64 + s.wr.cap.zeroExtend 64) t) ∧
          Appends s t (bits.take (8 * s.wr.cap.toNat + 7 - writtenBits s.wr)) ∧
          t.wr.nacc = 7 ∧ t.wr.bytes = s.wr.cap)))

/-! ## Huffman coder (42_huffman.md) -/

/-- R171: BuildTree repeatedly merges the two nodes of smallest weight, and among equal weights of smallest arrival
number, the first extracted on the left, under a node of the sum of their weights that arrives next, from one leaf per
occurring symbol arriving in ascending symbol order; there is a tree exactly when some symbol occurs. -/
def Obligations.BuildTreeMergesTheTwoLeast : Prop :=
  ∀ h : Byte → Nat,
    (buildTree h = none ↔ ∀ b, h b = 0) ∧
      (∀ t, buildTree h = some t → Builds (arenaLeaves h) (arenaLeaves h).length t) ∧
      (arenaLeaves h).map (fun x => (x.w, x.tree)) =
        ((List.range 256).filter fun b => 0 < h (BitVec.ofNat 8 b)).map
          (fun b => (h (BitVec.ofNat 8 b), HufTree.leaf (BitVec.ofNat 8 b))) ∧
      (arenaLeaves h).map (fun x => x.arr) = List.range (arenaLeaves h).length

/-- R172: the codewords of a tree are its leaves' paths, 0 for left and 1 for right, the first branch most significant:
the length is the path's and the code its value. -/
def Obligations.CodewordsAreThePaths : Prop :=
  ∀ (t : HufTree) (c : SymCode), c ∈ codewords t 0 0 ↔
    ∃ path : List Bool, t.follow path = some (.leaf c.sym) ∧ c.len = path.length ∧ c.code = valueOf path

/-- R170, R173, R174: HUF_BUILD over its source bytes: the region check; HIST holds the counts, also when EmptyInput
(with the number of distinct values) or CodeTooLong (with the greatest depth D) is raised; else CWTAB holds every
occurring byte's codeword and (0, 0) for the others, the LUT's first k entries are the left-justified codewords in
ascending order and the others stay, and LUTCNT, MAXLEN and COUNT are k, D and SRC_LEN. -/
def Obligations.HufBuildBuildsTheTables : Prop :=
  encode .hufBuild = 0x00000010#32 ∧ ∀ s : State,
    (s.params.lmemSize < s.srcAddr.toNat + s.srcLen.toNat →
      exec .hufBuild s = .next (trapEntry .outOfRange (s.srcAddr.zeroExtend 64 + s.srcLen.zeroExtend 64) s)) ∧
    (s.srcAddr.toNat + s.srcLen.toNat ≤ s.params.lmemSize →
      let xs := regionBytes s (srcRegion s)
      let k := xs.dedup.length
      ∃ h : Vector Word 256, (∀ b : Fin 256, h[b.val].toNat = xs.count (BitVec.ofNat 8 b.val)) ∧
        (k < 2 → exec .hufBuild s = .next (trapEntry .emptyInput (BitVec.ofNat 64 k) { s with hist := h })) ∧
        (2 ≤ k → ∃ root, buildTree (fun b => xs.count b) = some root ∧
          let cs := codewords root 0 0
          ∃ D, (∀ c ∈ cs, c.len ≤ D) ∧ (∃ c ∈ cs, c.len = D) ∧
          (32 ≤ D →
            exec .hufBuild s = .next (trapEntry .codeTooLong (BitVec.ofNat 64 D) { s with hist := h })) ∧
          (D < 32 → ∃ t, exec .hufBuild s = .next (complete t) ∧
            t = { s with
              hist := h
              cwtab := t.cwtab
              lut := t.lut
              lutCnt := BitVec.ofNat 16 k
              maxLen := BitVec.ofNat 16 D
              count := s.srcLen.zeroExtend 64 } ∧
            (∀ b, b ∈ xs ↔ ∃ c ∈ cs, c.sym = b) ∧
            (∀ c ∈ cs, (cwAt t.cwtab c.sym).val.toNat = c.code ∧ (cwAt t.cwtab c.sym).len.toNat = c.len) ∧
            (∀ b, b ∉ xs → cwAt t.cwtab b = ⟨0, 0⟩) ∧
            (∀ c ∈ cs, ∃ i, i < k ∧ (lutAt t.lut i).sym = c.sym ∧ (lutAt t.lut i).len.toNat = c.len ∧
              (lutAt t.lut i).val.toNat = c.code * 2 ^ (D - c.len)) ∧
            (∀ i j, i < j → j < k → (lutAt t.lut i).val.toNat < (lutAt t.lut j).val.toNat) ∧
            (∀ i : Fin 256, k ≤ i.val → t.lut[i.val] = s.lut[i.val]))))

/-- After a HUF_BUILD that raises nothing the LUT is valid, 1 ≤ MAXLEN ≤ 31, and its entries partition [0, 2^MAXLEN):
each entry's interval ends where the next begins and the last ends at 2^MAXLEN. (R175 says so and marks it as its own
inference, "[derived: from rules R171 to R174 …]".) -/
def Obligations.BuiltLutPartitionsTheRange : Prop :=
  ∀ s t : State, s.st.err = false → exec .hufBuild s = .next t → t.st.err = false →
    lutValid t.maxLen.toNat t.lutCnt.toNat (lutAt t.lut) ∧
      (∀ i, i + 1 < t.lutCnt.toNat →
        (lutAt t.lut (i + 1)).val.toNat =
          (lutAt t.lut i).val.toNat + 2 ^ (t.maxLen.toNat - (lutAt t.lut i).len.toNat)) ∧
      (lutAt t.lut (t.lutCnt.toNat - 1)).val.toNat +
          2 ^ (t.maxLen.toNat - (lutAt t.lut (t.lutCnt.toNat - 1)).len.toNat) =
        2 ^ t.maxLen.toNat

/-- R176: HUF_PACK: the region and overlap checks; then the codewords of the source bytes in order and zeros up to the
byte; BadData with the index of the first byte without a codeword, after the bits of the bytes before it; and where the
bits do not fit, OutOfRange(W_BASE + W_CAP) with the bits that fit and NACC = 7. -/
def Obligations.HufPackAppendsTheCodewords : Prop :=
  encode .hufPack = 0x00000011#32 ∧ ∀ s : State, writerOk s = true → accClean s.wr →
    (s.params.lmemSize < s.srcAddr.toNat + s.srcLen.toNat →
      exec .hufPack s = .next (trapEntry .outOfRange (s.srcAddr.zeroExtend 64 + s.srcLen.zeroExtend 64) s)) ∧
    (s.srcAddr.toNat + s.srcLen.toNat ≤ s.params.lmemSize →
      ((srcRegion s).overlaps (writerRegion s) = true → exec .hufPack s = .next (trapEntry .overlap 0 s)) ∧
      ((srcRegion s).overlaps (writerRegion s) = false →
        let xs := regionBytes s (srcRegion s)
        ((∀ b ∈ xs, (cwAt s.cwtab b).len ≠ 0) →
          let bits := xs.flatMap (codeBits s.cwtab)
          let full := bits ++ padBits (writtenBits s.wr + bits.length)
          (roomFor s.wr full.length →
            ∃ t, exec .hufPack s = .next (complete t) ∧ Appends s t full ∧ t.wr.nacc = 0) ∧
          (¬roomFor s.wr full.length → ∃ t,
            exec .hufPack s =
              .next (trapEntry .outOfRange (s.wr.base.zeroExtend 64 + s.wr.cap.zeroExtend 64) t) ∧
            Appends s t (full.take (8 * s.wr.cap.toNat + 7 - writtenBits s.wr)) ∧
            t.wr.nacc = 7 ∧ t.wr.bytes = s.wr.cap)) ∧
        (∀ i (h : i < xs.length), (cwAt s.cwtab xs[i]).len = 0 →
          (∀ b ∈ xs.take i, (cwAt s.cwtab b).len ≠ 0) →
          let bits := (xs.take i).flatMap (codeBits s.cwtab)
          (roomFor s.wr bits.length →
            ∃ t, exec .hufPack s = .next (trapEntry .badData (BitVec.ofNat 64 i) t) ∧ Appends s t bits) ∧
          (¬roomFor s.wr bits.length → ∃ t,
            exec .hufPack s =
              .next (trapEntry .outOfRange (s.wr.base.zeroExtend 64 + s.wr.cap.zeroExtend 64) t) ∧
            Appends s t (bits.take (8 * s.wr.cap.toNat + 7 - writtenBits s.wr)) ∧
            t.wr.nacc = 7 ∧ t.wr.bytes = s.wr.cap))))

/-- R177, R77: HUF_META_WR raises InvalidLUT((2 << 56) | LUTCNT) when LUTCNT is above 256, and else appends the metadata
block, 96 + 48 * LUTCNT bits; a writer overflow keeps the bits that fit. -/
def Obligations.HufMetaWrAppendsTheBlock : Prop :=
  encode .hufMetaWr = 0x00000012#32 ∧ ∀ s : State, writerOk s = true → accClean s.wr →
    (256 < s.lutCnt.toNat →
      exec .hufMetaWr s = .next (trapEntry .invalidLut (BitVec.ofNat 64 (2 * 2 ^ 56 + s.lutCnt.toNat)) s)) ∧
    (s.lutCnt.toNat ≤ 256 →
      (metaBits s).length = 96 + 48 * s.lutCnt.toNat ∧
      (roomFor s.wr (metaBits s).length →
        ∃ t, exec .hufMetaWr s = .next (complete t) ∧ Appends s t (metaBits s)) ∧
      (¬roomFor s.wr (metaBits s).length → ∃ t,
        exec .hufMetaWr s = .next (trapEntry .outOfRange (s.wr.base.zeroExtend 64 + s.wr.cap.zeroExtend 64) t) ∧
        Appends s t ((metaBits s).take (8 * s.wr.cap.toNat + 7 - writtenBits s.wr)) ∧
        t.wr.nacc = 7 ∧ t.wr.bytes = s.wr.cap))

/-- R180: HUF_META_RD reads m, c and n (96 bits), then n entries of 48 bits, and checks in order: truncation of the
first group, the count, truncation of the entries, validity (R178). On each error the tables keep their values and the
reader has moved over what was read; else MAXLEN, COUNT, LUTCNT and LUT[0..n-1] take what was read. -/
def Obligations.HufMetaRdReadsTheBlock : Prop :=
  encode .hufMetaRd = 0x00000013#32 ∧ ∀ s : State, readerOk s = true →
    let m := valueOf (streamBits s s.rd.pos 16)
    let c := valueOf (streamBits s (s.rd.pos + 16) 64)
    let n := valueOf (streamBits s (s.rd.pos + 80) 16)
    let all := 96 + 48 * n
    (padCount s 96 ≠ 0 →
      exec .hufMetaRd s = .next (trapEntry .badData (s.rd.pos + 96) (afterRead s 96))) ∧
    (padCount s 96 = 0 →
      (n < 2 ∨ 256 < n →
        exec .hufMetaRd s =
          .next (trapEntry .invalidLut (BitVec.ofNat 64 (2 * 2 ^ 56 + n)) (afterRead s 96))) ∧
      (2 ≤ n → n ≤ 256 →
        (padCount s all ≠ 0 →
          exec .hufMetaRd s =
            .next (trapEntry .badData (s.rd.pos + BitVec.ofNat 64 all) (afterRead s all))) ∧
        (padCount s all = 0 →
          (∀ info, lutFault m n (metaEntry s) = some info →
            exec .hufMetaRd s = .next (trapEntry .invalidLut info (afterRead s all))) ∧
          (lutFault m n (metaEntry s) = none →
            ∃ lut, exec .hufMetaRd s = .next (complete { afterRead s all with
                maxLen := BitVec.ofNat 16 m
                count := BitVec.ofNat 64 c
                lutCnt := BitVec.ofNat 16 n
                lut := lut }) ∧
              ∀ i : Fin 256, lut[i.val] = if i.val < n then metaEntry s i.val else s.lut[i.val]))))

/-- R178: the LUT check passes exactly on the valid tables, and else its info names the first check that fails, in the
order (a), (b), then (c) to (f) entry by entry. -/
def Obligations.LutCheckIsTheValidityPredicate : Prop :=
  ∀ (m n : Nat) (e : Nat → LutEntry),
    (lutFault m n e = none ↔ lutValid m n e) ∧
    (¬(1 ≤ m ∧ m ≤ 31) → lutFault m n e = some (BitVec.ofNat 64 (1 * 2 ^ 56 + m))) ∧
    (1 ≤ m → m ≤ 31 →
      (¬(2 ≤ n ∧ n ≤ 256) → lutFault m n e = some (BitVec.ofNat 64 (2 * 2 ^ 56 + n))) ∧
      (2 ≤ n → n ≤ 256 → ∀ i, i < n →
        (∀ j, j < i → entryFault m e j = none) →
          ((i = 0 ∧ (e 0).val.toNat ≠ 0 → lutFault m n e = some (BitVec.ofNat 64 (3 * 2 ^ 56 + i))) ∧
          (0 < i ∧ ¬(e (i - 1)).val.toNat < (e i).val.toNat →
            lutFault m n e = some (BitVec.ofNat 64 (4 * 2 ^ 56 + i))) ∧
          ((i = 0 → (e 0).val.toNat = 0) → (0 < i → (e (i - 1)).val.toNat < (e i).val.toNat) →
            (¬(1 ≤ (e i).len.toNat ∧ (e i).len.toNat ≤ m) →
              lutFault m n e = some (BitVec.ofNat 64 (5 * 2 ^ 56 + i))) ∧
            (1 ≤ (e i).len.toNat → (e i).len.toNat ≤ m → ¬(e i).val.toNat < 2 ^ m →
              lutFault m n e = some (BitVec.ofNat 64 (6 * 2 ^ 56 + i)))))))

/-- R181, R179: HUF_DEC checks the LUT, the region, COUNT and the overlap in this order; then it writes exactly COUNT
bytes: byte i is the symbol of the entry looked up with the L = MAXLEN bits at offset q i, the next offset is that
entry's length further, and the reader ends L bits past the last offset, with UR and PADBITS by R141. -/
def Obligations.HufDecDecodesCountSymbols : Prop :=
  encode .hufDec = 0x00000014#32 ∧ ∀ s : State, readerOk s = true →
    (∀ info, lutFault s.maxLen.toNat s.lutCnt.toNat (lutAt s.lut) = some info →
      exec .hufDec s = .next (trapEntry .invalidLut info s)) ∧
    (lutFault s.maxLen.toNat s.lutCnt.toNat (lutAt s.lut) = none →
      (s.params.lmemSize < s.dstAddr.toNat + s.dstLen.toNat →
        exec .hufDec s = .next (trapEntry .outOfRange (s.dstAddr.zeroExtend 64 + s.dstLen.zeroExtend 64) s)) ∧
      (s.dstAddr.toNat + s.dstLen.toNat ≤ s.params.lmemSize →
        (s.dstLen.toNat < s.count.toNat → exec .hufDec s = .next (trapEntry .outOfRange s.count s)) ∧
        (s.count.toNat ≤ s.dstLen.toNat →
          ((readerRegion s).overlaps (dstRegion s) = true → exec .hufDec s = .next (trapEntry .overlap 0 s)) ∧
          ((readerRegion s).overlaps (dstRegion s) = false →
            ∃ (q : Nat → Nat) (m : List Host.Cell),
              exec .hufDec s =
                .next (complete { afterRead s (s.maxLen.toNat + q s.count.toNat) with lmem := m }) ∧
              q 0 = 0 ∧
              (∀ i, i < s.count.toNat → ∃ x,
                IsLookup (lutAt s.lut) s.lutCnt.toNat
                  (valueOf (streamBits s (s.rd.pos + BitVec.ofNat 64 (q i)) s.maxLen.toNat)) x ∧
                q (i + 1) = q i + x.len.toNat ∧
                Memory.read? m (s.dstAddr.toNat + i) = some x.sym) ∧
              ∀ a : Nat, ¬(s.dstAddr.toNat ≤ a ∧ a < s.dstAddr.toNat + s.count.toNat) →
                Memory.read? m a = Memory.read? s.lmem a))))

/-- HUF_BUILD over a source whose bytes hold values, HUF_PACK of the same bytes into a writer fresh from BC_WINIT, and
HUF_DEC with those tables and the reader at exactly the bytes written give the source bytes back, with no error and
PADBITS at most MAXLEN. (R182 says so and marks it as its own inference. `p` and `d` are the states the host has
prepared: only what is named is required of them.) -/
def Obligations.HuffmanRoundTrip : Prop :=
  ∀ s b p t d : State,
    s.st.err = false → exec .hufBuild s = .next b → b.st.err = false →
    (∀ i, i < s.srcLen.toNat → ∃ v, Memory.read? s.lmem (s.srcAddr.toNat + i) = some v) →
    p.lmem = b.lmem → p.params = b.params → p.cwtab = b.cwtab → p.srcAddr = b.srcAddr → p.srcLen = b.srcLen →
    writerOk p = true → p.wr.bytes = 0 → p.wr.nacc = 0 → p.wr.acc = 0 → p.st.err = false →
    exec .hufPack p = .next t → t.st.err = false →
    d.lmem = t.lmem → d.params = t.params → d.maxLen = b.maxLen → d.count = b.count → d.lutCnt = b.lutCnt →
    d.lut = b.lut → d.rd = ⟨t.wr.base, t.wr.bytes, 0, 0⟩ →
    d.dstAddr.toNat + d.dstLen.toNat ≤ d.params.lmemSize → s.srcLen.toNat ≤ d.dstLen.toNat →
    (readerRegion d).overlaps (dstRegion d) = false →
    ∃ u, exec .hufDec d = .next (complete u) ∧ u.rd.pad.toNat ≤ d.maxLen.toNat ∧
      ∀ i, i < s.srcLen.toNat →
        Memory.read? u.lmem (d.dstAddr.toNat + i) = Memory.read? s.lmem (s.srcAddr.toNat + i)

/-! ## Transform and quantisation (43_transform.md) -/

/-- R13, R219: addition, multiplication and division of finite values are the exact rational result rounded once, to
nearest with ties to even; a zero sum is -0.0 only of two negatives, and a product or quotient has the sign of its
operands' signs. -/
def Obligations.ArithmeticIsCorrectlyRounded : Prop :=
  ∀ nan a b : DWord, F64.isFinite a = true → F64.isFinite b = true →
    (F64.RoundsTo (F64.value a + F64.value b) (F64.add nan a b) ∧
      (F64.value a + F64.value b = 0 → F64.add nan a b = F64.signBit (F64.neg a && F64.neg b))) ∧
    (F64.RoundsTo (F64.value a * F64.value b) (F64.mul nan a b) ∧
      F64.neg (F64.mul nan a b) = (F64.neg a != F64.neg b)) ∧
    (F64.isZero b = false → F64.RoundsTo (F64.value a / F64.value b) (F64.div nan a b) ∧
      F64.neg (F64.div nan a b) = (F64.neg a != F64.neg b))

/-- R219, R13: IEEE 754's results for NaN, infinities and division by zero: NaN operands, opposite infinities added,
zero times infinity, infinity over infinity and zero over zero give a NaN (its pattern is the free value `nan`, I3),
the other cases an infinity or a zero. -/
def Obligations.SpecialOperandsFollowIeee : Prop :=
  ∀ nan a b : DWord,
    (F64.isNan a = true ∨ F64.isNan b = true →
      F64.add nan a b = nan ∧ F64.mul nan a b = nan ∧ F64.div nan a b = nan) ∧
    (∀ n m : Bool, F64.add nan (F64.inf n) (F64.inf m) = (if n = m then F64.inf n else nan) ∧
      F64.mul nan (F64.inf n) (F64.inf m) = F64.inf (n != m) ∧ F64.div nan (F64.inf n) (F64.inf m) = nan) ∧
    (∀ n : Bool, F64.isFinite b = true →
      F64.add nan (F64.inf n) b = F64.inf n ∧ F64.add nan b (F64.inf n) = F64.inf n ∧
        F64.div nan b (F64.inf n) = F64.signBit (F64.neg b != n) ∧
        F64.div nan (F64.inf n) b = F64.inf (n != F64.neg b) ∧
        (F64.isZero b = true → F64.mul nan (F64.inf n) b = nan ∧ F64.mul nan b (F64.inf n) = nan) ∧
        (F64.isZero b = false →
          F64.mul nan (F64.inf n) b = F64.inf (n != F64.neg b) ∧
            F64.mul nan b (F64.inf n) = F64.inf (F64.neg b != n))) ∧
    (F64.isFinite a = true → F64.isZero b = true →
      F64.div nan a b = if F64.isZero a then nan else F64.inf (F64.neg a != F64.neg b))

/-- R13: f64_of_int, of an integer and of a table's natural number, is exact up to 2^53 and is_zero, is_int16 say what
their names say. (The integer a pattern stands for, which R244 codes, is found exactly.) R109: the pattern of a decimal
number has its sign and is its value, rounded to nearest with ties to even where it is not exact (that rounding is the
model's deduction, log 21). -/
def Obligations.ConversionsAreExact : Prop :=
  (∀ i : Int, i.natAbs ≤ 2 ^ 53 → F64.isFinite (F64.ofInt i) = true ∧ F64.value (F64.ofInt i) = i) ∧
    (∀ n : Nat, n ≤ 2 ^ 53 → F64.isFinite (F64.ofNat n) = true ∧ F64.value (F64.ofNat n) = n) ∧
    (∀ x : DWord, F64.isZero x = true ↔ F64.isFinite x = true ∧ F64.value x = 0) ∧
    (∀ (x : DWord) (i : Int), F64.toInt? x = some i ↔ F64.isFinite x = true ∧ F64.value x = i) ∧
    (∀ x : DWord, F64.isInt16 x = true ↔
      F64.isFinite x = true ∧ ∃ i : Int, F64.value x = i ∧ -32768 ≤ i ∧ i ≤ 32767) ∧
    ∀ x : F64.Decimal, F64.RoundsTo x.value x.bits ∧ F64.neg x.bits = x.neg

/-- R212: rnd_ha returns NaN, infinities and magnitudes of 2^52 or more unchanged; else the result has x's sign and the
magnitude floor |x|, plus 1 when the part below is at least one half. -/
def Obligations.RndHaRoundsHalfAwayFromZero : Prop :=
  ∀ x : DWord,
    (F64.isFinite x = false → F64.rndHa x = x) ∧
    (F64.isFinite x = true →
      (2 ^ 52 ≤ |F64.value x| → F64.rndHa x = x) ∧
      (|F64.value x| < 2 ^ 52 →
        let r : Int := ⌊|F64.value x|⌋ + if 1 / 2 ≤ |F64.value x| - ⌊|F64.value x|⌋ then 1 else 0
        F64.isFinite (F64.rndHa x) = true ∧ F64.neg (F64.rndHa x) = F64.neg x ∧ |F64.value (F64.rndHa x)| = r))

/-- R214: QSCALE: t[k] = rnd_ha(f64_of_int(Q[k]) * QUALITY); the first k where t[k] is not finite or is below 1 raises
QuantRange(k) and changes nothing else; else QS becomes t. (The NaN pattern of a product is free, log 4.) -/
def Obligations.QscaleScalesTheTable : Prop :=
  encode .qscale = 0x00000020#32 ∧ ∀ s : State,
    ∃ ν : Fin 64 → DWord, (∀ k, F64.isQuietNan (ν k) = true) ∧
      let t : Fin 64 → DWord := fun k =>
        F64.rndHa (F64.mul (ν k) (F64.ofNat s.params.qtable[k.val].toNat) s.quality)
      let good : Fin 64 → Prop := fun k => F64.isFinite (t k) = true ∧ 1 ≤ F64.value (t k)
      ((∀ k, good k) → ∃ q : Vector DWord 64, exec .qscale s = .next (complete { s with qs := q }) ∧
        ∀ k : Fin 64, q[k.val] = t k) ∧
      (∀ k, ¬good k → (∀ j, j < k → good j) →
        exec .qscale s = .next (trapEntry .quantRange (BitVec.ofNat 64 k.val) s))

/-- R210, R213, R215, R216, R220: T holds the 64 patterns of R210; element (i, j) of MatMul is the products in order m =
0 to 7 summed left to right, each product and sum rounded; with DCT_IMPL = EXACT the forward transform is (T * BLK) * Tt
and the inverse (Tt * BLK) * T; else BLK becomes a result that meets the accuracy property of R220 and I11 (its bound
and the range of samples are parameters of the model's, log 6); nothing else changes. The NaN patterns are free (log 4).
-/
def Obligations.TransformsAreMatrixProducts : Prop :=
  encode .dctFwd = 0x00000021#32 ∧ encode .dctInv = 0x00000022#32 ∧
  (∀ (draws base : Nat) (a b : Vector DWord 64) (i j : Fin 8), ∃ ν : Nat → DWord,
    (∀ n, F64.isQuietNan (ν n) = true) ∧
    let p : Fin 8 → DWord := fun m => F64.mul (ν m.val) (at8 a i m) (at8 b m j)
    at8 (matMul draws base a b) i j =
      F64.add (ν 17) (F64.add (ν 16) (F64.add (ν 15) (F64.add (ν 14) (F64.add (ν 13) (F64.add (ν 12)
        (F64.add (ν 11) (p 0) (p 1)) (p 2)) (p 3)) (p 4)) (p 5)) (p 6)) (p 7)) ∧
  (let n : DWord → DWord := fun x => x ||| 0x8000000000000000#64
    let A := 0x3FD6A09E667F3BCD#64
    let B := 0x3FDF6297CFF75CB0#64
    let C := 0x3FDD906BCF328D46#64
    let D := 0x3FDA9B66290EA1A3#64
    let E := 0x3FD1C73B39AE68C8#64
    let F := 0x3FC87DE2A6AEA963#64
    let G := 0x3FB8F8B83C69A60B#64
    basisT.toList =
      [A, A, A, A, A, A, A, A, B, D, E, G, n G, n E, n D, n B,
        C, F, n F, n C, n C, n F, F, C, D, n G, n B, n E, E, B, G, n D,
        A, n A, n A, A, A, n A, n A, A, E, n B, G, D, n D, n G, B, n E,
        F, n C, C, n F, n F, C, n C, F, G, n E, D, n B, B, n D, E, n G]) ∧
  (∀ i j : Fin 8, at8 (transpose8 basisT) i j = at8 basisT j i) ∧
  ∀ s : State,
    (s.params.dctImpl = .exact →
      (∃ d e, exec .dctFwd s = .next (complete { s with
        blk := matMul s.draws e (matMul s.draws d basisT s.blk) (transpose8 basisT) })) ∧
      ∃ d e, exec .dctInv s = .next (complete { s with
        blk := matMul s.draws e (matMul s.draws d (transpose8 basisT) s.blk) basisT })) ∧
    ∀ limit bound : ℚ, s.params.dctImpl = .butterfly limit bound → 0 ≤ bound →
      (∃ d e r, exec .dctFwd s = .next (complete { s with blk := r }) ∧
        DctAccurate limit bound s.blk (matMul s.draws e (matMul s.draws d basisT s.blk) (transpose8 basisT)) r) ∧
      ∃ d e r, exec .dctInv s = .next (complete { s with blk := r }) ∧
        DctAccurate limit bound s.blk (matMul s.draws e (matMul s.draws d (transpose8 basisT) s.blk) basisT) r

/-- R217, R218: QUANT and DEQUANT replace every BLK[k] by rnd_ha of its quotient or product with QS[k], and change
nothing else. (The NaN pattern of a result is free, log 4.) -/
def Obligations.QuantAndDequantRoundElementwise : Prop :=
  encode .quant = 0x00000023#32 ∧ encode .dequant = 0x00000024#32 ∧ ∀ s : State,
    (∃ (ν : Fin 64 → DWord) (q : Vector DWord 64), (∀ k, F64.isQuietNan (ν k) = true) ∧
      exec .quant s = .next (complete { s with blk := q }) ∧
      ∀ k : Fin 64, q[k.val] = F64.rndHa (F64.div (ν k) s.blk[k.val] s.qs[k.val])) ∧
    (∃ (ν : Fin 64 → DWord) (q : Vector DWord 64), (∀ k, F64.isQuietNan (ν k) = true) ∧
      exec .dequant s = .next (complete { s with blk := q }) ∧
      ∀ k : Fin 64, q[k.val] = F64.rndHa (F64.mul (ν k) s.blk[k.val] s.qs[k.val]))

/-! ## Zig-zag and run length (44_zigzag_rle.md) -/

/-- R240, R241, R242: the order is the anti-diagonals' and names every cell once; ZZ_READ sets SEQ[k] to BLK[ZZ[k]],
ZZ_WRITE sets BLK[ZZ[k]] to SEQ[k], as bit patterns, and each undoes the other (this last is R242's own inference,
marked derived there). -/
def Obligations.ZigZagMovesPatternsInOrder : Prop :=
  encode .zzRead = 0x00000030#32 ∧ encode .zzWrite = 0x00000031#32 ∧
    (List.finRange 64).map (fun k => (zz k).val) = diagonalOrder ∧ zz.Bijective ∧
    ∀ s : State, ∃ q b : Vector DWord 64,
      exec .zzRead s = .next (complete { s with seq := q }) ∧
        exec .zzWrite s = .next (complete { s with blk := b }) ∧
        (∀ k : Fin 64, q[k.val] = s.blk[(zz k).val]) ∧ (∀ k : Fin 64, b[(zz k).val] = s.seq[k.val]) ∧
        exec .zzWrite { s with seq := q } = .next (complete { s with seq := q }) ∧
        exec .zzRead { s with blk := b } = .next (complete { s with blk := b })

/-- R243, R244: RLE_PACK raises OutOfRange(k), with nothing written, at the first k whose value is neither a zero nor an
integer in -32768..32767; else it appends the stream of R243, 24 bits for each non-zero coefficient and 24 for the
sentinel; a writer overflow keeps the bits that fit. -/
def Obligations.RlePackAppendsTheStream : Prop :=
  encode .rlePack = 0x00000038#32 ∧ ∀ s : State, writerOk s = true → accClean s.wr →
    (∀ k : Fin 64, (F64.isZero s.seq[k.val] || F64.isInt16 s.seq[k.val]) = false →
      (∀ j : Fin 64, j < k → (F64.isZero s.seq[j.val] || F64.isInt16 s.seq[j.val]) = true) →
      exec .rlePack s = .next (trapEntry .outOfRange (BitVec.ofNat 64 k.val) s)) ∧
    ((∀ k : Fin 64, (F64.isZero s.seq[k.val] || F64.isInt16 s.seq[k.val]) = true) →
      (rleStream s.seq).length =
        24 * (((List.finRange 64).filter fun k => !F64.isZero s.seq[k.val]).length + 1) ∧
      (roomFor s.wr (rleStream s.seq).length →
        ∃ t, exec .rlePack s = .next (complete t) ∧ Appends s t (rleStream s.seq)) ∧
      (¬roomFor s.wr (rleStream s.seq).length → ∃ t,
        exec .rlePack s = .next (trapEntry .outOfRange (s.wr.base.zeroExtend 64 + s.wr.cap.zeroExtend 64) t) ∧
        Appends s t ((rleStream s.seq).take (8 * s.wr.cap.toNat + 7 - writtenBits s.wr)) ∧
        t.wr.nacc = 7 ∧ t.wr.bytes = s.wr.cap))

/-- R245: after data pairs that fit, the next pair ends RLE_UNPACK: truncated, or (s, 0) with s above 0, or past index
63, it raises BadData with R_POS after the pair and SEQ unchanged; the sentinel ends it with SEQ holding each value at
its place and +0.0 elsewhere. After 64 data pairs at most some pair ends it. -/
def Obligations.RleUnpackExpandsTheStream : Prop :=
  encode .rleUnpack = 0x00000039#32 ∧ ∀ s : State, readerOk s = true →
    (∃ j, j ≤ 64 ∧ (∀ i, i < j → dataPair s i) ∧ ¬dataPair s j) ∧
    ∀ j, (∀ i, i < j → dataPair s i) →
      let after := afterRead s (24 * (j + 1))
      (padCount s (24 * (j + 1)) ≠ 0 →
        exec .rleUnpack s = .next (trapEntry .badData after.rd.pos after)) ∧
      (padCount s (24 * (j + 1)) = 0 →
        (pairAt s j = 0 → skipAt s j ≠ 0 →
          exec .rleUnpack s = .next (trapEntry .badData after.rd.pos after)) ∧
        (pairAt s j ≠ 0 → 63 < placeAt s j →
          exec .rleUnpack s = .next (trapEntry .badData after.rd.pos after)) ∧
        (pairAt s j = 0 → skipAt s j = 0 →
          ∃ q : Vector DWord 64, exec .rleUnpack s = .next (complete { after with seq := q }) ∧
            (∀ i (h : placeAt s i < 64), i < j →
              q[placeAt s i] = F64.ofInt (BitVec.ofNat 16 (pairAt s i)).toInt) ∧
            ∀ k : Fin 64, (∀ i, i < j → placeAt s i ≠ k.val) → q[k.val] = 0))

/-- RLE_PACK from a byte boundary, then RLE_UNPACK with the reader at exactly the bytes written, gives SEQ back, with
every zero as +0.0; the reader ends at the end of the stream. (R246 says so and marks it as its own inference. `d` is
the state the host has prepared.) -/
def Obligations.RleRoundTrip : Prop :=
  ∀ s t d : State, s.params.legal →
    (∀ k : Fin 64, (F64.isZero s.seq[k.val] || F64.isInt16 s.seq[k.val]) = true) →
    writerOk s = true → s.wr.nacc = 0 → s.wr.acc = 0 → s.st.err = false →
    exec .rlePack s = .next t → t.st.err = false →
    d.lmem = t.lmem → d.params = t.params →
    d.rd = ⟨s.wr.base + s.wr.bytes, t.wr.bytes - s.wr.bytes, 0, 0⟩ →
    ∃ u, exec .rleUnpack d = .next (complete u) ∧ u.rd.pos.toNat = 8 * d.rd.len.toNat ∧ u.rd.pad = 0 ∧
      ∀ k : Fin 64, u.seq[k.val] = if F64.isZero s.seq[k.val] then 0 else s.seq[k.val]

/-! ## Delta predictor (45_delta.md) -/

/-- R259, R260: DELTA_ENC: the region and overlap checks; then the delta-body record of the source bytes, 16 + N + S
bytes, and DLEN = N; a writer overflow keeps the bits that fit and DLEN. -/
def Obligations.DeltaEncAppendsTheRecord : Prop :=
  encode .deltaEnc = 0x00000040#32 ∧ ∀ s : State, writerOk s = true → accClean s.wr →
    (s.params.lmemSize < s.srcAddr.toNat + s.srcLen.toNat →
      exec .deltaEnc s = .next (trapEntry .outOfRange (s.srcAddr.zeroExtend 64 + s.srcLen.zeroExtend 64) s)) ∧
    (s.srcAddr.toNat + s.srcLen.toNat ≤ s.params.lmemSize →
      ((srcRegion s).overlaps (writerRegion s) = true → exec .deltaEnc s = .next (trapEntry .overlap 0 s)) ∧
      ((srcRegion s).overlaps (writerRegion s) = false →
        let bits := deltaRecord (regionBytes s (srcRegion s))
        bits.length = 8 * (16 + s.srcLen.toNat + (s.srcLen.toNat - 3 + 7) / 8) ∧
        (roomFor s.wr bits.length → ∃ t u, exec .deltaEnc s = .next (complete u) ∧
          u = { t with dLen := s.srcLen.zeroExtend 64 } ∧ Appends s t bits) ∧
        (¬roomFor s.wr bits.length → ∃ t,
          exec .deltaEnc s =
            .next (trapEntry .outOfRange (s.wr.base.zeroExtend 64 + s.wr.cap.zeroExtend 64) t) ∧
          Appends s t (bits.take (8 * s.wr.cap.toNat + 7 - writtenBits s.wr)) ∧
          t.wr.nacc = 7 ∧ t.wr.bytes = s.wr.cap)))

/-- R261: DELTA_DEC: the region and overlap checks, then the record's own checks in order, each with its info and the
reader moved over what was read; then the rebuilt bytes: all N of them with DLEN = N when each lies in 0..255, else
BadData with the first index that does not, the bytes before it written and DLEN unchanged. -/
def Obligations.DeltaDecRebuildsTheBytes : Prop :=
  encode .deltaDec = 0x00000041#32 ∧ ∀ s : State, readerOk s = true →
    (s.params.lmemSize < s.dstAddr.toNat + s.dstLen.toNat →
      exec .deltaDec s = .next (trapEntry .outOfRange (s.dstAddr.zeroExtend 64 + s.dstLen.zeroExtend 64) s)) ∧
    (s.dstAddr.toNat + s.dstLen.toNat ≤ s.params.lmemSize →
      ((readerRegion s).overlaps (dstRegion s) = true → exec .deltaDec s = .next (trapEntry .overlap 0 s)) ∧
      ((readerRegion s).overlaps (dstRegion s) = false →
        let n := valueOf (streamBits s s.rd.pos 64)
        let h := 128 + 8 * n
        let mag : Nat → Nat := fun i => valueOf (streamBits s (s.rd.pos + BitVec.ofNat 64 (64 + 8 * i)) 8)
        let sLen := valueOf (streamBits s (s.rd.pos + BitVec.ofNat 64 (64 + 8 * n)) 64)
        let minus : Nat → Bool := fun j => streamBit s (s.rd.pos + BitVec.ofNat 64 (h + j))
        let rebuilt : (Nat → Byte) → Nat → Int := fun x i =>
          if i < 3 then mag i
          else if minus (i - 3) then ((x (i - 3)).toNat : Int) - mag i else ((x (i - 3)).toNat : Int) + mag i
        (padCount s 64 ≠ 0 →
          exec .deltaDec s = .next (trapEntry .badData (s.rd.pos + 64) (afterRead s 64))) ∧
        (padCount s 64 = 0 → s.dstLen.toNat < n →
          exec .deltaDec s = .next (trapEntry .outOfRange (BitVec.ofNat 64 n) (afterRead s 64))) ∧
        (padCount s 64 = 0 → n ≤ s.dstLen.toNat →
          let end_ := s.rd.pos + BitVec.ofNat 64 h
          (padCount s h ≠ 0 → exec .deltaDec s = .next (trapEntry .badData end_ (afterRead s h))) ∧
          (padCount s h = 0 →
            (8 * sLen < n - 3 →
              exec .deltaDec s = .next (trapEntry .badData (BitVec.ofNat 64 sLen) (afterRead s h))) ∧
            (n - 3 ≤ 8 * sLen → 8 * s.rd.len.toNat - end_.toNat < 8 * sLen →
              exec .deltaDec s = .next (trapEntry .badData end_ (afterRead s h))) ∧
            (n - 3 ≤ 8 * sLen → 8 * sLen ≤ 8 * s.rd.len.toNat - end_.toNat →
              let u := afterRead s (h + 8 * sLen)
              ∀ x : Nat → Byte,
                ((∀ i, i < n → ((x i).toNat : Int) = rebuilt x i) →
                  ∃ m, exec .deltaDec s = .next (complete { u with lmem := m, dLen := BitVec.ofNat 64 n }) ∧
                    ∀ a, Memory.read? m a =
                      if s.dstAddr.toNat ≤ a ∧ a < s.dstAddr.toNat + n then some (x (a - s.dstAddr.toNat))
                      else Memory.read? s.lmem a) ∧
                (∀ k, k < n → (∀ i, i < k → ((x i).toNat : Int) = rebuilt x i) →
                  rebuilt x k < 0 ∨ 255 < rebuilt x k →
                  ∃ m, exec .deltaDec s = .next (trapEntry .badData (BitVec.ofNat 64 k) { u with lmem := m }) ∧
                    ∀ a, Memory.read? m a =
                      if s.dstAddr.toNat ≤ a ∧ a < s.dstAddr.toNat + k then some (x (a - s.dstAddr.toNat))
                      else Memory.read? s.lmem a))))))

/-- DELTA_ENC of source bytes that hold values into a writer fresh from BC_WINIT leaves no partial byte, and DELTA_DEC
with the reader at exactly the bytes written gives the source bytes back, with DLEN = N and no error. (R262 says so
and marks it as its own inference. `d` is the state the host has prepared.) -/
def Obligations.DeltaRoundTrip : Prop :=
  ∀ s t d : State,
    (∀ i, i < s.srcLen.toNat → ∃ v, Memory.read? s.lmem (s.srcAddr.toNat + i) = some v) →
    writerOk s = true → s.wr.bytes = 0 → s.wr.nacc = 0 → s.wr.acc = 0 → s.st.err = false →
    exec .deltaEnc s = .next t → t.st.err = false →
    d.lmem = t.lmem → d.params = t.params → d.rd = ⟨t.wr.base, t.wr.bytes, 0, 0⟩ →
    d.dstAddr.toNat + d.dstLen.toNat ≤ d.params.lmemSize → s.srcLen.toNat ≤ d.dstLen.toNat →
    (readerRegion d).overlaps (dstRegion d) = false →
    t.wr.nacc = 0 ∧ ∃ u, exec .deltaDec d = .next (complete u) ∧ u.dLen = s.srcLen.zeroExtend 64 ∧
      ∀ i, i < s.srcLen.toNat →
        Memory.read? u.lmem (d.dstAddr.toNat + i) = Memory.read? s.lmem (s.srcAddr.toNat + i)

/-! ## The whole machine -/

/-- R282: trap entry writes ERRCODE, ERRINFO, ERR, BUSY, DONE and the latch, and nothing else (the draw counter is the
model's own, log 1). -/
def Obligations.TrapEntryIsTheWholeMechanism : Prop :=
  ∀ (e : ErrorKind) (info : DWord) (s : State),
    finish (.raised e info s) = .next { s with
      errCode := e.code
      errInfo := info
      st := { s.st with err := true, busy := false, done := true }
      latch := none
      draws := s.draws + 1 }

/-- R280: a command raises only the errors of its row, and codes 5 and 10 to 255 are never produced. -/
def Obligations.CommandsRaiseOnlyTheirErrors : Prop :=
  ∀ (i : Instr) (s t : State), exec i s = .next t → s.st.err = false → t.st.err = true →
    ∃ e ∈ raises i, e ≠ .encodingError ∧ t.errCode = e.code

/-- R102: a command that ends in a next state changes only the state its row lists as written (and the bits and
registers of completion, which every command writes). -/
def Obligations.CommandsWriteOnlyTheirRow : Prop :=
  ∀ (i : Instr) (s t : State), exec i s = .next t → Framed (writes i) s t

/-- R102, R66: every byte of LMEM outside the region the command stores to reads as before: the writer's region, the
destination region, or none for a command that stores nothing. -/
def Obligations.StoresStayInTheRegion : Prop :=
  ∀ (i : Instr) (s t : State), exec i s = .next t →
    ∀ a : Nat, (∀ r, storeRegion s i = some r → r.contains a = false) →
      Memory.read? t.lmem a = Memory.read? s.lmem a

/-- A command that raises has changed at most what R283 lists for it, or R180 and R261 say of R_POS. (R283 marks the
list as its own inference, "[derived: from the pseudocode of rules R140 to R261]", and leaves out what those two say:
log 23.) -/
def Obligations.RaisesLeaveOnlyPartialEffects : Prop :=
  ∀ (i : Instr) (s t : State), exec i s = .next t → s.st.err = false → t.st.err = true →
    Framed (raisedWrites i) s t

/-- R22 to R47: what every word of the map reads as: STATUS and CTRL bit by bit, the narrow registers with zeros above,
W_ACC with NACC in [11:8] and ACC in [7:0], SYMLEN with LEN in [15:8] and SYM in [7:0], the 64-bit registers in two
halves. With BUSY = 0 a read gives this value; a host write to a read-write word is what a later read returns, in the
bits the map uses, and changes no other word; a write to a read-only word changes nothing. -/
def Obligations.HostWritesStoreOrAreIgnored : Prop :=
  (∀ s : State,
    let word : Csr → Nat := fun c => (csrValue s c).toNat
    let wide : (Half → Csr) → Nat := fun r => 2 ^ 32 * word (r .hi) + word (r .lo)
    (∀ i, (csrValue s .ctrl).getLsbD i = (decide (i = 1) && s.ctrlIe)) ∧
    (∀ i, (csrValue s .status).getLsbD i =
      if i = 0 then s.st.busy else if i = 1 then s.st.done else if i = 2 then s.st.err
      else if i = 3 then s.st.ur else if i = 4 then s.st.ovr else false) ∧
    word .id = 0x494D4331 ∧ word .errCode = s.errCode.toNat ∧ wide .errInfo = s.errInfo.toNat ∧
    word .cmd = s.cmd.toNat ∧ word .srcAddr = s.srcAddr.toNat ∧ word .srcLen = s.srcLen.toNat ∧
    word .dstAddr = s.dstAddr.toNat ∧ word .dstLen = s.dstLen.toNat ∧ wide .wData = s.wData.toNat ∧
    wide .rData = s.rData.toNat ∧ word .rBase = s.rd.base.toNat ∧ word .rLen = s.rd.len.toNat ∧
    wide .rPos = s.rd.pos.toNat ∧ wide .padBits = s.rd.pad.toNat ∧ word .wBase = s.wr.base.toNat ∧
    word .wCap = s.wr.cap.toNat ∧ word .wBytes = s.wr.bytes.toNat ∧
    word .wAcc = 256 * s.wr.nacc.val + s.wr.acc.toNat ∧ word .maxLen = s.maxLen.toNat ∧
    word .lutCnt = s.lutCnt.toNat ∧ wide .count = s.count.toNat ∧ wide .quality = s.quality.toNat ∧
    wide .dLen = s.dLen.toNat ∧
    (∀ i : Fin 256, word (.lutVal i) = s.lut[i.val].val.toNat ∧
      word (.lutSymLen i) = 256 * s.lut[i.val].len.toNat + s.lut[i.val].sym.toNat ∧
      word (.cwVal i) = s.cwtab[i.val].val.toNat ∧ word (.cwLen i) = s.cwtab[i.val].len.toNat ∧
      word (.hist i) = s.hist[i.val].toNat) ∧
    ∀ k : Fin 64, wide (.blk k) = s.blk[k.val].toNat ∧ wide (.seq k) = s.seq[k.val].toNat ∧
      wide (.qs k) = s.qs[k.val].toNat ∧ word (.q k) = s.params.qtable[k.val].toNat) ∧
  ∀ (s : State) (c : Csr) (v : Word), s.st.busy = false → csrRead s c = csrValue s c ∧
    (c ≠ .ctrl → c ≠ .status → c ≠ .cmd →
      (c.writable = true →
        csrRead (hostCsrWrite (csrOffset c) v s) c = v &&& csrMask c ∧
          ∀ d : Csr, d ≠ c → csrRead (hostCsrWrite (csrOffset c) v s) d = csrRead s d) ∧
      (c.writable = false → hostCsrWrite (csrOffset c) v s = s))

/-- R62: on the host's turn a misaligned or sub-word CSR access is refused by name (log 13). -/
def Obligations.InexpressibleAccessesAreRefused : Prop :=
  ∀ (s : State) (rest : List HostOp), turn s = .host →
    (∀ (off : CsrOffset) (v : Word), off.toNat % 4 ≠ 0 → s.script = .csrWrite off v :: rest →
      step s = .refused .misalignedCsrAccess) ∧
    (∀ off : CsrOffset, off.toNat % 4 ≠ 0 → s.script = .csrRead off :: rest →
      step s = .refused .misalignedCsrAccess) ∧
    (∀ (off : CsrOffset) (n : Nat), s.script = .csrNarrow off n :: rest → step s = .refused .subWordCsrAccess)

/-- The invariant holds after power-on reset (R310). -/
def Obligations.ResetMeetsTheInvariant : Prop := Inv State.reset

/-- From every state of the invariant, a step's next state meets it: LMEM's list stays canonical and inside LMEM (R60,
R66), the latch is there exactly while BUSY = 1 (R48), the cursors' regions stay in LMEM with W_BYTES at most W_CAP
(R34, R66), ERRCODE stays a code of R280, every QS[k] stays finite and at least 1 (R217), and the parameters stay
legal (R6). -/
def Obligations.EveryStepKeepsTheInvariant : Prop :=
  ∀ s t : State, Inv s → step s = .next t → Inv t ∧ t.params = s.params

/-- R122, R126, R66: in a state of the invariant a step never faults: every command ends in DONE, and a step stops
only at a host access that the interface cannot express (R62). -/
def Obligations.StepsGoOn : Prop :=
  ∀ s : State, Inv s → (turn s = .host → ∀ op ∈ s.script.head?, hostOpOk op = true) → ∃ t, step s = .next t
end

