-- ==== Sys2Proof/Laws/Memory.lean ====
section
/-! SUPPORT. LMEM's list: read after write, and that every memory operation keeps the canonical form. -/

namespace Sys2Proof.Machine

theorem Memory.read?_write_same (m : List Host.Cell) (a : Nat) (v : Byte) :
    Memory.read? (Memory.write m a v) a = some v := by
  induction m with
  | nil => simp [Memory.write, Memory.read?]
  | cons c m ih =>
    unfold Memory.write
    split_ifs with h1 h2
    · simp [Memory.read?]
    · simp [Memory.read?]
    · simp [Memory.read?, ih, Ne.symm h2]

theorem Memory.read?_write_other (m : List Host.Cell) (a b : Nat) (v : Byte) (h : b ≠ a) :
    Memory.read? (Memory.write m a v) b = Memory.read? m b := by
  induction m with
  | nil => simp [Memory.write, Memory.read?, Ne.symm h]
  | cons c m ih =>
    unfold Memory.write
    split_ifs with h1 h2
    · simp [Memory.read?, Ne.symm h]
    · subst h2
      simp [Memory.read?, Ne.symm h]
    · simp [Memory.read?, ih]

/-- Read after write, both cases. -/
theorem Memory.read?_write (m : List Host.Cell) (a b : Nat) (v : Byte) :
    Memory.read? (Memory.write m a v) b = if b = a then some v else Memory.read? m b := by
  split_ifs with h
  · exact h ▸ Memory.read?_write_same m a v
  · exact Memory.read?_write_other m a b v h

/-- A write lists no address but its own and those listed before. -/
theorem Memory.mem_write {m : List Host.Cell} {a : Nat} {v : Byte} {c : Host.Cell}
    (h : c ∈ Memory.write m a v) : c = (a, v) ∨ c ∈ m := by
  induction m with
  | nil => simpa [Memory.write] using h
  | cons d m ih =>
    unfold Memory.write at h
    split_ifs at h with h1 h2
    · simpa using h
    · rcases List.mem_cons.1 h with h | h
      · exact .inl h
      · exact .inr (List.mem_cons_of_mem _ h)
    · rcases List.mem_cons.1 h with h | h
      · exact .inr (h ▸ List.mem_cons_self)
      · exact (ih h).imp id (List.mem_cons_of_mem _)

/-- A write keeps the canonical form. -/
theorem Memory.wf_write {m : List Host.Cell} (a : Nat) (v : Byte) (h : Memory.wf m) :
    Memory.wf (Memory.write m a v) := by
  induction m with
  | nil => simp [Memory.write, Memory.wf]
  | cons c m ih =>
    obtain ⟨hc, hm⟩ := List.pairwise_cons.1 h
    unfold Memory.write
    split_ifs with h1 h2
    · refine List.pairwise_cons.2 ⟨fun d hd => ?_, h⟩
      rcases List.mem_cons.1 hd with rfl | hd
      · exact h1
      · exact lt_trans h1 (hc d hd)
    · exact List.pairwise_cons.2 ⟨fun d hd => by simpa [h2] using hc d hd, hm⟩
    · refine List.pairwise_cons.2 ⟨fun d hd => ?_, ih hm⟩
      rcases Memory.mem_write hd with rfl | hd
      · simpa using by omega
      · exact hc d hd

theorem Memory.wf_writeList (vs : List Byte) :
    ∀ {m : List Host.Cell} (a : Nat), Memory.wf m → Memory.wf (Memory.writeList m a vs) := by
  induction vs with
  | nil => exact fun _ h => h
  | cons v vs ih => exact fun a h => ih (a + 1) (Memory.wf_write a v h)

theorem Memory.mem_writeList (vs : List Byte) :
    ∀ {m : List Host.Cell} {a : Nat} {c : Host.Cell}, c ∈ Memory.writeList m a vs →
      c ∈ m ∨ (a ≤ c.1 ∧ c.1 < a + vs.length) := by
  induction vs with
  | nil => exact fun h => .inl h
  | cons v vs ih =>
    intro m a c h
    rcases ih h with h | h
    · rcases Memory.mem_write h with rfl | h
      · exact .inr ⟨le_refl _, by simp⟩
      · exact .inl h
    · exact .inr ⟨by omega, by simp only [List.length_cons]; omega⟩

/-- A list write below its bytes, above them, and at each of them. -/
theorem Memory.read?_writeList (vs : List Byte) :
    ∀ (m : List Host.Cell) (a b : Nat), Memory.read? (Memory.writeList m a vs) b =
      if a ≤ b ∧ b < a + vs.length then vs[b - a]? else Memory.read? m b := by
  induction vs with
  | nil => intro m a b; simp [Memory.writeList]
  | cons v vs ih =>
    intro m a b
    rw [Memory.writeList, ih, Memory.read?_write]
    by_cases hb : b = a
    · subst hb
      simp
    · by_cases h1 : a + 1 ≤ b ∧ b < a + 1 + vs.length
      · rw [if_pos h1, if_pos ⟨by omega, by simp only [List.length_cons]; omega⟩,
          show b - a = (b - (a + 1)) + 1 by omega, List.getElem?_cons_succ]
      · rw [if_neg h1, if_neg hb, if_neg (by simp only [List.length_cons]; omega)]

/-- What `memWrite` leaves: every field but LMEM. -/
theorem lmemOk_memWrite {s : State} {a : Nat} {v : Byte} (h : lmemOk s) (ha : a < s.params.lmemSize) :
    lmemOk (memWrite s a v) :=
  ⟨Memory.wf_write a v h.1, fun _ hc => (Memory.mem_write hc).elim (fun e => e ▸ ha) (h.2 _)⟩

@[simp] theorem regionBytes_length (s : State) (r : Region) : (regionBytes s r).length = r.len.toNat := by
  simp [regionBytes]

/-- A region whose bytes hold values reads the same in every state with that LMEM. -/
theorem regionBytes_congr {s p : State} {r : Region} (hv : ∀ i, i < r.len.toNat →
    ∃ v, Memory.read? s.lmem (r.base.toNat + i) = some v)
    (hm : p.lmem = s.lmem) : regionBytes p r = regionBytes s r := by
  refine List.map_congr_left fun i hi => ?_
  obtain ⟨v, hv⟩ := hv i (by simpa using hi)
  rw [memRead, memRead, hm, hv]
  rfl

end Sys2Proof.Machine
end

