-- ==== Sys2Proof/Laws/State.lean ====
section
/-! SUPPORT. One lemma per field per named update of the state, true by definition, so that no later proof unfolds a
record update. -/

namespace Sys2Proof.Machine

/-- Element i of a table by index. -/
@[simp] theorem tabulate_get {α : Type} {n : Nat} (f : Fin n → α) (i : Nat) (h : i < n) :
    (tabulate f)[i] = f ⟨i, h⟩ := by simp [tabulate]

/-! ## Completion (R123) -/

@[simp] theorem complete_params (s : State) : (complete s).params = s.params := rfl
@[simp] theorem complete_ctrlIe (s : State) : (complete s).ctrlIe = s.ctrlIe := rfl
@[simp] theorem complete_st (s : State) : (complete s).st = s.st.completed := rfl
@[simp] theorem complete_errCode (s : State) : (complete s).errCode = s.errCode := rfl
@[simp] theorem complete_errInfo (s : State) : (complete s).errInfo = s.errInfo := rfl
@[simp] theorem complete_cmd (s : State) : (complete s).cmd = s.cmd := rfl
@[simp] theorem complete_srcAddr (s : State) : (complete s).srcAddr = s.srcAddr := rfl
@[simp] theorem complete_srcLen (s : State) : (complete s).srcLen = s.srcLen := rfl
@[simp] theorem complete_dstAddr (s : State) : (complete s).dstAddr = s.dstAddr := rfl
@[simp] theorem complete_dstLen (s : State) : (complete s).dstLen = s.dstLen := rfl
@[simp] theorem complete_wData (s : State) : (complete s).wData = s.wData := rfl
@[simp] theorem complete_rData (s : State) : (complete s).rData = s.rData := rfl
@[simp] theorem complete_rd (s : State) : (complete s).rd = s.rd := rfl
@[simp] theorem complete_wr (s : State) : (complete s).wr = s.wr := rfl
@[simp] theorem complete_maxLen (s : State) : (complete s).maxLen = s.maxLen := rfl
@[simp] theorem complete_lutCnt (s : State) : (complete s).lutCnt = s.lutCnt := rfl
@[simp] theorem complete_count (s : State) : (complete s).count = s.count := rfl
@[simp] theorem complete_quality (s : State) : (complete s).quality = s.quality := rfl
@[simp] theorem complete_dLen (s : State) : (complete s).dLen = s.dLen := rfl
@[simp] theorem complete_lut (s : State) : (complete s).lut = s.lut := rfl
@[simp] theorem complete_cwtab (s : State) : (complete s).cwtab = s.cwtab := rfl
@[simp] theorem complete_hist (s : State) : (complete s).hist = s.hist := rfl
@[simp] theorem complete_blk (s : State) : (complete s).blk = s.blk := rfl
@[simp] theorem complete_seq (s : State) : (complete s).seq = s.seq := rfl
@[simp] theorem complete_qs (s : State) : (complete s).qs = s.qs := rfl
@[simp] theorem complete_lmem (s : State) : (complete s).lmem = s.lmem := rfl
@[simp] theorem complete_latch (s : State) : (complete s).latch = none := rfl
@[simp] theorem complete_script (s : State) : (complete s).script = s.script := rfl
@[simp] theorem complete_sched (s : State) : (complete s).sched = s.sched := rfl
@[simp] theorem complete_hostData (s : State) : (complete s).hostData = s.hostData := rfl
@[simp] theorem complete_draws (s : State) : (complete s).draws = s.draws + 1 := rfl

/-! ## Trap entry (R282) -/

@[simp] theorem trapEntry_params (e : ErrorKind) (info : DWord) (s : State) : (trapEntry e info s).params =
    s.params := rfl
@[simp] theorem trapEntry_ctrlIe (e : ErrorKind) (info : DWord) (s : State) : (trapEntry e info s).ctrlIe =
    s.ctrlIe := rfl
@[simp] theorem trapEntry_st (e : ErrorKind) (info : DWord) (s : State) : (trapEntry e info s).st = s.st.failed := rfl
@[simp] theorem trapEntry_errCode (e : ErrorKind) (info : DWord) (s : State) : (trapEntry e info s).errCode =
    e.code := rfl
@[simp] theorem trapEntry_errInfo (e : ErrorKind) (info : DWord) (s : State) : (trapEntry e info s).errInfo = info :=
    rfl
@[simp] theorem trapEntry_cmd (e : ErrorKind) (info : DWord) (s : State) : (trapEntry e info s).cmd = s.cmd := rfl
@[simp] theorem trapEntry_srcAddr (e : ErrorKind) (info : DWord) (s : State) : (trapEntry e info s).srcAddr =
    s.srcAddr := rfl
@[simp] theorem trapEntry_srcLen (e : ErrorKind) (info : DWord) (s : State) : (trapEntry e info s).srcLen =
    s.srcLen := rfl
@[simp] theorem trapEntry_dstAddr (e : ErrorKind) (info : DWord) (s : State) : (trapEntry e info s).dstAddr =
    s.dstAddr := rfl
@[simp] theorem trapEntry_dstLen (e : ErrorKind) (info : DWord) (s : State) : (trapEntry e info s).dstLen =
    s.dstLen := rfl
@[simp] theorem trapEntry_wData (e : ErrorKind) (info : DWord) (s : State) : (trapEntry e info s).wData = s.wData := rfl
@[simp] theorem trapEntry_rData (e : ErrorKind) (info : DWord) (s : State) : (trapEntry e info s).rData = s.rData := rfl
@[simp] theorem trapEntry_rd (e : ErrorKind) (info : DWord) (s : State) : (trapEntry e info s).rd = s.rd := rfl
@[simp] theorem trapEntry_wr (e : ErrorKind) (info : DWord) (s : State) : (trapEntry e info s).wr = s.wr := rfl
@[simp] theorem trapEntry_maxLen (e : ErrorKind) (info : DWord) (s : State) : (trapEntry e info s).maxLen =
    s.maxLen := rfl
@[simp] theorem trapEntry_lutCnt (e : ErrorKind) (info : DWord) (s : State) : (trapEntry e info s).lutCnt =
    s.lutCnt := rfl
@[simp] theorem trapEntry_count (e : ErrorKind) (info : DWord) (s : State) : (trapEntry e info s).count = s.count := rfl
@[simp] theorem trapEntry_quality (e : ErrorKind) (info : DWord) (s : State) : (trapEntry e info s).quality =
    s.quality := rfl
@[simp] theorem trapEntry_dLen (e : ErrorKind) (info : DWord) (s : State) : (trapEntry e info s).dLen = s.dLen := rfl
@[simp] theorem trapEntry_lut (e : ErrorKind) (info : DWord) (s : State) : (trapEntry e info s).lut = s.lut := rfl
@[simp] theorem trapEntry_cwtab (e : ErrorKind) (info : DWord) (s : State) : (trapEntry e info s).cwtab = s.cwtab := rfl
@[simp] theorem trapEntry_hist (e : ErrorKind) (info : DWord) (s : State) : (trapEntry e info s).hist = s.hist := rfl
@[simp] theorem trapEntry_blk (e : ErrorKind) (info : DWord) (s : State) : (trapEntry e info s).blk = s.blk := rfl
@[simp] theorem trapEntry_seq (e : ErrorKind) (info : DWord) (s : State) : (trapEntry e info s).seq = s.seq := rfl
@[simp] theorem trapEntry_qs (e : ErrorKind) (info : DWord) (s : State) : (trapEntry e info s).qs = s.qs := rfl
@[simp] theorem trapEntry_lmem (e : ErrorKind) (info : DWord) (s : State) : (trapEntry e info s).lmem = s.lmem := rfl
@[simp] theorem trapEntry_latch (e : ErrorKind) (info : DWord) (s : State) : (trapEntry e info s).latch = none := rfl
@[simp] theorem trapEntry_script (e : ErrorKind) (info : DWord) (s : State) : (trapEntry e info s).script =
    s.script := rfl
@[simp] theorem trapEntry_sched (e : ErrorKind) (info : DWord) (s : State) : (trapEntry e info s).sched = s.sched := rfl
@[simp] theorem trapEntry_hostData (e : ErrorKind) (info : DWord) (s : State) : (trapEntry e info s).hostData =
    s.hostData := rfl
@[simp] theorem trapEntry_draws (e : ErrorKind) (info : DWord) (s : State) : (trapEntry e info s).draws =
    s.draws + 1 := rfl

/-! ## Acceptance (R121) -/

@[simp] theorem acceptCommand_params (w : Word) (s : State) : (acceptCommand w s).params = s.params := rfl
@[simp] theorem acceptCommand_ctrlIe (w : Word) (s : State) : (acceptCommand w s).ctrlIe = s.ctrlIe := rfl
@[simp] theorem acceptCommand_st (w : Word) (s : State) : (acceptCommand w s).st = s.st.accepted := rfl
@[simp] theorem acceptCommand_errCode (w : Word) (s : State) : (acceptCommand w s).errCode = 0 := rfl
@[simp] theorem acceptCommand_errInfo (w : Word) (s : State) : (acceptCommand w s).errInfo = 0 := rfl
@[simp] theorem acceptCommand_cmd (w : Word) (s : State) : (acceptCommand w s).cmd = w := rfl
@[simp] theorem acceptCommand_srcAddr (w : Word) (s : State) : (acceptCommand w s).srcAddr = s.srcAddr := rfl
@[simp] theorem acceptCommand_srcLen (w : Word) (s : State) : (acceptCommand w s).srcLen = s.srcLen := rfl
@[simp] theorem acceptCommand_dstAddr (w : Word) (s : State) : (acceptCommand w s).dstAddr = s.dstAddr := rfl
@[simp] theorem acceptCommand_dstLen (w : Word) (s : State) : (acceptCommand w s).dstLen = s.dstLen := rfl
@[simp] theorem acceptCommand_wData (w : Word) (s : State) : (acceptCommand w s).wData = s.wData := rfl
@[simp] theorem acceptCommand_rData (w : Word) (s : State) : (acceptCommand w s).rData = s.rData := rfl
@[simp] theorem acceptCommand_rd (w : Word) (s : State) : (acceptCommand w s).rd = s.rd := rfl
@[simp] theorem acceptCommand_wr (w : Word) (s : State) : (acceptCommand w s).wr = s.wr := rfl
@[simp] theorem acceptCommand_maxLen (w : Word) (s : State) : (acceptCommand w s).maxLen = s.maxLen := rfl
@[simp] theorem acceptCommand_lutCnt (w : Word) (s : State) : (acceptCommand w s).lutCnt = s.lutCnt := rfl
@[simp] theorem acceptCommand_count (w : Word) (s : State) : (acceptCommand w s).count = s.count := rfl
@[simp] theorem acceptCommand_quality (w : Word) (s : State) : (acceptCommand w s).quality = s.quality := rfl
@[simp] theorem acceptCommand_dLen (w : Word) (s : State) : (acceptCommand w s).dLen = s.dLen := rfl
@[simp] theorem acceptCommand_lut (w : Word) (s : State) : (acceptCommand w s).lut = s.lut := rfl
@[simp] theorem acceptCommand_cwtab (w : Word) (s : State) : (acceptCommand w s).cwtab = s.cwtab := rfl
@[simp] theorem acceptCommand_hist (w : Word) (s : State) : (acceptCommand w s).hist = s.hist := rfl
@[simp] theorem acceptCommand_blk (w : Word) (s : State) : (acceptCommand w s).blk = s.blk := rfl
@[simp] theorem acceptCommand_seq (w : Word) (s : State) : (acceptCommand w s).seq = s.seq := rfl
@[simp] theorem acceptCommand_qs (w : Word) (s : State) : (acceptCommand w s).qs = s.qs := rfl
@[simp] theorem acceptCommand_lmem (w : Word) (s : State) : (acceptCommand w s).lmem = s.lmem := rfl
@[simp] theorem acceptCommand_latch (w : Word) (s : State) : (acceptCommand w s).latch = some w := rfl
@[simp] theorem acceptCommand_script (w : Word) (s : State) : (acceptCommand w s).script = s.script := rfl
@[simp] theorem acceptCommand_sched (w : Word) (s : State) : (acceptCommand w s).sched = s.sched := rfl
@[simp] theorem acceptCommand_hostData (w : Word) (s : State) : (acceptCommand w s).hostData = s.hostData := rfl
@[simp] theorem acceptCommand_draws (w : Word) (s : State) : (acceptCommand w s).draws = s.draws := rfl

/-! ## The write to STATUS (R25, R285) -/

@[simp] theorem acknowledge_params (v : Word) (s : State) : (acknowledge v s).params = s.params := rfl
@[simp] theorem acknowledge_ctrlIe (v : Word) (s : State) : (acknowledge v s).ctrlIe = s.ctrlIe := rfl
@[simp] theorem acknowledge_st (v : Word) (s : State) : (acknowledge v s).st = s.st.acknowledged v := rfl
@[simp] theorem acknowledge_errCode (v : Word) (s : State) : (acknowledge v s).errCode = s.errCode := rfl
@[simp] theorem acknowledge_errInfo (v : Word) (s : State) : (acknowledge v s).errInfo = s.errInfo := rfl
@[simp] theorem acknowledge_cmd (v : Word) (s : State) : (acknowledge v s).cmd = s.cmd := rfl
@[simp] theorem acknowledge_srcAddr (v : Word) (s : State) : (acknowledge v s).srcAddr = s.srcAddr := rfl
@[simp] theorem acknowledge_srcLen (v : Word) (s : State) : (acknowledge v s).srcLen = s.srcLen := rfl
@[simp] theorem acknowledge_dstAddr (v : Word) (s : State) : (acknowledge v s).dstAddr = s.dstAddr := rfl
@[simp] theorem acknowledge_dstLen (v : Word) (s : State) : (acknowledge v s).dstLen = s.dstLen := rfl
@[simp] theorem acknowledge_wData (v : Word) (s : State) : (acknowledge v s).wData = s.wData := rfl
@[simp] theorem acknowledge_rData (v : Word) (s : State) : (acknowledge v s).rData = s.rData := rfl
@[simp] theorem acknowledge_rd (v : Word) (s : State) : (acknowledge v s).rd = s.rd := rfl
@[simp] theorem acknowledge_wr (v : Word) (s : State) : (acknowledge v s).wr = s.wr := rfl
@[simp] theorem acknowledge_maxLen (v : Word) (s : State) : (acknowledge v s).maxLen = s.maxLen := rfl
@[simp] theorem acknowledge_lutCnt (v : Word) (s : State) : (acknowledge v s).lutCnt = s.lutCnt := rfl
@[simp] theorem acknowledge_count (v : Word) (s : State) : (acknowledge v s).count = s.count := rfl
@[simp] theorem acknowledge_quality (v : Word) (s : State) : (acknowledge v s).quality = s.quality := rfl
@[simp] theorem acknowledge_dLen (v : Word) (s : State) : (acknowledge v s).dLen = s.dLen := rfl
@[simp] theorem acknowledge_lut (v : Word) (s : State) : (acknowledge v s).lut = s.lut := rfl
@[simp] theorem acknowledge_cwtab (v : Word) (s : State) : (acknowledge v s).cwtab = s.cwtab := rfl
@[simp] theorem acknowledge_hist (v : Word) (s : State) : (acknowledge v s).hist = s.hist := rfl
@[simp] theorem acknowledge_blk (v : Word) (s : State) : (acknowledge v s).blk = s.blk := rfl
@[simp] theorem acknowledge_seq (v : Word) (s : State) : (acknowledge v s).seq = s.seq := rfl
@[simp] theorem acknowledge_qs (v : Word) (s : State) : (acknowledge v s).qs = s.qs := rfl
@[simp] theorem acknowledge_lmem (v : Word) (s : State) : (acknowledge v s).lmem = s.lmem := rfl
@[simp] theorem acknowledge_latch (v : Word) (s : State) : (acknowledge v s).latch = s.latch := rfl
@[simp] theorem acknowledge_script (v : Word) (s : State) : (acknowledge v s).script = s.script := rfl
@[simp] theorem acknowledge_sched (v : Word) (s : State) : (acknowledge v s).sched = s.sched := rfl
@[simp] theorem acknowledge_hostData (v : Word) (s : State) : (acknowledge v s).hostData = s.hostData := rfl
@[simp] theorem acknowledge_draws (v : Word) (s : State) : (acknowledge v s).draws = s.draws := rfl

/-! ## Setting UR (R25) -/

@[simp] theorem setUr_params (s : State) : (setUr s).params = s.params := rfl
@[simp] theorem setUr_ctrlIe (s : State) : (setUr s).ctrlIe = s.ctrlIe := rfl
@[simp] theorem setUr_st (s : State) : (setUr s).st = { s.st with ur := true } := rfl
@[simp] theorem setUr_errCode (s : State) : (setUr s).errCode = s.errCode := rfl
@[simp] theorem setUr_errInfo (s : State) : (setUr s).errInfo = s.errInfo := rfl
@[simp] theorem setUr_cmd (s : State) : (setUr s).cmd = s.cmd := rfl
@[simp] theorem setUr_srcAddr (s : State) : (setUr s).srcAddr = s.srcAddr := rfl
@[simp] theorem setUr_srcLen (s : State) : (setUr s).srcLen = s.srcLen := rfl
@[simp] theorem setUr_dstAddr (s : State) : (setUr s).dstAddr = s.dstAddr := rfl
@[simp] theorem setUr_dstLen (s : State) : (setUr s).dstLen = s.dstLen := rfl
@[simp] theorem setUr_wData (s : State) : (setUr s).wData = s.wData := rfl
@[simp] theorem setUr_rData (s : State) : (setUr s).rData = s.rData := rfl
@[simp] theorem setUr_rd (s : State) : (setUr s).rd = s.rd := rfl
@[simp] theorem setUr_wr (s : State) : (setUr s).wr = s.wr := rfl
@[simp] theorem setUr_maxLen (s : State) : (setUr s).maxLen = s.maxLen := rfl
@[simp] theorem setUr_lutCnt (s : State) : (setUr s).lutCnt = s.lutCnt := rfl
@[simp] theorem setUr_count (s : State) : (setUr s).count = s.count := rfl
@[simp] theorem setUr_quality (s : State) : (setUr s).quality = s.quality := rfl
@[simp] theorem setUr_dLen (s : State) : (setUr s).dLen = s.dLen := rfl
@[simp] theorem setUr_lut (s : State) : (setUr s).lut = s.lut := rfl
@[simp] theorem setUr_cwtab (s : State) : (setUr s).cwtab = s.cwtab := rfl
@[simp] theorem setUr_hist (s : State) : (setUr s).hist = s.hist := rfl
@[simp] theorem setUr_blk (s : State) : (setUr s).blk = s.blk := rfl
@[simp] theorem setUr_seq (s : State) : (setUr s).seq = s.seq := rfl
@[simp] theorem setUr_qs (s : State) : (setUr s).qs = s.qs := rfl
@[simp] theorem setUr_lmem (s : State) : (setUr s).lmem = s.lmem := rfl
@[simp] theorem setUr_latch (s : State) : (setUr s).latch = s.latch := rfl
@[simp] theorem setUr_script (s : State) : (setUr s).script = s.script := rfl
@[simp] theorem setUr_sched (s : State) : (setUr s).sched = s.sched := rfl
@[simp] theorem setUr_hostData (s : State) : (setUr s).hostData = s.hostData := rfl
@[simp] theorem setUr_draws (s : State) : (setUr s).draws = s.draws := rfl

/-! ## Setting OVR (R25) -/

@[simp] theorem setOvr_params (s : State) : (setOvr s).params = s.params := rfl
@[simp] theorem setOvr_ctrlIe (s : State) : (setOvr s).ctrlIe = s.ctrlIe := rfl
@[simp] theorem setOvr_st (s : State) : (setOvr s).st = { s.st with ovr := true } := rfl
@[simp] theorem setOvr_errCode (s : State) : (setOvr s).errCode = s.errCode := rfl
@[simp] theorem setOvr_errInfo (s : State) : (setOvr s).errInfo = s.errInfo := rfl
@[simp] theorem setOvr_cmd (s : State) : (setOvr s).cmd = s.cmd := rfl
@[simp] theorem setOvr_srcAddr (s : State) : (setOvr s).srcAddr = s.srcAddr := rfl
@[simp] theorem setOvr_srcLen (s : State) : (setOvr s).srcLen = s.srcLen := rfl
@[simp] theorem setOvr_dstAddr (s : State) : (setOvr s).dstAddr = s.dstAddr := rfl
@[simp] theorem setOvr_dstLen (s : State) : (setOvr s).dstLen = s.dstLen := rfl
@[simp] theorem setOvr_wData (s : State) : (setOvr s).wData = s.wData := rfl
@[simp] theorem setOvr_rData (s : State) : (setOvr s).rData = s.rData := rfl
@[simp] theorem setOvr_rd (s : State) : (setOvr s).rd = s.rd := rfl
@[simp] theorem setOvr_wr (s : State) : (setOvr s).wr = s.wr := rfl
@[simp] theorem setOvr_maxLen (s : State) : (setOvr s).maxLen = s.maxLen := rfl
@[simp] theorem setOvr_lutCnt (s : State) : (setOvr s).lutCnt = s.lutCnt := rfl
@[simp] theorem setOvr_count (s : State) : (setOvr s).count = s.count := rfl
@[simp] theorem setOvr_quality (s : State) : (setOvr s).quality = s.quality := rfl
@[simp] theorem setOvr_dLen (s : State) : (setOvr s).dLen = s.dLen := rfl
@[simp] theorem setOvr_lut (s : State) : (setOvr s).lut = s.lut := rfl
@[simp] theorem setOvr_cwtab (s : State) : (setOvr s).cwtab = s.cwtab := rfl
@[simp] theorem setOvr_hist (s : State) : (setOvr s).hist = s.hist := rfl
@[simp] theorem setOvr_blk (s : State) : (setOvr s).blk = s.blk := rfl
@[simp] theorem setOvr_seq (s : State) : (setOvr s).seq = s.seq := rfl
@[simp] theorem setOvr_qs (s : State) : (setOvr s).qs = s.qs := rfl
@[simp] theorem setOvr_lmem (s : State) : (setOvr s).lmem = s.lmem := rfl
@[simp] theorem setOvr_latch (s : State) : (setOvr s).latch = s.latch := rfl
@[simp] theorem setOvr_script (s : State) : (setOvr s).script = s.script := rfl
@[simp] theorem setOvr_sched (s : State) : (setOvr s).sched = s.sched := rfl
@[simp] theorem setOvr_hostData (s : State) : (setOvr s).hostData = s.hostData := rfl
@[simp] theorem setOvr_draws (s : State) : (setOvr s).draws = s.draws := rfl

/-! ## One byte of LMEM (R10) -/

@[simp] theorem memWrite_params (s : State) (a : Nat) (v : Byte) : (memWrite s a v).params = s.params := rfl
@[simp] theorem memWrite_ctrlIe (s : State) (a : Nat) (v : Byte) : (memWrite s a v).ctrlIe = s.ctrlIe := rfl
@[simp] theorem memWrite_st (s : State) (a : Nat) (v : Byte) : (memWrite s a v).st = s.st := rfl
@[simp] theorem memWrite_errCode (s : State) (a : Nat) (v : Byte) : (memWrite s a v).errCode = s.errCode := rfl
@[simp] theorem memWrite_errInfo (s : State) (a : Nat) (v : Byte) : (memWrite s a v).errInfo = s.errInfo := rfl
@[simp] theorem memWrite_cmd (s : State) (a : Nat) (v : Byte) : (memWrite s a v).cmd = s.cmd := rfl
@[simp] theorem memWrite_srcAddr (s : State) (a : Nat) (v : Byte) : (memWrite s a v).srcAddr = s.srcAddr := rfl
@[simp] theorem memWrite_srcLen (s : State) (a : Nat) (v : Byte) : (memWrite s a v).srcLen = s.srcLen := rfl
@[simp] theorem memWrite_dstAddr (s : State) (a : Nat) (v : Byte) : (memWrite s a v).dstAddr = s.dstAddr := rfl
@[simp] theorem memWrite_dstLen (s : State) (a : Nat) (v : Byte) : (memWrite s a v).dstLen = s.dstLen := rfl
@[simp] theorem memWrite_wData (s : State) (a : Nat) (v : Byte) : (memWrite s a v).wData = s.wData := rfl
@[simp] theorem memWrite_rData (s : State) (a : Nat) (v : Byte) : (memWrite s a v).rData = s.rData := rfl
@[simp] theorem memWrite_rd (s : State) (a : Nat) (v : Byte) : (memWrite s a v).rd = s.rd := rfl
@[simp] theorem memWrite_wr (s : State) (a : Nat) (v : Byte) : (memWrite s a v).wr = s.wr := rfl
@[simp] theorem memWrite_maxLen (s : State) (a : Nat) (v : Byte) : (memWrite s a v).maxLen = s.maxLen := rfl
@[simp] theorem memWrite_lutCnt (s : State) (a : Nat) (v : Byte) : (memWrite s a v).lutCnt = s.lutCnt := rfl
@[simp] theorem memWrite_count (s : State) (a : Nat) (v : Byte) : (memWrite s a v).count = s.count := rfl
@[simp] theorem memWrite_quality (s : State) (a : Nat) (v : Byte) : (memWrite s a v).quality = s.quality := rfl
@[simp] theorem memWrite_dLen (s : State) (a : Nat) (v : Byte) : (memWrite s a v).dLen = s.dLen := rfl
@[simp] theorem memWrite_lut (s : State) (a : Nat) (v : Byte) : (memWrite s a v).lut = s.lut := rfl
@[simp] theorem memWrite_cwtab (s : State) (a : Nat) (v : Byte) : (memWrite s a v).cwtab = s.cwtab := rfl
@[simp] theorem memWrite_hist (s : State) (a : Nat) (v : Byte) : (memWrite s a v).hist = s.hist := rfl
@[simp] theorem memWrite_blk (s : State) (a : Nat) (v : Byte) : (memWrite s a v).blk = s.blk := rfl
@[simp] theorem memWrite_seq (s : State) (a : Nat) (v : Byte) : (memWrite s a v).seq = s.seq := rfl
@[simp] theorem memWrite_qs (s : State) (a : Nat) (v : Byte) : (memWrite s a v).qs = s.qs := rfl
@[simp] theorem memWrite_lmem (s : State) (a : Nat) (v : Byte) : (memWrite s a v).lmem = Memory.write s.lmem a v := rfl
@[simp] theorem memWrite_latch (s : State) (a : Nat) (v : Byte) : (memWrite s a v).latch = s.latch := rfl
@[simp] theorem memWrite_script (s : State) (a : Nat) (v : Byte) : (memWrite s a v).script = s.script := rfl
@[simp] theorem memWrite_sched (s : State) (a : Nat) (v : Byte) : (memWrite s a v).sched = s.sched := rfl
@[simp] theorem memWrite_hostData (s : State) (a : Nat) (v : Byte) : (memWrite s a v).hostData = s.hostData := rfl
@[simp] theorem memWrite_draws (s : State) (a : Nat) (v : Byte) : (memWrite s a v).draws = s.draws := rfl

/-! ## The soft reset (R310, R311) -/

@[simp] theorem softReset_params (s : State) : (softReset s).params = s.params := rfl
@[simp] theorem softReset_ctrlIe (s : State) : (softReset s).ctrlIe = false := rfl
@[simp] theorem softReset_st (s : State) : (softReset s).st = ⟨false, false, false, false, false⟩ := rfl
@[simp] theorem softReset_errCode (s : State) : (softReset s).errCode = 0 := rfl
@[simp] theorem softReset_errInfo (s : State) : (softReset s).errInfo = 0 := rfl
@[simp] theorem softReset_cmd (s : State) : (softReset s).cmd = 0 := rfl
@[simp] theorem softReset_srcAddr (s : State) : (softReset s).srcAddr = 0 := rfl
@[simp] theorem softReset_srcLen (s : State) : (softReset s).srcLen = 0 := rfl
@[simp] theorem softReset_dstAddr (s : State) : (softReset s).dstAddr = 0 := rfl
@[simp] theorem softReset_dstLen (s : State) : (softReset s).dstLen = 0 := rfl
@[simp] theorem softReset_wData (s : State) : (softReset s).wData = 0 := rfl
@[simp] theorem softReset_rData (s : State) : (softReset s).rData = 0 := rfl
@[simp] theorem softReset_rd (s : State) : (softReset s).rd = ⟨0, 0, 0, 0⟩ := rfl
@[simp] theorem softReset_wr (s : State) : (softReset s).wr = ⟨0, 0, 0, 0, 0⟩ := rfl
@[simp] theorem softReset_maxLen (s : State) : (softReset s).maxLen = 0 := rfl
@[simp] theorem softReset_lutCnt (s : State) : (softReset s).lutCnt = 0 := rfl
@[simp] theorem softReset_count (s : State) : (softReset s).count = 0 := rfl
@[simp] theorem softReset_quality (s : State) : (softReset s).quality = 0x3FF0000000000000#64 := rfl
@[simp] theorem softReset_dLen (s : State) : (softReset s).dLen = 0 := rfl
@[simp] theorem softReset_lut (s : State) : (softReset s).lut = s.lut := rfl
@[simp] theorem softReset_cwtab (s : State) : (softReset s).cwtab = Vector.replicate 256 ⟨0, 0⟩ := rfl
@[simp] theorem softReset_hist (s : State) : (softReset s).hist = Vector.replicate 256 0 := rfl
@[simp] theorem softReset_blk (s : State) : (softReset s).blk = s.blk := rfl
@[simp] theorem softReset_seq (s : State) : (softReset s).seq = s.seq := rfl
@[simp] theorem softReset_qs (s : State) : (softReset s).qs = resetQs s.params.qtable := rfl
@[simp] theorem softReset_lmem (s : State) : (softReset s).lmem = s.lmem := rfl
@[simp] theorem softReset_latch (s : State) : (softReset s).latch = none := rfl
@[simp] theorem softReset_script (s : State) : (softReset s).script = s.script := rfl
@[simp] theorem softReset_sched (s : State) : (softReset s).sched = s.sched := rfl
@[simp] theorem softReset_hostData (s : State) : (softReset s).hostData = s.hostData := rfl
@[simp] theorem softReset_draws (s : State) : (softReset s).draws = s.draws := rfl

/-! ## Power-on reset (R310) -/

@[simp] theorem powerOn_params (p : Config.Params) : (State.powerOn p).params = p := rfl
@[simp] theorem powerOn_ctrlIe (p : Config.Params) : (State.powerOn p).ctrlIe = false := rfl
@[simp] theorem powerOn_st (p : Config.Params) : (State.powerOn p).st = ⟨false, false, false, false, false⟩ := rfl
@[simp] theorem powerOn_errCode (p : Config.Params) : (State.powerOn p).errCode = 0 := rfl
@[simp] theorem powerOn_errInfo (p : Config.Params) : (State.powerOn p).errInfo = 0 := rfl
@[simp] theorem powerOn_cmd (p : Config.Params) : (State.powerOn p).cmd = 0 := rfl
@[simp] theorem powerOn_srcAddr (p : Config.Params) : (State.powerOn p).srcAddr = 0 := rfl
@[simp] theorem powerOn_srcLen (p : Config.Params) : (State.powerOn p).srcLen = 0 := rfl
@[simp] theorem powerOn_dstAddr (p : Config.Params) : (State.powerOn p).dstAddr = 0 := rfl
@[simp] theorem powerOn_dstLen (p : Config.Params) : (State.powerOn p).dstLen = 0 := rfl
@[simp] theorem powerOn_wData (p : Config.Params) : (State.powerOn p).wData = 0 := rfl
@[simp] theorem powerOn_rData (p : Config.Params) : (State.powerOn p).rData = 0 := rfl
@[simp] theorem powerOn_rd (p : Config.Params) : (State.powerOn p).rd = ⟨0, 0, 0, 0⟩ := rfl
@[simp] theorem powerOn_wr (p : Config.Params) : (State.powerOn p).wr = ⟨0, 0, 0, 0, 0⟩ := rfl
@[simp] theorem powerOn_maxLen (p : Config.Params) : (State.powerOn p).maxLen = 0 := rfl
@[simp] theorem powerOn_lutCnt (p : Config.Params) : (State.powerOn p).lutCnt = 0 := rfl
@[simp] theorem powerOn_count (p : Config.Params) : (State.powerOn p).count = 0 := rfl
@[simp] theorem powerOn_quality (p : Config.Params) : (State.powerOn p).quality = 0x3FF0000000000000#64 := rfl
@[simp] theorem powerOn_dLen (p : Config.Params) : (State.powerOn p).dLen = 0 := rfl
@[simp] theorem powerOn_cwtab (p : Config.Params) : (State.powerOn p).cwtab = Vector.replicate 256 ⟨0, 0⟩ := rfl
@[simp] theorem powerOn_hist (p : Config.Params) : (State.powerOn p).hist = Vector.replicate 256 0 := rfl
@[simp] theorem powerOn_qs (p : Config.Params) : (State.powerOn p).qs = resetQs p.qtable := rfl
@[simp] theorem powerOn_lmem (p : Config.Params) : (State.powerOn p).lmem = [] := rfl
@[simp] theorem powerOn_latch (p : Config.Params) : (State.powerOn p).latch = none := rfl
@[simp] theorem powerOn_script (p : Config.Params) : (State.powerOn p).script = [] := rfl
@[simp] theorem powerOn_sched (p : Config.Params) : (State.powerOn p).sched = [] := rfl
@[simp] theorem powerOn_hostData (p : Config.Params) : (State.powerOn p).hostData = 0 := rfl
@[simp] theorem powerOn_draws (p : Config.Params) : (State.powerOn p).draws = 0 := rfl

theorem reset_eq : State.reset = State.powerOn defaultParams := rfl

/-! ## Taking a turn (log 7) -/

@[simp] theorem taken_params (s : State) : (taken s).params = s.params := rfl
@[simp] theorem taken_ctrlIe (s : State) : (taken s).ctrlIe = s.ctrlIe := rfl
@[simp] theorem taken_st (s : State) : (taken s).st = s.st := rfl
@[simp] theorem taken_errCode (s : State) : (taken s).errCode = s.errCode := rfl
@[simp] theorem taken_errInfo (s : State) : (taken s).errInfo = s.errInfo := rfl
@[simp] theorem taken_cmd (s : State) : (taken s).cmd = s.cmd := rfl
@[simp] theorem taken_srcAddr (s : State) : (taken s).srcAddr = s.srcAddr := rfl
@[simp] theorem taken_srcLen (s : State) : (taken s).srcLen = s.srcLen := rfl
@[simp] theorem taken_dstAddr (s : State) : (taken s).dstAddr = s.dstAddr := rfl
@[simp] theorem taken_dstLen (s : State) : (taken s).dstLen = s.dstLen := rfl
@[simp] theorem taken_wData (s : State) : (taken s).wData = s.wData := rfl
@[simp] theorem taken_rData (s : State) : (taken s).rData = s.rData := rfl
@[simp] theorem taken_rd (s : State) : (taken s).rd = s.rd := rfl
@[simp] theorem taken_wr (s : State) : (taken s).wr = s.wr := rfl
@[simp] theorem taken_maxLen (s : State) : (taken s).maxLen = s.maxLen := rfl
@[simp] theorem taken_lutCnt (s : State) : (taken s).lutCnt = s.lutCnt := rfl
@[simp] theorem taken_count (s : State) : (taken s).count = s.count := rfl
@[simp] theorem taken_quality (s : State) : (taken s).quality = s.quality := rfl
@[simp] theorem taken_dLen (s : State) : (taken s).dLen = s.dLen := rfl
@[simp] theorem taken_lut (s : State) : (taken s).lut = s.lut := rfl
@[simp] theorem taken_cwtab (s : State) : (taken s).cwtab = s.cwtab := rfl
@[simp] theorem taken_hist (s : State) : (taken s).hist = s.hist := rfl
@[simp] theorem taken_blk (s : State) : (taken s).blk = s.blk := rfl
@[simp] theorem taken_seq (s : State) : (taken s).seq = s.seq := rfl
@[simp] theorem taken_qs (s : State) : (taken s).qs = s.qs := rfl
@[simp] theorem taken_lmem (s : State) : (taken s).lmem = s.lmem := rfl
@[simp] theorem taken_latch (s : State) : (taken s).latch = s.latch := rfl
@[simp] theorem taken_script (s : State) : (taken s).script = s.script := rfl
@[simp] theorem taken_sched (s : State) : (taken s).sched = s.sched.tail := rfl
@[simp] theorem taken_hostData (s : State) : (taken s).hostData = s.hostData := rfl
@[simp] theorem taken_draws (s : State) : (taken s).draws = s.draws := rfl

/-! ## STATUS bits -/

@[simp] theorem Status.completed_busy (f : Status) : f.completed.busy = false := rfl
@[simp] theorem Status.completed_done (f : Status) : f.completed.done = true := rfl
@[simp] theorem Status.completed_err (f : Status) : f.completed.err = f.err := rfl
@[simp] theorem Status.completed_ur (f : Status) : f.completed.ur = f.ur := rfl
@[simp] theorem Status.completed_ovr (f : Status) : f.completed.ovr = f.ovr := rfl
@[simp] theorem Status.failed_busy (f : Status) : f.failed.busy = false := rfl
@[simp] theorem Status.failed_done (f : Status) : f.failed.done = true := rfl
@[simp] theorem Status.failed_err (f : Status) : f.failed.err = true := rfl
@[simp] theorem Status.failed_ur (f : Status) : f.failed.ur = f.ur := rfl
@[simp] theorem Status.failed_ovr (f : Status) : f.failed.ovr = f.ovr := rfl
@[simp] theorem Status.accepted_busy (f : Status) : f.accepted.busy = true := rfl
@[simp] theorem Status.accepted_done (f : Status) : f.accepted.done = false := rfl
@[simp] theorem Status.accepted_err (f : Status) : f.accepted.err = false := rfl
@[simp] theorem Status.accepted_ur (f : Status) : f.accepted.ur = f.ur := rfl
@[simp] theorem Status.accepted_ovr (f : Status) : f.accepted.ovr = f.ovr := rfl

/-! ## A command's run -/

@[simp] theorem Run.andThen_ok {α β : Type} (a : α) (s : State) (k : α → State → Run β) :
    (Run.ok a s).andThen k = k a s := rfl
@[simp] theorem Run.andThen_raised {α β : Type} (e : ErrorKind) (info : DWord) (s : State)
    (k : α → State → Run β) : (Run.raised e info s : Run α).andThen k = .raised e info s := rfl
@[simp] theorem Run.close_ok (u : Unit) (s : State) : (Run.ok u s).close = complete s := rfl
@[simp] theorem Run.close_raised (e : ErrorKind) (info : DWord) (s : State) :
    (Run.raised e info s).close = trapEntry e info s := rfl

/-- A run's two ends, after going on. -/
theorem Run.andThen_assoc {α β γ : Type} (r : Run α) (k : α → State → Run β) (l : β → State → Run γ) :
    (r.andThen k).andThen l = r.andThen fun a s => (k a s).andThen l := by
  cases r <;> rfl

/-- `andThen` goes on only from `ok`. -/
theorem Run.andThen_eq_ok {α β : Type} {r : Run α} {k : α → State → Run β} {b : β} {t : State} :
    r.andThen k = .ok b t ↔ ∃ a s, r = .ok a s ∧ k a s = .ok b t := by
  cases r with
  | ok a s =>
    refine ⟨fun h => ⟨a, s, rfl, h⟩, ?_⟩
    rintro ⟨a', s', h, hk⟩
    cases h
    exact hk
  | raised e i s => simp [Run.andThen]

/-- `andThen` raises where the first part raises, or the second after it. -/
theorem Run.andThen_eq_raised {α β : Type} {r : Run α} {k : α → State → Run β} {e : ErrorKind} {i : DWord}
    {t : State} :
    r.andThen k = .raised e i t ↔ r = .raised e i t ∨ ∃ a s, r = .ok a s ∧ k a s = .raised e i t := by
  cases r with
  | ok a s =>
    constructor
    · exact fun h => .inr ⟨a, s, rfl, h⟩
    · rintro (h | ⟨a', s', h, hk⟩)
      · cases h
      · cases h
        exact hk
  | raised e' i' s =>
    constructor
    · intro h
      cases h
      exact .inl rfl
    · rintro (h | ⟨a', s', h, _⟩)
      · cases h
        rfl
      · cases h

theorem requireValid_of_valid {r : Region} {s : State} (h : r.valid s.params.lmemSize = true) :
    requireValid r s = .ok () s := if_pos h

theorem requireValid_of_not_valid {r : Region} {s : State} (h : r.valid s.params.lmemSize = false) :
    requireValid r s = .raised .outOfRange r.endSum s := if_neg (by simp [h])

theorem requireDisjoint_of_disjoint {a b : Region} {s : State} (h : a.overlaps b = false) :
    requireDisjoint a b s = .ok () s := if_neg (by simp [h])

theorem requireDisjoint_of_overlap {a b : Region} {s : State} (h : a.overlaps b = true) :
    requireDisjoint a b s = .raised .overlap 0 s := if_pos h

/-- Everything the region check can do. -/
theorem requireValid_cases (r : Region) (s : State) :
    (r.valid s.params.lmemSize = true ∧ requireValid r s = .ok () s) ∨
      (r.valid s.params.lmemSize = false ∧ requireValid r s = .raised .outOfRange r.endSum s) := by
  cases h : r.valid s.params.lmemSize
  · exact .inr ⟨rfl, requireValid_of_not_valid h⟩
  · exact .inl ⟨rfl, requireValid_of_valid h⟩

/-- Everything the overlap check can do. -/
theorem requireDisjoint_cases (a b : Region) (s : State) :
    (a.overlaps b = false ∧ requireDisjoint a b s = .ok () s) ∨
      (a.overlaps b = true ∧ requireDisjoint a b s = .raised .overlap 0 s) := by
  cases h : a.overlaps b
  · exact .inl ⟨rfl, requireDisjoint_of_disjoint h⟩
  · exact .inr ⟨rfl, requireDisjoint_of_overlap h⟩

/-! ## The checks of the commands, by their registers -/

theorem requireValid_src {s : State} (h : s.srcAddr.toNat + s.srcLen.toNat ≤ s.params.lmemSize) :
    requireValid (srcRegion s) s = .ok () s :=
  requireValid_of_valid (decide_eq_true h)

theorem requireValid_src_fails {s : State} (h : s.params.lmemSize < s.srcAddr.toNat + s.srcLen.toNat) :
    requireValid (srcRegion s) s = .raised .outOfRange (s.srcAddr.zeroExtend 64 + s.srcLen.zeroExtend 64) s :=
  requireValid_of_not_valid (decide_eq_false (Nat.not_le.2 h))

theorem requireValid_dst {s : State} (h : s.dstAddr.toNat + s.dstLen.toNat ≤ s.params.lmemSize) :
    requireValid (dstRegion s) s = .ok () s :=
  requireValid_of_valid (decide_eq_true h)

theorem requireValid_dst_fails {s : State} (h : s.params.lmemSize < s.dstAddr.toNat + s.dstLen.toNat) :
    requireValid (dstRegion s) s = .raised .outOfRange (s.dstAddr.zeroExtend 64 + s.dstLen.zeroExtend 64) s :=
  requireValid_of_not_valid (decide_eq_false (Nat.not_le.2 h))

theorem finishReader_of_ok {s : State} {r : Run Unit} (h : readerOk s = true) :
    finishReader s r = .next r.close := if_pos h

theorem finishWriter_of_ok {s : State} {r : Run Unit} (h : writerOk s = true) :
    finishWriter s r = .next r.close := if_pos h

end Sys2Proof.Machine
end

