-- ==== Sys2Proof/Laws/Reader.lean ====
section
/-! SUPPORT. The reader primitive (R141): ReadBits returns the value of the region's next bits and moves the reader over
them; nothing else changes. Every reader command's proof cites these lemmas. -/

namespace Sys2Proof.Machine

/-! ## Values of bit strings -/

theorem valueOf_foldl (bs : List Bool) (a : Nat) :
    bs.foldl (fun v b => 2 * v + b.toNat) a = a * 2 ^ bs.length + valueOf bs := by
  induction bs generalizing a with
  | nil => simp [valueOf]
  | cons b bs ih =>
    have h0 := ih (2 * 0 + b.toNat)
    rw [List.foldl_cons, ih, show valueOf (b :: bs) = bs.foldl (fun v b => 2 * v + b.toNat) (2 * 0 + b.toNat) from
      rfl, h0]
    simp only [List.length_cons]
    ring

@[simp] theorem valueOf_nil : valueOf [] = 0 := rfl

theorem valueOf_cons (b : Bool) (bs : List Bool) :
    valueOf (b :: bs) = b.toNat * 2 ^ bs.length + valueOf bs := by
  rw [valueOf, List.foldl_cons, valueOf_foldl]
  simp

theorem valueOf_append (as bs : List Bool) :
    valueOf (as ++ bs) = valueOf as * 2 ^ bs.length + valueOf bs := by
  show (as ++ bs).foldl _ 0 = _
  rw [List.foldl_append, valueOf_foldl]
  rfl

theorem valueOf_lt (bs : List Bool) : valueOf bs < 2 ^ bs.length := by
  induction bs with
  | nil => simp
  | cons b bs ih =>
    rw [valueOf_cons, List.length_cons, pow_succ]
    cases b <;> simp <;> omega

@[simp] theorem bitsMsb_length (n : Nat) (v : DWord) : (bitsMsb n v).length = n := by simp [bitsMsb]

theorem bitsMsb_zero (v : DWord) : bitsMsb 0 v = [] := rfl

theorem bitsMsb_succ (n : Nat) (v : DWord) : bitsMsb (n + 1) v = v.getLsbD n :: bitsMsb n v := by
  rw [bitsMsb, List.range_succ_eq_map, List.map_cons, List.map_map]
  refine congrArg₂ _ (by simp) (List.map_congr_left fun j _ => ?_)
  simp only [Function.comp_apply]
  congr 1
  omega

/-- The value of the low n bits is the value modulo 2^n. -/
theorem valueOf_bitsMsb (n : Nat) (v : DWord) : valueOf (bitsMsb n v) = v.toNat % 2 ^ n := by
  induction n with
  | zero => simp [bitsMsb_zero, Nat.mod_one]
  | succ n ih =>
    rw [bitsMsb_succ, valueOf_cons, ih, bitsMsb_length, Nat.pow_succ, Nat.mod_mul]
    have : (v.getLsbD n).toNat = v.toNat / 2 ^ n % 2 := by
      rw [BitVec.getLsbD, Nat.testBit_eq_decide_div_mod_eq]
      rcases Nat.mod_two_eq_zero_or_one (v.toNat / 2 ^ n) with h | h <;> simp [h]
    rw [this]
    ring

/-- Two bit strings of one length with one value are equal. -/
theorem valueOf_inj : ∀ {as bs : List Bool}, as.length = bs.length → valueOf as = valueOf bs → as = bs
  | [], [], _, _ => rfl
  | a :: as, b :: bs, hl, hv => by
    have hl' : as.length = bs.length := by simpa using hl
    rw [valueOf_cons, valueOf_cons, hl'] at hv
    have h1 := valueOf_lt as
    have h2 := valueOf_lt bs
    rw [hl'] at h1
    have hab : a = b := by
      cases a <;> cases b <;> simp at hv ⊢ <;> omega
    subst hab
    rw [valueOf_inj hl' (by omega)]

/-! ## Moving the reader -/

section fields
variable (s : State) (n : Nat)

@[simp] theorem afterRead_params : (afterRead s n).params = s.params := rfl
@[simp] theorem afterRead_lmem : (afterRead s n).lmem = s.lmem := rfl
@[simp] theorem afterRead_draws : (afterRead s n).draws = s.draws := rfl
@[simp] theorem afterRead_rd_base : (afterRead s n).rd.base = s.rd.base := rfl
@[simp] theorem afterRead_rd_len : (afterRead s n).rd.len = s.rd.len := rfl
@[simp] theorem afterRead_rd_pos : (afterRead s n).rd.pos = s.rd.pos + BitVec.ofNat 64 n := rfl
@[simp] theorem afterRead_rd_pad :
    (afterRead s n).rd.pad = s.rd.pad + BitVec.ofNat 64 (padCount s n) := rfl
@[simp] theorem afterRead_wr : (afterRead s n).wr = s.wr := rfl
@[simp] theorem afterRead_dstAddr : (afterRead s n).dstAddr = s.dstAddr := rfl
@[simp] theorem afterRead_dstLen : (afterRead s n).dstLen = s.dstLen := rfl
@[simp] theorem afterRead_count : (afterRead s n).count = s.count := rfl
@[simp] theorem afterRead_maxLen : (afterRead s n).maxLen = s.maxLen := rfl
@[simp] theorem afterRead_lutCnt : (afterRead s n).lutCnt = s.lutCnt := rfl
@[simp] theorem afterRead_lut : (afterRead s n).lut = s.lut := rfl

end fields

@[simp] theorem memRead_afterRead (s : State) (n a : Nat) : memRead (afterRead s n) a = memRead s a := rfl

@[simp] theorem pastEnd_afterRead (s : State) (n : Nat) (p : DWord) :
    pastEnd (afterRead s n) p = pastEnd s p := rfl

@[simp] theorem streamBit_afterRead (s : State) (n : Nat) (p : DWord) :
    streamBit (afterRead s n) p = streamBit s p := rfl

@[simp] theorem streamBits_afterRead (s : State) (n : Nat) (p : DWord) (k : Nat) :
    streamBits (afterRead s n) p k = streamBits s p k := rfl

@[simp] theorem streamBits_length (s : State) (p : DWord) (n : Nat) : (streamBits s p n).length = n := by
  simp [streamBits]

@[simp] theorem streamBits_zero (s : State) (p : DWord) : streamBits s p 0 = [] := rfl

theorem streamBits_add (s : State) (p : DWord) (m n : Nat) :
    streamBits s p (m + n) = streamBits s p m ++ streamBits s (p + BitVec.ofNat 64 m) n := by
  simp only [streamBits, List.range_add, List.map_append, List.map_map]
  refine congrArg _ (List.map_congr_left fun j _ => ?_)
  simp [Function.comp_apply, BitVec.ofNat_add, BitVec.add_assoc]

@[simp] theorem padCount_zero (s : State) : padCount s 0 = 0 := rfl

theorem padCount_add (s : State) (m n : Nat) :
    padCount s (m + n) = padCount s m + padCount (afterRead s m) n := by
  simp only [padCount, List.range_add, List.countP_append, List.countP_map]
  refine congrArg _ (List.countP_congr fun j _ => ?_)
  simp [Function.comp_apply, BitVec.ofNat_add, BitVec.add_assoc]

theorem padCount_le (s : State) (n : Nat) : padCount s n ≤ n := by
  simpa [padCount] using List.countP_le_length (p := fun j => pastEnd s (s.rd.pos + BitVec.ofNat 64 j))
    (l := List.range n)

theorem afterRead_zero (s : State) : afterRead s 0 = s := by
  simp [afterRead]

/-- Moving over m bits and then n bits is moving over m + n bits. -/
theorem afterRead_add (s : State) (m n : Nat) : afterRead (afterRead s m) n = afterRead s (m + n) := by
  have hp := padCount_add s m n
  have hu : (s.st.ur || decide (0 < padCount s m) || decide (0 < padCount (afterRead s m) n)) =
      (s.st.ur || decide (0 < padCount s (m + n))) := by
    rw [Bool.or_assoc, hp]
    congr 1
    rw [Bool.eq_iff_iff]
    simp only [Bool.or_eq_true, decide_eq_true_eq]
    omega
  calc afterRead (afterRead s m) n
      = { s with
          rd := { s.rd with
            pos := s.rd.pos + BitVec.ofNat 64 m + BitVec.ofNat 64 n
            pad := s.rd.pad + BitVec.ofNat 64 (padCount s m) + BitVec.ofNat 64 (padCount (afterRead s m) n) }
          st := { s.st with
            ur := s.st.ur || decide (0 < padCount s m) || decide (0 < padCount (afterRead s m) n) } } := rfl
    _ = afterRead s (m + n) := by
      rw [hu, BitVec.add_assoc, BitVec.add_assoc, ← BitVec.ofNat_add, ← BitVec.ofNat_add, ← hp]
      rfl

/-! ## ReadBits -/

/-- One bit: the region's bit at R_POS, or a padding 0 with UR and PADBITS (R141). -/
theorem readBit_eq (s : State) : readBit s = (streamBit s s.rd.pos, afterRead s 1) := by
  have hp : padCount s 1 = if pastEnd s s.rd.pos then 1 else 0 := by
    simp [padCount, List.range_succ, List.countP_cons]
  unfold readBit
  simp only
  split_ifs with h
  · have hpe : pastEnd s s.rd.pos = false := by simpa [pastEnd] using h
    simp [streamBit, hpe, afterRead, hp]
  · have hpe : pastEnd s s.rd.pos = true := by simpa [pastEnd] using h
    simp [streamBit, hpe, afterRead, hp, setUr]

theorem readBitsFrom_eq (n : Nat) : ∀ (v : DWord) (s : State),
    readBitsFrom n v s =
      (BitVec.ofNat 64 (v.toNat * 2 ^ n + valueOf (streamBits s s.rd.pos n)), afterRead s n) := by
  induction n with
  | zero => intro v s; simp [readBitsFrom, afterRead_zero]
  | succ n ih =>
    intro v s
    rw [readBitsFrom, readBit_eq]
    simp only [ih, afterRead_add, Nat.add_comm 1 n]
    refine Prod.ext ?_ rfl
    simp only [afterRead_rd_pos, streamBits_afterRead]
    rw [Nat.add_comm n 1, streamBits_add, valueOf_append, streamBits_length]
    have h1 : valueOf (streamBits s s.rd.pos 1) = (streamBit s s.rd.pos).toNat := by
      simp [streamBits, valueOf, List.range_succ]
    have h2 : ((v <<< 1) ||| (BitVec.ofBool (streamBit s s.rd.pos)).zeroExtend 64).toNat =
        (2 * v.toNat + (streamBit s s.rd.pos).toNat) % 2 ^ 64 := by
      have : ((v <<< 1) ||| (BitVec.ofBool (streamBit s s.rd.pos)).zeroExtend 64) =
          v + v + (BitVec.ofBool (streamBit s s.rd.pos)).zeroExtend 64 := by
        cases streamBit s s.rd.pos
        · simp [BitVec.ofBool]
          bv_omega
        · have hz : (v <<< 1) &&& 1#64 = 0#64 := by
            ext i hi
            simp only [BitVec.getElem_and, BitVec.getElem_shiftLeft, BitVec.getElem_one, BitVec.getElem_zero]
            by_cases h : i = 0 <;> simp [h]
          have := BitVec.add_eq_or_of_and_eq_zero _ _ hz
          simp only [BitVec.ofBool, BitVec.truncate_eq_setWidth] at *
          change (v <<< 1) ||| 1#64 = v + v + 1#64
          rw [← this]
          bv_omega
      rw [this]
      cases streamBit s s.rd.pos <;> simp [BitVec.ofBool, BitVec.toNat_add] <;> omega
    apply BitVec.eq_of_toNat_eq
    simp only [BitVec.toNat_ofNat, h1, h2]
    rw [Nat.add_mod, Nat.mod_mul_mod, ← Nat.add_mod]
    congr 1
    ring

/-- Everything ReadBits does (R141): its value is that of the region's next n bits, and the state moves over them. -/
theorem readBits_eq (n : Nat) (s : State) :
    readBits n s = (BitVec.ofNat 64 (valueOf (streamBits s s.rd.pos n)), afterRead s n) := by
  rw [readBits, readBitsFrom_eq]
  simp

/-- The value of at most 64 bits is not truncated. -/
theorem readBits_toNat {n : Nat} (hn : n ≤ 64) (s : State) :
    (readBits n s).1.toNat = valueOf (streamBits s s.rd.pos n) := by
  rw [readBits_eq]
  simp only [BitVec.toNat_ofNat]
  refine Nat.mod_eq_of_lt (lt_of_lt_of_le (valueOf_lt _) ?_)
  rw [streamBits_length]
  exact Nat.pow_le_pow_right (by omega) hn

/-! ## Several fields -/

/-- The values of the fields read from a position. -/
def fieldValues (s : State) : DWord → List Nat → List DWord
  | _, [] => []
  | p, n :: ns => BitVec.ofNat 64 (valueOf (streamBits s p n)) :: fieldValues s (p + BitVec.ofNat 64 n) ns

theorem fieldValues_afterRead (s : State) (k : Nat) (ns : List Nat) :
    ∀ p, fieldValues (afterRead s k) p ns = fieldValues s p ns := by
  induction ns with
  | nil => intro p; rfl
  | cons n ns ih => intro p; simp [fieldValues, ih]

@[simp] theorem fieldValues_length (s : State) (ns : List Nat) :
    ∀ p, (fieldValues s p ns).length = ns.length := by
  induction ns with
  | nil => intro p; rfl
  | cons n ns ih => intro p; simp [fieldValues, ih]

/-- Everything reading several fields does. -/
theorem readFields_eq (ns : List Nat) : ∀ s : State,
    readFields ns s = (fieldValues s s.rd.pos ns, afterRead s ns.sum) := by
  induction ns with
  | nil => intro s; simp [readFields, fieldValues, afterRead_zero]
  | cons n ns ih =>
    intro s
    rw [readFields, readBits_eq]
    simp only [ih, fieldValues_afterRead, afterRead_add, afterRead_rd_pos, fieldValues, List.sum_cons]

/-- The i-th of k fields of n bits each. -/
theorem fieldValues_replicate (s : State) (n : Nat) : ∀ (k : Nat) (p : DWord) (i : Nat), i < k →
    (fieldValues s p (List.replicate k n))[i]? =
      some (BitVec.ofNat 64 (valueOf (streamBits s (p + BitVec.ofNat 64 (n * i)) n))) := by
  intro k
  induction k with
  | zero => intro p i h; omega
  | succ k ih =>
    intro p i h
    rw [List.replicate_succ, fieldValues]
    cases i with
    | zero => simp
    | succ i =>
      rw [List.getElem?_cons_succ, ih _ _ (by omega), BitVec.add_assoc, ← BitVec.ofNat_add, Nat.mul_succ,
        Nat.add_comm n]

/-- PADBITS moved exactly when some bit was padded. -/
theorem pad_ne (x : DWord) {k : Nat} (h : k < 2 ^ 64) : (x + BitVec.ofNat 64 k ≠ x) ↔ k ≠ 0 := by
  rw [not_iff_not]
  constructor
  · intro e
    have := congrArg BitVec.toNat e
    simp [BitVec.toNat_add] at this
    have := x.isLt
    omega
  · rintro rfl
    simp

theorem valueOf_streamBits_lt (s : State) (p : DWord) (n : Nat) : valueOf (streamBits s p n) < 2 ^ n := by
  simpa using valueOf_lt (streamBits s p n)

theorem toNat_streamBits (s : State) (p : DWord) {n : Nat} (h : n ≤ 64) :
    (BitVec.ofNat 64 (valueOf (streamBits s p n))).toNat = valueOf (streamBits s p n) := by
  rw [BitVec.toNat_ofNat]
  exact Nat.mod_eq_of_lt (lt_of_lt_of_le (valueOf_streamBits_lt s p n) (Nat.pow_le_pow_right (by omega) h))

/-- The region's bits depend on the reader's region and on the bytes of that region only. -/
theorem streamBits_congr {s t : State} (hb : t.rd.base = s.rd.base) (hl : t.rd.len = s.rd.len) (hd : t.draws = s.draws)
    (hm : ∀ a, (readerRegion s).contains a = true → Memory.read? t.lmem a = Memory.read? s.lmem a) (p : DWord) (n :
      Nat) :
    streamBits t p n = streamBits s p n := by
  refine List.map_congr_left fun j _ => ?_
  generalize p + BitVec.ofNat 64 j = p
  have hpe : pastEnd t p = pastEnd s p := by simp only [pastEnd, hl]
  rw [streamBit, streamBit, hpe]
  split_ifs with h
  · rfl
  · have : p.toNat / 8 < s.rd.len.toNat := by simpa [pastEnd] using h
    rw [memRead, memRead, hb, hd, hm _ (by simp [Region.contains, readerRegion]; omega)]

/-- Disjoint regions share no byte (R67). -/
theorem not_contains_of_disjoint {g h : Region} (ho : g.overlaps h = false) {a : Nat} (ha : h.contains a = true) :
    g.contains a = false := by
  simp only [Region.overlaps, Region.contains, decide_eq_true_eq, decide_eq_false_iff_not] at *
  omega

/-- The reader's region lies in LMEM (R66). -/
theorem readerOk_iff (s : State) : readerOk s = true ↔ s.rd.base.toNat + s.rd.len.toNat ≤ s.params.lmemSize :=
  decide_eq_true_iff

end Sys2Proof.Machine
end

