-- ==== Sys2Proof/Laws/Writer.lean ====
section
/-! SUPPORT. The writer primitives (R145, R146): appending bits, and the overflow. Every writer command's proof cites
`writeFields_appends` and `writeFields_overflow`. -/

namespace Sys2Proof.Machine

/-! ## A bit string through the writer -/

/-- The bits of a string written one after the other. -/
def writeBitList : List Bool → State → Run Unit
  | [], s => .ok () s
  | b :: bs, s => (writeBit b s).andThen fun _ t => writeBitList bs t

theorem writeBitList_append (as : List Bool) : ∀ (bs : List Bool) (s : State),
    writeBitList (as ++ bs) s = (writeBitList as s).andThen fun _ t => writeBitList bs t := by
  induction as with
  | nil => intro bs s; rfl
  | cons a as ih =>
    intro bs s
    simp only [List.cons_append, writeBitList, ih, Run.andThen_assoc]

theorem writeBits_eq_list (n : Nat) : ∀ (v : DWord) (s : State),
    writeBits n v s = writeBitList (bitsMsb n v) s := by
  induction n with
  | zero => intro v s; rfl
  | succ n ih => intro v s; simp only [writeBits, bitsMsb_succ, writeBitList, ih]

theorem fieldBits_cons (f : Field) (fs : List Field) :
    fieldBits (f :: fs) = bitsMsb f.1 f.2 ++ fieldBits fs := rfl

theorem fieldBits_append (fs gs : List Field) : fieldBits (fs ++ gs) = fieldBits fs ++ fieldBits gs := by
  simp [fieldBits]

/-- Writing fields is writing their bits. -/
theorem writeFields_eq_list (fs : List Field) : ∀ s : State,
    writeFields fs s = writeBitList (fieldBits fs) s := by
  induction fs with
  | nil => intro s; rfl
  | cons f fs ih =>
    intro s
    simp only [writeFields, fieldBits_cons, writeBitList_append, writeBits_eq_list, ih]

/-! ## One bit -/

/-- The partial byte after one more bit: the earlier bits stay, the bit stands at 7 - NACC, the bits below are 0. -/
theorem acc_step : ∀ (n : Fin 8) (acc : BitVec 8) (b : Bool), acc.toNat % 2 ^ (8 - n.val) = 0 →
    let acc' := acc ||| ((BitVec.ofBool b).zeroExtend 8 <<< (7 - n.val))
    acc'.toNat % 2 ^ (7 - n.val) = 0 ∧ acc'.getLsbD (7 - n.val) = b ∧
      ∀ q : Fin 8, q.val < n.val → acc'.getLsbD (7 - q.val) = acc.getLsbD (7 - q.val) := by
  decide +kernel

/-- The writer's standing that every append needs: W_BYTES ≤ W_CAP and a clean ACC (R34). -/
def writerReady (w : Writer) : Prop := w.bytes.toNat ≤ w.cap.toNat ∧ accClean w

theorem writtenBits_div (w : Writer) : writtenBits w / 8 = w.bytes.toNat := by
  have := w.nacc.isLt
  unfold writtenBits
  omega

theorem writtenBits_mod (w : Writer) : writtenBits w % 8 = w.nacc.val := by
  have := w.nacc.isLt
  unfold writtenBits
  omega

theorem Appends.refl (s : State) (h : accClean s.wr) : Appends s s [] :=
  ⟨rfl, rfl, fun _ _ => rfl, fun _ h => absurd h (by simp), fun _ _ => rfl, h⟩

theorem Appends.wr_base {s t : State} {bs : List Bool} (h : Appends s t bs) : t.wr.base = s.wr.base := by
  rw [h.1]

theorem Appends.wr_cap {s t : State} {bs : List Bool} (h : Appends s t bs) : t.wr.cap = s.wr.cap := by
  rw [h.1]

theorem Appends.bytes_le {s t : State} {bs : List Bool} (h : Appends s t bs) :
    s.wr.bytes.toNat ≤ t.wr.bytes.toNat := by
  have h1 := writtenBits_div s.wr
  have h2 := writtenBits_div t.wr
  rw [h.2.1] at h2
  omega

/-- Appending one string and then another. -/
theorem Appends.trans {s t u : State} {as bs : List Bool} (h1 : Appends s t as) (h2 : Appends t u bs) :
    Appends s u (as ++ bs) := by
  have hb := h1.wr_base
  have hc := h1.wr_cap
  obtain ⟨e1, w1, k1, n1, m1, -⟩ := id h1
  obtain ⟨e2, w2, k2, n2, m2, c2⟩ := id h2
  refine ⟨?_, by rw [w2, w1, List.length_append]; omega, fun p hp => ?_, fun j hj => ?_, fun a ha => ?_, c2⟩
  · calc u = { t with lmem := u.lmem, wr := { u.wr with base := t.wr.base, cap := t.wr.cap } } := e2
      _ = _ := by rw [hb, hc, e1]
  · rw [k2 p (by omega), k1 p hp]
  · by_cases hlt : j < as.length
    · rw [k2 _ (by omega), n1 j hlt, List.getElem_append_left hlt]
    · have hj' : j - as.length < bs.length := by simp at hj; omega
      have := n2 (j - as.length) hj'
      rw [w1, show writtenBits s.wr + as.length + (j - as.length) = writtenBits s.wr + j by omega] at this
      rw [this, List.getElem_append_right (by omega)]
  · have hle := h1.bytes_le
    have hle' := h2.bytes_le
    rw [m2 a (by rw [hb]; omega), m1 a (by omega)]

/-- One bit that fits (R145). -/
theorem writeBit_appends {s : State} (b : Bool) (hw : writerReady s.wr) (hr : roomFor s.wr 1) :
    ∃ t, writeBit b s = .ok () t ∧ Appends s t [b] := by
  obtain ⟨hle, hcl⟩ := hw
  obtain ⟨hc0, hc1, hc2⟩ := acc_step s.wr.nacc s.wr.acc b hcl
  have hn := s.wr.nacc.isLt
  have hcap := s.wr.cap.isLt
  by_cases h7 : s.wr.nacc = 7
  · have hv : s.wr.nacc.val = 7 := by rw [h7]; rfl
    have hlt : s.wr.bytes.toNat < s.wr.cap.toNat := by
      unfold roomFor writtenBits at hr
      omega
    have hne : ¬(s.wr.nacc = 7 ∧ s.wr.bytes = s.wr.cap) := fun h => by
      rw [h.2] at hlt
      omega
    have hb1 : (s.wr.bytes + 1).toNat = s.wr.bytes.toNat + 1 := by
      simp [BitVec.toNat_add]
      omega
    refine ⟨_, by rw [writeBit, if_neg hne, if_pos h7], ?_⟩
    rw [hv] at hc0 hc1 hc2 ⊢
    refine ⟨rfl, ?_, fun p hp => ?_, fun j hj => ?_, fun a ha => ?_, ?_⟩
    · simp [writtenBits, hv]
      omega
    · have hp8 : p / 8 ≤ s.wr.bytes.toNat := by
        have := writtenBits_div s.wr
        omega
      simp only [outBit, hb1]
      rw [if_pos (by omega)]
      by_cases hlt' : p / 8 < s.wr.bytes.toNat
      · rw [if_pos hlt']
        simp only [memWrite_lmem]
        rw [Memory.read?_write_other _ _ _ _ (by omega)]
      · have he : p / 8 = s.wr.bytes.toNat := by omega
        have hm : p % 8 < 7 := by
          unfold writtenBits at hp
          omega
        rw [if_neg hlt', if_pos hp, he]
        simp only [memWrite_lmem, Memory.read?_write_same, Option.map_some]
        exact congrArg some (hc2 ⟨p % 8, by omega⟩ hm)
    · obtain rfl : j = 0 := by simpa using hj
      have hd : (writtenBits s.wr + 0) / 8 = s.wr.bytes.toNat := writtenBits_div s.wr
      have hm : (writtenBits s.wr + 0) % 8 = 7 := by rw [Nat.add_zero, writtenBits_mod, hv]
      simp only [outBit, hb1]
      rw [if_pos (by omega), hd, hm]
      simp only [memWrite_lmem, Memory.read?_write_same, Option.map_some]
      exact congrArg some hc1
    · simp only [memWrite_lmem]
      rw [hb1] at ha
      exact Memory.read?_write_other _ _ _ _ (by omega)
    · show (0 : BitVec 8).toNat % _ = 0
      simp
  · have hne : ¬(s.wr.nacc = 7 ∧ s.wr.bytes = s.wr.cap) := fun h => h7 h.1
    have hv : s.wr.nacc.val < 7 := by
      rcases Nat.lt_or_ge s.wr.nacc.val 7 with h | h
      · exact h
      · exact absurd (Fin.ext (by show s.wr.nacc.val = 7; omega)) h7
    have hn1 : (s.wr.nacc + 1).val = s.wr.nacc.val + 1 := by
      rw [Fin.val_add]
      show (s.wr.nacc.val + 1) % 8 = _
      omega
    refine ⟨_, by rw [writeBit, if_neg hne, if_neg h7], ?_⟩
    refine ⟨rfl, ?_, fun p hp => ?_, fun j hj => ?_, fun a ha => rfl, ?_⟩
    · simp [writtenBits, hn1]
      omega
    · simp only [outBit]
      by_cases hlt' : p / 8 < s.wr.bytes.toNat
      · rw [if_pos hlt', if_pos hlt']
      · have hm : p % 8 < s.wr.nacc.val := by
          unfold writtenBits at hp
          omega
        rw [if_neg hlt', if_neg hlt', if_pos hp, if_pos (by simp only [writtenBits, hn1] at hp ⊢; omega)]
        exact congrArg some (hc2 ⟨p % 8, by omega⟩ hm)
    · obtain rfl : j = 0 := by simpa using hj
      have hd : (writtenBits s.wr + 0) / 8 = s.wr.bytes.toNat := writtenBits_div s.wr
      have hm : (writtenBits s.wr + 0) % 8 = s.wr.nacc.val := writtenBits_mod s.wr
      simp only [outBit]
      rw [hd, if_neg (by omega), if_pos (by simp only [writtenBits, hn1]; omega), hm]
      exact congrArg some hc1
    · simp only [accClean, hn1]
      rw [show 8 - (s.wr.nacc.val + 1) = 7 - s.wr.nacc.val by omega]
      exact hc0

/-- One bit that does not fit is refused, and nothing changes (R145). -/
theorem writeBit_overflow {s : State} (b : Bool) (hw : s.wr.bytes.toNat ≤ s.wr.cap.toNat)
    (hr : ¬roomFor s.wr 1) :
    writeBit b s = .raised .outOfRange (writerRegion s).endSum s ∧ s.wr.nacc = 7 ∧ s.wr.bytes = s.wr.cap := by
  have hn := s.wr.nacc.isLt
  unfold roomFor writtenBits at hr
  have h7 : s.wr.nacc = 7 := Fin.ext (by show s.wr.nacc.val = 7; omega)
  have hb : s.wr.bytes = s.wr.cap := BitVec.eq_of_toNat_eq (by omega)
  exact ⟨if_pos ⟨h7, hb⟩, h7, hb⟩

theorem Appends.ready {s t : State} {bs : List Bool} (h : Appends s t bs) (hr : roomFor s.wr bs.length) :
    writerReady t.wr := by
  refine ⟨?_, h.2.2.2.2.2⟩
  have := writtenBits_div t.wr
  rw [h.2.1] at this
  rw [h.wr_cap]
  unfold roomFor at hr
  omega

theorem roomFor_mono {w : Writer} {m n : Nat} (h : roomFor w n) (hmn : m ≤ n) : roomFor w m := by
  unfold roomFor at *
  omega

theorem Appends.room {s t : State} {bs : List Bool} {k : Nat} (h : Appends s t bs) :
    roomFor t.wr k ↔ roomFor s.wr (bs.length + k) := by
  unfold roomFor
  rw [h.2.1, h.wr_cap, Nat.add_assoc]

/-! ## A string of bits -/

theorem writeBitList_appends (bs : List Bool) : ∀ {s : State}, writerReady s.wr → roomFor s.wr bs.length →
    ∃ t, writeBitList bs s = .ok () t ∧ Appends s t bs := by
  induction bs with
  | nil => exact fun hw _ => ⟨_, rfl, Appends.refl _ hw.2⟩
  | cons b bs ih =>
    intro s hw hr
    have h1 : roomFor s.wr 1 := roomFor_mono hr (by simp)
    obtain ⟨t, ht, ha⟩ := writeBit_appends b hw h1
    obtain ⟨u, hu, hb⟩ := ih (ha.ready (by simpa using h1)) (ha.room.2 (by simpa [Nat.add_comm] using hr))
    exact ⟨u, by rw [writeBitList, ht]; exact hu, ha.trans hb⟩

/-- The overflow (R145): the bits that fit are appended, and the writer stands at NACC = 7, W_BYTES = W_CAP. -/
theorem writeBitList_overflow (bs : List Bool) : ∀ {s : State}, writerReady s.wr → ¬roomFor s.wr bs.length →
    ∃ t, writeBitList bs s = .raised .outOfRange (writerRegion s).endSum t ∧
      Appends s t (bs.take (8 * s.wr.cap.toNat + 7 - writtenBits s.wr)) ∧ t.wr.nacc = 7 ∧
      t.wr.bytes = s.wr.cap := by
  induction bs with
  | nil =>
    intro s hw hr
    exact absurd (by unfold roomFor; rw [List.length_nil, Nat.add_zero, writtenBits_div]; exact hw.1) hr
  | cons b bs ih =>
    intro s hw hr
    by_cases h1 : roomFor s.wr 1
    · obtain ⟨t, ht, ha⟩ := writeBit_appends b hw h1
      have hr' : ¬roomFor t.wr bs.length := fun h => hr (by
        have := ha.room.1 h
        simpa [Nat.add_comm] using this)
      obtain ⟨u, hu, hb, h7, hc⟩ := ih (ha.ready (by simpa using h1)) hr'
      have hreg : writerRegion t = writerRegion s := by
        simp only [writerRegion, ha.wr_base, ha.wr_cap]
      refine ⟨u, by rw [writeBitList, ht]; simpa [hreg] using hu, ?_, h7, hc.trans ha.wr_cap⟩
      have hk : 8 * s.wr.cap.toNat + 7 - writtenBits s.wr =
          (8 * t.wr.cap.toNat + 7 - writtenBits t.wr) + 1 := by
        rw [ha.wr_cap, ha.2.1]
        unfold roomFor at h1
        simp only [List.length_singleton]
        omega
      rw [hk, List.take_succ_cons]
      exact ha.trans hb
    · obtain ⟨hb, h7, hc⟩ := writeBit_overflow b hw.1 h1
      refine ⟨s, by rw [writeBitList, hb]; rfl, ?_, h7, hc⟩
      have : 8 * s.wr.cap.toNat + 7 - writtenBits s.wr = 0 := by
        simp [writtenBits, h7, hc]
      rw [this]
      exact Appends.refl _ hw.2

/-! ## Fields -/

/-- Fields that fit are appended (R145). -/
theorem writeFields_appends {fs : List Field} {s : State} (hw : writerReady s.wr)
    (hr : roomFor s.wr (fieldBits fs).length) :
    ∃ t, writeFields fs s = .ok () t ∧ Appends s t (fieldBits fs) := by
  rw [writeFields_eq_list]
  exact writeBitList_appends _ hw hr

/-- Fields that do not fit (R145). -/
theorem writeFields_overflow {fs : List Field} {s : State} (hw : writerReady s.wr)
    (hr : ¬roomFor s.wr (fieldBits fs).length) :
    ∃ t, writeFields fs s = .raised .outOfRange (writerRegion s).endSum t ∧
      Appends s t ((fieldBits fs).take (8 * s.wr.cap.toNat + 7 - writtenBits s.wr)) ∧ t.wr.nacc = 7 ∧
      t.wr.bytes = s.wr.cap := by
  rw [writeFields_eq_list]
  exact writeBitList_overflow _ hw hr

theorem writeBits_appends {n : Nat} {v : DWord} {s : State} (hw : writerReady s.wr) (hr : roomFor s.wr n) :
    ∃ t, writeBits n v s = .ok () t ∧ Appends s t (bitsMsb n v) := by
  rw [writeBits_eq_list]
  exact writeBitList_appends _ hw (by simpa using hr)

theorem writeBits_overflow {n : Nat} {v : DWord} {s : State} (hw : writerReady s.wr) (hr : ¬roomFor s.wr n) :
    ∃ t, writeBits n v s = .raised .outOfRange (writerRegion s).endSum t ∧
      Appends s t ((bitsMsb n v).take (8 * s.wr.cap.toNat + 7 - writtenBits s.wr)) ∧ t.wr.nacc = 7 ∧
      t.wr.bytes = s.wr.cap := by
  rw [writeBits_eq_list]
  exact writeBitList_overflow _ hw (by simpa using hr)

theorem bitsMsb_zero_value (n : Nat) : bitsMsb n 0 = List.replicate n false := by
  simp [bitsMsb, List.map_const']

/-- The bits Flush appends: zeros up to the next byte (R146). -/
def flushBits (w : Writer) : List Bool := if w.nacc = 0 then [] else List.replicate (8 - w.nacc.val) false

/-- Flush as an append (R146). -/
theorem flush_eq_list (s : State) : flush s = writeBitList (flushBits s.wr) s := by
  unfold flush flushBits
  split_ifs
  · rfl
  · rw [writeBits_eq_list, bitsMsb_zero_value]

/-- A writer that a command may use is ready (R34, R66). -/
theorem writerReady_of {s : State} (h : writerOk s = true) (hc : accClean s.wr) : writerReady s.wr := by
  simp only [writerOk, Bool.and_eq_true, decide_eq_true_eq] at h
  exact ⟨h.2, hc⟩

/-- A command whose run is one bit string through the writer: it completes when the bits fit, and raises OutOfRange
after those that fit otherwise (R145). -/
theorem close_writeBitList {s : State} {bits : List Bool} {r : Run Unit} (hw : writerReady s.wr)
    (hr : r = writeBitList bits s) :
    (roomFor s.wr bits.length → ∃ t,
      (.next r.close : Host.Outcome State Fault Refusal) = .next (complete t) ∧ Appends s t bits) ∧
    (¬roomFor s.wr bits.length → ∃ t,
      (.next r.close : Host.Outcome State Fault Refusal) =
        .next (trapEntry .outOfRange (s.wr.base.zeroExtend 64 + s.wr.cap.zeroExtend 64) t) ∧
      Appends s t (bits.take (8 * s.wr.cap.toNat + 7 - writtenBits s.wr)) ∧
      t.wr.nacc = 7 ∧ t.wr.bytes = s.wr.cap) := by
  subst hr
  refine ⟨fun h => ?_, fun h => ?_⟩
  · obtain ⟨t, ht, ha⟩ := writeBitList_appends bits hw h
    exact ⟨t, by rw [ht]; rfl, ha⟩
  · obtain ⟨t, ht, ha⟩ := writeBitList_overflow bits hw h
    exact ⟨t, by rw [ht]; rfl, ha⟩

/-! ## What no write changes, whatever its outcome -/

/-- The state a run stands in. -/
def Run.state {α : Type} : Run α → State
  | .ok _ s => s
  | .raised _ _ s => s

@[simp] theorem Run.state_ok {α : Type} (a : α) (s : State) : (Run.ok a s).state = s := rfl
@[simp] theorem Run.state_raised {α : Type} (e : ErrorKind) (i : DWord) (s : State) :
    (Run.raised e i s : Run α).state = s := rfl

/-- `t` differs from `s` in LMEM and the writer's position only; and LMEM, from a writer with W_BYTES ≤ W_CAP, only
inside the writer's region. This holds of the state any writer primitive ends in, whatever its outcome. -/
structure OnlyWriter (s t : State) : Prop where
  eq : t = { s with lmem := t.lmem, wr := { t.wr with base := s.wr.base, cap := s.wr.cap } }
  bytes_le : s.wr.bytes.toNat ≤ s.wr.cap.toNat → t.wr.bytes.toNat ≤ s.wr.cap.toNat
  read : s.wr.bytes.toNat ≤ s.wr.cap.toNat →
    ∀ a, (writerRegion s).contains a = false → Memory.read? t.lmem a = Memory.read? s.lmem a
  listed : s.wr.bytes.toNat ≤ s.wr.cap.toNat →
    ∀ c ∈ t.lmem, c ∈ s.lmem ∨ (writerRegion s).contains c.1 = true
  wf : Memory.wf s.lmem → Memory.wf t.lmem
  clean : accClean s.wr → accClean t.wr

theorem OnlyWriter.refl (s : State) : OnlyWriter s s :=
  ⟨rfl, id, fun _ _ _ => rfl, fun _ _ h => .inl h, id, id⟩

theorem OnlyWriter.wr_base {s t : State} (h : OnlyWriter s t) : t.wr.base = s.wr.base := by rw [h.eq]
theorem OnlyWriter.wr_cap {s t : State} (h : OnlyWriter s t) : t.wr.cap = s.wr.cap := by rw [h.eq]

theorem OnlyWriter.region {s t : State} (h : OnlyWriter s t) : writerRegion t = writerRegion s := by
  simp only [writerRegion, h.wr_base, h.wr_cap]

theorem OnlyWriter.trans {s t u : State} (h1 : OnlyWriter s t) (h2 : OnlyWriter t u) : OnlyWriter s u where
  eq := by
    calc u = { t with lmem := u.lmem, wr := { u.wr with base := t.wr.base, cap := t.wr.cap } } := h2.eq
      _ = _ := by rw [h1.wr_base, h1.wr_cap, h1.eq]
  bytes_le h := by
    have := h2.bytes_le (by rw [h1.wr_cap]; exact h1.bytes_le h)
    rwa [h1.wr_cap] at this
  read h a ha := by
    rw [h2.read (by rw [h1.wr_cap]; exact h1.bytes_le h) a (by rw [h1.region]; exact ha), h1.read h a ha]
  listed h c hc := by
    rcases h2.listed (by rw [h1.wr_cap]; exact h1.bytes_le h) c hc with hc | hc
    · exact h1.listed h c hc
    · exact .inr (by rw [← h1.region]; exact hc)
  wf := h2.wf ∘ h1.wf
  clean := h2.clean ∘ h1.clean

theorem writeBit_only (b : Bool) (s : State) : OnlyWriter s (writeBit b s).state := by
  unfold writeBit
  split_ifs with h1 h7
  · exact OnlyWriter.refl s
  · have hcap := s.wr.cap.isLt
    have hne : s.wr.bytes.toNat ≠ s.wr.cap.toNat := fun h => h1 ⟨h7, BitVec.eq_of_toNat_eq h⟩
    refine ⟨rfl, fun h => ?_, fun h a ha => ?_, fun h c hc => ?_, fun h => Memory.wf_write _ _ h, fun _ => ?_⟩
    · simp only [Run.state_ok, BitVec.toNat_add]
      simp
      omega
    · refine Memory.read?_write_other _ _ _ _ fun e => ?_
      simp [Region.contains, writerRegion, e] at ha
      omega
    · rcases Memory.mem_write hc with rfl | hc
      · refine .inr ?_
        simp [Region.contains, writerRegion]
        omega
      · exact .inl hc
    · simp [accClean]
  · refine ⟨rfl, id, fun _ _ _ => rfl, fun _ c hc => .inl hc, id, fun h => ?_⟩
    have hv : s.wr.nacc.val < 7 := by
      rcases Nat.lt_or_ge s.wr.nacc.val 7 with h | h
      · exact h
      · exact absurd (Fin.ext (by show s.wr.nacc.val = 7; omega)) h7
    have hn1 : (s.wr.nacc + 1).val = s.wr.nacc.val + 1 := by
      rw [Fin.val_add]
      show (s.wr.nacc.val + 1) % 8 = _
      omega
    simp only [Run.state_ok, accClean, hn1]
    rw [show 8 - (s.wr.nacc.val + 1) = 7 - s.wr.nacc.val by omega]
    exact (acc_step s.wr.nacc s.wr.acc b h).1

theorem writeBitList_only (bs : List Bool) : ∀ s : State, OnlyWriter s (writeBitList bs s).state := by
  induction bs with
  | nil => exact fun s => OnlyWriter.refl s
  | cons b bs ih =>
    intro s
    have h := writeBit_only b s
    rw [writeBitList]
    cases hb : writeBit b s with
    | ok u t =>
      rw [hb] at h
      exact h.trans (ih t)
    | raised e i t =>
      rw [hb] at h
      exact h

/-- Every raise of the writer is OutOfRange (R145). -/
theorem writeBitList_raises (bs : List Bool) : ∀ {s t : State} {e : ErrorKind} {i : DWord},
    writeBitList bs s = .raised e i t → e = .outOfRange := by
  induction bs with
  | nil => intro s t e i h; cases h
  | cons b bs ih =>
    intro s t e i h
    rw [writeBitList, Run.andThen_eq_raised] at h
    rcases h with h | ⟨_, t', -, h⟩
    · unfold writeBit at h
      split_ifs at h
      · cases h
        rfl
    · exact ih h

theorem writeFields_only (fs : List Field) (s : State) : OnlyWriter s (writeFields fs s).state := by
  rw [writeFields_eq_list]
  exact writeBitList_only _ s

theorem writeBits_only (n : Nat) (v : DWord) (s : State) : OnlyWriter s (writeBits n v s).state := by
  rw [writeBits_eq_list]
  exact writeBitList_only _ s

theorem flush_only (s : State) : OnlyWriter s (flush s).state := by
  rw [flush_eq_list]
  exact writeBitList_only _ s

/-- The flush's zeros by the bits written so far (R146). -/
theorem flushBits_eq (w : Writer) : flushBits w = padBits (writtenBits w) := by
  have h := writtenBits_mod w
  have hn := w.nacc.isLt
  unfold flushBits padBits
  rw [h]
  split_ifs with h0
  · simp [h0]
  · have : w.nacc.val ≠ 0 := fun e => h0 (Fin.ext e)
    congr 1
    omega

/-- A bit string and then the flush is one bit string (R145, R146). -/
theorem writeBitList_flush {bits : List Bool} {s : State} (hw : writerReady s.wr) :
    ((writeBitList bits s).andThen fun _ t => flush t) =
      writeBitList (bits ++ padBits (writtenBits s.wr + bits.length)) s := by
  rw [writeBitList_append]
  by_cases hr : roomFor s.wr bits.length
  · obtain ⟨t, ht, ha⟩ := writeBitList_appends bits hw hr
    rw [ht]
    simp only [Run.andThen_ok]
    rw [flush_eq_list, flushBits_eq, ha.2.1]
  · obtain ⟨t, ht, ha⟩ := writeBitList_overflow bits hw hr
    rw [ht]
    rfl

/-- The writer's region lies in LMEM (R66). -/
theorem writerOk_bounds {s : State} (h : writerOk s = true) :
    s.wr.base.toNat + s.wr.cap.toNat ≤ s.params.lmemSize ∧ s.wr.bytes.toNat ≤ s.wr.cap.toNat := by
  simp only [writerOk, Bool.and_eq_true] at h
  exact ⟨of_decide_eq_true h.1, of_decide_eq_true h.2⟩

end Sys2Proof.Machine
end

