-- ==== Sys2Proof/Laws/Frames.lean ====
section
/-! SUPPORT. What each command can do to the state, said once: `runLaw` gives, for every command that ends in a next
state, its run, the groups of state it leaves (R102, R283), the errors it raises (R280), the bytes it leaves (R66) and
the parts of the invariant it keeps. -/

namespace Sys2Proof.Machine

/-! ## Frames of a run, before its end -/

/-- `u` differs from `s` in the groups listed only; the bits and registers of a command's end are not written yet. -/
structure Kept (ws : List Group) (s u : State) : Prop where
  framed : Framed ws s u
  busy : u.st.busy = s.st.busy
  done : u.st.done = s.st.done
  err : u.st.err = s.st.err
  errCode : u.errCode = s.errCode
  errInfo : u.errInfo = s.errInfo
  latch : u.latch = s.latch
  draws : u.draws = s.draws

theorem Group.same_refl (s : State) (g : Group) : g.same s s := by cases g <;> simp [Group.same]

theorem Kept.refl (ws : List Group) (s : State) : Kept ws s s :=
  ⟨⟨⟨rfl, rfl, rfl, rfl, rfl, rfl, rfl, rfl, rfl, rfl, rfl, rfl, rfl⟩, fun g _ => g.same_refl s⟩,
    rfl, rfl, rfl, rfl, rfl, rfl, rfl⟩

theorem Kept.mono {ws vs : List Group} {s u : State} (h : Kept ws s u) (hs : ∀ g ∈ ws, g ∈ vs) : Kept vs s u :=
  ⟨⟨h.framed.1, fun g hg => h.framed.2 g fun hw => hg (hs g hw)⟩, h.busy, h.done, h.err, h.errCode, h.errInfo,
    h.latch, h.draws⟩

/-- The reader moves its position only (R141). -/
theorem Kept.of_read (s : State) (n : Nat) : Kept [.readerPos] s (afterRead s n) := by
  refine ⟨⟨⟨rfl, rfl, rfl, rfl, rfl, rfl, rfl, rfl, rfl, rfl, rfl, rfl, rfl⟩, fun g hg => ?_⟩,
    rfl, rfl, rfl, rfl, rfl, rfl, rfl⟩
  cases g <;> first | exact absurd (List.mem_singleton.2 rfl) hg | exact ⟨rfl, rfl, rfl⟩ | exact ⟨rfl, rfl⟩ | rfl

/-- The writer moves its position and stores to LMEM only (R145). -/
theorem Kept.of_only {s t : State} (h : OnlyWriter s t) : Kept [.lmem, .writerPos] s t := by
  have he := h.eq
  refine ⟨⟨?_, fun g hg => ?_⟩, ?_, ?_, ?_, ?_, ?_, ?_, ?_⟩
  · rw [he]
    exact ⟨rfl, rfl, rfl, rfl, rfl, rfl, rfl, rfl, rfl, rfl, rfl, rfl, rfl⟩
  · cases g
    case lmem => exact absurd (by simp) hg
    case writerPos => exact absurd (by simp) hg
    all_goals (rw [he]; first | exact ⟨rfl, rfl, rfl⟩ | exact ⟨rfl, rfl⟩ | rfl)
  all_goals rw [he]

/-- The end of a command keeps the frame (R123, R282). -/
theorem Kept.complete {ws : List Group} {s u : State} (h : Kept ws s u) : Framed ws s (complete u) := by
  refine ⟨h.framed.1, fun g hg => ?_⟩
  have := h.framed.2 g hg
  cases g <;> exact this

theorem Kept.trapEntry {ws : List Group} {s u : State} (h : Kept ws s u) (e : ErrorKind) (info : DWord) :
    Framed ws s (trapEntry e info u) := by
  refine ⟨h.framed.1, fun g hg => ?_⟩
  have := h.framed.2 g hg
  cases g <;> exact this

/-! ## The law of a run -/

/-- Everything a command's run can do to what its rule does not name. -/
structure RunLaw (i : Instr) (s : State) (r : Run Unit) : Prop where
  ok : ∀ {u}, r = .ok () u → Kept (writes i) s u
  raised : ∀ {e info u}, r = .raised e info u → e ∈ raises i ∧ Kept (raisedWrites i) s u
  stores : ∀ a : Nat, (∀ g, storeRegion s i = some g → g.contains a = false) →
    Memory.read? r.state.lmem a = Memory.read? s.lmem a
  lmem : lmemOk s → lmemOk r.state
  cursors : cursorsOk s → cursorsOk r.state
  qs : qsOk s → qsOk r.state

/-- A run that raises at once, with nothing changed. -/
theorem RunLaw.raise {i : Instr} {s : State} {e : ErrorKind} {info : DWord} (he : e ∈ raises i) :
    RunLaw i s (.raised e info s) where
  ok h := nomatch h
  raised h := by
    cases h
    exact ⟨he, Kept.refl _ _⟩
  stores _ _ := rfl
  lmem := id
  cursors := id
  qs := id

/-- A run that ends well with LMEM as it was. -/
theorem RunLaw.plain {i : Instr} {s u : State} (hk : Kept (writes i) s u) (hm : u.lmem = s.lmem)
    (hc : cursorsOk s → cursorsOk u) (hq : qsOk s → qsOk u) : RunLaw i s (.ok () u) where
  ok h := by
    cases h
    exact hk
  raised h := nomatch h
  stores _ _ := by rw [Run.state_ok, hm]
  lmem h := by
    have hp := hk.framed.1.1
    simpa [lmemOk, hm, hp] using h
  cursors := hc
  qs := hq

theorem cursorsOk_congr {s u : State} (hp : u.params = s.params)
    (hr : u.rd.base = s.rd.base ∧ u.rd.len = s.rd.len) (hw : u.wr = s.wr) (h : cursorsOk s) : cursorsOk u := by
  simpa only [cursorsOk, readerOk, writerOk, readerRegion, writerRegion, hr.1, hr.2, hw, hp] using h

theorem lmemOk_congr {s u : State} (hp : u.params = s.params) (hm : u.lmem = s.lmem) (h : lmemOk s) :
    lmemOk u := by
  simpa only [lmemOk, hp, hm] using h

theorem latchOk_congr {s u : State} (hst : u.st.busy = s.st.busy ∧ u.st.done = s.st.done ∧ u.st.err = s.st.err)
    (hl : u.latch = s.latch) (hc : u.cmd = s.cmd) (he : u.errCode = s.errCode ∧ u.errInfo = s.errInfo)
    (h : latchOk s) : latchOk u := by
  simpa only [latchOk, hst.1, hst.2.1, hst.2.2, hl, hc, he.1, he.2] using h

theorem qsOk_congr {s u : State} (hq : u.qs = s.qs) (h : qsOk s) : qsOk u := by
  simpa only [qsOk, hq] using h

/-- A run that ends well with LMEM, the cursors' regions, the writer and QS as they were. -/
theorem RunLaw.tables {i : Instr} {s u : State} (hk : Kept (writes i) s u) (hm : u.lmem = s.lmem)
    (hr : u.rd.base = s.rd.base ∧ u.rd.len = s.rd.len) (hw : u.wr = s.wr) (hq : u.qs = s.qs) :
    RunLaw i s (.ok () u) :=
  RunLaw.plain hk hm (cursorsOk_congr hk.framed.1.1 hr hw) (qsOk_congr hq)

/-- A record update of `s` in the groups listed. -/
theorem Kept.of_update {ws : List Group} {s u : State}
    (hf : u.params = s.params ∧ u.ctrlIe = s.ctrlIe ∧ u.st = { s.st with ur := u.st.ur } ∧ u.cmd = s.cmd ∧
      u.srcAddr = s.srcAddr ∧ u.srcLen = s.srcLen ∧ u.dstAddr = s.dstAddr ∧ u.dstLen = s.dstLen ∧
      u.wData = s.wData ∧ u.quality = s.quality ∧ u.script = s.script ∧ u.sched = s.sched ∧
      u.hostData = s.hostData ∧ u.errCode = s.errCode ∧ u.errInfo = s.errInfo ∧ u.latch = s.latch ∧
      u.draws = s.draws) (hg : ∀ g : Group, g ∉ ws → g.same s u) : Kept ws s u := by
  obtain ⟨h1, h2, h3, h4, h5, h6, h7, h8, h9, h10, h11, h12, h13, h14, h15, h16, h17⟩ := hf
  exact ⟨⟨⟨h1, h2, by rw [h3], h4, h5, h6, h7, h8, h9, h10, h11, h12, h13⟩, hg⟩, by rw [h3], by rw [h3], by rw [h3],
    h14, h15, h16, h17⟩

/-- A raise after the reader has moved. -/
theorem RunLaw.raise_read {i : Instr} {s : State} {e : ErrorKind} {info : DWord} {n : Nat} (he : e ∈ raises i)
    (hw : .readerPos ∈ raisedWrites i) : RunLaw i s (.raised e info (afterRead s n)) where
  ok h := nomatch h
  raised h := by
    cases h
    exact ⟨he, (Kept.of_read s n).mono fun g hg => by
      rw [List.mem_singleton.1 hg]
      exact hw⟩
  stores _ _ := rfl
  lmem := id
  cursors := id
  qs := id

/-! ## The writer's commands -/

/-- What a run through the writer keeps, whatever its outcome. -/
theorem OnlyWriter.keeps {s t : State} (h : OnlyWriter s t) (hb : s.wr.bytes.toNat ≤ s.wr.cap.toNat) :
    (lmemOk s ∧ (writerRegion s).valid s.params.lmemSize = true → lmemOk t) ∧ (cursorsOk s → cursorsOk t) ∧
      (qsOk s → qsOk t) := by
  have he := h.eq
  have hp : t.params = s.params := by rw [he]
  have hq : t.qs = s.qs := by rw [he]
  have hr : readerRegion t = readerRegion s := by rw [he]; rfl
  have hcap := h.wr_cap
  refine ⟨fun ⟨⟨hwf, hl⟩, hv⟩ => ⟨h.wf hwf, fun c hc => ?_⟩, fun ⟨h1, h2, h3⟩ => ⟨?_, ?_, h.clean h3⟩, ?_⟩
  · rw [hp]
    rcases h.listed hb c hc with hc | hc
    · exact hl c hc
    · simp [Region.contains, Region.valid] at hc hv
      omega
  · simpa [readerOk, hr, hp] using h1
  · simp only [writerOk, Bool.and_eq_true, decide_eq_true_eq] at h2 ⊢
    rw [h.region, hp, hcap]
    exact ⟨h2.1, h.bytes_le h2.2⟩
  · intro h
    simpa [qsOk, hq] using h

/-- A command whose run is the writer's alone. -/
theorem RunLaw.of_writer {i : Instr} {s : State} {r : Run Unit} (hr : OnlyWriter s r.state)
    (hs : storeRegion s i = some (writerRegion s)) (hok : writerOk s = true)
    (hw : ∀ g ∈ [Group.lmem, .writerPos], g ∈ writes i ∧ g ∈ raisedWrites i)
    (he : ∀ {e info u}, r = .raised e info u → e ∈ raises i) : RunLaw i s r := by
  simp only [writerOk, Bool.and_eq_true, decide_eq_true_eq] at hok
  obtain ⟨k1, k2, k3⟩ := hr.keeps hok.2
  refine ⟨fun h => ?_, fun h => ⟨he h, ?_⟩, fun a ha => hr.read hok.2 a (ha _ hs), fun h => k1 ⟨h, hok.1⟩, k2, k3⟩
  · rw [h] at hr
    exact (Kept.of_only hr).mono fun g hg => (hw g hg).1
  · rw [h] at hr
    exact (Kept.of_only hr).mono fun g hg => (hw g hg).2

/-! ## Stores to a plain region -/

/-- LMEM's list `m` is `l` but for the bytes of a region inside LMEM. -/
structure StoresIn (g : Region) (l m : List Host.Cell) : Prop where
  read : ∀ a, g.contains a = false → Memory.read? m a = Memory.read? l a
  listed : ∀ c ∈ m, c ∈ l ∨ g.contains c.1 = true
  wf : Memory.wf l → Memory.wf m

theorem StoresIn.refl (g : Region) (l : List Host.Cell) : StoresIn g l l := ⟨fun _ _ => rfl, fun _ h => .inl h, id⟩

theorem StoresIn.trans {g : Region} {l m n : List Host.Cell} (h1 : StoresIn g l m) (h2 : StoresIn g m n) :
    StoresIn g l n :=
  ⟨fun a ha => (h2.read a ha).trans (h1.read a ha), fun c hc => (h2.listed c hc).elim (h1.listed c) .inr,
    h2.wf ∘ h1.wf⟩

theorem StoresIn.write {g : Region} {a : Nat} (l : List Host.Cell) (v : Byte) (h : g.contains a = true) :
    StoresIn g l (Memory.write l a v) := by
  refine ⟨fun b hb => Memory.read?_write_other _ _ _ _ fun e => ?_, fun c hc => ?_, Memory.wf_write a v⟩
  · rw [e, h] at hb
    exact absurd hb (by simp)
  · rcases Memory.mem_write hc with rfl | hc
    · exact .inr h
    · exact .inl hc

theorem StoresIn.writeList {g : Region} (vs : List Byte) : ∀ {a : Nat} (l : List Host.Cell),
    (∀ j, j < vs.length → g.contains (a + j) = true) → StoresIn g l (Memory.writeList l a vs) := by
  induction vs with
  | nil => exact fun l _ => StoresIn.refl g l
  | cons v vs ih =>
    intro a l h
    refine (StoresIn.write l v (h 0 (by simp))).trans (ih _ fun j hj => ?_)
    have := h (j + 1) (by simpa using hj)
    rwa [show a + (j + 1) = a + 1 + j by omega] at this

/-- A reader's command that stores to its destination region. -/
theorem RunLaw.of_stores {i : Instr} {s u : State} {r : Run Unit} {n : Nat} {m : List Host.Cell} {d : DWord}
    (hr : r.state = u) (hu : u = { afterRead s n with lmem := m, dLen := d })
    (hm : StoresIn (dstRegion s) s.lmem m) (hv : (dstRegion s).valid s.params.lmemSize = true)
    (hs : storeRegion s i = some (dstRegion s))
    (hok : ∀ {v}, r = .ok () v → .lmem ∈ writes i ∧ .readerPos ∈ writes i ∧ (d = s.dLen ∨ .dLen ∈ writes i))
    (hra : ∀ {e info v}, r = .raised e info v →
      e ∈ raises i ∧ .lmem ∈ raisedWrites i ∧ .readerPos ∈ raisedWrites i ∧ d = s.dLen) : RunLaw i s r := by
  have key : ∀ ws : List Group, .lmem ∈ ws → .readerPos ∈ ws → (d = s.dLen ∨ .dLen ∈ ws) → Kept ws s u := by
    intro ws h1 h2 h3
    rw [hu]
    refine ⟨⟨⟨rfl, rfl, rfl, rfl, rfl, rfl, rfl, rfl, rfl, rfl, rfl, rfl, rfl⟩, fun g hg => ?_⟩,
      rfl, rfl, rfl, rfl, rfl, rfl, rfl⟩
    cases g
    case lmem => exact absurd h1 hg
    case readerPos => exact absurd h2 hg
    case dLen => exact h3.elim id fun h => absurd h hg
    all_goals first | exact ⟨rfl, rfl, rfl⟩ | exact ⟨rfl, rfl⟩ | rfl
  refine ⟨fun h => ?_, fun h => ?_, fun a ha => ?_, fun h => ?_, fun h => ?_, fun h => ?_⟩
  · obtain ⟨h1, h2, h3⟩ := hok h
    rw [h] at hr
    cases hr
    exact key _ h1 h2 h3
  · obtain ⟨h0, h1, h2, h3⟩ := hra h
    rw [h] at hr
    cases hr
    exact ⟨h0, key _ h1 h2 (.inl h3)⟩
  · rw [hr, hu]
    exact hm.read a (ha _ hs)
  · rw [hr, hu]
    refine ⟨hm.wf h.1, fun c hc => ?_⟩
    rcases hm.listed c hc with hc | hc
    · exact h.2 c hc
    · simp [Region.contains, Region.valid] at hc hv
      show c.1 < s.params.lmemSize
      omega
  · rw [hr, hu]
    exact h
  · rw [hr, hu]
    exact h

end Sys2Proof.Machine
end

