-- ==== Sys2Proof/Laws/Commands.lean ====
section
/-! SUPPORT. The law of every command's run, command by command, and `runLaw` over all of them. -/

namespace Sys2Proof.Machine

/-- The run that `exec` closes is `r`. -/
def Runs (i : Instr) (s t : State) : Prop := ∃ r : Run Unit, t = r.close ∧ RunLaw i s r

theorem finish_runs {i : Instr} {s t : State} {r : Run Unit} (h : finish r = .next t) (hr : RunLaw i s r) :
    Runs i s t := ⟨r, by cases h; rfl, hr⟩

theorem finishReader_next {s t : State} {r : Run Unit} (h : finishReader s r = .next t) :
    readerOk s = true ∧ finish r = .next t := by
  unfold finishReader at h
  split_ifs at h with hr
  exact ⟨hr, h⟩

theorem finishWriter_next {s t : State} {r : Run Unit} (h : finishWriter s r = .next t) :
    writerOk s = true ∧ finish r = .next t := by
  unfold finishWriter at h
  split_ifs at h with hr
  exact ⟨hr, h⟩

/-- The region check before a run. -/
theorem RunLaw.check_valid {i : Instr} {s : State} {g : Region} {k : Unit → State → Run Unit}
    (he : .outOfRange ∈ raises i) (hk : g.valid s.params.lmemSize = true → RunLaw i s (k () s)) :
    RunLaw i s ((requireValid g s).andThen k) := by
  rcases requireValid_cases g s with ⟨hv, h⟩ | ⟨-, h⟩
  · rw [h]
    exact hk hv
  · rw [h]
    exact RunLaw.raise he

/-- The overlap check before a run. -/
theorem RunLaw.check_disjoint {i : Instr} {s : State} {a b : Region} {k : Unit → State → Run Unit}
    (he : .overlap ∈ raises i) (hk : a.overlaps b = false → RunLaw i s (k () s)) :
    RunLaw i s ((requireDisjoint a b s).andThen k) := by
  rcases requireDisjoint_cases a b s with ⟨hv, h⟩ | ⟨-, h⟩
  · rw [h]
    exact hk hv
  · rw [h]
    exact RunLaw.raise he

/-! ## Control and bit cursor -/

theorem nop_runs {s t : State} (h : exec .nop s = .next t) : Runs .nop s t :=
  finish_runs h (RunLaw.plain (Kept.refl _ _) rfl id id)

theorem bcRinit_runs {s t : State} (h : exec .bcRinit s = .next t) : Runs .bcRinit s t := by
  refine finish_runs h (RunLaw.check_valid (by decide) fun hv => RunLaw.plain (Kept.of_update ?_ ?_) rfl ?_ id)
  · exact ⟨rfl, rfl, rfl, rfl, rfl, rfl, rfl, rfl, rfl, rfl, rfl, rfl, rfl, rfl, rfl, rfl, rfl⟩
  · intro g hg
    cases g <;> first | (refine absurd ?_ hg; decide) | rfl | exact ⟨rfl, rfl⟩ | exact ⟨rfl, rfl, rfl⟩
  · exact fun ⟨_, h2, h3⟩ => ⟨hv, h2, h3⟩

theorem bcWinit_runs {s t : State} (h : exec .bcWinit s = .next t) : Runs .bcWinit s t := by
  refine finish_runs h (RunLaw.check_valid (by decide) fun hv => RunLaw.plain (Kept.of_update ?_ ?_) rfl ?_ id)
  · exact ⟨rfl, rfl, rfl, rfl, rfl, rfl, rfl, rfl, rfl, rfl, rfl, rfl, rfl, rfl, rfl, rfl, rfl⟩
  · intro g hg
    cases g <;> first | (refine absurd ?_ hg; decide) | rfl | exact ⟨rfl, rfl⟩ | exact ⟨rfl, rfl, rfl⟩
  · refine fun ⟨h1, _, _⟩ => ⟨h1, ?_, ?_⟩
    · simp only [writerOk, Bool.and_eq_true, decide_eq_true_eq]
      exact ⟨hv, Nat.zero_le _⟩
    · simp [accClean]

theorem bcRead_runs {n : BitVec 8} {s t : State} (h : exec (.bcRead n) s = .next t) : Runs (.bcRead n) s t := by
  change execBcRead n s = _ at h
  unfold execBcRead at h
  split_ifs at h with hn
  · refine finish_runs (finishReader_next h).2 ?_
    unfold runBcRead
    rw [readBits_eq]
    refine RunLaw.tables (Kept.of_update ?_ ?_) rfl ⟨rfl, rfl⟩ rfl rfl
    · exact ⟨rfl, rfl, rfl, rfl, rfl, rfl, rfl, rfl, rfl, rfl, rfl, rfl, rfl, rfl, rfl, rfl, rfl⟩
    · intro g hg
      cases g
      case rData => exact absurd (by simp [writes]) hg
      case readerPos => exact absurd (by simp [writes]) hg
      all_goals first | rfl | exact ⟨rfl, rfl⟩ | exact ⟨rfl, rfl, rfl⟩
  · exact finish_runs h (RunLaw.raise (by simp [raises]))

theorem bcGetb_runs {s t : State} (h : exec .bcGetb s = .next t) : Runs .bcGetb s t := by
  refine finish_runs (finishReader_next h).2 (RunLaw.check_valid (by decide) fun hv =>
    RunLaw.check_disjoint (by decide) fun _ => ?_)
  simp only [readFields_eq]
  refine RunLaw.of_stores (d := s.dLen) rfl rfl (StoresIn.writeList _ _ fun j hj => ?_) hv rfl
    (fun _ => ⟨by decide, by decide, .inl rfl⟩) fun h => nomatch h
  simp [dstRegion, Region.contains] at hj ⊢
  exact hj

theorem writer_raises {i : Instr} {bs : List Bool} {s : State} (he : .outOfRange ∈ raises i) :
    ∀ {e info u}, writeBitList bs s = .raised e info u → e ∈ raises i := fun h => by
  rw [writeBitList_raises bs h]
  exact he

theorem bcWrite_runs {n : BitVec 8} {s t : State} (h : exec (.bcWrite n) s = .next t) : Runs (.bcWrite n) s t := by
  change execBcWrite n s = _ at h
  unfold execBcWrite at h
  split_ifs at h with hn
  · obtain ⟨hw, h⟩ := finishWriter_next h
    refine finish_runs h (RunLaw.of_writer (writeBits_only _ _ _) rfl hw (by simp [writes, raisedWrites]) ?_)
    rw [writeBits_eq_list]
    exact writer_raises (by simp [raises])
  · exact finish_runs h (RunLaw.raise (by simp [raises]))

theorem bcFlush_runs {s t : State} (h : exec .bcFlush s = .next t) : Runs .bcFlush s t := by
  obtain ⟨hw, h⟩ := finishWriter_next h
  refine finish_runs h (RunLaw.of_writer (flush_only _) rfl hw (by decide) ?_)
  rw [flush_eq_list]
  exact writer_raises (by decide)

theorem bcPutb_runs {s t : State} (h : exec .bcPutb s = .next t) : Runs .bcPutb s t := by
  obtain ⟨hw, h⟩ := finishWriter_next h
  refine finish_runs h (RunLaw.check_valid (by decide) fun hv => RunLaw.check_disjoint (by decide) fun _ =>
    RunLaw.of_writer (writeFields_only _ _) rfl hw (by decide) ?_)
  rw [writeFields_eq_list]
  exact writer_raises (by decide)

/-! ## Huffman -/

theorem hufBuild_runs {s t : State} (h : exec .hufBuild s = .next t) : Runs .hufBuild s t := by
  refine finish_runs h (RunLaw.check_valid (by decide) fun hv => ?_)
  have hist : ∀ {e info}, e ∈ raises .hufBuild →
      RunLaw .hufBuild s (.raised e info { s with hist := histogram (regionBytes s (srcRegion s)) }) := by
    intro e info he
    refine ⟨fun h => (nomatch h), fun h => ?_, fun _ _ => by rw [Run.state_raised], fun h => ?_, fun h => ?_,
      fun h => ?_⟩
    rotate_left
    · simpa only [lmemOk, Run.state_raised] using h
    · rw [Run.state_raised]
      exact cursorsOk_congr (s := s) rfl ⟨rfl, rfl⟩ rfl h
    · rw [Run.state_raised]
      exact qsOk_congr (s := s) rfl h
    cases h
    refine ⟨he, Kept.of_update ?_ ?_⟩
    · exact ⟨rfl, rfl, rfl, rfl, rfl, rfl, rfl, rfl, rfl, rfl, rfl, rfl, rfl, rfl, rfl, rfl, rfl⟩
    · intro g hg
      cases g <;> first | (refine absurd ?_ hg; decide) | rfl | exact ⟨rfl, rfl⟩ | exact ⟨rfl, rfl, rfl⟩
  simp only [buildCode]
  split
  · exact hist (by decide)
  · split_ifs
    · exact hist (by decide)
    · exact hist (by decide)
    · refine RunLaw.tables (Kept.of_update ?_ ?_) rfl ⟨rfl, rfl⟩ rfl rfl
      · exact ⟨rfl, rfl, rfl, rfl, rfl, rfl, rfl, rfl, rfl, rfl, rfl, rfl, rfl, rfl, rfl, rfl, rfl⟩
      · intro g hg
        cases g <;> first | (refine absurd ?_ hg; decide) | rfl | exact ⟨rfl, rfl⟩ | exact ⟨rfl, rfl, rfl⟩

theorem hufPack_runs {s t : State} (h : exec .hufPack s = .next t) : Runs .hufPack s t := by
  obtain ⟨hw, h⟩ := finishWriter_next h
  refine finish_runs h (RunLaw.check_valid (by decide) fun hv => RunLaw.check_disjoint (by decide) fun _ => ?_)
  generalize packFields s.cwtab 0 (regionBytes s (srcRegion s)) = p
  obtain ⟨fs, bad⟩ := p
  simp only
  have h1 := writeFields_only fs s
  rw [writeFields_eq_list] at h1 ⊢
  cases hr : writeBitList (fieldBits fs) s with
  | raised e info u =>
    rw [hr] at h1
    refine RunLaw.of_writer h1 rfl hw (by decide) fun h => ?_
    cases h
    rw [writeBitList_raises _ hr]
    decide
  | ok v u =>
    rw [hr] at h1
    cases bad with
    | some j =>
      refine RunLaw.of_writer h1 rfl hw (by decide) fun h => ?_
      cases h
      decide
    | none =>
      refine RunLaw.of_writer (h1.trans (flush_only u)) rfl hw (by decide) ?_
      simp only [Run.andThen_ok]
      rw [flush_eq_list]
      exact writer_raises (by decide)

theorem hufMetaWr_runs {s t : State} (h : exec .hufMetaWr s = .next t) : Runs .hufMetaWr s t := by
  obtain ⟨hw, h⟩ := finishWriter_next h
  refine finish_runs h ?_
  unfold runHufMetaWr
  split_ifs
  · exact RunLaw.raise (by decide)
  · refine RunLaw.of_writer (writeFields_only _ _) rfl hw (by decide) ?_
    rw [writeFields_eq_list]
    exact writer_raises (by decide)

theorem hufMetaRd_runs {s t : State} (h : exec .hufMetaRd s = .next t) : Runs .hufMetaRd s t := by
  refine finish_runs (finishReader_next h).2 ?_
  simp only [runHufMetaRd, readBits_eq, metaRdEntries, readFields_eq, afterRead_add]
  split_ifs
  · exact RunLaw.raise_read (by decide) (by decide)
  · exact RunLaw.raise_read (by decide) (by decide)
  · exact RunLaw.raise_read (by decide) (by decide)
  · split
    · exact RunLaw.raise_read (by decide) (by decide)
    · refine RunLaw.tables (Kept.of_update ?_ ?_) rfl ⟨rfl, rfl⟩ rfl rfl
      · exact ⟨rfl, rfl, rfl, rfl, rfl, rfl, rfl, rfl, rfl, rfl, rfl, rfl, rfl, rfl, rfl, rfl, rfl⟩
      · intro g hg
        cases g <;> first | (refine absurd ?_ hg; decide) | rfl | exact ⟨rfl, rfl⟩ | exact ⟨rfl, rfl, rfl⟩

/-- What HUF_DEC's loop leaves: the reader moved, and LMEM stored to in order. -/
theorem decodeLoop_state (g : Region) (k : Nat) : ∀ (a : Nat) (w : DWord) (s : State),
    (∀ j, j < k → g.contains (a + j) = true) →
    ∃ n m, decodeLoop k a w s = { afterRead s n with lmem := m } ∧ StoresIn g s.lmem m := by
  induction k with
  | zero => exact fun a w s _ => ⟨0, s.lmem, by simp [decodeLoop, afterRead_zero], StoresIn.refl _ _⟩
  | succ k ih =>
    intro a w s h
    simp only [decodeLoop, readBits_eq]
    generalize lookup (lutAt s.lut) s.lutCnt.toNat w.toNat = e
    set s' := memWrite s a e.sym with hs'
    obtain ⟨n, m, h1, h2⟩ := ih (a + 1) (((w <<< e.len.toNat) |||
      BitVec.ofNat 64 (valueOf (streamBits s' s'.rd.pos e.len.toNat))) &&& BitVec.ofNat 64 (2 ^ s.maxLen.toNat - 1))
      (afterRead s' e.len.toNat) fun j hj => by
        have := h (j + 1) (by omega)
        rwa [show a + (j + 1) = a + 1 + j by omega] at this
    refine ⟨e.len.toNat + n, m, ?_, (StoresIn.write s.lmem e.sym (h 0 (by omega))).trans h2⟩
    rw [h1, afterRead_add]
    rfl

theorem hufDec_runs {s t : State} (h : exec .hufDec s = .next t) : Runs .hufDec s t := by
  refine finish_runs (finishReader_next h).2 ?_
  unfold runHufDec
  split
  · exact RunLaw.raise (by decide)
  · refine RunLaw.check_valid (by decide) fun hv => ?_
    split_ifs with hc
    · exact RunLaw.raise (by decide)
    · refine RunLaw.check_disjoint (by decide) fun _ => ?_
      simp only [readBits_eq]
      obtain ⟨n, m, h1, h2⟩ := decodeLoop_state (dstRegion s) s.count.toNat s.dstAddr.toNat
        (BitVec.ofNat 64 (valueOf (streamBits s s.rd.pos s.maxLen.toNat))) (afterRead s s.maxLen.toNat) fun j hj => by
          simp [dstRegion, Region.contains]
          omega
      refine RunLaw.of_stores (u := { afterRead s (s.maxLen.toNat + n) with lmem := m, dLen := s.dLen }) (d := s.dLen)
        ?_ rfl h2 hv rfl (fun _ => ⟨by decide, by decide, .inl rfl⟩) fun h => nomatch h
      simp only [Run.state_ok, afterRead_count, afterRead_dstAddr]
      rw [h1, afterRead_add]
      rfl

/-! ## Transform, zig-zag and run length -/

theorem blk_runs {i : Instr} {s t : State} {b : Vector DWord 64} (hw : writes i = [.blk])
    (h : finish (.ok () { s with blk := b }) = .next t) : Runs i s t := by
  refine finish_runs h (RunLaw.tables (Kept.of_update ?_ ?_) rfl ⟨rfl, rfl⟩ rfl rfl)
  · exact ⟨rfl, rfl, rfl, rfl, rfl, rfl, rfl, rfl, rfl, rfl, rfl, rfl, rfl, rfl, rfl, rfl, rfl⟩
  · intro g hg
    rw [hw] at hg
    cases g <;> first | (refine absurd ?_ hg; decide) | rfl | exact ⟨rfl, rfl⟩ | exact ⟨rfl, rfl, rfl⟩

theorem qscale_runs {s t : State} (h : exec .qscale s = .next t) : Runs .qscale s t := by
  refine finish_runs h ?_
  unfold runQscale
  split
  · exact RunLaw.raise (by decide)
  · rename_i hf
    refine RunLaw.plain (Kept.of_update ?_ ?_) rfl
      (cursorsOk_congr rfl ⟨rfl, rfl⟩ rfl) fun _ k => ?_
    · exact ⟨rfl, rfl, rfl, rfl, rfl, rfl, rfl, rfl, rfl, rfl, rfl, rfl, rfl, rfl, rfl, rfl, rfl⟩
    · intro g hg
      cases g <;> first | (refine absurd ?_ hg; decide) | rfl | exact ⟨rfl, rfl⟩ | exact ⟨rfl, rfl, rfl⟩
    · simpa using List.find?_eq_none.1 hf k (List.mem_finRange k)

theorem zzRead_runs {s t : State} (h : exec .zzRead s = .next t) : Runs .zzRead s t := by
  refine finish_runs h (RunLaw.tables (Kept.of_update ?_ ?_) rfl ⟨rfl, rfl⟩ rfl rfl)
  · exact ⟨rfl, rfl, rfl, rfl, rfl, rfl, rfl, rfl, rfl, rfl, rfl, rfl, rfl, rfl, rfl, rfl, rfl⟩
  · intro g hg
    cases g <;> first | (refine absurd ?_ hg; decide) | rfl | exact ⟨rfl, rfl⟩ | exact ⟨rfl, rfl, rfl⟩

theorem rlePack_runs {s t : State} (h : exec .rlePack s = .next t) : Runs .rlePack s t := by
  obtain ⟨hw, h⟩ := finishWriter_next h
  refine finish_runs h ?_
  unfold runRlePack
  split
  · exact RunLaw.raise (by decide)
  · refine RunLaw.of_writer (writeFields_only _ _) rfl hw (by decide) ?_
    rw [writeFields_eq_list]
    exact writer_raises (by decide)

/-- What RLE_UNPACK's loop leaves: the reader moved; every raise is BadData. -/
theorem unpackLoop_state (fuel : Nat) : ∀ (pad0 : DWord) (S : Vector DWord 64) (k : Nat) (s : State),
    ∃ n, (∃ q, unpackLoop fuel pad0 S k s = .ok q (afterRead s n)) ∨
      ∃ info, unpackLoop fuel pad0 S k s = .raised .badData info (afterRead s n) := by
  induction fuel with
  | zero => exact fun _ _ _ s => ⟨0, .inr ⟨_, by rw [afterRead_zero]; rfl⟩⟩
  | succ fuel ih =>
    intro pad0 S k s
    simp only [unpackLoop, readBits_eq, afterRead_add]
    split_ifs
    · exact ⟨_, .inr ⟨_, rfl⟩⟩
    · exact ⟨_, .inl ⟨_, rfl⟩⟩
    · exact ⟨_, .inr ⟨_, rfl⟩⟩
    · exact ⟨_, .inr ⟨_, rfl⟩⟩
    · obtain ⟨n, ⟨q, hq⟩ | ⟨info, hq⟩⟩ := ih pad0 (S.setIfInBounds
        (k + (BitVec.ofNat 64 (valueOf (streamBits s s.rd.pos 8))).toNat) (F64.ofInt ((BitVec.ofNat 64 (valueOf
          (streamBits (afterRead s 8) (afterRead s 8).rd.pos 16))).setWidth 16).toInt))
        (k + (BitVec.ofNat 64 (valueOf (streamBits s s.rd.pos 8))).toNat + 1) (afterRead s (8 + 16))
      · exact ⟨8 + 16 + n, .inl ⟨q, by rw [hq, afterRead_add]⟩⟩
      · exact ⟨8 + 16 + n, .inr ⟨info, by rw [hq, afterRead_add]⟩⟩

theorem rleUnpack_runs {s t : State} (h : exec .rleUnpack s = .next t) : Runs .rleUnpack s t := by
  refine finish_runs (finishReader_next h).2 ?_
  unfold runRleUnpack
  obtain ⟨n, ⟨q, hq⟩ | ⟨info, hq⟩⟩ := unpackLoop_state 65 s.rd.pad (Vector.replicate 64 0) 0 s
  · rw [hq]
    refine RunLaw.tables (Kept.of_update ?_ ?_) rfl ⟨rfl, rfl⟩ rfl rfl
    · exact ⟨rfl, rfl, rfl, rfl, rfl, rfl, rfl, rfl, rfl, rfl, rfl, rfl, rfl, rfl, rfl, rfl, rfl⟩
    · intro g hg
      cases g <;> first | (refine absurd ?_ hg; decide) | rfl | exact ⟨rfl, rfl⟩ | exact ⟨rfl, rfl, rfl⟩
  · rw [hq]
    exact RunLaw.raise_read (by decide) (by decide)

/-! ## Delta -/

theorem deltaEnc_runs {s t : State} (h : exec .deltaEnc s = .next t) : Runs .deltaEnc s t := by
  obtain ⟨hw, h⟩ := finishWriter_next h
  refine finish_runs h (RunLaw.check_valid (by decide) fun hv => RunLaw.check_disjoint (by decide) fun _ => ?_)
  have h1 := writeFields_only (deltaFields (regionBytes s (srcRegion s))) s
  rw [writeFields_eq_list] at h1 ⊢
  cases hr : writeBitList (fieldBits (deltaFields (regionBytes s (srcRegion s)))) s with
  | raised e info u =>
    rw [hr] at h1
    refine RunLaw.of_writer h1 rfl hw (by decide) fun h => ?_
    cases h
    rw [writeBitList_raises _ hr]
    decide
  | ok v u =>
    rw [hr] at h1
    simp only [writerOk, Bool.and_eq_true, decide_eq_true_eq] at hw
    obtain ⟨k1, k2, k3⟩ := h1.keeps hw.2
    have hk := Kept.of_only h1
    refine ⟨fun h => ?_, fun h => (nomatch h), fun a ha => h1.read hw.2 a (ha _ rfl), fun h => k1 ⟨h, hw.1⟩, k2, k3⟩
    cases h
    refine ⟨⟨hk.framed.1, fun g hg => ?_⟩, hk.busy, hk.done, hk.err, hk.errCode, hk.errInfo, hk.latch, hk.draws⟩
    have hg' : g ≠ .dLen ∧ g ∉ [Group.lmem, .writerPos] := by
      revert hg
      cases g <;> decide
    have := hk.framed.2 g hg'.2
    cases g <;> first | exact absurd rfl hg'.1 | exact this

/-- What DELTA_DEC's last loop leaves: LMEM stored to in order; every raise is BadData. -/
theorem rebuildLoop_state (g : Region) (ms : List Byte) (gs : List Bool) (dst k : Nat) :
    ∀ (xs : List Byte) (s : State), (∀ j, j < xs.length + k → g.contains (dst + j) = true) →
    ∃ m, StoresIn g s.lmem m ∧ (rebuildLoop ms gs dst k xs s = .ok () { s with lmem := m } ∨
      ∃ info, rebuildLoop ms gs dst k xs s = .raised .badData info { s with lmem := m }) := by
  induction k with
  | zero => exact fun xs s _ => ⟨s.lmem, StoresIn.refl _ _, .inl rfl⟩
  | succ k ih =>
    intro xs s h
    simp only [rebuildLoop]
    split_ifs
    · exact ⟨s.lmem, StoresIn.refl _ _, .inr ⟨_, rfl⟩⟩
    · obtain ⟨m, h1, h2⟩ := ih (xs ++ [BitVec.ofInt 8 (rebuildAt ms gs xs xs.length)])
        (memWrite s (dst + xs.length) (BitVec.ofInt 8 (rebuildAt ms gs xs xs.length))) (fun j hj => h j (by
          simp at hj
          omega))
      exact ⟨m, (StoresIn.write s.lmem _ (h xs.length (by omega))).trans h1, h2⟩

theorem deltaDec_runs {s t : State} (h : exec .deltaDec s = .next t) : Runs .deltaDec s t := by
  refine finish_runs (finishReader_next h).2 (RunLaw.check_valid (by decide) fun hv =>
    RunLaw.check_disjoint (by decide) fun _ => ?_)
  simp only [readBits_eq, readFields_eq, deltaDecTail, afterRead_add]
  split_ifs
  all_goals try exact RunLaw.raise_read (by decide) (by decide)
  rename_i hn _ _ _
  generalize hms : List.map _ _ = ms
  generalize hgs : List.map _ _ = gs
  simp only [afterRead_dstLen] at hn
  simp only [afterRead_dstAddr]
  generalize hN : (BitVec.ofNat 64 (valueOf (streamBits s s.rd.pos 64))).toNat = n at *
  generalize hM : 64 + (List.replicate n 8).sum + 64 + _ = c
  obtain ⟨m, h1, h2 | ⟨info, h2⟩⟩ := rebuildLoop_state (dstRegion s) ms gs s.dstAddr.toNat n []
    (afterRead s c) (fun j hj => by
      simp [dstRegion, Region.contains] at hj ⊢
      omega)
  · rw [h2]
    exact RunLaw.of_stores (d := BitVec.ofNat 64 n) rfl rfl h1 hv rfl
      (fun _ => ⟨by decide, by decide, .inr (by decide)⟩) fun h => nomatch h
  · rw [h2]
    refine RunLaw.of_stores (d := s.dLen) rfl rfl h1 hv rfl (fun h => nomatch h) fun h => ?_
    cases h
    exact ⟨by decide, by decide, by decide, rfl⟩

/-! ## All commands -/

/-- Everything a command can do to what its rule does not name. -/
theorem runLaw {i : Instr} {s t : State} (h : exec i s = .next t) : Runs i s t := by
  cases i with
  | nop => exact nop_runs h
  | bcRinit => exact bcRinit_runs h
  | bcRead n => exact bcRead_runs h
  | bcWinit => exact bcWinit_runs h
  | bcWrite n => exact bcWrite_runs h
  | bcFlush => exact bcFlush_runs h
  | bcPutb => exact bcPutb_runs h
  | bcGetb => exact bcGetb_runs h
  | hufBuild => exact hufBuild_runs h
  | hufPack => exact hufPack_runs h
  | hufMetaWr => exact hufMetaWr_runs h
  | hufMetaRd => exact hufMetaRd_runs h
  | hufDec => exact hufDec_runs h
  | qscale => exact qscale_runs h
  | dctFwd => exact blk_runs rfl h
  | dctInv => exact blk_runs rfl h
  | quant => exact blk_runs rfl h
  | dequant => exact blk_runs rfl h
  | zzRead => exact zzRead_runs h
  | zzWrite => exact blk_runs rfl h
  | rlePack => exact rlePack_runs h
  | rleUnpack => exact rleUnpack_runs h
  | deltaEnc => exact deltaEnc_runs h
  | deltaDec => exact deltaDec_runs h

/-- No command's row has EncodingError (R221). -/
theorem raises_ne_encodingError {i : Instr} {e : ErrorKind} (h : e ∈ raises i) : e ≠ .encodingError := by
  rintro rfl
  cases i <;> simp [raises] at h

end Sys2Proof.Machine
end

