-- ==== Sys2Proof/Laws/RoundTrip.lean ====
section
/-! SUPPORT. The reader over what the writer has written (R33, R34): the bits appended are the bits read. Every round
trip (R182, R246, R262) cites `Wrote.streamBits`. -/

namespace Sys2Proof.Machine

/-- The reader of `d` stands at the start of a region that holds exactly the bit string `bits`. -/
structure Wrote (d : State) (bits : List Bool) : Prop where
  len : 8 * d.rd.len.toNat = bits.length
  bit : ∀ p (h : p < bits.length), streamBit d (BitVec.ofNat 64 p) = bits[p]

/-- The bytes that an append from a byte boundary to a byte boundary completes. -/
theorem Appends.wrote {s t d : State} {bits : List Bool} (h : Appends s t bits) (h0 : s.wr.nacc = 0)
    (ht : t.wr.nacc = 0) (hm : d.lmem = t.lmem) (hb : d.rd.base.toNat = s.wr.base.toNat + s.wr.bytes.toNat)
    (hl : d.rd.len.toNat = t.wr.bytes.toNat - s.wr.bytes.toNat) : Wrote d bits := by
  have h0' : s.wr.nacc.val = 0 := by rw [h0]; rfl
  have ht' : t.wr.nacc.val = 0 := by rw [ht]; rfl
  have hw := h.2.1
  unfold writtenBits at hw
  have hlen : 8 * d.rd.len.toNat = bits.length := by omega
  refine ⟨hlen, fun p hp => ?_⟩
  have hp64 : (BitVec.ofNat 64 p).toNat = p := by
    have := d.rd.len.isLt
    rw [BitVec.toNat_ofNat, Nat.mod_eq_of_lt (by omega)]
  have hpe : pastEnd d (BitVec.ofNat 64 p) = false := by
    simp only [pastEnd, hp64, decide_eq_false_iff_not]
    omega
  have ho := h.2.2.2.1 p hp
  rw [outBit, if_pos (by unfold writtenBits; omega), h.wr_base] at ho
  rw [streamBit, hpe, hp64, memRead, hm, hb]
  rw [show (writtenBits s.wr + p) / 8 = s.wr.bytes.toNat + p / 8 by unfold writtenBits; omega,
    show (writtenBits s.wr + p) % 8 = p % 8 by unfold writtenBits; omega, ← Nat.add_assoc] at ho
  cases hr : Memory.read? t.lmem (s.wr.base.toNat + s.wr.bytes.toNat + p / 8) with
  | none => simp [hr] at ho
  | some v => simpa [hr] using ho

/-- The bits read are the bits written. -/
theorem Wrote.streamBits {d : State} {bits : List Bool} (h : Wrote d bits) {p n : Nat} (hp : p + n ≤ bits.length) :
    streamBits d (BitVec.ofNat 64 p) n = (bits.drop p).take n := by
  refine List.ext_getElem (by simp; omega) fun j h1 h2 => ?_
  simp only [Machine.streamBits, List.getElem_map, List.getElem_range, List.getElem_take, List.getElem_drop]
  rw [← BitVec.ofNat_add]
  simp at h1
  exact h.bit (p + j) (by omega)

/-- A part of the string, read back. -/
theorem Wrote.part {d : State} {as bs cs : List Bool} (h : Wrote d (as ++ bs ++ cs)) :
    Machine.streamBits d (BitVec.ofNat 64 as.length) bs.length = bs := by
  rw [h.streamBits (by simp)]
  simp

/-- Inside the string no bit is padded (R141). -/
theorem Wrote.pastEnd {d : State} {bits : List Bool} (h : Wrote d bits) {p : Nat} (hp : p < bits.length) :
    pastEnd d (BitVec.ofNat 64 p) = false := by
  have h1 := h.len
  have := d.rd.len.isLt
  simp only [Machine.pastEnd, decide_eq_false_iff_not, BitVec.toNat_ofNat]
  rw [Nat.mod_eq_of_lt (by omega)]
  omega

/-- Reading no further than the string pads nothing (R141). -/
theorem Wrote.padCount {d : State} {bits : List Bool} (h : Wrote d bits) (h0 : d.rd.pos = 0) {n : Nat}
    (hn : n ≤ bits.length) : padCount d n = 0 := by
  rw [Machine.padCount, List.countP_eq_zero]
  intro j hj
  rw [h0, show (0 : DWord) = 0#64 from rfl, BitVec.zero_add, h.pastEnd (by simp at hj; omega)]
  simp

end Sys2Proof.Machine
end

