-- ==== Sys2Proof/Laws/Delta.lean ====
section
/-! SUPPORT. The delta record as a bit string (R259), and DELTA_DEC's loop over the rebuilt bytes (R261). -/

namespace Sys2Proof.Machine

/-- Two values with equal low bits have one bit string. -/
theorem bitsMsb_eq {n : Nat} {v w : DWord} (h : v.toNat % 2 ^ n = w.toNat % 2 ^ n) : bitsMsb n v = bitsMsb n w :=
  valueOf_inj (by simp) (by rw [valueOf_bitsMsb, valueOf_bitsMsb, h])

theorem magnitudeByte_lt (xs : List Byte) (i : Nat) : magnitudeByte xs i < 256 := by
  have h1 := (xs.getD i 0).isLt
  have h2 := (xs.getD (i - 3) 0).isLt
  unfold magnitudeByte
  split_ifs <;> omega

/-- The magnitude stream's byte is the one the statements name (R259). -/
theorem magnitudeAt_toNat (xs : List Byte) (i : Nat) : (magnitudeAt xs i).toNat = magnitudeByte xs i := by
  have h1 := (xs.getD i 0).isLt
  have h2 := (xs.getD (i - 3) 0).isLt
  unfold magnitudeByte magnitudeAt deltaAt Config.chLag
  split_ifs
  · rfl
  · rw [BitVec.toNat_ofNat]
    omega

theorem signs_length (xs : List Byte) : (signs xs).length = xs.length - 3 := by simp [signs, Config.chLag]

/-- The sign bits and their padding (R259). -/
theorem signString_eq (xs : List Byte) :
    signs xs ++ List.replicate (8 * signBytes (signs xs).length - (signs xs).length) false = signString xs := by
  rw [signs_length, signBytes, signString]
  have e : 8 * ((xs.length - 3 + 7) / 8) = (xs.length - 3) + (8 * ((xs.length - 3 + 7) / 8) - (xs.length - 3)) :=
    by omega
  conv_rhs => rw [e, List.range_add, List.map_append]
  congr 1
  · rw [signs]
    refine List.map_congr_left fun j hj => ?_
    simp [Config.chLag] at hj ⊢
    simp only [deltaAt, Config.chLag, Nat.add_sub_cancel]
    simp
    omega
  · rw [List.map_map]
    symm
    rw [List.eq_replicate_iff]
    simp

/-- The fields DELTA_ENC writes are the record's bits (R259). -/
theorem deltaFields_bits (xs : List Byte) : fieldBits (deltaFields xs) = deltaRecord xs := by
  rw [deltaFields, deltaRecord]
  simp only [fieldBits_append]
  have h1 : fieldBits ((magnitudes xs).map byteField) =
    (List.range xs.length).flatMap fun i => bitsMsb 8 (BitVec.ofNat 64 (magnitudeByte xs i)) := by
    rw [magnitudes, fieldBits, List.flatMap_map, List.flatMap_map]
    refine List.flatMap_congr fun i _ => bitsMsb_eq ?_
    rw [← magnitudeAt_toNat]
    have := (magnitudeAt xs i).isLt
    simp [byteField]
  have h2 : fieldBits ((signs xs).map fun g => (1, (BitVec.ofBool g).zeroExtend 64)) = signs xs := by
    rw [fieldBits, List.flatMap_map]
    have : ∀ g : Bool, bitsMsb 1 ((BitVec.ofBool g).zeroExtend 64) = [g] := by decide
    simp only [this]
    induction signs xs with
    | nil => rfl
    | cons a l ih => simp [ih]
  have h3 : ∀ f : Field, fieldBits [f] = bitsMsb f.1 f.2 := by intro f; simp [fieldBits]
  rw [h1, h2, h3, h3, h3, bitsMsb_zero_value, List.append_assoc _ (signs xs), signString_eq, signs_length]
  rfl

theorem deltaRecord_length (xs : List Byte) : (deltaRecord xs).length =
    8 * (16 + xs.length + (xs.length - 3 + 7) / 8) := by
  have : ((List.range xs.length).flatMap fun i => bitsMsb 8 (BitVec.ofNat 64 (magnitudeByte xs i))).length =
    8 * xs.length := by
    rw [List.length_flatMap]
    have : ((List.range xs.length).map fun i => (bitsMsb 8 (BitVec.ofNat 64 (magnitudeByte xs i))).length) =
      List.replicate xs.length 8 := by
      rw [List.eq_replicate_iff]
      simp
    rw [this]
    simp
    omega
  rw [deltaRecord]
  simp only [List.length_append, this, bitsMsb_length]
  simp [signString]
  omega

/-- DELTA_DEC's loop over indices whose rebuilt values are the bytes `x` (R261). -/
theorem rebuildLoop_prefix (ms : List Byte) (gs : List Bool) (dst : Nat) (x : Nat → Byte) (r : Nat) :
    ∀ (k i : Nat) (σ : State),
    (∀ j, i ≤ j → j < i + k → ((x j).toNat : Int) = rebuildAt ms gs ((List.range j).map x) j) →
    ∃ m, rebuildLoop ms gs dst (k + r) ((List.range i).map x) σ =
      rebuildLoop ms gs dst r ((List.range (i + k)).map x) { σ with lmem := m } ∧
      ∀ a, Memory.read? m a = if dst + i ≤ a ∧ a < dst + i + k then some (x (a - dst)) else Memory.read? σ.lmem a := by
  intro k
  induction k with
  | zero => intro i σ _; exact ⟨σ.lmem, by simp, fun a => by rw [if_neg (by omega)]⟩
  | succ k ih =>
    intro i σ h
    have hx := h i le_rfl (by omega)
    have hb := (x i).isLt
    obtain ⟨m, e1, e2⟩ := ih (i + 1) (memWrite σ (dst + i) (x i)) fun j h1 h2 => h j (by omega) (by omega)
    have hxi : BitVec.ofInt 8 ((x i).toNat : Int) = x i := by
      apply BitVec.eq_of_toNat_eq
      simp
    refine ⟨m, ?_, fun a => ?_⟩
    · rw [show k + 1 + r = (k + r) + 1 by omega, rebuildLoop]
      simp only [List.length_map, List.length_range]
      rw [← hx, if_neg (by omega), hxi]
      rw [show (List.range i).map x ++ [x i] = (List.range (i + 1)).map x by
          rw [List.range_succ, List.map_append]; rfl, e1]
      rw [show i + 1 + k = i + (k + 1) by omega]
      rfl
    · rw [e2 a, memWrite_lmem, Memory.read?_write]
      by_cases ha : a = dst + i
      · subst ha
        rw [if_neg (by omega), if_pos rfl, if_pos (by omega)]
        simp
      · rw [if_neg ha]
        by_cases h1 : dst + (i + 1) ≤ a ∧ a < dst + (i + 1) + k
        · rw [if_pos h1, if_pos (by omega)]
        · rw [if_neg h1, if_neg (by omega)]

/-- The rebuilt value of index j, by the bytes before it (R261). -/
theorem rebuildAt_eq {ms : List Byte} {gs : List Bool} (x : Nat → Byte) (j : Nat) :
    rebuildAt ms gs ((List.range j).map x) j =
   if j < 3 then ((ms.getD j 0).toNat : Int) else if gs.getD (j - 3) false then ((x (j - 3)).toNat :
     Int) - (ms.getD j 0).toNat else ((x (j - 3)).toNat : Int) + (ms.getD j 0).toNat := by
  unfold rebuildAt
  simp only [Config.chLag]
  by_cases h : j < 3
  · rw [if_pos h, if_pos h]
  · have : ((List.range j).map x).getD (j - 3) 0 = x (j - 3) := by
      rw [List.getD_eq_getElem _ _ (by simp; omega)]; simp
    rw [if_neg h, if_neg h, this]

/-- A concatenation of strings of one length, cut at its i-th part. -/
theorem flatMap_const_split {α : Type} (f : Nat → List α) (w n i : Nat) (hf : ∀ i, (f i).length = w) (h : i < n) :
    ∃ as cs, (List.range n).flatMap f = as ++ f i ++ cs ∧ as.length = w * i := by
  refine ⟨(List.range i).flatMap f, ((List.range n).drop (i + 1)).flatMap f, ?_, ?_⟩
  · have h1 : List.range n = List.range i ++ [i] ++ (List.range n).drop (i + 1) := by
      have : (List.range n).take (i + 1) = List.range i ++ [i] := by
        rw [List.take_range, Nat.min_eq_left (by omega), List.range_succ]
      rw [← this, List.take_append_drop]
    conv_lhs => rw [h1]
    simp
  · rw [List.length_flatMap]
    have : (List.range i).map (fun a => (f a).length) = List.replicate i w := by
      rw [List.eq_replicate_iff]
      simp [hf]
    rw [this]
    simp [Nat.mul_comm]

end Sys2Proof.Machine
end

