-- ==== Sys2Proof/Laws/F64.lean ====
section
/-! SUPPORT. Binary64 (R13, R212, R219): what a pattern's fields are, its value as a rational number, and that
`roundPack` rounds to nearest with ties to even. -/

namespace Sys2Proof.Machine.F64

/-! ## Fields of a pattern built from a sign and a magnitude -/

/-- The pattern of a sign and a magnitude. -/
def pack (n : Bool) (p : Nat) : DWord := signBit n ||| BitVec.ofNat 64 p

theorem pack_toNat (n : Bool) {p : Nat} (hp : p < 2 ^ 63) : (pack n p).toNat = (if n then 2 ^ 63 else 0) + p := by
  have h1 : (signBit n) = if n then BitVec.twoPow 64 63 else 0#64 := by cases n <;> rfl
  have hp' : (BitVec.ofNat 64 p).toNat = p := by
    rw [BitVec.toNat_ofNat]
    exact Nat.mod_eq_of_lt (by omega)
  cases n with
  | false => simp [pack, signBit, hp']
  | true =>
    have hd : (signBit true) &&& BitVec.ofNat 64 p = 0#64 := by
      apply BitVec.eq_of_getLsbD_eq
      intro i hi
      rw [BitVec.getLsbD_and, h1, if_pos rfl, BitVec.getLsbD_twoPow]
      by_cases h : 63 = i
      · subst h
        rw [BitVec.getLsbD, hp', Nat.testBit_lt_two_pow hp]
        simp
      · simp [h]
    rw [pack, ← BitVec.add_eq_or_of_and_eq_zero _ _ hd, BitVec.toNat_add, hp']
    simp [signBit]
    omega

theorem expField_eq (x : DWord) : expField x = x.toNat / 2 ^ 52 % 2 ^ 11 := by
  simp [expField, BitVec.extractLsb'_toNat, Nat.shiftRight_eq_div_pow]

theorem frac_eq (x : DWord) : frac x = x.toNat % 2 ^ 52 := by
  simp [frac, BitVec.extractLsb'_toNat]

theorem neg_eq (x : DWord) : neg x = decide (2 ^ 63 ≤ x.toNat) := by
  have := x.isLt
  rw [neg, BitVec.getLsbD, Nat.testBit_eq_decide_div_mod_eq]
  congr 1
  rw [eq_iff_iff]
  omega

theorem frac_lt (x : DWord) : frac x < 2 ^ 52 := by
  rw [frac_eq]
  omega

theorem expField_lt (x : DWord) : expField x < 2048 := by
  rw [expField_eq]
  omega

theorem pack_neg (n : Bool) {p : Nat} (hp : p < 2 ^ 63) : neg (pack n p) = n := by
  rw [neg_eq, pack_toNat n hp]
  cases n <;> simp
  omega

theorem pack_expField (n : Bool) {p : Nat} (hp : p < 2 ^ 63) : expField (pack n p) = p / 2 ^ 52 := by
  rw [expField_eq, pack_toNat n hp]
  cases n <;> simp <;> omega

theorem pack_frac (n : Bool) {p : Nat} (hp : p < 2 ^ 63) : frac (pack n p) = p % 2 ^ 52 := by
  rw [frac_eq, pack_toNat n hp]
  cases n <;> simp
  omega

/-- The magnitude of a pattern: everything but its sign. -/
def mag (x : DWord) : Nat := expField x * 2 ^ 52 + frac x

theorem mag_lt (x : DWord) : mag x < 2 ^ 63 := by
  have := frac_lt x
  have := expField_lt x
  unfold mag
  omega

theorem pack_mag (n : Bool) {p : Nat} (hp : p < 2 ^ 63) : mag (pack n p) = p := by
  rw [mag, pack_expField n hp, pack_frac n hp]
  omega

/-- A pattern is its sign and its magnitude. -/
theorem eq_pack (x : DWord) : x = pack (neg x) (mag x) := by
  apply BitVec.eq_of_toNat_eq
  rw [pack_toNat _ (mag_lt x), mag, expField_eq, frac_eq, neg_eq]
  have := x.isLt
  by_cases h : 2 ^ 63 ≤ x.toNat
  · simp only [h, decide_true, if_true]
    omega
  · simp only [h, decide_false]
    simp
    omega

theorem isFinite_iff (x : DWord) : isFinite x = true ↔ mag x < infMag := by
  have := frac_lt x
  have := expField_lt x
  simp only [isFinite, bne_iff_ne, ne_eq, mag, infMag]
  omega

/-! ## Values -/

/-- The value of a magnitude. -/
def magValue (p : Nat) : ℚ :=
  if p / 2 ^ 52 = 0 then (p : ℚ) * 2 ^ (-1074 : ℤ)
  else ((2 ^ 52 + p % 2 ^ 52 : ℕ) : ℚ) * 2 ^ ((p / 2 ^ 52 : ℕ) - 1075 : ℤ)

theorem two_zpow_pos (k : ℤ) : (0 : ℚ) < 2 ^ k := by positivity

theorem mant_mul_expo (x : DWord) : (mant x : ℚ) * 2 ^ expo x = magValue (mag x) := by
  have hf := frac_lt x
  have h1 : mag x / 2 ^ 52 = expField x := by
    unfold mag
    omega
  have h2 : mag x % 2 ^ 52 = frac x := by
    unfold mag
    omega
  unfold mant expo magValue
  rw [h1]
  split_ifs with h
  · have : mag x = frac x := by simp [mag, h]
    rw [this]
  · rw [h2]

theorem value_eq (x : DWord) : value x = (if neg x then -1 else 1) * magValue (mag x) := by
  rw [value, mul_assoc, mant_mul_expo]

theorem magValue_nonneg (p : Nat) : 0 ≤ magValue p := by
  unfold magValue
  split_ifs <;> positivity

theorem abs_value (x : DWord) : |value x| = magValue (mag x) := by
  rw [value_eq, abs_mul, abs_of_nonneg (magValue_nonneg _)]
  split_ifs <;> simp

/-- A significand `r ≤ 2^53` in units of `2^u`, carried into the exponent field by addition. -/
theorem magValue_carry {k r : Nat} (hr : r ≤ 2 ^ 53) (hk : 0 < k → 2 ^ 52 ≤ r) :
    magValue (k * 2 ^ 52 + r) = (r : ℚ) * 2 ^ ((k : ℤ) - 1074) := by
  unfold magValue
  rcases Nat.lt_or_ge r (2 ^ 52) with h1 | h1
  · have : k = 0 := by
      by_contra h
      have := hk (by omega)
      omega
    subst this
    rw [if_pos (by omega)]
    simp
  · rcases Nat.lt_or_ge r (2 ^ 53) with h2 | h2
    · rw [if_neg (by omega), show (k * 2 ^ 52 + r) / 2 ^ 52 = k + 1 by omega,
        show 2 ^ 52 + (k * 2 ^ 52 + r) % 2 ^ 52 = r by omega]
      push_cast
      congr 2
      ring
    · obtain rfl : r = 2 ^ 53 := by omega
      rw [if_neg (by omega), show (k * 2 ^ 52 + 2 ^ 53) / 2 ^ 52 = k + 2 by omega,
        show 2 ^ 52 + (k * 2 ^ 52 + 2 ^ 53) % 2 ^ 52 = 2 ^ 52 by omega]
      push_cast
      rw [show ((k : ℤ) + 2 - 1075) = ((k : ℤ) - 1074) + 1 by ring, zpow_add₀ (by norm_num)]
      norm_num
      ring

theorem magValue_succ_lt (p : Nat) : magValue p < magValue (p + 1) := by
  have hp : p = (p / 2 ^ 52 - 1) * 2 ^ 52 + (p - (p / 2 ^ 52 - 1) * 2 ^ 52) := by omega
  set k := p / 2 ^ 52 - 1 with hk
  set r := p - k * 2 ^ 52 with hr
  have h1 : magValue p = (r : ℚ) * 2 ^ ((k : ℤ) - 1074) := by
    conv_lhs => rw [hp]
    exact magValue_carry (by omega) (by omega)
  have h2 : magValue (p + 1) = ((r + 1 : ℕ) : ℚ) * 2 ^ ((k : ℤ) - 1074) := by
    conv_lhs => rw [hp, Nat.add_assoc]
    exact magValue_carry (by omega) (by omega)
  rw [h1, h2]
  have := two_zpow_pos ((k : ℤ) - 1074)
  push_cast
  nlinarith

theorem magValue_strictMono : StrictMono magValue := strictMono_nat_of_lt_succ magValue_succ_lt

theorem zpow_split (a : ℕ) {b c : ℤ} (h : c = a + b) : (2 : ℚ) ^ c = 2 ^ a * 2 ^ b := by
  rw [h, zpow_add₀ (by norm_num), zpow_natCast]

theorem magValue_infMag : magValue infMag = 2 ^ (1024 : ℤ) := by
  have h1 : infMag / 2 ^ 52 = 2047 := by simp [infMag]
  have h2 : infMag % 2 ^ 52 = 0 := by simp [infMag]
  unfold magValue
  rw [h1, h2, if_neg (by norm_num), zpow_split 52 (show (1024 : ℤ) = (52 : ℕ) + ((2047 : ℕ) - 1075) by norm_num)]
  rfl

/-- The threshold in the unit of the last binade. -/
theorem overflow_eq {u : ℤ} (hu : u = 971) : overflow = (2 ^ 53 - 1 / 2) * 2 ^ u := by
  have h1 := zpow_split 54 (show (1024 : ℤ) = (54 : ℕ) + (u - 1) by rw [hu]; norm_num)
  have h2 := zpow_split 1 (show u = (1 : ℕ) + (u - 1) by push_cast; ring)
  rw [overflow, h1, h2, show (970 : ℤ) = u - 1 by rw [hu]; norm_num]
  generalize (2 : ℚ) ^ (u - 1) = z
  ring

theorem le_overflow {k : ℤ} (h : k ≤ 1023) : (2 : ℚ) ^ k ≤ overflow := by
  obtain ⟨u, hu⟩ : ∃ u : ℤ, u = 971 := ⟨_, rfl⟩
  have h1 : (2 : ℚ) ^ k ≤ 2 ^ (52 + u) := zpow_le_zpow_right₀ (by norm_num) (by omega)
  rw [zpow_split 52 (show 52 + u = (52 : ℕ) + u by rfl)] at h1
  rw [overflow_eq hu]
  exact h1.trans (mul_le_mul_of_nonneg_right (by norm_num) (two_zpow_pos u).le)

theorem overflow_lt : overflow < 2 ^ (1024 : ℤ) := sub_lt_self _ (two_zpow_pos _)

/-- A finite pattern is determined by its value, but for the sign of zero. -/
theorem eq_of_value_eq {x y : DWord} (h : value x = value y) (hn : value x ≠ 0 ∨ neg x = neg y) : x = y := by
  have ha : mag x = mag y := magValue_strictMono.injective (by rw [← abs_value, ← abs_value, h])
  have hs : neg x = neg y := by
    rcases hn with hn | hn
    · by_contra hne
      rw [value_eq x, value_eq y, ha] at h
      have h0 : magValue (mag y) ≠ 0 := fun h0 => hn (by rw [value_eq, ha, h0, mul_zero])
      have hpos := lt_of_le_of_ne (magValue_nonneg (mag y)) (Ne.symm h0)
      cases h1 : neg x <;> cases h2 : neg y <;> simp [h1, h2] at h hne <;> linarith
    · exact hn
  rw [eq_pack x, eq_pack y, hs, ha]

theorem isZero_iff (x : DWord) : isZero x = true ↔ mag x = 0 := by
  simp [isZero, mag]

theorem magValue_eq_zero {p : Nat} : magValue p = 0 ↔ p = 0 := by
  constructor
  · intro h
    by_contra hp
    have := magValue_strictMono (Nat.pos_of_ne_zero hp)
    have h0 := magValue_nonneg 0
    linarith
  · rintro rfl
    simp [magValue]

/-! ## Rounding -/

/-- `r` is the nearest integer to `x`, ties to even. -/
def IsRne (x : ℚ) (r : Nat) : Prop := |(r : ℚ) - x| ≤ 1 / 2 ∧ (|(r : ℚ) - x| = 1 / 2 → r % 2 = 0)

/-- Every other integer is at least as far, and a tie makes `r` even. -/
theorem IsRne.nearest {x : ℚ} {r : Nat} (h : IsRne x r) (k : ℤ) :
    |(r : ℚ) - x| ≤ |(k : ℚ) - x| ∧ (|(k : ℚ) - x| = |(r : ℚ) - x| → k = r ∨ r % 2 = 0) := by
  obtain ⟨h1, h2⟩ := h
  by_cases hk : k = r
  · subst hk
    exact ⟨by simp, fun _ => .inl rfl⟩
  · have hd : (1 : ℚ) ≤ |(k : ℚ) - r| := by
      have : (1 : ℤ) ≤ |k - r| := Int.one_le_abs (sub_ne_zero.2 hk)
      exact_mod_cast this
    have ht : |(k : ℚ) - r| ≤ |(k : ℚ) - x| + |(r : ℚ) - x| := by
      have := abs_sub_le (k : ℚ) x r
      rwa [abs_sub_comm x (r : ℚ)] at this
    refine ⟨by linarith, fun he => .inr (h2 (le_antisymm h1 (by linarith)))⟩

theorem shiftRne_spec (m k : Nat) : IsRne ((m : ℚ) / 2 ^ k) (shiftRne m k) := by
  have hpos : (0 : ℚ) < 2 ^ k := by positivity
  have hdm := Nat.div_add_mod m (2 ^ k)
  have hlt := Nat.mod_lt m (Nat.two_pow_pos k)
  have hx : (m : ℚ) / 2 ^ k = (m / 2 ^ k : ℕ) + ((m % 2 ^ k : ℕ) : ℚ) / 2 ^ k := by
    field_simp
    have : (m : ℚ) = ((2 ^ k * (m / 2 ^ k) + m % 2 ^ k : ℕ) : ℚ) := by rw [hdm]
    rw [this]
    push_cast
    ring
  have hpn : ((2 ^ k : ℕ) : ℚ) = 2 ^ k := by push_cast; rfl
  unfold IsRne shiftRne
  rw [hx]
  generalize m / 2 ^ k = d at *
  generalize m % 2 ^ k = f at *
  generalize hN : 2 ^ k = N at *
  rw [← hpn]
  have hNq : (0 : ℚ) < (N : ℚ) := by rw [hpn]; exact hpos
  have hf0 : (0 : ℚ) ≤ (f : ℚ) / N := by positivity
  split_ifs with h
  · have hge : (1 : ℚ) / 2 ≤ (f : ℚ) / N := by
      rw [div_le_div_iff₀ (by norm_num) hNq]
      have : N ≤ 2 * f := by omega
      have : (N : ℚ) ≤ 2 * f := by exact_mod_cast this
      linarith
    have hlt1 : (f : ℚ) / N < 1 := by
      rw [div_lt_one hNq]
      exact_mod_cast hlt
    have he : ((d + 1 : ℕ) : ℚ) - (d + (f : ℚ) / N) = 1 - (f : ℚ) / N := by
      push_cast
      ring
    rw [he, abs_of_pos (by linarith)]
    refine ⟨by linarith, fun hh => ?_⟩
    have h2 : (f : ℚ) / N = 1 / 2 := by linarith
    rw [div_eq_div_iff hNq.ne' (by norm_num)] at h2
    have : 2 * f = N := by
      have : (f : ℚ) * 2 = N := by linarith
      have : f * 2 = N := by exact_mod_cast this
      omega
    omega
  · have hle : (f : ℚ) / N ≤ 1 / 2 := by
      rw [div_le_div_iff₀ hNq (by norm_num)]
      have : 2 * f ≤ N := by omega
      have : (2 : ℚ) * f ≤ N := by exact_mod_cast this
      linarith
    have he : (d : ℚ) - (d + (f : ℚ) / N) = -((f : ℚ) / N) := by ring
    rw [he, abs_neg, abs_of_nonneg hf0]
    refine ⟨hle, fun hh => ?_⟩
    rw [div_eq_div_iff hNq.ne' (by norm_num)] at hh
    have : 2 * f = N := by
      have : (f : ℚ) * 2 = N := by linarith
      have : f * 2 = N := by exact_mod_cast this
      omega
    omega

theorem roundTo_spec (m : Nat) (e q : Int) : IsRne ((m : ℚ) * 2 ^ (e - q)) (roundTo m e q) := by
  unfold roundTo
  split_ifs with h
  · have : (2 : ℚ) ^ (e - q) = 2 ^ (e - q).toNat := by
      conv_lhs => rw [← Int.toNat_of_nonneg (show 0 ≤ e - q by omega)]
      exact zpow_natCast _ _
    rw [this]
    constructor
    · simp
    · intro hh
      simp at hh
  · have : (m : ℚ) * 2 ^ (e - q) = (m : ℚ) / 2 ^ (q - e).toNat := by
      rw [div_eq_mul_inv, show e - q = -(q - e) by ring, zpow_neg]
      conv_lhs => rw [← Int.toNat_of_nonneg (show 0 ≤ q - e by omega)]
      rw [zpow_natCast]
    rw [this]
    exact shiftRne_spec _ _

/-- The heart of rounding: `q` is positive, `2^u` is the unit of its binade (or the subnormals'), and `r` is the nearest
integer to `q` in that unit; then the pattern whose magnitude carries `r` is `q` rounded. -/
theorem roundsTo_of_rne {q : ℚ} {u : ℤ} {r : Nat} (n : Bool) (hq : 0 < q) (hu : -1074 ≤ u)
    (hlow : -1074 < u → (2 : ℚ) ^ (u + 52) ≤ q) (hhigh : q < (2 : ℚ) ^ (u + 53)) (hr : IsRne (q / 2 ^ u) r) :
    RoundsTo ((if n then -1 else 1) * q) (pack n (min ((u + 1074).toNat * 2 ^ 52 + r) infMag)) := by
  have hup := two_zpow_pos u
  set x := q / 2 ^ u with hx
  have hqx : q = x * 2 ^ u := by
    rw [hx]
    field_simp
  have hxlow : -1074 < u → (2 : ℚ) ^ 52 ≤ x := fun h => by
    rw [hx, le_div_iff₀ hup]
    have := hlow h
    rw [zpow_add₀ (by norm_num)] at this
    norm_num at this ⊢
    linarith
  have hxhigh : x < (2 : ℚ) ^ 53 := by
    rw [hx, div_lt_iff₀ hup]
    rw [zpow_add₀ (by norm_num)] at hhigh
    norm_num at hhigh ⊢
    linarith
  obtain ⟨hr1, hr2⟩ := id hr
  have hab := abs_le.1 hr1
  have hr53 : r ≤ 2 ^ 53 := by
    have : (r : ℚ) < 2 ^ 53 + 1 := by linarith [hab.2]
    have : r < 2 ^ 53 + 1 := by exact_mod_cast this
    omega
  have hr52 : -1074 < u → 2 ^ 52 ≤ r := fun h => by
    have : (2 : ℚ) ^ 52 - 1 < r := by linarith [hab.1, hxlow h]
    have : (2 : ℚ) ^ 52 < r + 1 := by linarith
    have : 2 ^ 52 < r + 1 := by exact_mod_cast this
    omega
  set k := (u + 1074).toNat with hk
  have hku : (k : ℤ) - 1074 = u := by
    rw [hk]
    omega
  have hcarry : magValue (k * 2 ^ 52 + r) = (r : ℚ) * 2 ^ u := by
    rw [magValue_carry hr53 (fun h => hr52 (by omega)), hku]
  -- the pattern is infinite exactly at the overflow threshold
  have hover : infMag ≤ k * 2 ^ 52 + r ↔ overflow ≤ q := by
    rw [← magValue_strictMono.le_iff_le, magValue_infMag, hcarry]
    have e53 : ∀ v : ℤ, v = 971 → (2 : ℚ) ^ (1024 : ℤ) = 2 ^ 53 * 2 ^ v := fun v hv =>
      zpow_split 53 (by rw [hv]; norm_num)
    constructor
    · intro h
      by_contra hlt
      push Not at hlt
      have hu971 : u ≤ 971 := by
        by_contra hu'
        have h1 := hlow (by omega)
        have h2 : (2 : ℚ) ^ (1024 : ℤ) ≤ 2 ^ (u + 52) := zpow_le_zpow_right₀ (by norm_num) (by omega)
        exact absurd (lt_of_le_of_lt (h2.trans h1) (hlt.trans overflow_lt)) (lt_irrefl _)
      have hr' : (r : ℚ) ≤ 2 ^ 53 := by exact_mod_cast hr53
      have h971 : u = 971 := by
        by_contra hne
        have h1 : (r : ℚ) * 2 ^ u ≤ 2 ^ 53 * 2 ^ u := mul_le_mul_of_nonneg_right hr' hup.le
        rw [← zpow_split 53 (show 53 + u = (53 : ℕ) + u by rfl)] at h1
        have h4 : (2 : ℚ) ^ (53 + u) < 2 ^ (1024 : ℤ) := zpow_lt_zpow_right₀ (by norm_num) (by omega)
        exact absurd (lt_of_le_of_lt (h.trans h1) h4) (lt_irrefl _)
      rw [e53 u h971] at h
      have hr'' : (2 : ℚ) ^ 53 ≤ r := le_of_mul_le_mul_right h hup
      rw [overflow_eq h971, hqx] at hlt
      have hx3 := lt_of_mul_lt_mul_right hlt hup.le
      clear h hlt hcarry hqx hx
      linarith [hab.2]
    · intro h
      rcases lt_or_ge u 972 with hu' | hu'
      · have h971 : u = 971 := by
          by_contra hne
          exact absurd (lt_of_lt_of_le hhigh ((le_overflow (by omega)).trans h)) (lt_irrefl _)
        rw [overflow_eq h971, hqx] at h
        have hx2 := le_of_mul_le_mul_right h hup
        have hrge : 2 ^ 53 - 1 ≤ r := by
          have : (2 : ℚ) ^ 53 - 1 ≤ r := by linarith [hab.1]
          have : (2 : ℚ) ^ 53 ≤ r + 1 := by linarith
          have : 2 ^ 53 ≤ r + 1 := by exact_mod_cast this
          omega
        have hr3 : r = 2 ^ 53 := by
          by_contra hne
          have hr4 : r = 2 ^ 53 - 1 := by omega
          have hr5 : (r : ℚ) = 2 ^ 53 - 1 := by
            rw [hr4]
            norm_num
          have : r % 2 = 0 := hr2 (by
            rw [abs_sub_comm, hr5, abs_of_nonneg (by linarith)]
            refine le_antisymm ?_ (by linarith)
            have := hab.1
            rw [hr5] at this
            linarith)
          omega
        rw [hr3, e53 u h971]
        push_cast
        exact le_refl _
      · have h1 := hr52 (by omega)
        have h2 : (2 : ℚ) ^ 52 ≤ r := by exact_mod_cast h1
        have h3 : (2 : ℚ) ^ (1024 - 52 : ℤ) ≤ 2 ^ u := zpow_le_zpow_right₀ (by norm_num) (by omega)
        rw [zpow_split 52 (show (1024 : ℤ) = (52 : ℕ) + (1024 - 52) by norm_num)]
        exact mul_le_mul h2 h3 (two_zpow_pos _).le (by positivity)
  have hminlt : min (k * 2 ^ 52 + r) infMag < 2 ^ 63 := lt_of_le_of_lt (min_le_right _ _) (by decide)
  have hneg := pack_neg n hminlt
  have hmag := pack_mag n hminlt
  have habs : |(if n then -1 else 1) * q| = q := by
    rw [abs_mul, abs_of_pos hq]
    split_ifs <;> simp
  have hsign : decide ((if n then -1 else 1) * q < 0) = n := by
    cases n <;> simp
    · exact hq.le
    · exact hq
  refine ⟨fun _ => by rw [hneg, hsign], fun hlt => ?_, fun hge => ?_⟩
  · rw [habs] at hlt
    have hfin : k * 2 ^ 52 + r < infMag := by
      by_contra h
      exact absurd (hover.1 (by omega)) (not_le.2 hlt)
    rw [min_eq_left hfin.le] at hneg hmag ⊢
    refine ⟨(isFinite_iff _).2 (by rw [hmag]; exact hfin), fun y hy => ?_⟩
    have hv : value (pack n (k * 2 ^ 52 + r)) = (if n then -1 else 1) * ((r : ℚ) * 2 ^ u) := by
      rw [value_eq, hneg, hmag, hcarry]
    have hmant : mant (pack n (k * 2 ^ 52 + r)) % 2 = r % 2 := by
      have hlt63 : k * 2 ^ 52 + r < 2 ^ 63 := lt_trans hfin (by decide)
      rw [mant, pack_expField n hlt63, pack_frac n hlt63]
      split_ifs <;> omega
    -- reduce to the positive side
    set w : ℚ := (if n then -1 else 1) * value y with hw
    have hsq : (if n then -1 else 1 : ℚ) * (if n then -1 else 1) = 1 := by cases n <;> norm_num
    have hyw : value y = (if n then -1 else 1) * w := by
      rw [hw, ← mul_assoc, hsq, one_mul]
    have hd : ∀ a b : ℚ, |(if n then -1 else 1) * a - (if n then -1 else 1) * b| = |a - b| := by
      intro a b
      rw [← mul_sub, abs_mul]
      split_ifs <;> simp
    rw [hv, hyw, hd, hd, hmant]
    have hscale : ∀ a : ℚ, |a * 2 ^ u - q| = |a - x| * 2 ^ u := by
      intro a
      rw [hqx, ← sub_mul, abs_mul, abs_of_pos hup]
    have hgrid : ∀ z : ℤ, |(r : ℚ) * 2 ^ u - q| ≤ |(z : ℚ) * 2 ^ u - q| ∧
        (|(z : ℚ) * 2 ^ u - q| = |(r : ℚ) * 2 ^ u - q| → (z : ℚ) = r ∨ r % 2 = 0) := by
      intro z
      obtain ⟨g1, g2⟩ := hr.nearest z
      rw [hscale, hscale]
      refine ⟨mul_le_mul_of_nonneg_right g1 hup.le, fun h => ?_⟩
      rcases g2 (mul_right_cancel₀ hup.ne' h) with h | h
      · exact .inl (by exact_mod_cast h)
      · exact .inr h
    -- a finite value on the grid
    have hongrid : ∀ z : ℤ, w = (z : ℚ) * 2 ^ u →
        |(r : ℚ) * 2 ^ u - q| ≤ |w - q| ∧ (|w - q| = |(r : ℚ) * 2 ^ u - q| →
          (if n then -1 else 1) * w = (if n then -1 else 1) * ((r : ℚ) * 2 ^ u) ∨ r % 2 = 0) := by
      intro z hz
      obtain ⟨g1, g2⟩ := hgrid z
      rw [hz]
      refine ⟨g1, fun h => ?_⟩
      rcases g2 h with h | h
      · exact .inl (by rw [h])
      · exact .inr h
    by_cases hexp : u ≤ expo y
    · refine hongrid ((if n then -1 else 1) * (if neg y then -1 else 1) *
        ((mant y * 2 ^ (expo y - u).toNat : ℕ) : ℤ)) ?_
      rw [hw, value]
      have : (2 : ℚ) ^ expo y = 2 ^ (expo y - u).toNat * 2 ^ u := by
        rw [← zpow_natCast, ← zpow_add₀ (by norm_num)]
        congr 1
        omega
      rw [this]
      push_cast
      split_ifs <;> ring
    · push Not at hexp
      have hexpo : -1074 ≤ expo y := by
        unfold expo
        split_ifs <;> omega
      have hu' : -1074 < u := by omega
      have hml : (mant y : ℚ) < 2 ^ 53 := by
        have : mant y < 2 ^ 53 := by
          have := frac_lt y
          unfold mant
          split_ifs <;> omega
        exact_mod_cast this
      have hwlt : w < 2 ^ 52 * 2 ^ u := by
        have h1 : |w| = (mant y : ℚ) * 2 ^ expo y := by
          rw [hw, value, abs_mul, abs_mul, abs_mul]
          have : (0 : ℚ) < 2 ^ expo y := two_zpow_pos _
          rw [abs_of_pos this, abs_of_nonneg (show (0 : ℚ) ≤ (mant y : ℚ) by positivity)]
          split_ifs <;> simp
        have h2 : (2 : ℚ) ^ expo y ≤ 2 ^ (u - 1) := zpow_le_zpow_right₀ (by norm_num) (by omega)
        have h3 : (2 : ℚ) ^ u = 2 * 2 ^ (u - 1) := by
          rw [← zpow_one_add₀ (by norm_num)]
          congr 1
          ring
        have h4 := le_abs_self w
        have h5 := two_zpow_pos (u - 1)
        have h6 := two_zpow_pos (expo y)
        have h7 : (mant y : ℚ) * 2 ^ expo y < 2 ^ 53 * 2 ^ (u - 1) := by
          calc (mant y : ℚ) * 2 ^ expo y ≤ (mant y : ℚ) * 2 ^ (u - 1) :=
                mul_le_mul_of_nonneg_left h2 (by positivity)
            _ < 2 ^ 53 * 2 ^ (u - 1) := mul_lt_mul_of_pos_right hml h5
        rw [h3]
        linarith
      have hq52 : (2 : ℚ) ^ 52 * 2 ^ u ≤ q := by
        rw [hqx]
        exact mul_le_mul_of_nonneg_right (hxlow hu') hup.le
      obtain ⟨g1, -⟩ := hgrid (2 ^ 52)
      have g3 : |((2 ^ 52 : ℤ) : ℚ) * 2 ^ u - q| < |w - q| := by
        push_cast
        rw [abs_sub_comm, abs_of_nonneg (by linarith), abs_sub_comm, abs_of_pos (by linarith)]
        linarith
      exact ⟨by linarith, fun h => absurd h (by linarith [lt_of_le_of_lt g1 g3] |> fun h' => ne_of_gt h')⟩
  · rw [habs] at hge
    rw [hsign, min_eq_right (hover.2 hge)]
    rfl

/-! ## roundPack -/

theorem log2_bounds {m : Nat} (hm : 0 < m) : 2 ^ Nat.log2 m ≤ m ∧ m < 2 ^ (Nat.log2 m + 1) :=
  ⟨Nat.log2_self_le (by omega), Nat.lt_log2_self⟩

theorem ulpExpo_le (m : Nat) (e : Int) : -1074 ≤ ulpExpo m e := le_max_right _ _

/-- A positive `q` that `m * 2^e` stands for: exactly, or, for an odd `m` with bits to spare, as the sticky midpoint of
the interval that holds `q`. -/
def StandsFor (m : Nat) (e : ℤ) (q : ℚ) : Prop :=
  q = (m : ℚ) * 2 ^ e ∨
    (m % 2 = 1 ∧ 2 ^ 55 ≤ m ∧ ((m : ℚ) - 1) * 2 ^ e < q ∧ q < ((m : ℚ) + 1) * 2 ^ e)

theorem roundPack_standsFor (n : Bool) {m : Nat} {e : ℤ} {q : ℚ} (hm : 0 < m) (h : StandsFor m e q) :
    RoundsTo ((if n then -1 else 1) * q) (roundPack n m e) := by
  obtain ⟨hl1, hl2⟩ := log2_bounds hm
  have hpe := two_zpow_pos e
  set L := Nat.log2 m with hL
  have hul : ulpExpo m e = max (e + (L : ℤ) - 52) (-1074) := rfl
  have hrp : roundPack n m e =
      pack n (min ((ulpExpo m e + 1074).toNat * 2 ^ 52 + roundTo m e (ulpExpo m e)) infMag) := by
    rw [roundPack, if_neg (by omega)]
    rfl
  have hmq : (0 : ℚ) < m := by exact_mod_cast hm
  -- the bounds of q's binade
  have hb : (2 : ℚ) ^ ((L : ℤ) + e) ≤ q ∧ q < 2 ^ ((L : ℤ) + 1 + e) := by
    have e1 : (2 : ℚ) ^ ((L : ℤ) + e) = 2 ^ L * 2 ^ e := zpow_split L rfl
    have e2 : (2 : ℚ) ^ ((L : ℤ) + 1 + e) = 2 ^ (L + 1) * 2 ^ e := zpow_split (L + 1) (by push_cast; ring)
    rw [e1, e2]
    have h1 : (2 : ℚ) ^ L ≤ m := by exact_mod_cast hl1
    have h2 : (m : ℚ) < 2 ^ (L + 1) := by exact_mod_cast hl2
    rcases h with rfl | ⟨hodd, hbig, hlo, hhi⟩
    · exact ⟨mul_le_mul_of_nonneg_right h1 hpe.le, mul_lt_mul_of_pos_right h2 hpe⟩
    · have hL1 : 1 ≤ L := by
        by_contra hc
        have : L = 0 := by omega
        rw [this] at hl2
        omega
      obtain ⟨j, hj⟩ : ∃ j, L = j + 1 := ⟨L - 1, by omega⟩
      have h3 : 2 ^ L ≤ m - 1 := by
        rw [hj, pow_succ] at hl1 ⊢
        omega
      have h4 : m + 1 ≤ 2 ^ (L + 1) := hl2
      have h3' : (2 : ℚ) ^ L ≤ (m : ℚ) - 1 := by
        have : ((2 ^ L : ℕ) : ℚ) ≤ ((m - 1 : ℕ) : ℚ) := by exact_mod_cast h3
        rw [Nat.cast_sub (by omega)] at this
        push_cast at this
        exact this
      have h4' : (m : ℚ) + 1 ≤ 2 ^ (L + 1) := by exact_mod_cast h4
      exact ⟨((mul_le_mul_of_nonneg_right h3' hpe.le).trans hlo.le),
        lt_of_lt_of_le hhi (mul_le_mul_of_nonneg_right h4' hpe.le)⟩
  have hq : 0 < q := lt_of_lt_of_le (two_zpow_pos _) hb.1
  rw [hrp]
  refine roundsTo_of_rne n hq (ulpExpo_le m e) (fun hu => ?_) ?_ ?_
  · have : ulpExpo m e = e + L - 52 := by
      rw [hul] at hu ⊢
      omega
    rw [this, show e + (L : ℤ) - 52 + 52 = L + e by ring]
    exact hb.1
  · refine lt_of_lt_of_le hb.2 (zpow_le_zpow_right₀ (by norm_num) ?_)
    rw [hul]
    omega
  · have hr := roundTo_spec m e (ulpExpo m e)
    set u := ulpExpo m e with hu
    have hup := two_zpow_pos u
    have hdiv : (m : ℚ) * 2 ^ (e - u) = (m : ℚ) * 2 ^ e / 2 ^ u := by
      rw [zpow_sub₀ (by norm_num)]
      ring
    rcases h with rfl | ⟨hodd, hbig, hlo, hhi⟩
    · rw [← hdiv]
      exact hr
    · -- the sticky case: q and m * 2^e fall on the same side of every half unit
      have hL55 : 55 ≤ L := by
        by_contra hc
        have : 2 ^ (L + 1) ≤ 2 ^ 55 := Nat.pow_le_pow_right (by omega) (by omega)
        omega
      have huge : e + 2 ≤ u := by
        rw [hul]
        omega
      obtain ⟨j, hj⟩ : ∃ j : ℕ, u = e + (j + 1 : ℕ) := ⟨(u - e - 1).toNat, by omega⟩
      have hj1 : 1 ≤ j := by omega
      have hpu : (2 : ℚ) ^ u = 2 ^ (j + 1) * 2 ^ e := zpow_split (j + 1) (by rw [hj]; ring)
      generalize roundTo m e u = r at hr ⊢
      rw [hdiv] at hr
      obtain ⟨hr1, hr2⟩ := hr
      -- in the unit 2^e, r is the integer R = r * 2^(j+1), and m is odd while half the unit, 2^j, is even
      set z := (2 : ℚ) ^ e with hz
      have key : |(r : ℚ) * 2 ^ (j + 1) - m| ≤ 2 ^ j - 1 := by
        have h1 : (m : ℚ) * z / 2 ^ u = m / 2 ^ (j + 1) := by
          rw [hpu]
          field_simp
        rw [h1] at hr1
        have hp : (0 : ℚ) < 2 ^ (j + 1) := by positivity
        have h2 : |(r : ℚ) * 2 ^ (j + 1) - m| ≤ 2 ^ j := by
          have h3 : (r : ℚ) * 2 ^ (j + 1) - m = ((r : ℚ) - m / 2 ^ (j + 1)) * 2 ^ (j + 1) := by
            field_simp
          rw [h3, abs_mul, abs_of_pos hp]
          calc |(r : ℚ) - m / 2 ^ (j + 1)| * 2 ^ (j + 1) ≤ 1 / 2 * 2 ^ (j + 1) :=
                mul_le_mul_of_nonneg_right hr1 hp.le
            _ = 2 ^ j := by ring
        have h4 : |(r : ℤ) * 2 ^ (j + 1) - m| ≤ 2 ^ j := by exact_mod_cast h2
        have h5 : |(r : ℤ) * 2 ^ (j + 1) - m| ≠ 2 ^ j := by
          intro he
          have hev : (2 : ℤ) ∣ (r : ℤ) * 2 ^ (j + 1) - m := by
            rw [← dvd_abs, he]
            exact dvd_pow_self 2 (by omega)
          have hev2 : (2 : ℤ) ∣ (r : ℤ) * 2 ^ (j + 1) := Dvd.dvd.mul_left (dvd_pow_self 2 (by omega)) _
          have := (Int.dvd_iff_dvd_of_dvd_sub hev).1 hev2
          omega
        have h6 : |(r : ℤ) * 2 ^ (j + 1) - m| ≤ 2 ^ j - 1 := by omega
        exact_mod_cast h6
      have hqz1 : (m : ℚ) - 1 < q / z := by
        rw [lt_div_iff₀ hpe]
        exact hlo
      have hqz2 : q / z < (m : ℚ) + 1 := by
        rw [div_lt_iff₀ hpe]
        exact hhi
      have hlt : |(r : ℚ) * 2 ^ (j + 1) - q / z| < 2 ^ j := by
        have := abs_le.1 key
        rw [abs_lt]
        constructor <;> linarith [this.1, this.2]
      have hfin : |(r : ℚ) - q / 2 ^ u| < 1 / 2 := by
        have hp : (0 : ℚ) < 2 ^ (j + 1) := by positivity
        have h3 : (r : ℚ) - q / 2 ^ u = ((r : ℚ) * 2 ^ (j + 1) - q / z) / 2 ^ (j + 1) := by
          rw [hpu]
          field_simp
        rw [h3, abs_div, abs_of_pos hp, div_lt_iff₀ hp]
        calc |(r : ℚ) * 2 ^ (j + 1) - q / z| < 2 ^ j := hlt
          _ = 1 / 2 * 2 ^ (j + 1) := by ring
      exact ⟨hfin.le, fun he => absurd he hfin.ne⟩

/-- `roundPack` rounds its exact value. -/
theorem roundPack_rounds (n : Bool) {m : Nat} (e : ℤ) (hm : 0 < m) :
    RoundsTo ((if n then -1 else 1) * ((m : ℚ) * 2 ^ e)) (roundPack n m e) :=
  roundPack_standsFor n hm (.inl rfl)

theorem signBit_eq_pack (n : Bool) : signBit n = pack n 0 := by
  cases n <;> rfl

theorem signBit_neg (n : Bool) : neg (signBit n) = n := by
  rw [signBit_eq_pack, pack_neg n (by norm_num)]

theorem signBit_value (n : Bool) : value (signBit n) = 0 := by
  rw [value_eq, signBit_eq_pack, pack_mag n (by norm_num), magValue_eq_zero.2 rfl, mul_zero]

theorem signBit_finite (n : Bool) : isFinite (signBit n) = true := by cases n <;> decide

theorem roundsTo_zero (n : Bool) : RoundsTo 0 (signBit n) := by
  refine ⟨fun h => absurd rfl h, fun _ => ⟨signBit_finite n, fun y _ => ?_⟩, fun h => ?_⟩
  · rw [signBit_value]
    refine ⟨by simp, fun _ => .inr ?_⟩
    cases n <;> decide
  · have h1 : overflow ≤ 0 := by simpa using h
    have h2 := le_overflow (k := 0) (by norm_num)
    norm_num at h2
    linarith

/-- `roundPack` rounds its exact value, zero included. -/
theorem roundPack_rounds' (n : Bool) (m : Nat) (e : ℤ) :
    RoundsTo ((if n then -1 else 1) * ((m : ℚ) * 2 ^ e)) (roundPack n m e) := by
  rcases Nat.eq_zero_or_pos m with rfl | hm
  · simpa [roundPack] using roundsTo_zero n
  · exact roundPack_rounds n e hm

theorem roundPack_neg (n : Bool) (m : Nat) (e : ℤ) : neg (roundPack n m e) = n := by
  unfold roundPack
  split_ifs
  · exact signBit_neg n
  · exact pack_neg n (lt_of_le_of_lt (min_le_right _ _) (by decide))

/-- A value that some finite pattern has is rounded to itself. -/
theorem RoundsTo.exact {q : ℚ} {x y : DWord} (h : RoundsTo q x) (hy : isFinite y = true) (hv : value y = q) :
    isFinite x = true ∧ value x = q := by
  have hlt : |q| < overflow := by
    rw [← hv, abs_value]
    have h1 : mag y ≤ infMag - 1 := by
      have := (isFinite_iff y).1 hy
      omega
    have h2 : magValue (infMag - 1) = ((2 ^ 53 - 1 : ℕ) : ℚ) * 2 ^ (((2045 : ℕ) : ℤ) - 1074) :=
      magValue_carry (k := 2045) (r := 2 ^ 53 - 1) (by norm_num) (by norm_num)
    refine lt_of_le_of_lt (magValue_strictMono.monotone h1) ?_
    rw [h2, overflow_eq (show (((2045 : ℕ) : ℤ) - 1074) = 971 by norm_num)]
    refine mul_lt_mul_of_pos_right ?_ (two_zpow_pos _)
    norm_num
  obtain ⟨h1, h2⟩ := h.2.1 hlt
  refine ⟨h1, ?_⟩
  have := (h2 y hy).1
  rw [hv, sub_self, abs_zero] at this
  have := abs_eq_zero.1 (le_antisymm this (abs_nonneg _))
  linarith

/-- Every integer up to 2^53 is the value of a finite pattern. -/
theorem exists_value_nat {m : Nat} (h : m ≤ 2 ^ 53) : ∃ y, isFinite y = true ∧ value y = m := by
  rcases Nat.eq_zero_or_pos m with rfl | hm
  · exact ⟨_, signBit_finite false, by rw [signBit_value]; simp⟩
  · obtain ⟨k, r, hk1, hk2, hr1, hr2, hv⟩ : ∃ k r : Nat, k ≤ 1075 ∧ 0 ≤ k ∧ 2 ^ 52 ≤ r ∧ r ≤ 2 ^ 53 ∧
        (r : ℚ) * 2 ^ ((k : ℤ) - 1074) = m := by
      rcases Nat.lt_or_ge m (2 ^ 53) with h53 | h53
      · obtain ⟨hl1, hl2⟩ := log2_bounds hm
        have hL : Nat.log2 m ≤ 52 := by
          by_contra hc
          have : 2 ^ 53 ≤ 2 ^ Nat.log2 m := Nat.pow_le_pow_right (by omega) (by omega)
          omega
        generalize Nat.log2 m = L at *
        refine ⟨L + 1022, m * 2 ^ (52 - L), by omega, by omega, ?_, ?_, ?_⟩
        · calc 2 ^ 52 = 2 ^ L * 2 ^ (52 - L) := by
                rw [← pow_add]
                congr 1
                omega
            _ ≤ _ := Nat.mul_le_mul_right _ hl1
        · calc m * 2 ^ (52 - L) ≤ 2 ^ (L + 1) * 2 ^ (52 - L) := Nat.mul_le_mul_right _ hl2.le
            _ = 2 ^ 53 := by
                rw [← pow_add]
                congr 1
                omega
        · push_cast
          rw [mul_assoc, ← zpow_split (52 - L) (show (0 : ℤ) = (52 - L : ℕ) + ((L : ℤ) + 1022 - 1074) by omega)]
          simp
      · obtain rfl : m = 2 ^ 53 := by omega
        refine ⟨1075, 2 ^ 52, by omega, by omega, le_refl _, by norm_num, ?_⟩
        norm_num
    have hp : k * 2 ^ 52 + r < infMag := by
      simp only [infMag]
      omega
    have hp63 : k * 2 ^ 52 + r < 2 ^ 63 := lt_trans hp (by decide)
    refine ⟨pack false (k * 2 ^ 52 + r), (isFinite_iff _).2 (by rw [pack_mag _ hp63]; exact hp), ?_⟩
    rw [value_eq, pack_neg _ hp63, pack_mag _ hp63, magValue_carry hr2 fun _ => hr1, hv]
    simp

theorem value_flip (x : DWord) (n : Bool) : value (pack n (mag x)) = (if n then -1 else 1) * magValue (mag x) := by
  rw [value_eq, pack_neg n (mag_lt x), pack_mag n (mag_lt x)]

/-- A sign and an integer magnitude up to 2^53 are represented exactly. -/
theorem roundPack_int (n : Bool) {m : Nat} (h : m ≤ 2 ^ 53) :
    isFinite (roundPack n m 0) = true ∧ value (roundPack n m 0) = (if n then -1 else 1) * (m : ℚ) ∧
      neg (roundPack n m 0) = n := by
  obtain ⟨y, hy, hv⟩ := exists_value_nat h
  have hr := roundPack_rounds' n m 0
  rw [zpow_zero, mul_one] at hr
  have hmag : magValue (mag y) = m := by
    rw [← abs_value, hv]
    exact abs_of_nonneg (by positivity)
  have hy' : isFinite (pack n (mag y)) = true := by
    rw [isFinite_iff, pack_mag n (mag_lt y)]
    exact (isFinite_iff y).1 hy
  obtain ⟨h1, h2⟩ := hr.exact hy' (by rw [value_flip, hmag])
  exact ⟨h1, h2, roundPack_neg n m 0⟩

/-! ## Pieces of the arithmetic -/

theorem scaled_value (a : DWord) {e : ℤ} (h : e ≤ expo a) : ((scaled a e : ℤ) : ℚ) * 2 ^ e = value a := by
  have : (2 : ℚ) ^ expo a = 2 ^ (expo a - e).toNat * 2 ^ e := zpow_split _ (by omega)
  unfold scaled value
  rw [this]
  split_ifs <;> push_cast <;> ring

theorem natAbs_sign (s : ℤ) : (if decide (s < 0) then -1 else 1 : ℚ) * (s.natAbs : ℚ) = s := by
  by_cases h : s < 0
  · simp [h]
    rw [abs_of_neg (by exact_mod_cast h)]; ring
  · simp [h]
    push Not at h
    exact_mod_cast h

theorem mul_neg_sign (x y : Bool) : (if x != y then -1 else 1 : ℚ) = (if x then -1 else 1) * (if y then -1 else 1) := by
  cases x <;> cases y <;> norm_num

theorem value_ne_zero {b : DWord} (h : isZero b = false) : mag b ≠ 0 := by
  intro h0
  rw [(isZero_iff b).2 h0] at h
  cases h
theorem mant_pos {b : DWord} (h : isZero b = false) : 0 < mant b := by
  have h2 := value_ne_zero h
  unfold mant
  unfold mag at h2
  split_ifs with h1
  · rw [h1] at h2
    omega
  · omega

theorem mant_lt (b : DWord) : mant b < 2 ^ 53 := by
  have := frac_lt b
  unfold mant
  split_ifs <;> omega

/-- The quotient of a dividend at most 53 bits shorter than the divisor stands for the exact one. -/
theorem quotient_standsFor {p q : ℕ} (hq : 0 < q) (hpq : q < 2 ^ 53 * p) (e : ℤ) :
    0 < quotient p q ∧ StandsFor (quotient p q) (e - 111) ((p : ℚ) / q * 2 ^ e) := by
  have hdm := Nat.div_add_mod (p * 2 ^ 110) q
  have hml := Nat.mod_lt (p * 2 ^ 110) hq
  have hbig : 2 ^ 57 ≤ p * 2 ^ 110 / q := by
    rw [Nat.le_div_iff_mul_le hq]
    omega
  have hqq : (0 : ℚ) < q := by exact_mod_cast hq
  have hz : (2 : ℚ) ^ e = 2 ^ 111 * 2 ^ (e - 111) := zpow_split 111 (by push_cast; ring)
  have hz0 := two_zpow_pos (e - 111)
  unfold quotient
  generalize hd : p * 2 ^ 110 / q = d at *
  generalize hf : p * 2 ^ 110 % q = f at *
  have hdq : (q : ℚ) * d + f = p * 2 ^ 110 := by exact_mod_cast hdm
  have hval : (p : ℚ) / q * 2 ^ e = (2 * d + 2 * (f / q)) * 2 ^ (e - 111) := by
    rw [hz]
    have : (p : ℚ) * 2 ^ 111 = 2 * (q * d + f) := by rw [hdq]; ring
    field_simp
    linear_combination (1/2) * this
  split_ifs with h
  · refine ⟨by omega, .inl ?_⟩
    rw [hval, h]
    push_cast
    simp
  · refine ⟨by omega, .inr ⟨by omega, by omega, ?_, ?_⟩⟩
    · rw [hval]
      refine mul_lt_mul_of_pos_right ?_ hz0
      push_cast
      have : (0 : ℚ) < f / q := by have : 0 < f := by omega
                                   positivity
      linarith
    · rw [hval]
      refine mul_lt_mul_of_pos_right ?_ hz0
      push_cast
      have : (f : ℚ) / q < 1 := by rw [div_lt_one hqq]; exact_mod_cast hml
      linarith

theorem toInt_iff (x : DWord) (i : ℤ) : toInt? x = some i ↔ isFinite x = true ∧ value x = i := by
  unfold toInt?
  by_cases h1 : isFinite x = true
  · rw [if_pos h1]
    simp only [h1, true_and]
    generalize hk : (-expo x).toNat = k
    generalize hj : (expo x).toNat = j
    have hz : (2 : ℚ) ^ expo x = 2 ^ j / 2 ^ k := by
      rw [eq_div_iff (by positivity), ← zpow_natCast (2:ℚ) k, ← zpow_natCast (2:ℚ) j, ← zpow_add₀ (by norm_num)]
      congr 1
      omega
    have hkj : k = 0 ∨ j = 0 := by omega
    have hp : (0 : ℚ) < 2 ^ k := by positivity
    by_cases hm : mant x % 2 ^ k = 0
    · rw [if_pos hm, Option.some.injEq]
      unfold value
      rw [hz]
      have hd := Nat.div_add_mod (mant x) (2 ^ k)
      rw [hm, Nat.add_zero] at hd
      have : (mant x : ℚ) = 2 ^ k * (mant x / 2 ^ k : ℕ) := by exact_mod_cast hd.symm
      rw [this]
      generalize mant x / 2 ^ k = d at *
      have key : (if neg x = true then (-1:ℚ) else 1) * (2 ^ k * (d:ℚ)) * (2 ^ j / 2 ^ k) =
        (((if neg x = true then -((d * 2 ^ j : ℕ):ℤ) else ((d * 2 ^ j : ℕ) : ℤ)) : ℤ) : ℚ) := by
        split_ifs <;> push_cast <;> field_simp
      rw [key]
      exact ⟨fun h => by rw [h], fun h => by exact_mod_cast h⟩
    · rw [if_neg hm]
      simp only [reduceCtorEq, false_iff]
      unfold value
      rw [hz]
      intro h
      have hk0 : k ≠ 0 := by rintro rfl; simp [Nat.mod_one] at hm
      have hj0 : j = 0 := by omega
      subst hj0
      apply hm
      have h2 : (mant x : ℚ) = ((if neg x then -1 else 1) * (i : ℤ)) * 2 ^ k := by
        rw [← h]
        split_ifs <;> field_simp
      have h3 : (mant x : ℤ) = (if neg x then -1 else 1) * i * 2 ^ k := by
        have : ((mant x : ℤ) : ℚ) = (((if neg x then -1 else 1) * i * 2 ^ k : ℤ) : ℚ) := by
          rw [Int.cast_natCast, h2]
          split_ifs <;> push_cast <;> ring
        exact_mod_cast this
      have : (2 ^ k : ℤ) ∣ (mant x : ℤ) := ⟨_, by rw [h3, mul_comm]⟩
      have : 2 ^ k ∣ mant x := by exact_mod_cast this
      exact Nat.mod_eq_zero_of_dvd this
  · rw [if_neg h1]
    simp [h1]

end Sys2Proof.Machine.F64
end

