-- ==== Sys2Proof/Laws/Host.lean ====
section
/-! SUPPORT. The host's step, transaction by transaction (R108, R110), and the halves of a 64-bit register (R47). -/

namespace Sys2Proof.Machine

theorem step_of_host {s : State} (h : turn s = .host) : step s = hostStep (taken s) := by rw [step, h]

theorem step_of_core {s : State} (h : turn s = .core) : step s = coreStep (taken s) := by rw [step, h]

/-- A latched command goes before the host unless the schedule lists the host (R122). -/
theorem turn_of_latch {s : State} {w : Word} (h : s.latch = some w) (hs : s.sched.head? ≠ some .host) :
    turn s = .core := by
  unfold turn
  cases hh : s.sched with
  | nil => simp [h]
  | cons a l =>
    rw [hh] at hs
    cases a
    · rfl
    · simp at hs

/-- An aligned CSR write (R108). -/
theorem step_csrWrite {s : State} {off : CsrOffset} {v : Word} {rest : List HostOp} (ht : turn s = .host)
    (hs : s.script = .csrWrite off v :: rest) (ha : off.toNat % 4 = 0) :
    step s = .next (hostCsrWrite off v { s with script := rest, sched := s.sched.tail }) := by
  rw [step_of_host ht]
  have hal : aligned off = true := by simp [aligned, ha]
  simp only [hostStep, taken_script, hs, hostAct, hal, if_true]
  rfl

/-- An aligned CSR read (R108). -/
theorem step_csrRead {s : State} {off : CsrOffset} {rest : List HostOp} (ht : turn s = .host)
    (hs : s.script = .csrRead off :: rest) (ha : off.toNat % 4 = 0) :
    step s = .next (hostCsrRead off { s with script := rest, sched := s.sched.tail }) := by
  rw [step_of_host ht]
  have hal : aligned off = true := by simp [aligned, ha]
  simp only [hostStep, taken_script, hs, hostAct, hal, if_true]
  rfl

/-- An LMEM write (R108). -/
theorem step_lmemWrite {s : State} {a : Nat} {v : Byte} {rest : List HostOp} (ht : turn s = .host)
    (hs : s.script = .lmemWrite a v :: rest) :
    step s = .next (hostLmemWrite a v { s with script := rest, sched := s.sched.tail }) := by
  rw [step_of_host ht]
  simp only [hostStep, taken_script, hs, hostAct]
  rfl

/-- An LMEM read (R108). -/
theorem step_lmemRead {s : State} {a : Nat} {rest : List HostOp} (ht : turn s = .host)
    (hs : s.script = .lmemRead a :: rest) :
    step s = .next (hostLmemRead a { s with script := rest, sched := s.sched.tail }) := by
  rw [step_of_host ht]
  simp only [hostStep, taken_script, hs, hostAct]
  rfl

/-- A poll of `wait` (R108). -/
theorem step_waitDone {s : State} {rest : List HostOp} (ht : turn s = .host) (hs : s.script = .waitDone :: rest) :
    step s = .next (pollDone { s with script := rest, sched := s.sched.tail }) := by
  rw [step_of_host ht]
  simp only [hostStep, taken_script, hs, hostAct]
  rfl

/-- What a host write to a CSR that is not CTRL, STATUS or CMD leaves as it was (R23). -/
theorem storeCsr_frame (c : Csr) (v : Word) (s : State) :
    (storeCsr c v s).params = s.params ∧ (storeCsr c v s).lmem = s.lmem ∧ (storeCsr c v s).st = s.st ∧
      (storeCsr c v s).latch = s.latch ∧ (storeCsr c v s).cmd = s.cmd ∧ (storeCsr c v s).errCode = s.errCode ∧
      (storeCsr c v s).errInfo = s.errInfo ∧ (storeCsr c v s).rd = s.rd ∧ (storeCsr c v s).wr = s.wr ∧
      (storeCsr c v s).qs = s.qs := by
  cases c <;> exact ⟨rfl, rfl, rfl, rfl, rfl, rfl, rfl, rfl, rfl, rfl⟩

theorem half_append (a b : Word) :
    half .lo ((a ++ b : BitVec (32 + 32)) : DWord) = b ∧ half .hi ((a ++ b : BitVec (32 + 32)) : DWord) = a := by
  constructor <;>
  · apply BitVec.eq_of_getLsbD_eq
    intro i hi
    rw [half, BitVec.getLsbD_extractLsb']
    rw [show ∀ k, BitVec.getLsbD ((a ++ b : BitVec (32 + 32)) : DWord) k =
      if k < 32 then b.getLsbD k else a.getLsbD (k - 32) from fun k => BitVec.getLsbD_append]
    simp [hi]

/-- The word written to a half (R47). -/
theorem half_withHalf (h : Half) (v : Word) (x : DWord) : half h (withHalf h v x) = v := by
  cases h
  · exact (half_append (half .hi x) v).1
  · exact (half_append v (half .lo x)).2

/-- The other half is kept (R47). -/
theorem half_withHalf_other {h g : Half} (hg : g ≠ h) (v : Word) (x : DWord) :
    half g (withHalf h v x) = half g x := by
  cases h <;> cases g <;> first | exact absurd rfl hg | skip
  · exact (half_append (half .hi x) v).2
  · exact (half_append v (half .lo x)).1

/-- A register put together from two fields (R34, R40). -/
theorem toNat_fields {n m : Nat} (a : BitVec n) (b : BitVec m) : (a ++ b).toNat = 2 ^ m * a.toNat + b.toNat := by
  rw [BitVec.toNat_append, ← Nat.shiftLeft_add_eq_or_of_lt b.isLt, Nat.shiftLeft_eq, Nat.mul_comm]

/-- A 64-bit register is its two halves (R47). -/
theorem toNat_halves (x : DWord) : 2 ^ 32 * (half .hi x).toNat + (half .lo x).toNat = x.toNat := by
  have := x.isLt
  simp [half]
  omega

end Sys2Proof.Machine
end

