-- ==== Sys2Proof/Laws/Huffman.lean ====
section
/-! SUPPORT. The Huffman tables: BuildTree (R171), the codewords as paths (R172) and as tiles of the value range (R175),
the flattened LUT (R174), validity (R178) and lookup (R179). -/

namespace Sys2Proof.Machine

/-! ## BuildTree (R171) -/

/-- The least and the others are the arena's nodes (R171). -/
theorem extractLeast_spec : ∀ (l : List ArenaNode) (x : ArenaNode),
    (x :: l).Perm ((extractLeast x l).1 :: (extractLeast x l).2) ∧ (extractLeast x l).2.length = l.length := by
  intro l
  induction l with
  | nil => intro x; simp [extractLeast]
  | cons y ys ih =>
    intro x
    simp only [extractLeast]
    split_ifs
    · obtain ⟨a, b⟩ := ih y
      exact ⟨(a.cons x).trans (List.Perm.swap _ _ _), by simp [b]⟩
    · obtain ⟨a, b⟩ := ih x
      exact ⟨((List.Perm.swap _ _ _).trans (a.cons y)).trans (List.Perm.swap _ _ _), by simp [b]⟩

/-- The order of extraction: smaller weight first, then smaller arrival number (R171). -/
theorem arenaBefore_iff {a b : ArenaNode} :
    arenaBefore a b = true ↔ a.w < b.w ∨ (a.w = b.w ∧ a.arr < b.arr) := by simp [arenaBefore]

theorem arenaBefore_trans {a b c : ArenaNode} (h1 : arenaBefore a b = true) (h2 : arenaBefore b c = true) :
    arenaBefore a c = true := by
  simp only [arenaBefore, decide_eq_true_eq] at *
  omega

theorem arenaBefore_total {a b : ArenaNode} (h : a.arr ≠ b.arr) (h1 : ¬arenaBefore a b = true) :
    arenaBefore b a = true := by
  simp only [arenaBefore, decide_eq_true_eq] at *
  omega

/-- With distinct arrival numbers the extracted node is before every other (R171). -/
theorem extractLeast_least : ∀ (l : List ArenaNode) (x : ArenaNode), ((x :: l).map (·.arr)).Nodup →
    ∀ y ∈ (extractLeast x l).2, arenaBefore (extractLeast x l).1 y = true := by
  intro l
  induction l with
  | nil => intro x _ y hy; simp [extractLeast] at hy
  | cons y ys ih =>
    intro x hn
    simp only [List.map_cons, List.nodup_cons, List.mem_cons, not_or] at hn
    obtain ⟨⟨hxy, hx⟩, hy, hys⟩ := hn
    simp only [extractLeast]
    split_ifs with h
    · have hall := ih y (by simp [hy, hys])
      intro z hz
      simp only at hz ⊢
      rcases List.mem_cons.1 hz with rfl | hz
      · have hp := (extractLeast_spec ys y).1
        have : (extractLeast y ys).1 = y ∨ arenaBefore (extractLeast y ys).1 y = true := by
          have : y ∈ (extractLeast y ys).1 :: (extractLeast y ys).2 := hp.subset (by simp)
          rcases List.mem_cons.1 this with e | e
          · exact .inl e.symm
          · exact .inr (hall y e)
        rcases this with e | e
        · rw [e]
          exact h
        · exact arenaBefore_trans e h
      · exact hall z hz
    · have h' := arenaBefore_total (fun e => hxy e.symm) h
      have hall := ih x (by simp [hx, hys])
      intro z hz
      simp only at hz ⊢
      rcases List.mem_cons.1 hz with rfl | hz
      · have hp := (extractLeast_spec ys x).1
        have : x ∈ (extractLeast x ys).1 :: (extractLeast x ys).2 := hp.subset (by simp)
        rcases List.mem_cons.1 this with e | e
        · rw [← e]
          exact h'
        · exact arenaBefore_trans (hall x e) h'
      · exact hall z hz

/-- BuildTree's loop merges the two least until one node is left (R171). -/
theorem mergeLoop_builds : ∀ (k : Nat) (x : ArenaNode) (rest : List ArenaNode) (arr : Nat), rest.length = k →
    ((x :: rest).map (·.arr)).Nodup → (∀ y ∈ x :: rest, y.arr < arr) →
    Builds (x :: rest) arr (mergeLoop k x rest arr) := by
  intro k
  induction k with
  | zero =>
    intro x rest arr hl _ _
    obtain rfl : rest = [] := by simpa using hl
    exact Builds.root x arr
  | succ k ih =>
    intro x rest arr hl hn hlt
    obtain ⟨p1, l1⟩ := extractLeast_spec rest x
    have m1 := extractLeast_least rest x hn
    simp only [mergeLoop]
    cases he : extractLeast x rest with
    | mk a r1 =>
    rw [he] at p1 l1 m1
    simp only at p1 l1 m1 ⊢
    cases r1 with
    | nil =>
      simp at l1
      omega
    | cons y ys =>
      have hn1 : ((a :: y :: ys).map (·.arr)).Nodup := (p1.map _).nodup_iff.1 hn
      have hlt1 : ∀ z ∈ a :: y :: ys, z.arr < arr := fun z hz => hlt z (p1.symm.subset hz)
      obtain ⟨p2, l2⟩ := extractLeast_spec ys y
      have hn2 : ((y :: ys).map (·.arr)).Nodup := (List.nodup_cons.1 hn1).2
      have m2 := extractLeast_least ys y hn2
      cases he2 : extractLeast y ys with
      | mk b others =>
      rw [he2] at p2 l2 m2
      simp only [he2] at p2 l2 m2 ⊢
      have hn3 : ((a :: b :: others).map (·.arr)).Nodup := (((p2.cons a).map _)).nodup_iff.1 hn1
      have hlt3 : ∀ z ∈ a :: b :: others, z.arr < arr := fun z hz => hlt1 z ((p2.cons a).symm.subset hz)
      refine Builds.merge (p1.trans (p2.cons a)) (fun z hz => arenaBefore_iff.1 (m1 z (p2.symm.subset hz)))
        (fun z hz => arenaBefore_iff.1 (m2 z hz)) ?_
      refine ih (mergeNodes a b arr) others (arr + 1) (by simp at l1 l2; omega) ?_ ?_
      · simp only [List.map_cons, List.nodup_cons] at hn3 ⊢
        refine ⟨fun hm => ?_, hn3.2.2⟩
        obtain ⟨z, hz, e⟩ := List.mem_map.1 hm
        have := hlt3 z (by simp [hz])
        simp [mergeNodes] at e
        omega
      · intro z hz
        rcases List.mem_cons.1 hz with rfl | hz
        · simp [mergeNodes]
        · have := hlt3 z (by simp [hz])
          omega

/-- The leaves arrive in order, 0 first (R171). -/
theorem arenaLeaves_arr (h : Byte → Nat) :
    (arenaLeaves h).map (fun x => x.arr) = List.range (arenaLeaves h).length := by
  simp only [arenaLeaves, List.length_mapIdx]
  apply List.ext_getElem <;> simp

/-- One leaf per occurring symbol, ascending, with its count (R171). -/
theorem arenaLeaves_eq (h : Byte → Nat) :
    (arenaLeaves h).map (fun x => (x.w, x.tree)) =
      ((List.range 256).filter fun b => 0 < h (BitVec.ofNat 8 b)).map
        (fun b => (h (BitVec.ofNat 8 b), HufTree.leaf (BitVec.ofNat 8 b))) := by
  have : (arenaLeaves h).map (fun x => (x.w, x.tree)) =
      (occurring h).map fun p => (p.2, HufTree.leaf p.1) := by
    simp only [arenaLeaves]
    apply List.ext_getElem <;> simp
  rw [this, occurring, List.filter_map, List.map_map]
  rfl

/-- There is a tree exactly when some symbol occurs, and it is BuildTree's (R171). -/
theorem buildTree_spec (h : Byte → Nat) :
    (arenaLeaves h = [] ∧ buildTree h = none) ∨
      ∃ t, buildTree h = some t ∧ Builds (arenaLeaves h) (arenaLeaves h).length t := by
  unfold buildTree
  cases hc : arenaLeaves h with
  | nil => exact .inl ⟨rfl, rfl⟩
  | cons x rest =>
    have ha := arenaLeaves_arr h
    rw [hc] at ha
    refine .inr ⟨_, rfl, mergeLoop_builds _ _ _ _ rfl (by rw [ha]; exact List.nodup_range) fun y hy => ?_⟩
    have : y.arr ∈ (x :: rest).map (fun x => x.arr) := List.mem_map.2 ⟨y, hy, rfl⟩
    rw [ha] at this
    simpa using this

/-! ## The symbols of a tree -/

/-- A tree's symbols, left to right. -/
def HufTree.syms : HufTree → List Byte
  | .leaf s => [s]
  | .node l r => l.syms ++ r.syms

theorem codewords_syms (t : HufTree) : ∀ code len, (codewords t code len).map (·.sym) = t.syms := by
  induction t with
  | leaf s => exact fun _ _ => rfl
  | node l r ihl ihr =>
    intro code len
    simp [codewords, HufTree.syms, ihl, ihr]

/-- Merging keeps the arena's symbols. -/
theorem Builds.syms {A : List ArenaNode} {arr : Nat} {t : HufTree} (h : Builds A arr t) :
    t.syms.Perm (A.flatMap fun x => x.tree.syms) := by
  induction h with
  | root x arr => simp
  | merge perm _ _ _ ih =>
    refine ih.trans (List.Perm.trans ?_ (perm.flatMap_right _).symm)
    simp [HufTree.syms]

/-- The symbols that occur, ascending. -/
theorem arenaLeaves_syms (h : Byte → Nat) : (arenaLeaves h).flatMap (fun x => x.tree.syms) =
    ((List.range 256).filter fun b => 0 < h (BitVec.ofNat 8 b)).map (BitVec.ofNat 8) := by
  have : (arenaLeaves h).flatMap (fun x => x.tree.syms) =
      ((arenaLeaves h).map fun x => (x.w, x.tree)).flatMap fun p => p.2.syms := by
    rw [List.flatMap_map]
  rw [this, arenaLeaves_eq, List.flatMap_map]
  simp only [HufTree.syms]
  induction (List.range 256).filter fun b => decide (0 < h (BitVec.ofNat 8 b)) with
  | nil => rfl
  | cons x xs ih => simp [ih]

/-- The occurring symbols are distinct, and they are the symbols of positive count. -/
theorem occurring_syms (h : Byte → Nat) :
    (((List.range 256).filter fun b => 0 < h (BitVec.ofNat 8 b)).map (BitVec.ofNat 8)).Nodup ∧
      ∀ b : Byte, b ∈ ((List.range 256).filter fun b => 0 < h (BitVec.ofNat 8 b)).map (BitVec.ofNat 8) ↔
        0 < h b := by
  constructor
  · refine List.Nodup.map_on (fun x hx y hy e => ?_) (List.nodup_range.filter _)
    simp at hx hy
    have := congrArg BitVec.toNat e
    simp at this
    omega
  · intro b
    simp only [List.mem_map, List.mem_filter, List.mem_range, decide_eq_true_eq]
    constructor
    · rintro ⟨n, ⟨-, hn⟩, rfl⟩
      exact hn
    · intro hb
      exact ⟨b.toNat, ⟨b.isLt, by simpa using hb⟩, by simp⟩

/-- A build's codewords: one for each occurring symbol (R170, R172). -/
theorem buildTree_syms {h : Byte → Nat} {t : HufTree} (ht : buildTree h = some t) :
    ((codewords t 0 0).map (·.sym)).Nodup ∧ ∀ b, (∃ c ∈ codewords t 0 0, c.sym = b) ↔ 0 < h b := by
  obtain ⟨-, hn⟩ | ⟨t', ht', hb⟩ := buildTree_spec h
  · rw [hn] at ht
    cases ht
  · obtain rfl : t' = t := by
      rw [ht'] at ht
      exact Option.some.inj ht
    have hp := hb.syms
    rw [arenaLeaves_syms] at hp
    obtain ⟨hnd, hmem⟩ := occurring_syms h
    rw [codewords_syms]
    refine ⟨hp.nodup_iff.2 hnd, fun b => ?_⟩
    rw [← hmem, ← hp.mem_iff, ← codewords_syms t' 0 0, List.mem_map]

theorem occurring_length (h : Byte → Nat) : (occurring h).length = (arenaLeaves h).length := by
  simp [arenaLeaves]

/-- The number of codewords is the number of occurring symbols. -/
theorem buildTree_length {h : Byte → Nat} {t : HufTree} (ht : buildTree h = some t) :
    (codewords t 0 0).length = (occurring h).length := by
  obtain ⟨-, hn⟩ | ⟨t', ht', hb⟩ := buildTree_spec h
  · rw [hn] at ht
    cases ht
  · obtain rfl : t' = t := by
      rw [ht'] at ht
      exact Option.some.inj ht
    have hp := hb.syms.length_eq
    rw [arenaLeaves_syms, ← codewords_syms t' 0 0] at hp
    have := congrArg List.length (arenaLeaves_eq h)
    simp at hp this
    rw [occurring_length, this, hp]

/-- The number of occurring byte values of a string is the number of its distinct bytes (R170). -/
theorem occurring_count (xs : List Byte) : (occurring fun b => xs.count b).length = xs.dedup.length := by
  obtain ⟨hnd, hmem⟩ := occurring_syms fun b => xs.count b
  have hp : (((List.range 256).filter fun b => 0 < xs.count (BitVec.ofNat 8 b)).map (BitVec.ofNat 8)).Perm
      xs.dedup := by
    refine (List.perm_ext_iff_of_nodup hnd (List.nodup_dedup xs)).2 fun b => ?_
    rw [hmem, List.count_pos_iff, List.mem_dedup]
  have := congrArg List.length (arenaLeaves_eq fun b => xs.count b)
  rw [List.length_map, List.length_map] at this
  rw [occurring_length, this, ← hp.length_eq, List.length_map]

/-! ## The codewords (R172) -/

/-- The codewords under a node are the paths to its leaves. -/
theorem mem_codewords (t : HufTree) (c : SymCode) : ∀ code len, c ∈ codewords t code len ↔
    ∃ path : List Bool, t.follow path = some (.leaf c.sym) ∧ c.len = len + path.length ∧
      c.code = code * 2 ^ path.length + valueOf path := by
  induction t with
  | leaf x =>
    intro code len
    simp only [codewords, List.mem_singleton]
    constructor
    · rintro rfl
      exact ⟨[], by simp [HufTree.follow]⟩
    · rintro ⟨path, h1, h2, h3⟩
      cases path with
      | nil =>
        simp [HufTree.follow] at h1 h2 h3
        cases c
        simp_all
      | cons b bs => simp [HufTree.follow] at h1
  | node l r ihl ihr =>
    intro code len
    simp only [codewords, List.mem_append, ihl, ihr]
    constructor
    · rintro (⟨p, h1, h2, h3⟩ | ⟨p, h1, h2, h3⟩)
      · refine ⟨false :: p, by simpa [HufTree.follow] using h1, by simp [h2]; omega, ?_⟩
        rw [h3, valueOf_cons, List.length_cons]
        simp
        ring
      · refine ⟨true :: p, by simpa [HufTree.follow] using h1, by simp [h2]; omega, ?_⟩
        rw [h3, valueOf_cons, List.length_cons]
        simp
        ring
    · rintro ⟨path, h1, h2, h3⟩
      cases path with
      | nil => simp [HufTree.follow] at h1
      | cons b bs =>
        rw [valueOf_cons, List.length_cons] at h3
        rw [List.length_cons] at h2
        cases b with
        | false =>
          refine .inl ⟨bs, by simpa [HufTree.follow] using h1, by omega, ?_⟩
          rw [h3]
          simp
          ring
        | true =>
          refine .inr ⟨bs, by simpa [HufTree.follow] using h1, by omega, ?_⟩
          rw [h3]
          simp
          ring

/-- A codeword's code fits in its length. -/
theorem codewords_code_lt {t : HufTree} {c : SymCode} (h : c ∈ codewords t 0 0) : c.code < 2 ^ c.len := by
  obtain ⟨p, -, h2, h3⟩ := (mem_codewords t c 0 0).1 h
  rw [h2, h3]
  simpa using valueOf_lt p

theorem maxDepth_ge {cs : List SymCode} {c : SymCode} (h : c ∈ cs) : c.len ≤ maxDepth cs := by
  induction cs with
  | nil => cases h
  | cons x cs ih =>
    simp only [maxDepth, List.foldr_cons] at ih ⊢
    rcases List.mem_cons.1 h with rfl | h
    · exact le_max_left _ _
    · exact (ih h).trans (le_max_right _ _)

/-- The greatest depth is some leaf's. -/
theorem maxDepth_mem {cs : List SymCode} (h : cs ≠ []) : ∃ c ∈ cs, c.len = maxDepth cs := by
  induction cs with
  | nil => exact absurd rfl h
  | cons x cs ih =>
    simp only [maxDepth, List.foldr_cons] at ih ⊢
    by_cases hc : cs = []
    · subst hc
      exact ⟨x, by simp, by simp⟩
    · obtain ⟨c, hm, he⟩ := ih hc
      rcases le_total x.len (cs.foldr (fun c d => max c.len d) 0) with hle | hle
      · exact ⟨c, by simp [hm], by rw [max_eq_right hle, he]⟩
      · exact ⟨x, by simp, by rw [max_eq_left hle]⟩

theorem codewords_ne_nil (t : HufTree) : ∀ code len, codewords t code len ≠ [] := by
  induction t with
  | leaf s => simp [codewords]
  | node l r ihl _ => simp [codewords, ihl]

theorem codewords_len_ge (t : HufTree) {c : SymCode} {code len : Nat} (h : c ∈ codewords t code len) :
    len ≤ c.len := by
  obtain ⟨p, -, h2, -⟩ := (mem_codewords t c code len).1 h
  omega

/-- With two leaves or more every codeword has a bit. -/
theorem codewords_len_pos {t : HufTree} {c : SymCode} (hk : 2 ≤ (codewords t 0 0).length)
    (h : c ∈ codewords t 0 0) : 1 ≤ c.len := by
  cases t with
  | leaf s => simp [codewords] at hk
  | node l r =>
    rcases List.mem_append.1 h with h | h
    · exact codewords_len_ge l h
    · exact codewords_len_ge r h

/-! ## The tiles of the value range (R174, R175) -/

/-- A codeword's value left-justified to d bits (R174). -/
def SymCode.start (d : Nat) (c : SymCode) : Nat := c.code * 2 ^ (d - c.len)

/-- The codewords cover `lo` to `hi` without gap or overlap, in order. -/
def Tiles (d : Nat) : Nat → List SymCode → Nat → Prop
  | lo, [], hi => lo = hi
  | lo, c :: cs, hi => c.start d = lo ∧ Tiles d (lo + 2 ^ (d - c.len)) cs hi

theorem Tiles.append {d : Nat} {as bs : List SymCode} : ∀ {lo mid hi : Nat}, Tiles d lo as mid → Tiles d mid bs hi →
    Tiles d lo (as ++ bs) hi := by
  induction as with
  | nil =>
    intro lo mid hi h1 h2
    cases h1
    exact h2
  | cons c as ih => exact fun h1 h2 => ⟨h1.1, ih h1.2 h2⟩

/-- The codewords under a node tile the node's own interval (R175). -/
theorem tiles_codewords (t : HufTree) {d : Nat} : ∀ {code len : Nat}, (∀ c ∈ codewords t code len, c.len ≤ d) →
    Tiles d (code * 2 ^ (d - len)) (codewords t code len) ((code + 1) * 2 ^ (d - len)) := by
  induction t with
  | leaf s =>
    intro code len _
    exact ⟨rfl, by show _ + _ = _; ring⟩
  | node l r ihl ihr =>
    intro code len h
    simp only [codewords, List.mem_append] at h
    obtain ⟨c, hc⟩ := List.exists_mem_of_ne_nil _ (codewords_ne_nil l (2 * code) (len + 1))
    have h1 := codewords_len_ge l hc
    have h2 := h c (.inl hc)
    have hp : 2 ^ (d - len) = 2 * 2 ^ (d - (len + 1)) := by
      rw [← pow_succ']
      congr 1
      omega
    have hl := ihl fun c hc => h c (.inl hc)
    have hr := ihr fun c hc => h c (.inr hc)
    rw [codewords, hp]
    rw [show code * (2 * 2 ^ (d - (len + 1))) = 2 * code * 2 ^ (d - (len + 1)) by ring,
      show (code + 1) * (2 * 2 ^ (d - (len + 1))) = (2 * code + 1 + 1) * 2 ^ (d - (len + 1)) by ring]
    exact hl.append hr

/-- Each tile ends where the next begins, and the last at the end. -/
theorem Tiles.get {d : Nat} {cs : List SymCode} : ∀ {lo hi : Nat}, Tiles d lo cs hi → ∀ i (h : i < cs.length),
    (i = 0 → cs[i].start d = lo) ∧
      (∀ h' : i + 1 < cs.length, cs[i + 1].start d = cs[i].start d + 2 ^ (d - cs[i].len)) ∧
      (i + 1 = cs.length → cs[i].start d + 2 ^ (d - cs[i].len) = hi) := by
  induction cs with
  | nil => intro lo hi _ i h; exact absurd h (Nat.not_lt_zero i)
  | cons c cs ih =>
    intro lo hi ht i h
    cases i with
    | zero =>
      refine ⟨fun _ => ht.1, fun h' => ?_, fun he => ?_⟩
      · have := (ih ht.2 0 (by simpa using h')).1 rfl
        simpa [ht.1] using this
      · obtain rfl : cs = [] := by simpa using he.symm
        have := ht.2
        simp only [Tiles] at this
        simpa [ht.1] using this
    | succ i =>
      have := ih ht.2 i (by simpa using h)
      refine ⟨fun he => (nomatch he), fun h' => ?_, fun he => ?_⟩
      · simpa using this.2.1 (by simpa using h')
      · simpa using this.2.2 (by simpa using he)

theorem Tiles.mono {d : Nat} {cs : List SymCode} {lo hi : Nat} (ht : Tiles d lo cs hi) {i j : Nat} (hij : i < j)
    (hj : j < cs.length) : cs[i].start d + 2 ^ (d - cs[i].len) ≤ cs[j].start d := by
  induction j with
  | zero => omega
  | succ j ih =>
    have h1 := (ht.get j (by omega)).2.1 hj
    rcases Nat.lt_succ_iff_lt_or_eq.1 hij with h | rfl
    · have := ih h (by omega)
      have hp := Nat.two_pow_pos (d - cs[j].len)
      omega
    · omega

/-- Every tile ends at or before the end. -/
theorem Tiles.le {d : Nat} {cs : List SymCode} {lo hi : Nat} (ht : Tiles d lo cs hi) {i : Nat} (h : i < cs.length) :
    cs[i].start d + 2 ^ (d - cs[i].len) ≤ hi := by
  have hl := (ht.get (cs.length - 1) (by omega)).2.2 (by omega)
  rcases Nat.lt_or_ge i (cs.length - 1) with h' | h'
  · have := ht.mono h' (by omega)
    have hp := Nat.two_pow_pos (d - (cs[cs.length - 1]'(by omega)).len)
    omega
  · obtain rfl : i = cs.length - 1 := by omega
    exact hl.le

/-! ## The flattened LUT (R174) -/

/-- Entries already in ascending order of VAL stay as they are. -/
theorem foldr_insertByVal (es : List LutEntry) (h : es.Pairwise fun x y => x.val.toNat ≤ y.val.toNat) :
    es.foldr insertByVal [] = es := by
  induction es with
  | nil => rfl
  | cons e es ih =>
    obtain ⟨h1, h2⟩ := List.pairwise_cons.1 h
    rw [List.foldr_cons, ih h2]
    cases es with
    | nil => rfl
    | cons x xs => rw [insertByVal, if_pos (h1 x (by simp))]

/-- The LUT value of a codeword that fits in 31 bits. -/
theorem lutEntryOf_val {d : Nat} {c : SymCode} (h : c.start d < 2 ^ 32) :
    (lutEntryOf d c).val.toNat = c.start d := by
  simp only [lutEntryOf, BitVec.toNat_ofNat]
  exact Nat.mod_eq_of_lt h

/-- The flattened LUT of a tree's codewords is their entries, left to right (R174). -/
theorem flattenLut_codewords {t : HufTree} {d : Nat} (hd : d < 32) (h : ∀ c ∈ codewords t 0 0, c.len ≤ d) :
    flattenLut d (codewords t 0 0) = (codewords t 0 0).map (lutEntryOf d) := by
  have ht := tiles_codewords t h
  simp only [Nat.zero_mul, Nat.zero_add, Nat.one_mul, Nat.sub_zero] at ht
  have hp : 2 ^ d ≤ 2 ^ 31 := Nat.pow_le_pow_right (by omega) (by omega)
  refine foldr_insertByVal _ ?_
  rw [List.pairwise_iff_getElem]
  intro i j hi hj hij
  simp only [List.length_map] at hi hj
  have h1 := ht.mono hij hj
  have h2 := ht.le hj
  have h2' := ht.le hi
  have h4 := Nat.two_pow_pos (d - (codewords t 0 0)[i].len)
  have h3 := Nat.two_pow_pos (d - (codewords t 0 0)[j].len)
  simp only [List.getElem_map]
  rw [lutEntryOf_val (by omega), lutEntryOf_val (by omega)]
  omega

/-- LUT[i] of a filled LUT (R170, R180). -/
theorem lutAt_fillLut (old : Vector LutEntry 256) (es : List LutEntry) {i : Nat} (hi : i < 256) :
    lutAt (fillLut old es) i = es.getD i old[i] := by
  rw [lutAt, fillLut, Vector.getElem?_eq_getElem hi, Option.getD_some]
  exact tabulate_get _ i hi

/-- CWTAB's entry for a symbol with a codeword (R170). -/
theorem codewordOf_mem {cs : List SymCode} (hn : (cs.map (·.sym)).Nodup) {c : SymCode} (hc : c ∈ cs) :
    codewordOf cs c.sym = ⟨BitVec.ofNat 32 c.code, BitVec.ofNat 8 c.len⟩ := by
  have hf : cs.find? (fun x => x.sym == c.sym) = some c := by
    induction cs with
    | nil => cases hc
    | cons x cs ih =>
      obtain ⟨h1, h2⟩ := List.nodup_cons.1 hn
      rcases List.mem_cons.1 hc with rfl | hc
      · simp
      · have : x.sym ≠ c.sym := fun e => h1 (List.mem_map.2 ⟨c, hc, e.symm⟩)
        rw [List.find?_cons_of_neg (by simpa using this), ih h2 hc]
  rw [codewordOf, hf]

/-- CWTAB's entry for a symbol without one (R170). -/
theorem codewordOf_not_mem {cs : List SymCode} {b : Byte} (h : ∀ c ∈ cs, c.sym ≠ b) : codewordOf cs b = ⟨0, 0⟩ := by
  rw [codewordOf, List.find?_eq_none.2 fun c hc => by simpa using h c hc]

theorem cwAt_tabulate (f : Byte → Codeword) (b : Byte) :
    cwAt (tabulate fun i : Fin 256 => f (BitVec.ofNat 8 i.val)) b = f b := by
  rw [cwAt, tabulate_get _ b.toNat b.isLt]
  simp

/-! ## HUF_BUILD's cases (R170, R173) -/

theorem dedup_length_le (xs : List Byte) : xs.dedup.length ≤ 256 := by
  rw [← occurring_count, occurring]
  exact (List.length_filter_le _ _).trans (by simp)

theorem maxDepth_pos {root : HufTree} (hk : 2 ≤ (codewords root 0 0).length) : 1 ≤ maxDepth (codewords root 0 0) := by
  obtain ⟨c, hm, he⟩ := maxDepth_mem (codewords_ne_nil root 0 0)
  rw [← he]
  exact codewords_len_pos hk hm

theorem buildCode_emptyInput {xs : List Byte} {s : State} (h : xs.dedup.length < 2) :
    buildCode xs s = .raised .emptyInput (BitVec.ofNat 64 xs.dedup.length) s := by
  simp only [buildCode, occurring_count]
  cases buildTree (fun b => xs.count b) with
  | none => rfl
  | some r => simp only [if_pos h]

theorem buildTree_some {xs : List Byte} (h : 1 ≤ xs.dedup.length) :
    ∃ root, buildTree (fun b => xs.count b) = some root := by
  obtain ⟨h1, -⟩ | ⟨t, ht, -⟩ := buildTree_spec (fun b => xs.count b)
  · rw [← occurring_count, occurring_length, h1] at h
    simp at h
  · exact ⟨t, ht⟩

theorem buildCode_codeTooLong {xs : List Byte} {s : State} {root : HufTree} (h : 2 ≤ xs.dedup.length)
    (hr : buildTree (fun b => xs.count b) = some root) (hd : 32 ≤ maxDepth (codewords root 0 0)) :
    buildCode xs s = .raised .codeTooLong (BitVec.ofNat 64 (maxDepth (codewords root 0 0))) s := by
  simp only [buildCode, occurring_count, hr, if_neg (Nat.not_lt.2 h), if_pos hd]

theorem buildCode_ok {xs : List Byte} {s : State} {root : HufTree} (h : 2 ≤ xs.dedup.length)
    (hr : buildTree (fun b => xs.count b) = some root) (hd : maxDepth (codewords root 0 0) < 32) :
    buildCode xs s = .ok () { s with
      cwtab := tabulate fun i => codewordOf (codewords root 0 0) (BitVec.ofNat 8 i.val)
      lut := fillLut s.lut (flattenLut (maxDepth (codewords root 0 0)) (codewords root 0 0))
      lutCnt := BitVec.ofNat 16 xs.dedup.length
      maxLen := BitVec.ofNat 16 (maxDepth (codewords root 0 0))
      count := BitVec.ofNat 64 xs.length } := by
  simp only [buildCode, occurring_count, hr, if_neg (Nat.not_lt.2 h), if_neg (Nat.not_le.2 hd)]

/-- A codeword's left-justified value lies in the range of its tiles. -/
theorem codewords_start_lt {root : HufTree} (hd : maxDepth (codewords root 0 0) < 32) {i : Nat}
    (hi : i < (codewords root 0 0).length) :
    (codewords root 0 0)[i].start (maxDepth (codewords root 0 0)) < 2 ^ maxDepth (codewords root 0 0) ∧
      2 ^ maxDepth (codewords root 0 0) ≤ 2 ^ 31 := by
  have ht := tiles_codewords root (code := 0) (len := 0) fun c hc => maxDepth_ge hc
  have := ht.le hi
  have h4 := Nat.two_pow_pos (maxDepth (codewords root 0 0) - (codewords root 0 0)[i].len)
  have hp : 2 ^ maxDepth (codewords root 0 0) ≤ 2 ^ 31 := Nat.pow_le_pow_right (by omega) (by omega)
  simp at this
  omega

/-- LUT[i] after a build: the i-th codeword's entry (R174). -/
theorem lutAt_built {xs : List Byte} (old : Vector LutEntry 256) {root : HufTree}
    (hd : maxDepth (codewords root 0 0) < 32) {i : Nat} (hi : i < xs.dedup.length)
    (hi' : i < (codewords root 0 0).length) :
    lutAt (fillLut old (flattenLut (maxDepth (codewords root 0 0)) (codewords root 0 0))) i =
      lutEntryOf (maxDepth (codewords root 0 0)) (codewords root 0 0)[i] := by
  rw [lutAt_fillLut _ _ (lt_of_lt_of_le hi (dedup_length_le xs)),
    flattenLut_codewords hd fun c hc => maxDepth_ge hc, List.getD_eq_getElem _ _ (by simpa using hi')]
  simp

/-! ## HUF_PACK's fields (R176) -/

/-- The codeword of a byte as a field. -/
def cwField (t : Vector Codeword 256) (b : Byte) : Field := ((cwAt t b).len.toNat, (cwAt t b).val.zeroExtend 64)

theorem fieldBits_cw (t : Vector Codeword 256) (xs : List Byte) : fieldBits (xs.map (cwField t)) =
    xs.flatMap (codeBits t) := by
  rw [fieldBits, List.flatMap_map]
  rfl

/-- Every byte has a codeword. -/
theorem packFields_good (t : Vector Codeword 256) (xs : List Byte) : ∀ k, (∀ b ∈ xs, (cwAt t b).len ≠ 0) →
    packFields t k xs = (xs.map (cwField t), none) := by
  induction xs with
  | nil => intro k _; rfl
  | cons b bs ih =>
    intro k h
    rw [packFields, if_neg (h b (by simp)), ih _ fun c hc => h c (by simp [hc])]
    rfl

/-- Byte i is the first without a codeword. -/
theorem packFields_bad (t : Vector Codeword 256) (xs : List Byte) : ∀ k i (h : i < xs.length), (cwAt t xs[i]).len = 0 →
    (∀ b ∈ xs.take i, (cwAt t b).len ≠ 0) → packFields t k xs = ((xs.take i).map (cwField t), some (k + i)) := by
  induction xs with
  | nil => intro k i h; exact absurd h (Nat.not_lt_zero i)
  | cons b bs ih =>
    intro k i h h0 hall
    cases i with
    | zero => rw [packFields, if_pos (by simpa using h0)]; rfl
    | succ i =>
      rw [packFields, if_neg (hall b (by simp)), ih (k + 1) i (by simpa using h) (by simpa using h0)
        (fun c hc => hall c (by simp [hc]))]
      simp [cwField]
      omega

/-! ## LUT validity (R178) -/

theorem entriesFault_none (m : Nat) (e : Nat → LutEntry) (k : Nat) : ∀ i, entriesFault m e k i = none ↔ ∀ j, j < k →
    entryFault m e (i + j) = none := by
  induction k with
  | zero => intro i; simp [entriesFault]
  | succ k ih =>
    intro i
    rw [entriesFault]
    cases h : entryFault m e i with
    | some x =>
      simp only [reduceCtorEq, false_iff, not_forall]
      exact ⟨0, by omega, by simp [h]⟩
    | none =>
      simp only [ih]
      constructor
      · intro hj j hjk
        cases j with
        | zero => exact h
        | succ j => have := hj j (by omega); rwa [show i + 1 + j = i + (j + 1) by omega] at this
      · intro hj j hjk
        have := hj (j + 1) (by omega); rwa [show i + (j + 1) = i + 1 + j by omega] at this

theorem entriesFault_some {m : Nat} {e : Nat → LutEntry} {x : DWord} (k : Nat) : ∀ i n, n < k →
    (∀ j, j < n → entryFault m e (i + j) = none) →
    entryFault m e (i + n) = some x → entriesFault m e k i = some x := by
  induction k with
  | zero => intro i n h; omega
  | succ k ih =>
    intro i n h hn hx
    rw [entriesFault]
    cases n with
    | zero => rw [show entryFault m e i = some x from hx]
    | succ n =>
      rw [show entryFault m e i = none from hn 0 (by omega)]
      refine ih (i + 1) n (by omega) (fun j hj => ?_) ?_
      · have := hn (j + 1) (by omega); rwa [show i + (j + 1) = i + 1 + j by omega] at this
      · rwa [show i + (n + 1) = i + 1 + n by omega] at hx

theorem entryFault_none (m : Nat) (e : Nat → LutEntry) (i : Nat) : entryFault m e i = none ↔
    (i = 0 → (e 0).val.toNat = 0) ∧ (0 < i → (e (i - 1)).val.toNat < (e i).val.toNat) ∧
      (1 ≤ (e i).len.toNat ∧ (e i).len.toNat ≤ m) ∧ (e i).val.toNat < 2 ^ m := by
  unfold entryFault
  split_ifs <;> simp <;> omega

theorem entriesFault_congr {m : Nat} {e e' : Nat → LutEntry} (k : Nat) : ∀ i, (∀ j, j < i + k → e j = e' j) →
    entriesFault m e k i = entriesFault m e' k i := by
  induction k with
  | zero => intro i _; rfl
  | succ k ih =>
    intro i h
    have : entryFault m e i = entryFault m e' i := by
      simp only [entryFault, h 0 (by omega), h i (by omega), h (i - 1) (by omega)]
    rw [entriesFault, entriesFault, this, ih (i + 1) fun j hj => h j (by omega)]

theorem lutFault_congr {m n : Nat} {e e' : Nat → LutEntry} (h : ∀ j, j < n → e j = e' j) : lutFault m n e =
    lutFault m n e' := by
  rw [lutFault, lutFault, entriesFault_congr n 0 (fun j hj => h j (by omega))]

/-- The LUT check passes exactly on the valid tables (R178). -/
theorem lutFault_none {m n : Nat} {e : Nat → LutEntry} : lutFault m n e = none ↔ lutValid m n e := by
  unfold lutFault lutValid
  split_ifs with a b
  · simp [Config.maxCwLen] at *
    omega
  · simp [Config.lutEntries, Config.maxCwLen] at *
    omega
  · rw [entriesFault_none]
    simp only [Nat.zero_add, entryFault_none]
    simp only [Config.lutEntries, Config.maxCwLen] at *
    constructor
    · intro h
      exact ⟨by omega, by omega, (h 0 (by omega)).1 rfl, fun i h0 hi => (h i hi).2.1 h0,
        fun i hi => (h i hi).2.2.1, fun i hi => (h i hi).2.2.2⟩
    · rintro ⟨_, _, c, d, f, g⟩ j hj
      exact ⟨fun _ => c, fun h0 => d j h0 hj, f j hj, g j hj⟩

/-! ## The metadata block's entries (R77, R180) -/

theorem entryWidths_sum (n : Nat) : (entryWidths n).sum = 48 * n := by
  unfold entryWidths
  induction n with
  | zero => rfl
  | succ n ih => simp [List.replicate_succ, ih]; omega

/-- The entry whose three fields stand at a bit position (R77). -/
def entryAt (s : State) (p : DWord) : LutEntry where
  sym := BitVec.ofNat 8 (valueOf (streamBits s p 8))
  len := BitVec.ofNat 8 (valueOf (streamBits s (p + 8#64) 8))
  val := BitVec.ofNat 32 (valueOf (streamBits s (p + 16#64) 32))

theorem entriesOf_fieldValues (s : State) (n : Nat) :
    ∀ (p : DWord), (entriesOf (fieldValues s p (entryWidths n))).length = n ∧ ∀ i, i < n →
    (entriesOf (fieldValues s p (entryWidths n)))[i]? = some (entryAt s (p + BitVec.ofNat 64 (48 * i))) := by
  unfold entryWidths
  induction n with
  | zero => intro p; simp [fieldValues, entriesOf]
  | succ n ih =>
    intro p
    rw [List.replicate_succ]
    simp only [List.flatten_cons, List.cons_append, List.nil_append, fieldValues, entriesOf, List.length_cons]
    obtain ⟨h1, h2⟩ := ih (p + BitVec.ofNat 64 8 + BitVec.ofNat 64 8 + BitVec.ofNat 64 32)
    refine ⟨by rw [h1], fun i hi => ?_⟩
    cases i with
    | zero =>
      simp [entryAt, BitVec.add_assoc]
    | succ i =>
      rw [List.getElem?_cons_succ, h2 i (by omega)]
      congr 2
      rw [BitVec.add_assoc, BitVec.add_assoc, BitVec.add_assoc, ← BitVec.ofNat_add, ← BitVec.ofNat_add,
        ← BitVec.ofNat_add]
      congr 2
      omega

theorem entryAt_meta (s : State) (i : Nat) : entryAt s (s.rd.pos + BitVec.ofNat 64 96 + BitVec.ofNat 64 (48 * i)) =
    metaEntry s i := by
  simp only [entryAt, metaEntry, BitVec.add_assoc, ← BitVec.ofNat_add]
  rw [show 96 + 48 * i + 8 = 104 + 48 * i by omega, show 96 + 48 * i + 16 = 112 + 48 * i by omega]

/-! ## Decoding (R179, R181) -/

theorem lookupDown_spec {e : Nat → LutEntry} {w : Nat} (h0 : (e 0).val.toNat ≤ w) :
    ∀ j, IsLookup e (j + 1) w (lookupDown e w j) := by
  intro j
  induction j with
  | zero => exact ⟨0, by omega, rfl, h0, fun i h1 h2 => by omega⟩
  | succ j ih =>
    rw [lookupDown]
    split_ifs with h
    · exact ⟨j + 1, by omega, rfl, h, fun i h1 h2 => by omega⟩
    · obtain ⟨i, hi, hx, hle, hall⟩ := ih
      refine ⟨i, by omega, hx, hle, fun l h1 h2 => ?_⟩
      rcases Nat.lt_or_ge l (j + 1) with h3 | h3
      · exact hall l h1 h3
      · obtain rfl : l = j + 1 := by omega
        omega

/-- The entry found is that of the greatest index whose VAL is at most w (R179). -/
theorem lookup_spec {e : Nat → LutEntry} {n w : Nat} (hn : 1 ≤ n) (h0 : (e 0).val.toNat ≤ w) :
    IsLookup e n w (lookup e n w) := by
  have := lookupDown_spec h0 (n - 1)
  rwa [show n - 1 + 1 = n by omega] at this

/-- One step of the window (R181): drop the codeword's bits and shift in as many. -/
theorem window_step {s : State} {p : DWord} {L len : Nat} (hL : L ≤ 31) (hlen : len ≤ L) :
    ((BitVec.ofNat 64 (valueOf (streamBits s p L)) <<< len) |||
      BitVec.ofNat 64 (valueOf (streamBits s (p + BitVec.ofNat 64 L) len))) &&& BitVec.ofNat 64 (2 ^ L - 1) =
    BitVec.ofNat 64 (valueOf (streamBits s (p + BitVec.ofNat 64 len) L)) := by
  have h1 := valueOf_streamBits_lt s p L
  have h2 := valueOf_streamBits_lt s (p + BitVec.ofNat 64 L) len
  have h3 := valueOf_streamBits_lt s (p + BitVec.ofNat 64 len) L
  have e1 := congrArg valueOf (streamBits_add s p L len)
  have e2 := congrArg valueOf (streamBits_add s p len L)
  rw [valueOf_append, streamBits_length] at e1 e2
  rw [Nat.add_comm len L, e1] at e2
  have hp : 2 ^ L ≤ 2 ^ 31 := Nat.pow_le_pow_right (by omega) hL
  have hq : 2 ^ len ≤ 2 ^ 31 := Nat.pow_le_pow_right (by omega) (by omega)
  have hr : valueOf (streamBits s p L) * 2 ^ len < 2 ^ 62 := by
    have := Nat.mul_lt_mul_of_lt_of_le (lt_of_lt_of_le h1 hp) hq (by norm_num)
    norm_num at this ⊢
    exact this
  apply BitVec.eq_of_toNat_eq
  rw [BitVec.toNat_and, BitVec.toNat_or, BitVec.toNat_shiftLeft, BitVec.toNat_ofNat, BitVec.toNat_ofNat,
    BitVec.toNat_ofNat, BitVec.toNat_ofNat]
  rw [Nat.mod_eq_of_lt (show 2 ^ L - 1 < 2 ^ 64 by omega),
    Nat.mod_eq_of_lt (show valueOf (streamBits s p L) < 2 ^ 64 by omega),
      Nat.mod_eq_of_lt (show valueOf (streamBits s (p + BitVec.ofNat 64 L) len) < 2 ^ 64 by omega),
    Nat.mod_eq_of_lt (show valueOf (streamBits s (p + BitVec.ofNat 64 len) L) < 2 ^ 64 by omega)]
  rw [Nat.mod_eq_of_lt (show valueOf (streamBits s p L) <<< len < 2 ^ 64 by rw [Nat.shiftLeft_eq]; omega)]
  rw [← Nat.shiftLeft_add_eq_or_of_lt h2, Nat.shiftLeft_eq, Nat.and_two_pow_sub_one_eq_mod, e2,
    Nat.mul_add_mod_self_right, Nat.mod_eq_of_lt h3]

/-- The reader moved over n bits, with another LMEM. -/
def movedWith (s : State) (n : Nat) (m : List Host.Cell) : State := { afterRead s n with lmem := m }

/-- Everything HUF_DEC's loop does (R181): k symbols, each looked up with the window at its own offset. -/
theorem decodeLoop_spec (s : State) (hv : lutValid s.maxLen.toNat s.lutCnt.toNat (lutAt s.lut)) :
    ∀ (k a c : Nat) (m : List Host.Cell),
    (∀ b, (readerRegion s).contains b = true → Memory.read? m b = Memory.read? s.lmem b) →
    (∀ j, j < k → (readerRegion s).contains (a + j) = false) →
    ∃ (q : Nat → Nat) (m' : List Host.Cell),
      decodeLoop k a (BitVec.ofNat 64 (valueOf (streamBits s (s.rd.pos + BitVec.ofNat 64 c) s.maxLen.toNat)))
        (movedWith s (s.maxLen.toNat + c) (m)) = (movedWith s (s.maxLen.toNat + q k) (m')) ∧
      q 0 = c ∧
      (∀ i, i < k → ∃ x, IsLookup (lutAt s.lut) s.lutCnt.toNat
        (valueOf (streamBits s (s.rd.pos + BitVec.ofNat 64 (q i)) s.maxLen.toNat)) x ∧
        q (i + 1) = q i + x.len.toNat ∧ Memory.read? m' (a + i) = some x.sym) ∧
      ∀ b, ¬(a ≤ b ∧ b < a + k) → Memory.read? m' b = Memory.read? m b := by
  intro k
  obtain ⟨⟨hm1, hm2⟩, ⟨hn1, hn2⟩, h0, -, hlen, -⟩ := hv
  induction k with
  | zero => exact fun a c m _ _ => ⟨fun _ => c, m, rfl, rfl, fun i hi => by omega, fun _ _ => rfl⟩
  | succ k ih =>
    intro a c m hm hd
    have hw := valueOf_streamBits_lt s (s.rd.pos + BitVec.ofNat 64 c) s.maxLen.toNat
    have hp : 2 ^ s.maxLen.toNat ≤ 2 ^ 31 := Nat.pow_le_pow_right (by omega) hm2
    set W := valueOf (streamBits s (s.rd.pos + BitVec.ofNat 64 c) s.maxLen.toNat) with hW
    have hWn : (BitVec.ofNat 64 W).toNat = W := by rw [BitVec.toNat_ofNat]; exact Nat.mod_eq_of_lt (by omega)
    obtain ⟨x, hx⟩ : ∃ x, x = lookup (lutAt s.lut) s.lutCnt.toNat W := ⟨_, rfl⟩
    have hlk : IsLookup (lutAt s.lut) s.lutCnt.toNat W x := hx ▸ lookup_spec (by omega) (by omega)
    have hxl : 1 ≤ x.len.toNat ∧ x.len.toNat ≤ s.maxLen.toNat := by
      obtain ⟨j, hj, rfl, -⟩ := hlk
      exact hlen j hj
    have hm' : ∀ b, (readerRegion s).contains b = true → Memory.read? (Memory.write m a x.sym) b =
      Memory.read? s.lmem b := by
      intro b hb
      rw [Memory.read?_write_other _ _ _ _ (fun e => ?_), hm b hb]
      have := hd 0 (by omega)
      rw [Nat.add_zero, ← e, hb] at this
      cases this
    obtain ⟨q, m', e1, e2, e3, e4⟩ := ih (a + 1) (c + x.len.toNat) (Memory.write m a x.sym) hm' (fun j hj => by
      have := hd (j + 1) (by omega)
      rwa [show a + (j + 1) = a + 1 + j by omega] at this)
    refine ⟨fun i => match i with | 0 => c | i + 1 => q i, m', ?_, rfl, ?_, ?_⟩
    · rw [decodeLoop]
      simp only [readBits_eq, hWn]
      rw [← e1]
      have hl : lookup (lutAt (movedWith s (s.maxLen.toNat + c) (m)).lut)
        (movedWith s (s.maxLen.toNat + c) (m)).lutCnt.toNat W = x := hx.symm
      simp only [hl]
      have hsb : ∀ p n, streamBits (memWrite (movedWith s (s.maxLen.toNat + c) (m)) a x.sym) p n = streamBits s p n :=
        streamBits_congr rfl rfl rfl hm'
      rw [hsb]
      have hpos : (memWrite (movedWith s (s.maxLen.toNat + c) (m)) a x.sym).rd.pos =
        s.rd.pos + BitVec.ofNat 64 c + BitVec.ofNat 64 s.maxLen.toNat := by
        show s.rd.pos + BitVec.ofNat 64 (s.maxLen.toNat + c) = _
        rw [BitVec.add_assoc, ← BitVec.ofNat_add, Nat.add_comm c]
      rw [hpos]
      have hst := window_step (s := s) (p := s.rd.pos + BitVec.ofNat 64 c) hm2 hxl.2
      rw [← hW] at hst
      have hml : (movedWith s (s.maxLen.toNat + c) (m)).maxLen = s.maxLen := rfl
      rw [hml, hst]
      have haf : afterRead (memWrite (movedWith s (s.maxLen.toNat + c) (m)) a x.sym) x.len.toNat =
        (movedWith s (s.maxLen.toNat + (c + x.len.toNat)) (Memory.write m a x.sym)) := by
        rw [← Nat.add_assoc]
        unfold movedWith
        rw [← afterRead_add s (s.maxLen.toNat + c)]
        rfl
      rw [haf, BitVec.add_assoc, ← BitVec.ofNat_add]
    · intro i hi
      cases i with
      | zero => exact ⟨x, hlk, e2, by rw [Nat.add_zero, e4 a (by omega), Memory.read?_write_same]⟩
      | succ i =>
        obtain ⟨y, y1, y2, y3⟩ := e3 i (by omega)
        exact ⟨y, y1, y2, by rwa [show a + (i + 1) = a + 1 + i by omega]⟩
    · intro b hb
      rw [e4 b (by omega), Memory.read?_write_other _ _ _ _ (by omega)]

end Sys2Proof.Machine
end

