-- ==== Sys2Proof/Laws/PerInstr.lean ====
section
/-! SUPPORT. What holds of every command as syntax, one lemma per constructor. -/

namespace Sys2Proof.Laws.EncodeFields

/-- The three fields of a command's word (R100, R103): RSV is 0, N is the command's count and OPC its opcode. -/
def Statement (i : Instr) : Prop :=
  rsvField (encode i) = 0 ∧ countField (encode i) = countOf i ∧ opcField (encode i) = opcode i

theorem nop : Statement .nop := by
  unfold Statement
  decide

theorem bcRinit : Statement .bcRinit := by
  unfold Statement
  decide

theorem bcRead (n : BitVec 8) : Statement (.bcRead n) := by
  unfold Statement
  revert n
  decide

theorem bcWinit : Statement .bcWinit := by
  unfold Statement
  decide

theorem bcWrite (n : BitVec 8) : Statement (.bcWrite n) := by
  unfold Statement
  revert n
  decide

theorem bcFlush : Statement .bcFlush := by
  unfold Statement
  decide

theorem bcPutb : Statement .bcPutb := by
  unfold Statement
  decide

theorem bcGetb : Statement .bcGetb := by
  unfold Statement
  decide

theorem hufBuild : Statement .hufBuild := by
  unfold Statement
  decide

theorem hufPack : Statement .hufPack := by
  unfold Statement
  decide

theorem hufMetaWr : Statement .hufMetaWr := by
  unfold Statement
  decide

theorem hufMetaRd : Statement .hufMetaRd := by
  unfold Statement
  decide

theorem hufDec : Statement .hufDec := by
  unfold Statement
  decide

theorem qscale : Statement .qscale := by
  unfold Statement
  decide

theorem dctFwd : Statement .dctFwd := by
  unfold Statement
  decide

theorem dctInv : Statement .dctInv := by
  unfold Statement
  decide

theorem quant : Statement .quant := by
  unfold Statement
  decide

theorem dequant : Statement .dequant := by
  unfold Statement
  decide

theorem zzRead : Statement .zzRead := by
  unfold Statement
  decide

theorem zzWrite : Statement .zzWrite := by
  unfold Statement
  decide

theorem rlePack : Statement .rlePack := by
  unfold Statement
  decide

theorem rleUnpack : Statement .rleUnpack := by
  unfold Statement
  decide

theorem deltaEnc : Statement .deltaEnc := by
  unfold Statement
  decide

theorem deltaDec : Statement .deltaDec := by
  unfold Statement
  decide

end Sys2Proof.Laws.EncodeFields
end

