-- ==== Sys2Proof/Laws/Rle.lean ====
section
/-! SUPPORT. Run length: the stream of R243 as the fields RLE_PACK writes, RLE_UNPACK's loop pair by pair (R245), and
the pairs found in a packed stream (R246). -/

namespace Sys2Proof.Machine

theorem zerosBefore_zero (q : Vector DWord 64) : zerosBefore q 0 = 0 := by simp [zerosBefore]

theorem zerosBefore_succ (q : Vector DWord 64) {k : Nat} (h : k < 64) :
    zerosBefore q (k + 1) = if F64.isZero q[k] then zerosBefore q k + 1 else 0 := by
  have : q.toList.take (k + 1) = q.toList.take k ++ [q[k]] := by
    rw [List.take_succ_eq_append_getElem (by simpa using h)]; simp
  rw [zerosBefore, this, List.reverse_append]
  simp only [List.reverse_singleton, List.singleton_append, List.takeWhile_cons, zerosBefore]
  split_ifs <;> simp

def pairBits (q : Vector DWord 64) (k : Fin 64) : List Bool :=
  bitsMsb 8 (BitVec.ofNat 64 (zerosBefore q k.val)) ++ bitsMsb 16 ((int16Bits q[k.val]).zeroExtend 64)

theorem fieldBits_pair (n : Nat) (v : BitVec 16) : fieldBits (pairFields n v) = bitsMsb 8 (BitVec.ofNat 64 n) ++
    bitsMsb 16 (v.zeroExtend 64) := by
  simp [pairFields, fieldBits]

theorem rleFields_from (q : Vector DWord 64) (m : Nat) : ∀ n, n + m = 64 →
    fieldBits (rleFields (zerosBefore q n) (q.toList.drop n)) =
      (((List.finRange 64).drop n).filter fun k => !F64.isZero q[k.val]).flatMap (pairBits q) ++
        List.replicate 24 false := by
  induction m with
  | zero =>
    intro n hn
    rw [List.drop_eq_nil_of_le (by simp; omega), List.drop_eq_nil_of_le (by simp; omega)]
    rw [rleFields, fieldBits_pair, List.filter_nil, List.flatMap_nil, List.nil_append]
    decide
  | succ m ih =>
    intro n hn
    have h : n < 64 := by omega
    rw [List.drop_eq_getElem_cons (by simpa using h), List.drop_eq_getElem_cons (l := List.finRange 64)
      (by simpa using h)]
    have e : q.toList[n]'(by simpa using h) = q[n] := by simp
    rw [e, rleFields]
    have hs := zerosBefore_succ q h
    have := ih (n + 1) (by omega)
    rw [hs] at this
    rw [List.getElem_finRange]
    simp only [List.filter_cons]
    by_cases hz : F64.isZero q[n] = true
    · simp only [hz, if_true] at this ⊢
      simpa [hz] using this
    · simp only [hz, Bool.false_eq_true, if_false] at this ⊢
      rw [fieldBits_append, fieldBits_pair, this]
      simp [hz, pairBits]

theorem rleStream_fields (q : Vector DWord 64) : fieldBits (rleFields 0 q.toList) = rleStream q := by
  have := rleFields_from q 64 0 (by omega)
  rw [zerosBefore_zero, List.drop_zero, List.drop_zero] at this
  exact this

theorem rleStream_length (q : Vector DWord 64) : (rleStream q).length =
    24 * (((List.finRange 64).filter fun k => !F64.isZero q[k.val]).length + 1) := by
  rw [rleStream]
  generalize (List.finRange 64).filter _ = l
  rw [List.length_append, List.length_flatMap]
  have : (l.map fun a => (bitsMsb 8 (BitVec.ofNat 64 (zerosBefore q a.val)) ++
    bitsMsb 16 ((int16Bits q[a.val]).zeroExtend 64)).length) = List.replicate l.length 24 := by
    rw [List.eq_replicate_iff]
    simp
    
  rw [this]
  simp
  omega

theorem placeAt_ge (s : State) : ∀ i, i ≤ placeAt s i := by
  intro i
  induction i with
  | zero => exact Nat.zero_le _
  | succ i ih => rw [placeAt]; omega

theorem placeAt_mono (s : State) {i j : Nat} (h : i < j) : placeAt s i < placeAt s j := by
  induction j with
  | zero => omega
  | succ j ih =>
    rw [placeAt]
    rcases Nat.lt_succ_iff_lt_or_eq.1 h with h | rfl
    · have := ih h
      omega
    · omega

def nextPlace (s : State) : Nat → Nat
  | 0 => 0
  | i + 1 => placeAt s i + 1

theorem nextPlace_skip (s : State) (i : Nat) : nextPlace s i + skipAt s i = placeAt s i := by
  cases i with
  | zero => simp [nextPlace, placeAt]
  | succ i => simp [nextPlace, placeAt]

def unpackPair (s : State) (S : Vector DWord 64) (i : Nat) : Vector DWord 64 :=
  S.setIfInBounds (placeAt s i) (F64.ofInt (BitVec.ofNat 16 (pairAt s i)).toInt)

theorem unpackLoop_step (fuel : Nat) (S : Vector DWord 64) (i : Nat) (s : State) (hi : i ≤ 64) :
    unpackLoop (fuel + 1) s.rd.pad S (nextPlace s i) (afterRead s (24 * i)) =
      if padCount s (24 * (i + 1)) ≠ 0 then .raised .badData (afterRead s (24 * (i + 1))).rd.pos
        (afterRead s (24 * (i + 1)))
      else if skipAt s i = 0 ∧ pairAt s i = 0 then .ok S (afterRead s (24 * (i + 1)))
      else if pairAt s i = 0 then .raised .badData (afterRead s (24 * (i + 1))).rd.pos (afterRead s (24 * (i + 1)))
      else if 63 < placeAt s i then .raised .badData (afterRead s (24 * (i + 1))).rd.pos (afterRead s (24 * (i + 1)))
      else unpackLoop fuel s.rd.pad (unpackPair s S i) (nextPlace s (i + 1)) (afterRead s (24 * (i + 1))) := by
  rw [unpackLoop]
  simp only [readBits_eq, afterRead_add, streamBits_afterRead, afterRead_rd_pos]
  rw [show 24 * i + (8 + 16) = 24 * (i + 1) by omega]
  have e1 : valueOf (streamBits s (s.rd.pos + BitVec.ofNat 64 (24 * i)) 8) = skipAt s i := rfl
  have e2 : valueOf (streamBits s (s.rd.pos + BitVec.ofNat 64 (24 * i + 8)) 16) = pairAt s i := rfl
  rw [e1, e2]
  have h1 : skipAt s i < 2 ^ 8 := valueOf_streamBits_lt _ _ _
  have h2 : pairAt s i < 2 ^ 16 := valueOf_streamBits_lt _ _ _
  have e3 : (BitVec.ofNat 64 (skipAt s i)).toNat = skipAt s i := by rw [BitVec.toNat_ofNat]; omega
  have e4 : (BitVec.ofNat 64 (skipAt s i) = 0) ↔ skipAt s i = 0 := by
    constructor
    · intro h
      rw [← e3, h]
      rfl
    · intro h
      rw [h]
      rfl
  have e5' : (BitVec.ofNat 64 (pairAt s i)).toNat = pairAt s i := by rw [BitVec.toNat_ofNat]; omega
  have e5 : (BitVec.ofNat 64 (pairAt s i) = 0) ↔ pairAt s i = 0 := by
    constructor
    · intro h
      rw [← e5', h]
      rfl
    · intro h
      rw [h]
      rfl
  have e6 : (BitVec.ofNat 64 (pairAt s i)).setWidth 16 = BitVec.ofNat 16 (pairAt s i) := by simp
  have hp := padCount_le s (24 * (i + 1))
  have e7 := pad_ne s.rd.pad (k := padCount s (24 * (i + 1))) (by omega)
  have e8 := nextPlace_skip s i
  have hpad : ((afterRead s (24 * (i + 1))).rd.pad ≠ s.rd.pad) ↔ padCount s (24 * (i + 1)) ≠ 0 := e7
  rw [e3, e6, e8]
  simp only [hpad, e4, e5]
  rfl

theorem unpack_run (s : State) {j : Nat} (hd : ∀ i, i < j → dataPair s i) : ∀ i, i ≤ j → i ≤ 64 ∧ ∃ S,
    unpackLoop 65 s.rd.pad (Vector.replicate 64 0) 0 s = unpackLoop (65 - i) s.rd.pad S (nextPlace s i)
      (afterRead s (24 * i)) ∧
    (∀ l (h : placeAt s l < 64), l < i → S[placeAt s l] = F64.ofInt (BitVec.ofNat 16 (pairAt s l)).toInt) ∧
    ∀ k : Fin 64, (∀ l, l < i → placeAt s l ≠ k.val) → S[k.val] = 0 := by
  intro i
  induction i with
  | zero =>
    intro _
    exact ⟨by omega, Vector.replicate 64 0, by simp only [Nat.mul_zero, afterRead_zero, Nat.sub_zero, nextPlace],
      fun l h hl => absurd hl (Nat.not_lt_zero l), fun k _ => by simp⟩
  | succ i ih =>
    intro hi
    obtain ⟨h64, S, e1, e2, e3⟩ := ih (by omega)
    obtain ⟨d1, d2, d3⟩ := hd i (by omega)
    have hge := placeAt_ge s i
    refine ⟨by omega, unpackPair s S i, ?_, ?_, ?_⟩
    · rw [e1, show 65 - i = (64 - i) + 1 by omega, unpackLoop_step _ _ _ _ h64, if_neg (by simp [d1]),
      if_neg (by simp [d2]), if_neg d2, if_neg (by omega), show 65 - (i + 1) = 64 - i by omega]
    · intro l h hl
      simp only [unpackPair]
      rw [Vector.getElem_setIfInBounds]
      split_ifs with he
      · rcases Nat.lt_succ_iff_lt_or_eq.1 hl with h' | rfl
        · have := placeAt_mono s h'
          omega
        · rfl
      · rcases Nat.lt_succ_iff_lt_or_eq.1 hl with h' | rfl
        · exact e2 l h h'
        · exact absurd rfl he
    · intro k hk
      simp only [unpackPair]
      rw [Vector.getElem_setIfInBounds, if_neg (hk i (by omega))]
      exact e3 k fun l hl => hk l (by omega)


theorem value_ne_zero {x : DWord} (h : F64.isZero x = false) : F64.value x ≠ 0 := by
  unfold F64.value
  have hm : F64.mant x ≠ 0 := by
    unfold F64.mant
    simp only [F64.isZero, Bool.and_eq_false_iff, beq_eq_false_iff_ne] at h
    split_ifs with he
    · rcases h with h | h
      · exact absurd he h
      · exact h
    · positivity
  have : (2 : ℚ) ^ F64.expo x ≠ 0 := by positivity
  split_ifs <;> simp [hm, this]

theorem ofInt_of_toInt {x : DWord} {z : Int} (h : F64.toInt? x = some z) (hz : z ≠ 0) (hb : z.natAbs ≤ 2 ^ 53) :
    F64.ofInt z = x := by
  obtain ⟨h1, h2⟩ := (F64.toInt_iff x z).1 h
  obtain ⟨-, h4, -⟩ := F64.roundPack_int (decide (z < 0)) hb
  have hv : F64.value (F64.ofInt z) = z := by
    rw [F64.ofInt, h4]
    by_cases hn : z < 0
    · simp only [hn, decide_true, if_true]
      have : ((z.natAbs : ℤ) : ℚ) = ((-z : ℤ) : ℚ) := by congr 1; omega
      simp only [Int.cast_natCast, Int.cast_neg] at this
      rw [this]
      ring
    · simp only [hn, decide_false, Bool.false_eq_true, if_false]
      have : ((z.natAbs : ℤ) : ℚ) = ((z : ℤ) : ℚ) := by congr 1; omega
      simp only [Int.cast_natCast] at this
      rw [this]
      ring
  refine F64.eq_of_value_eq (by rw [hv, h2]) (.inl ?_)
  rw [hv]
  exact_mod_cast hz

theorem int16_back {x : DWord} (h0 : F64.isZero x = false) (h : F64.isInt16 x = true) :
    (int16Bits x).toNat ≠ 0 ∧ F64.ofInt (int16Bits x).toInt = x := by
  unfold F64.isInt16 at h
  cases ht : F64.toInt? x with
  | none => rw [ht] at h; cases h
  | some z =>
    rw [ht] at h
    simp only [decide_eq_true_eq] at h
    have hz : z ≠ 0 := by
      rintro rfl
      have := ((F64.toInt_iff x 0).1 ht).2
      exact value_ne_zero h0 (by simpa using this)
    have hi : (int16Bits x).toInt = z := by
      rw [int16Bits, ht, Option.getD_some, BitVec.toInt_ofInt]
      unfold Int.bmod
      simp
      omega
    refine ⟨fun e => hz ?_, by rw [hi]; exact ofInt_of_toInt ht hz (by omega)⟩
    rw [← hi, show int16Bits x = 0 from BitVec.eq_of_toNat_eq (by simpa using e)]; rfl

/-- nonzero indices below n -/
def nzBelow (q : Vector DWord 64) (n : Nat) : List (Fin 64) :=
    ((List.finRange 64).take n).filter fun k => !F64.isZero q[k.val]

theorem nzBelow_succ (q : Vector DWord 64) {n : Nat} (h : n < 64) : nzBelow q (n + 1) =
    nzBelow q n ++ (if F64.isZero q[n] then [] else [⟨n, h⟩]) := by
  rw [nzBelow, List.take_succ_eq_append_getElem (by simpa using h), List.filter_append, List.getElem_finRange]
  rw [nzBelow]
  simp only [List.filter_cons, List.filter_nil, Fin.cast_mk]
  cases hz : F64.isZero q[n] <;> simp

theorem rleStream_split (q : Vector DWord 64) {n : Nat} (h : n < 64) (hz : F64.isZero q[n] = false) :
    ∃ rest, rleStream q = (nzBelow q n).flatMap (pairBits q) ++ pairBits q ⟨n, h⟩ ++ rest := by
  refine ⟨(((List.finRange 64).drop (n + 1)).filter fun k => !F64.isZero q[k.val]).flatMap (pairBits q) ++
    List.replicate 24 false, ?_⟩
  have : (List.finRange 64).filter (fun k => !F64.isZero q[k.val]) =
    nzBelow q (n + 1) ++ ((List.finRange 64).drop (n + 1)).filter fun k => !F64.isZero q[k.val] := by
    rw [nzBelow, ← List.filter_append, List.take_append_drop]
  rw [show rleStream q = ((List.finRange 64).filter (fun k => !F64.isZero q[k.val])).flatMap (pairBits q) ++
    List.replicate 24 false from rfl, this, nzBelow_succ q h, hz]
  simp

theorem pairBits_length (q : Vector DWord 64) (k : Fin 64) : (pairBits q k).length = 24 := by simp [pairBits]

theorem flatMap_pairs_length (q : Vector DWord 64) (l : List (Fin 64)) : (l.flatMap (pairBits q)).length =
    24 * l.length := by
  induction l with
  | nil => rfl
  | cons a l ih => rw [List.flatMap_cons, List.length_append, ih, pairBits_length, List.length_cons]; omega

theorem rle_walk {q : Vector DWord 64} {d : State} (hw : Wrote d (rleStream q)) (hpos : d.rd.pos = 0)
    (hall : ∀ k : Fin 64, (F64.isZero q[k.val] || F64.isInt16 q[k.val]) = true) : ∀ n, n ≤ 64 →
    (∀ l, l < (nzBelow q n).length → dataPair d l ∧ ∃ k : Fin 64, k.val < n ∧ placeAt d l = k.val ∧
      F64.isZero q[k.val] = false ∧ pairAt d l = (int16Bits q[k.val]).toNat) ∧
    nextPlace d (nzBelow q n).length + zerosBefore q n = n ∧
    ∀ k : Fin 64, k.val < n → F64.isZero q[k.val] = false → ∃ l, l < (nzBelow q n).length ∧ placeAt d l = k.val := by
  intro n
  induction n with
  | zero => intro _; exact ⟨fun l hl => absurd hl (by simp [nzBelow]),
    by simp [nzBelow, nextPlace, zerosBefore_zero], fun k hk => absurd hk (Nat.not_lt_zero _)⟩
  | succ n ih =>
    intro hn
    obtain ⟨a, b, c⟩ := ih (by omega)
    have h : n < 64 := by omega
    rw [nzBelow_succ q h, zerosBefore_succ q h]
    cases hz : F64.isZero q[n] with
    | true =>
      simp only [if_true, List.append_nil]
      refine ⟨fun l hl => ?_, by omega, fun k hk hk0 => ?_⟩
      · obtain ⟨x, k, k1, k2⟩ := a l hl
        exact ⟨x, k, by omega, k2⟩
      · refine c k ?_ hk0
        rcases Nat.lt_succ_iff_lt_or_eq.1 hk with h' | h'
        · exact h'
        · simp only [h'] at hk0
          rw [hz] at hk0
          cases hk0
    | false =>
      simp only [Bool.false_eq_true, if_false, List.length_append, List.length_singleton]
      set i := (nzBelow q n).length with hi
      obtain ⟨rest, hsp⟩ := rleStream_split q h hz
      have hzb : zerosBefore q n ≤ n := by omega
      have hbits : streamBits d (BitVec.ofNat 64 (24 * i)) 24 = pairBits q ⟨n, h⟩ := by
        have hw' := hw
        rw [hsp] at hw'
        have := hw'.part
        rwa [flatMap_pairs_length, pairBits_length] at this
      have hb2 : streamBits d (BitVec.ofNat 64 (24 * i)) 8 ++ streamBits d (BitVec.ofNat 64 (24 * i + 8)) 16 =
        bitsMsb 8 (BitVec.ofNat 64 (zerosBefore q n)) ++ bitsMsb 16 ((int16Bits q[n]).zeroExtend 64) := by
        rw [BitVec.ofNat_add, ← streamBits_add]
        exact hbits
      obtain ⟨hb3, hb4⟩ := List.append_inj hb2 (by simp)
      have hskip : skipAt d i = zerosBefore q n := by
        rw [skipAt, hpos, show (0 : DWord) = 0#64 from rfl, BitVec.zero_add, hb3, valueOf_bitsMsb]
        simp
        omega
      have hpair : pairAt d i = (int16Bits q[n]).toNat := by
        rw [pairAt, hpos, show (0 : DWord) = 0#64 from rfl, BitVec.zero_add, hb4, valueOf_bitsMsb]
        have := (int16Bits q[n]).isLt
        simp
        exact this
      have hplace : placeAt d i = n := by rw [← nextPlace_skip, hskip, b]
      have hpc : padCount d (24 * (i + 1)) = 0 := by
        refine hw.padCount hpos ?_
        rw [hsp]
        simp only [List.length_append, flatMap_pairs_length, pairBits_length]
        omega
      have hne : pairAt d i ≠ 0 := by
        rw [hpair]
        have := hall ⟨n, h⟩
        simp only [hz, Bool.false_or] at this
        exact (int16_back hz this).1
      refine ⟨fun l hl => ?_, by rw [nextPlace, hplace], fun k hk hk0 => ?_⟩
      · rcases Nat.lt_succ_iff_lt_or_eq.1 hl with h' | h'
        · obtain ⟨x, k, k1, k2⟩ := a l h'
          exact ⟨x, k, by omega, k2⟩
        · rw [h']
          exact ⟨⟨hpc, hne, by omega⟩, ⟨n, h⟩, by simp, hplace, hz, hpair⟩
      · rcases Nat.lt_succ_iff_lt_or_eq.1 hk with h' | h'
        · obtain ⟨l, l1, l2⟩ := c k h' hk0
          exact ⟨l, by omega, l2⟩
        · exact ⟨i, by omega, by rw [hplace, h']⟩

end Sys2Proof.Machine
end

