-- ==== Sys2Proof/Laws/Transform.lean ====
section
/-! SUPPORT. The zig-zag order and its inverse (R240), NaN patterns (R219), the test of QSCALE (R214), and the accuracy
of a transform's datapath (R220). -/

namespace Sys2Proof.Machine

/-- The free NaN pattern is a quiet NaN (R219). -/
theorem nanAt_quiet (d k : Nat) : F64.isQuietNan (nanAt d k) = true := by
  unfold nanAt
  generalize Config.freeNan d k = f
  have hb : ∀ i, (f ||| 0x7FF8000000000000#64).getLsbD i = (f.getLsbD i || (0x7FF8000000000000#64).getLsbD i) :=
    fun i => BitVec.getLsbD_or
  have h51 : (F64.quietNan f).getLsbD 51 = true := by
    rw [F64.quietNan, hb]
    simp
  have he : F64.expField (F64.quietNan f) = 2047 := by
    have : (F64.quietNan f).extractLsb' 52 11 = 2047#11 := by
      apply BitVec.eq_of_getLsbD_eq
      intro i hi
      rw [BitVec.getLsbD_extractLsb', F64.quietNan, hb]
      have h1 : ∀ i < 11, (0x7FF8000000000000#64).getLsbD (52 + i) = true ∧ (2047#11).getLsbD i = true := by decide
      simp [hi, (h1 i hi).1, (h1 i hi).2]
    rw [F64.expField, this]
    rfl
  have hf : F64.frac (F64.quietNan f) ≠ 0 := by
    intro h
    have : ((F64.quietNan f).extractLsb' 0 52).getLsbD 51 = true := by rw [BitVec.getLsbD_extractLsb']; simpa using h51
    rw [BitVec.eq_of_toNat_eq (show ((F64.quietNan f).extractLsb' 0 52).toNat = (0#52).toNat from h)] at this
    simp at this
  simp [F64.isQuietNan, F64.isNan, he, hf, h51]

/-- The test of R214 as values. -/
theorem finiteGeOne_iff (x : DWord) : F64.finiteGeOne x = true ↔ F64.isFinite x = true ∧ 1 ≤ F64.value x := by
  have hlt := F64.expField_lt x
  have hf : F64.isFinite x = true ↔ F64.expField x ≠ 2047 := by simp [F64.isFinite]
  have h1 : F64.magValue (1023 * 2 ^ 52) = 1 := by
    have := F64.magValue_carry (k := 1022) (r := 2 ^ 52) (by norm_num) (fun _ => le_refl _)
    rw [show 1023 * 2 ^ 52 = 1022 * 2 ^ 52 + 2 ^ 52 by norm_num, this]
    norm_num
  have h2 : 1023 ≤ F64.expField x ↔ 1 ≤ F64.magValue (F64.mag x) := by
    rw [← h1, F64.magValue_strictMono.le_iff_le]
    have := F64.frac_lt x
    unfold F64.mag
    omega
  rw [hf, F64.value_eq]
  simp only [F64.finiteGeOne, Bool.and_eq_true, Bool.not_eq_true', decide_eq_true_eq, h2]
  have := F64.magValue_nonneg (F64.mag x)
  cases F64.neg x <;> simp
  · tauto
  · intro _
    linarith

/-- A butterfly meets its accuracy property (R220, I11). -/
theorem butterfly_accurate {limit bound : ℚ} (h : 0 ≤ bound) (b exact free : Vector DWord 64) :
    DctAccurate limit bound b exact (butterfly limit bound b exact free) := by
  intro hb k he
  have hw : blockWithin limit b = true := by simpa [blockWithin] using hb
  simp only [butterfly, tabulate_get, boundedElement, hw, he, Bool.true_and]
  split_ifs with hf
  · exact ⟨he, by simpa using h⟩
  · simpa [withinBound] using hf

/-- The exact datapath (R215, R216). -/
theorem datapath_exact {s : State} (h : s.params.dctImpl = .exact) (inverse : Bool) (exact : Vector DWord 64) :
    datapath s inverse exact = exact := by
  rw [datapath, h]

/-- A butterfly's datapath (R220). -/
theorem datapath_accurate {s : State} {limit bound : ℚ} (h : s.params.dctImpl = .butterfly limit bound)
    (hb : 0 ≤ bound) (inverse : Bool) (exact : Vector DWord 64) :
    DctAccurate limit bound s.blk exact (datapath s inverse exact) := by
  rw [datapath, h]
  exact butterfly_accurate hb _ _ _

theorem place_zz : ∀ k : Fin 64, zzPlace (zz k) = k := by decide +kernel
theorem zz_place : ∀ k : Fin 64, zz (zzPlace k) = k := by decide +kernel

/-- `f64_of_int` of a table entry of R211 is finite and at least 1 (R217). -/
theorem finiteGeOne_ofNat {n : Nat} (h1 : 1 ≤ n) (h2 : n ≤ 2 ^ 31 - 1) : F64.finiteGeOne (F64.ofNat n) = true := by
  obtain ⟨hf, hv, -⟩ := F64.roundPack_int false (m := n) (by omega)
  rw [finiteGeOne_iff]
  refine ⟨hf, ?_⟩
  rw [F64.ofNat, hv]
  simp
  exact_mod_cast h1

/-- QS after either reset meets R217, for a legal table. -/
theorem finiteGeOne_resetQs {p : Config.Params} (h : p.legal) (k : Fin 64) :
    F64.finiteGeOne (resetQs p.qtable)[k.val] = true := by
  rw [resetQs, tabulate_get]
  obtain ⟨h1, h2⟩ := h.2.2.1 p.qtable[k.val] (by simp)
  exact finiteGeOne_ofNat h1 h2

/-- The default parameters are legal (R6, R211). -/
theorem defaultParams_legal : defaultParams.legal := by
  have h : (defaultParams.qtable.toList.all fun q =>
      decide (1 ≤ q.toNat) && decide (q.toNat ≤ 2147483647)) = true := by decide +kernel
  exact ⟨by simp [defaultParams], by simp [defaultParams], fun q hq => by simpa using List.all_eq_true.1 h q hq,
    trivial⟩

end Sys2Proof.Machine
end

