-- ==== Sys2Proof/Tests/Slice0.lean ====
section
/-! SUPPORT. Tests. Expected results are the spec's own vectors (95_test_vectors.md, named in each docstring) and words
written out from its opcode map (R100, R103); the witnesses of the statements' hypotheses stand at the end. -/

namespace Sys2Proof.Tests

set_option Elab.async false

open Sys2Proof Sys2Proof.Machine

/-! ## Helpers -/

/-- The state after reset, with bytes in LMEM from an address. -/
def start (a : Nat) (bs : List Byte) : State := { State.reset with lmem := Memory.writeList [] a bs }

/-- The outcome is a next state with a property. -/
def gives (o : Host.Outcome State Fault Refusal) (p : State → Bool) : Bool :=
  match o with
  | .next t => p t
  | .fault _ => false
  | .refused _ => false

/-- LMEM holds the bytes from an address. -/
def holds (t : State) (a : Nat) (bs : List Byte) : Bool :=
  (List.range bs.length).map (fun i => Memory.read? t.lmem (a + i)) == bs.map some

/-- The command ended without error. -/
def fine (t : State) : Bool := t.st.done && !t.st.busy && !t.st.err && t.latch.isNone

/-- The command raised the error with that code and info. -/
def raised (t : State) (code : Byte) (info : DWord) : Bool :=
  t.st.done && !t.st.busy && t.st.err && t.errCode == code && t.errInfo == info && t.latch.isNone

/-- A reader over `n` bytes from `a`, at bit `p`. -/
def readerAt (a n : Word) (p : DWord) (s : State) : State := { s with rd := ⟨a, n, p, 0⟩ }

/-- A writer over `n` bytes from `a`, fresh from BC_WINIT. -/
def writerAt (a n : Word) (s : State) : State := { s with wr := ⟨a, n, 0, 0, 0⟩ }

/-- The source region. -/
def srcAt (a n : Word) (s : State) : State := { s with srcAddr := a, srcLen := n }

/-- The destination region. -/
def dstAt (a n : Word) (s : State) : State := { s with dstAddr := a, dstLen := n }

/-- The LUT's first entries, MAXLEN and LUTCNT. -/
def lutOf (m : BitVec 16) (es : List LutEntry) (s : State) : State :=
  { s with maxLen := m, lutCnt := BitVec.ofNat 16 es.length, lut := fillLut s.lut es }

/-- A sequence or block with the listed patterns at their places, +0.0 elsewhere. -/
def patterns (l : List (Nat × DWord)) : Vector DWord 64 :=
  tabulate fun k => ((l.find? fun p => p.1 == k.val).map Prod.snd).getD 0

/-- The integers as patterns. -/
def ints (l : List (Nat × Int)) : Vector DWord 64 := patterns (l.map fun p => (p.1, F64.ofInt p.2))

/-! ## Well-formedness -/

/-- R104 (d): a count of 64 is well formed. -/
theorem test_wellFormed_64 : (Instr.bcRead 64).wellFormed = true ∧ (Instr.bcWrite 64).wellFormed = true := by decide

/-- R104 (d): a count above 64 is refused. -/
theorem test_illFormed_bcRead : (Instr.bcRead 65).wellFormed = false ∧ (Instr.bcRead 255).wellFormed = false := by
  decide

/-- R104 (d): a count above 64 is refused. -/
theorem test_illFormed_bcWrite : (Instr.bcWrite 65).wellFormed = false ∧ (Instr.bcWrite 255).wellFormed = false := by
  decide

/-! ## Decoding: words written out from R100 and R103 (RSV, N, OPC) -/

theorem test_decode_nop : decode 0b0000000000000000_00000000_00000000#32 = .ok .nop := by decide
theorem test_decode_bcRinit : decode 0b0000000000000000_00000000_00000001#32 = .ok .bcRinit := by decide
theorem test_decode_bcRead : decode 0b0000000000000000_00000100_00000010#32 = .ok (.bcRead 4) := by decide
theorem test_decode_bcWinit : decode 0b0000000000000000_00000000_00000011#32 = .ok .bcWinit := by decide
theorem test_decode_bcWrite : decode 0b0000000000000000_01000000_00000100#32 = .ok (.bcWrite 64) := by decide
theorem test_decode_bcFlush : decode 0b0000000000000000_00000000_00000101#32 = .ok .bcFlush := by decide
theorem test_decode_bcPutb : decode 0b0000000000000000_00000000_00000110#32 = .ok .bcPutb := by decide
theorem test_decode_bcGetb : decode 0b0000000000000000_00000000_00000111#32 = .ok .bcGetb := by decide
theorem test_decode_hufBuild : decode 0b0000000000000000_00000000_00010000#32 = .ok .hufBuild := by decide
theorem test_decode_hufPack : decode 0b0000000000000000_00000000_00010001#32 = .ok .hufPack := by decide
theorem test_decode_hufMetaWr : decode 0b0000000000000000_00000000_00010010#32 = .ok .hufMetaWr := by decide
theorem test_decode_hufMetaRd : decode 0b0000000000000000_00000000_00010011#32 = .ok .hufMetaRd := by decide
theorem test_decode_hufDec : decode 0b0000000000000000_00000000_00010100#32 = .ok .hufDec := by decide
theorem test_decode_qscale : decode 0b0000000000000000_00000000_00100000#32 = .ok .qscale := by decide
theorem test_decode_dctFwd : decode 0b0000000000000000_00000000_00100001#32 = .ok .dctFwd := by decide
theorem test_decode_dctInv : decode 0b0000000000000000_00000000_00100010#32 = .ok .dctInv := by decide
theorem test_decode_quant : decode 0b0000000000000000_00000000_00100011#32 = .ok .quant := by decide
theorem test_decode_dequant : decode 0b0000000000000000_00000000_00100100#32 = .ok .dequant := by decide
theorem test_decode_zzRead : decode 0b0000000000000000_00000000_00110000#32 = .ok .zzRead := by decide
theorem test_decode_zzWrite : decode 0b0000000000000000_00000000_00110001#32 = .ok .zzWrite := by decide
theorem test_decode_rlePack : decode 0b0000000000000000_00000000_00111000#32 = .ok .rlePack := by decide
theorem test_decode_rleUnpack : decode 0b0000000000000000_00000000_00111001#32 = .ok .rleUnpack := by decide
theorem test_decode_deltaEnc : decode 0b0000000000000000_00000000_01000000#32 = .ok .deltaEnc := by decide
theorem test_decode_deltaDec : decode 0b0000000000000000_00000000_01000001#32 = .ok .deltaDec := by decide

/-- V-E1, V-E4, V-C10 (R104 (a)): reserved OPCs. -/
theorem test_decode_reserved : decode 0xFF#32 = .error .reservedOpcode ∧ decode 0x8#32 = .error .reservedOpcode ∧
    decode 0xF#32 = .error .reservedOpcode := by decide

/-- V-E3 (R104 (b)), V-E2 (R104 (c)), V-E5 (R104 (d)). -/
theorem test_decode_illegal : decode 0x10000#32 = .error .reservedBits ∧ decode 0x100#32 = .error .countNotZero ∧
    decode 0x4102#32 = .error .countTooLarge ∧ decode 0x4104#32 = .error .countTooLarge := by decide

/-- The host's numbering of a word's bits: BC_READ 4, and a word whose bits above `nbits` are dropped. -/
theorem test_decodeTableWord : decodeTableWord 32 0x402 = some (.bcRead 4) ∧ decodeTableWord 8 0x107 = some .bcGetb ∧
    decodeTableWord 32 0xF = none := by decide

/-! ## Dispatch and the host port (V-C) -/

/-- V-C2: NOP from reset. -/
theorem test_nop : gives (step (State.reset.withFetchWord 32 0)) (fun t => fine t && t.cmd == 0 &&
    statusWord t.st == 0x02) = true := by decide +kernel

/-- V-C10, V-E1: an illegal word raises BadCommand with the word as info. -/
theorem test_badCommand : gives (step (State.reset.withFetchWord 32 0xFF)) (fun t => raised t 7 0xFF &&
    statusWord t.st == 0x06) = true := by decide +kernel

/-- V-C1, V-C8, V-C9: ID, QS[0] and QUALITY after reset. -/
theorem test_resetReads : csrRead State.reset .id = 0x494D4331#32 ∧
    csrRead State.reset (.qs 0 .lo) = 0#32 ∧ csrRead State.reset (.qs 0 .hi) = 0x40300000#32 ∧
    csrRead State.reset (.quality .hi) = 0x3FF00000#32 := by decide +kernel

/-- V-C3, V-E7: the acknowledgement clears DONE and ERR, and ERRCODE stays. -/
theorem test_acknowledge :
    let t := acknowledge 6 { State.reset with st := ⟨false, true, true, false, false⟩, errCode := 7 }
    statusWord t.st = 0#32 ∧ t.errCode = 7#8 := by decide +kernel

/-- A state with a command latched (V-C5 to V-C7). -/
def latched (w : Word) : State := acceptCommand w State.reset

/-- V-C5: a CMD write while BUSY = 1 is dropped and sets OVR; the latched command stays. -/
theorem test_cmdBusy : gives (step { latched 0x402 with sched := [.host], script := [.csrWrite 0x018 0] })
    (fun t => t.st.ovr && t.latch == some 0x402) = true := by decide +kernel

/-- V-C6: a SRC_ADDR write while BUSY = 1 is dropped and sets OVR. -/
theorem test_writeBusy : gives (step { latched 0 with sched := [.host], script := [.csrWrite 0x020 5] })
    (fun t => t.st.ovr && t.srcAddr == 0) = true := by decide +kernel

/-- V-C7: the soft reset while BUSY = 1 discards the latched command. -/
theorem test_softReset : gives (step
    { latched 0 with ctrlIe := true, sched := [.host], script := [.csrWrite 0x004 3], lmem := [(5, 0xAB)] })
      (fun t => t.latch.isNone && statusWord t.st == 0 && !t.ctrlIe && holds t 5 [0xAB]) = true := by
  decide +kernel

/-- R108, R60: `mem` past the 32-bit addresses does not come round to 0. -/
theorem test_script_mem : (ScriptLine.mem 0xFFFFFFFF [1, 2]).expand =
    [.lmemWrite 0xFFFFFFFF 1, .lmemWrite 0x100000000 2] ∧
    (hostLmemWrite 0x100000000 2 State.reset).lmem = [] := by decide +kernel

/-- P3, R109: `wrf BLK[0], 76.0`. -/
theorem test_script_wrf : (ScriptLine.wrf (.blk 0) ⟨false, 760, -1⟩).expand =
    [.csrWrite 0x2000 0, .csrWrite 0x2004 0x40530000] := by decide +kernel

/-- R212's 0.49999999999999994 and -0.2 (V-T10), and -0.0 (V-T12), as decimals. -/
theorem test_decimal : F64.Decimal.bits ⟨false, 49999999999999994, -17⟩ = 0x3FDFFFFFFFFFFFFF ∧
    F64.Decimal.bits ⟨true, 2, -1⟩ = 0xBFC999999999999A ∧ F64.Decimal.bits ⟨true, 0, -1⟩ = 0x8000000000000000 := by
  decide +kernel

/-! ## Bit cursor (V-B) -/

/-- LMEM 0x100: AD 78, and the reader over it (V-B1). -/
def ad78 : State := readerAt 0x100 2 0 (start 0x100 [0xAD, 0x78])

/-- P1: `src 0x100, 2`, BC_RINIT, with UR set before. -/
theorem test_bcRinit : gives (exec .bcRinit { srcAt 0x100 2 State.reset with st := ⟨true, false, false, true, false⟩ })
    (fun t => fine t && t.rd == ⟨0x100, 2, 0, 0⟩ && !t.st.ur) = true := by decide +kernel

/-- V-B16. -/
theorem test_bcRinit_range : gives (exec .bcRinit (srcAt 0xFFFFF 2 State.reset))
    (fun t => raised t 6 0x100001 && t.rd == ⟨0, 0, 0, 0⟩) = true := by decide +kernel

/-- V-B1. -/
theorem test_bcRead : gives (exec (.bcRead 4) ad78)
    (fun t => fine t && t.rData == 0xA && t.rd == ⟨0x100, 2, 4, 0⟩ && !t.st.ur) = true := by decide +kernel

/-- V-B2: a read over the end of the region. -/
theorem test_bcRead_pad : gives (exec (.bcRead 16) { ad78 with rd := ⟨0x100, 2, 4, 0⟩ })
    (fun t => fine t && t.rData == 0xD780 && t.rd == ⟨0x100, 2, 20, 4⟩ && t.st.ur) = true := by decide +kernel

/-- V-B13. -/
theorem test_bcGetb : gives (exec .bcGetb (dstAt 0x100 1 (readerAt 0 2 4 (start 0 [0x12, 0x34]))))
    (fun t => fine t && holds t 0x100 [0x23] && t.rd.pos == 12) = true := by decide +kernel

/-- V-B17. -/
theorem test_bcGetb_overlap : gives (exec .bcGetb (dstAt 1 1 (readerAt 0 2 0 (start 0 [0x12, 0x34]))))
    (fun t => raised t 9 0 && holds t 0 [0x12, 0x34] && t.rd.pos == 0) = true := by decide +kernel

/-- P1: `dst 0x200, 16`, BC_WINIT, with a partial byte before. -/
theorem test_bcWinit : gives (exec .bcWinit { dstAt 0x200 16 State.reset with wr := ⟨0, 4, 1, 3, 0xA0⟩ })
    (fun t => fine t && t.wr == ⟨0x200, 16, 0, 0, 0⟩) = true := by decide +kernel

/-- V-B8. -/
theorem test_bcWrite : gives (exec (.bcWrite 12) { start 0 [] with wr := ⟨0x200, 16, 0, 3, 0xA0⟩, wData := 0xABC })
    (fun t => fine t && holds t 0x200 [0xB5] && t.wr.bytes == 1 && wAccWord t.wr == 0x778) = true := by decide +kernel

/-- V-B15: the bit that does not fit is refused. -/
theorem test_bcWrite_full : gives (exec (.bcWrite 16) { writerAt 0x200 1 State.reset with wData := 0xFFFF })
    (fun t => raised t 6 0x201 && t.lmem == [(0x200, 0xFF)] && t.wr.bytes == 1 && wAccWord t.wr == 0x7FE) = true := by
  decide +kernel

/-- V-B9. -/
theorem test_bcFlush : gives (exec .bcFlush { start 0x200 [0xB5] with wr := ⟨0x200, 16, 1, 7, 0x78⟩ })
    (fun t => fine t && holds t 0x200 [0xB5, 0x78] && t.wr == ⟨0x200, 16, 2, 0, 0⟩) = true := by decide +kernel

/-- V-B18: nothing pending, no byte. -/
theorem test_bcFlush_empty : gives (exec .bcFlush State.reset) (fun t => fine t && t.lmem == []) = true := by
  decide +kernel

/-- V-B11. -/
theorem test_bcPutb : gives (exec .bcPutb { srcAt 0x100 1 (start 0x100 [0xAD]) with wr := ⟨0x200, 16, 0, 3, 0xA0⟩ })
    (fun t => fine t && holds t 0x200 [0xB5] && t.wr.bytes == 1 && wAccWord t.wr == 0x3A0) = true := by decide +kernel

/-! ## Huffman (V-H, V-E8 to V-E21) -/

/-- The bytes of "ABRACADABRA" (V-H1). -/
def abra : List Byte := [0x41, 0x42, 0x52, 0x41, 0x43, 0x41, 0x44, 0x41, 0x42, 0x52, 0x41]

/-- V-H1's LUT. -/
def abraLut : List LutEntry := [⟨0x41, 1, 0⟩, ⟨0x43, 3, 4⟩, ⟨0x44, 3, 5⟩, ⟨0x42, 3, 6⟩, ⟨0x52, 3, 7⟩]

/-- V-H1's codewords. -/
def abraCodes : Vector Codeword 256 :=
  tabulate fun i => ((([(0x41, ⟨0, 1⟩), (0x43, ⟨4, 3⟩), (0x44, ⟨5, 3⟩), (0x42, ⟨6, 3⟩), (0x52, ⟨7, 3⟩)] :
    List (Nat × Codeword)).find? fun p => p.1 == i.val).map Prod.snd).getD ⟨0, 0⟩

/-- V-H1: the tables of "ABRACADABRA". -/
theorem test_hufBuild : gives (exec .hufBuild (srcAt 0 11 (start 0 abra))) (fun t => fine t && t.maxLen == 3 &&
    t.lutCnt == 5 && t.count == 11 && t.hist[0x41] == 5 && (List.range 5).map (lutAt t.lut) == abraLut &&
    cwAt t.cwtab 0x44 == ⟨5, 3⟩ && cwAt t.cwtab 0x40 == ⟨0, 0⟩) = true := by decide +kernel

/-- V-E8: one distinct value; HIST stands. -/
theorem test_hufBuild_empty : gives (exec .hufBuild (srcAt 0 4 (start 0 [0x41, 0x41, 0x41, 0x41])))
    (fun t => raised t 2 1 && t.hist[0x41] == 4 && t.lutCnt == 0) = true := by decide +kernel

/-- V-H1's payload. -/
theorem test_hufPack : gives (exec .hufPack { writerAt 0x100 64 (srcAt 0 11 (start 0 abra)) with cwtab := abraCodes })
    (fun t => fine t && holds t 0x100 [0x6E, 0x8A, 0xDC] && t.wr.bytes == 3 && t.wr.nacc == 0) = true := by
  decide +kernel

/-- V-E10: the codes 41 = `0`, 42 = `1`; the third byte has none. -/
theorem test_hufPack_bad : gives (exec .hufPack { writerAt 0x100 4 (srcAt 0 3 (start 0 [0x41, 0x42, 0x43])) with
    cwtab := (Vector.replicate 256 ⟨0, 0⟩ |>.set 0x41 ⟨0, 1⟩ |>.set 0x42 ⟨1, 1⟩) })
    (fun t => raised t 1 2 && wAccWord t.wr == 0x240 && t.wr.bytes == 0) = true := by decide +kernel

/-- V-H2's metadata block. -/
def meta01 : List Byte :=
  [0x00, 0x01, 0, 0, 0, 0, 0, 0, 0, 2, 0x00, 0x02, 0x00, 0x01, 0, 0, 0, 0, 0x01, 0x01, 0, 0, 0, 1]

/-- V-H2's LUT and MAXLEN. -/
def lut01 (s : State) : State := lutOf 1 [⟨0, 1, 0⟩, ⟨1, 1, 1⟩] s

/-- V-H2's metadata block, written. -/
theorem test_hufMetaWr : gives (exec .hufMetaWr { writerAt 0x100 24 (lut01 State.reset) with count := 2 })
    (fun t => fine t && holds t 0x100 meta01 && t.wr.bytes == 24) = true := by decide +kernel

/-- V-E21: LUTCNT = 300. -/
theorem test_hufMetaWr_count : gives (exec .hufMetaWr { State.reset with lutCnt := 300 })
    (fun t => raised t 3 0x020000000000012C) = true := by decide +kernel

/-- V-H2's metadata block, read back. -/
theorem test_hufMetaRd : gives (exec .hufMetaRd (readerAt 0x100 24 0 (start 0x100 meta01)))
    (fun t => fine t && t.maxLen == 1 && t.count == 2 && t.lutCnt == 2 &&
      (List.range 2).map (lutAt t.lut) == [⟨0, 1, 0⟩, ⟨1, 1, 1⟩] && t.rd.pos == 192) = true := by decide +kernel

/-- V-E20: the entries are truncated. -/
theorem test_hufMetaRd_short : gives (exec .hufMetaRd (readerAt 0 14 0 (start 0 (meta01.take 14))))
    (fun t => raised t 1 192 && t.rd.pad == 80 && t.st.ur && t.lutCnt == 0) = true := by decide +kernel

/-- V-H1's payload, decoded. -/
theorem test_hufDec : gives (exec .hufDec { dstAt 0x200 11 (readerAt 0x100 3 0 (lutOf 3 abraLut
    (start 0x100 [0x6E, 0x8A, 0xDC]))) with count := 11 })
    (fun t => fine t && holds t 0x200 abra && t.rd.pos == 26 && t.rd.pad == 2 && t.st.ur) = true := by decide +kernel

/-- V-E17: check (f). -/
theorem test_hufDec_lut : gives (exec .hufDec (lutOf 2 [⟨0x41, 1, 0⟩, ⟨0x42, 2, 4⟩] State.reset))
    (fun t => raised t 3 0x0600000000000001) = true := by decide +kernel

/-! ## Transform and quantisation (V-T) -/

/-- A block of one pattern. -/
def constant (x : DWord) : Vector DWord 64 := Vector.replicate 64 x

/-- V-T3: the DC term of the block of 178.0, which rounding takes one place above 1424. -/
theorem test_dctFwd : gives (exec .dctFwd { State.reset with blk := constant 0x4066400000000000 })
    (fun t => t.blk[0] == 0x4096400000000001) = true := by decide +kernel

/-- V-T3: the inverse of a block that is 1424.0 at (0,0). -/
theorem test_dctInv : gives (exec .dctInv { State.reset with blk := patterns [(0, 0x4096400000000000)] })
    (fun t => t.blk[0] == 0x4066400000000001 && t.blk[63] == 0x4066400000000001) = true := by decide +kernel

/-- V-T4: 1432.0000000000002 over 16 is rounded to 90; V-T1: -0.0 stays a zero. -/
theorem test_quant :
    gives (exec .quant { State.reset with blk := patterns [(0, 0x4096600000000001), (1, 0x8000000000000000)] })
    (fun t => t.blk[0] == F64.ofInt 90 && F64.isZero t.blk[1]) = true := by decide +kernel

/-- V-T4 and V-T12. -/
theorem test_dequant :
    gives (exec .dequant { State.reset with blk := patterns [(0, F64.ofInt 90), (1, 0x8000000000000000)] })
    (fun t => t.blk[0] == F64.ofInt 1440 && t.blk[1] == 0x8000000000000000) = true := by decide +kernel

/-- V-T9: QUALITY = 0.5. -/
theorem test_qscale : gives (exec .qscale { State.reset with quality := 0x3FE0000000000000 })
    (fun t => fine t && (List.range 8).map (fun k => t.qs[k]?) ==
      [8, 6, 5, 8, 12, 20, 26, 31].map (fun n => some (F64.ofNat n))) = true := by decide +kernel

/-- V-T9: QUALITY = -1.0. -/
theorem test_qscale_range : gives (exec .qscale { State.reset with quality := 0xBFF0000000000000 })
    (fun t => raised t 8 0 && t.qs[0] == 0x4030000000000000) = true := by decide +kernel

/-- V-T10: 2.5, -2.5, 0.49999999999999994, -0.2, 2^52 + 1 and infinity. -/
theorem test_rndHa : F64.rndHa 0x4004000000000000 = F64.ofInt 3 ∧ F64.rndHa 0xC004000000000000 = F64.ofInt (-3) ∧
    F64.rndHa 0x3FDFFFFFFFFFFFFF = 0 ∧ F64.rndHa 0xBFC999999999999A = 0x8000000000000000 ∧
    F64.rndHa 0x4330000000000001 = 0x4330000000000001 ∧ F64.rndHa 0x7FF0000000000000 = 0x7FF0000000000000 := by
  decide +kernel

/-! ## Zig-zag and run length (V-Z, V-R) -/

/-- V-Z1: BLK[i] = i. -/
theorem test_zzRead : gives (exec .zzRead { State.reset with blk := tabulate fun i => BitVec.ofNat 64 i.val })
    (fun t => (t.seq.toList.take 16).map (·.toNat) == [0, 1, 8, 16, 9, 2, 3, 10, 17, 24, 32, 25, 18, 11, 4, 5]) =
      true := by
  decide +kernel

/-- V-Z2: SEQ[k] = k. -/
theorem test_zzWrite : gives (exec .zzWrite { State.reset with seq := tabulate fun k => BitVec.ofNat 64 k.val })
    (fun t => (t.blk.toList.take 16).map (·.toNat) == [0, 1, 5, 6, 14, 15, 27, 28, 2, 4, 7, 13, 16, 26, 29, 42]) =
      true := by
  decide +kernel

/-- V-R2: the ramp. -/
theorem test_rlePack : gives (exec .rlePack { writerAt 0x400 195 State.reset with
    seq := ints [(0, 16), (1, -2), (2, -12), (9, -1)] })
    (fun t => fine t && holds t 0x400 [0x00, 0x00, 0x10, 0x00, 0xFF, 0xFE, 0x00, 0xFF, 0xF4, 0x06, 0xFF, 0xFF, 0, 0,
      0] &&
      t.wr.bytes == 15) = true := by decide +kernel

/-- V-R8: SEQ[5] = 0.5 is found before any write. -/
theorem test_rlePack_range : gives (exec .rlePack { writerAt 0x400 195 State.reset with
    seq := patterns [(0, F64.ofInt 3), (5, 0x3FE0000000000000)] })
    (fun t => raised t 6 5 && t.wr.bytes == 0 && t.lmem == []) = true := by decide +kernel

/-- V-R5: skip 63 and the least 16-bit integer. -/
theorem test_rleUnpack : gives (exec .rleUnpack (readerAt 0 6 0 (start 0 [0x3F, 0x80, 0, 0, 0, 0])))
    (fun t => fine t && t.seq == ints [(63, -32768)] && t.rd.pos == 48) = true := by decide +kernel

/-- V-R11: truncated before the sentinel. -/
theorem test_rleUnpack_short : gives (exec .rleUnpack { readerAt 0 3 0 (start 0 [0, 0, 0x26]) with seq := constant 7 })
    (fun t => raised t 1 48 && t.rd.pad == 24 && t.st.ur && t.seq == constant 7) = true := by decide +kernel

/-! ## Delta predictor (V-D) -/

/-- V-D1's source. -/
def pixels : List Byte := [0x0A, 0x14, 0x1E, 0x05, 0x19, 0x1E]

/-- V-D1's record. -/
def record : List Byte := [0, 0, 0, 0, 0, 0, 0, 6, 0x0A, 0x14, 0x1E, 0x05, 0x05, 0, 0, 0, 0, 0, 0, 0, 0, 1, 0x80]

/-- V-D1, encoded. -/
theorem test_deltaEnc : gives (exec .deltaEnc (writerAt 0x100 32 (srcAt 0 6 (start 0 pixels))))
    (fun t => fine t && holds t 0x100 record && t.wr.bytes == 23 && t.dLen == 6) = true := by decide +kernel

/-- V-D13. -/
theorem test_deltaEnc_overlap : gives (exec .deltaEnc (writerAt 3 32 (srcAt 0 6 (start 0 pixels))))
    (fun t => raised t 9 0 && holds t 0 pixels && t.wr.bytes == 0) = true := by decide +kernel

/-- V-D1, decoded. -/
theorem test_deltaDec : gives (exec .deltaDec (dstAt 0x200 6 (readerAt 0x100 23 0 (start 0x100 record))))
    (fun t => fine t && holds t 0x200 pixels && t.dLen == 6 && t.rd.pos == 184 && !t.st.ur) = true := by decide +kernel

/-- V-D9: a byte below 0 is rebuilt at index 3. -/
theorem test_deltaDec_below : gives (exec .deltaDec (dstAt 0x100 4 (readerAt 0 21 0 (start 0
    [0, 0, 0, 0, 0, 0, 0, 4, 0x0A, 0x14, 0x1E, 0x0B, 0, 0, 0, 0, 0, 0, 0, 1, 0x80]))))
    (fun t => raised t 1 3 && holds t 0x100 [0x0A, 0x14, 0x1E] && t.dLen == 0 && t.rd.pos == 168) = true := by
  decide +kernel

/-! ## Witnesses: states and operands that meet the statements' hypotheses, clause by clause -/

/-- A command's next state, for a command that gives one. -/
def after (i : Instr) (s : State) : State :=
  match exec i s with
  | .next t => t
  | .fault _ => s
  | .refused _ => s

theorem exec_after {i : Instr} {s : State} (h : gives (exec i s) (fun _ => true) = true) :
    exec i s = .next (after i s) := by
  unfold after
  cases he : exec i s with
  | next t => rfl
  | fault _ => simp [gives, he] at h
  | refused _ => simp [gives, he] at h

theorem holds_values {t : State} {a : Nat} {bs : List Byte} (h : holds t a bs = true) :
    ∀ i, i < bs.length → ∃ v, Memory.read? t.lmem (a + i) = some v := by
  intro i hi
  have := congrArg (fun l => l[i]?) (eq_of_beq h)
  simp only [List.getElem?_map, List.getElem?_range hi, Option.map_some, List.getElem?_eq_getElem hi] at this
  exact ⟨_, Option.some.inj this⟩

/-- A state where it is the host's turn, with that transaction next. -/
def hostTurn (s : State) (op : HostOp) : State := { s with sched := [.host], script := [op] }

theorem witness_StepRunsTheDecodedCommand : (latched 0x402).latch = some 0x402 ∧
    (latched 0x402).sched.head? ≠ some .host ∧ decode 0x402 = .ok (.bcRead 4) := by decide +kernel

theorem witness_IllegalWordRaisesBadCommand : (latched 0xF).latch = some 0xF ∧
    (latched 0xF).sched.head? ≠ some .host ∧ decode 0xF = .error .reservedOpcode := by decide +kernel

/-- A command that raises (V-B16), for every statement about a command that ends in a next state. -/
theorem witness_EveryCommandCompletes : exec .bcRinit (srcAt 0xFFFFF 2 State.reset) =
    .next (after .bcRinit (srcAt 0xFFFFF 2 State.reset)) ∧
    (after .bcRinit (srcAt 0xFFFFF 2 State.reset)).st.err = true :=
  ⟨exec_after (by decide +kernel), by decide +kernel⟩

theorem witness_CmdWriteIsAcceptedOrDropped :
    let s := hostTurn State.reset (.csrWrite 0x018 0xF)
    let b := hostTurn (latched 0) (.csrWrite 0x018 0xF)
    (turn s = .host ∧ s.script = [.csrWrite 0x018 0xF] ∧ s.st.busy = false) ∧
      turn b = .host ∧ b.script = [.csrWrite 0x018 0xF] ∧ b.st.busy = true := by decide +kernel

theorem witness_WritesWhileBusyAreDropped :
    let b := hostTurn (latched 0) (.csrWrite 0x3FFC 1)
    let l := hostTurn (latched 0) (.lmemWrite 0xFFFFFFFF 1)
    (turn b = .host ∧ b.st.busy = true ∧ (0x3FFC : CsrOffset).toNat % 4 = 0 ∧ (0x3FFC : CsrOffset) ≠ 0x004 ∧
      (0x3FFC : CsrOffset) ≠ 0x008 ∧ b.script = [.csrWrite 0x3FFC 1]) ∧
      turn l = .host ∧ l.st.busy = true ∧ l.script = [.lmemWrite 0xFFFFFFFF 1] := by decide +kernel

theorem witness_StatusWriteAcknowledges : let s := hostTurn (latched 0) (.csrWrite 0x008 0x1F)
    turn s = .host ∧ s.script = [.csrWrite 0x008 0x1F] := by decide +kernel

theorem witness_SoftResetPreservesTheBuffers : let s := hostTurn (latched 0) (.csrWrite 0x004 3)
    turn s = .host ∧ s.script = [.csrWrite 0x004 3] ∧ (3 : Word).getLsbD 0 = true := by decide +kernel

theorem witness_CtrlWriteSetsInterruptEnable : let s := hostTurn (latched 0) (.csrWrite 0x004 2)
    turn s = .host ∧ s.script = [.csrWrite 0x004 2] ∧ (2 : Word).getLsbD 0 = false := by decide +kernel

theorem witness_InterruptFollowsCompletion : exec .nop State.reset = .next (after .nop State.reset) ∧
    (2 : Word).getLsbD 1 = true := ⟨exec_after (by decide +kernel), by decide⟩

/-- R23: the reserved offsets at the ends of their ranges, and their neighbours that are assigned. -/
theorem witness_ReservedOffsetsReadZero :
    ([0x01C, 0x068, 0x06C, 0x090, 0x7FC, 0x1C00, 0x1FFC, 0x2700, 0x3FFC] : List CsrOffset).all
      (fun o => (csrOf o).isNone) = true ∧
    ([0x018, 0x020, 0x064, 0x070, 0x08C, 0x800, 0x1BFC, 0x2000, 0x26FC] : List CsrOffset).all
      (fun o => (csrOf o).isSome) = true ∧ State.reset.st.busy = false := by decide +kernel

theorem witness_HostReadsHaveNoSideEffect :
    let s := hostTurn State.reset (.csrRead 0x3FFC)
    let l := hostTurn State.reset (.lmemRead 0xFFFFF)
    let b := hostTurn (latched 0) (.csrRead 0x008)
    let d := hostTurn (latched 0) (.csrRead 0x020)
    let w := hostTurn (latched 0) .waitDone
    (turn s = .host ∧ s.script = [.csrRead 0x3FFC] ∧ (0x3FFC : CsrOffset).toNat % 4 = 0 ∧ s.st.busy = false) ∧
      (turn l = .host ∧ l.script = [.lmemRead 0xFFFFF] ∧ l.st.busy = false ∧ 0xFFFFF < l.params.lmemSize ∧
        Memory.read? l.lmem 0xFFFFF = none) ∧
      (turn b = .host ∧ b.script = [.csrRead 0x008] ∧ b.st.busy = true ∧ csrOf 0x008 = some .status ∧
        gives (step b) (fun t => t.hostData == 1) = true) ∧
      (turn d = .host ∧ d.script = [.csrRead 0x020] ∧ d.st.busy = true ∧ csrOf 0x020 = some .srcAddr) ∧
      turn w = .host ∧ w.script = [.waitDone] ∧ w.st.done = false ∧
        gives (step w) (fun t => t.script == [.waitDone]) = true := by decide +kernel

theorem witness_RegisterHalvesAreIndependent : State.reset.st.busy = false ∧ (63 : Fin 64) ≠ 0 := by decide +kernel

/-- R60: the last byte of LMEM, and the first address above it. -/
theorem witness_HostLmemAccess : State.reset.st.busy = false ∧
    0xFFFFF < State.reset.params.lmemSize ∧ (0xFFFFE : Nat) ≠ 0xFFFFF ∧
    State.reset.params.lmemSize ≤ 0x100000 := by decide +kernel

/-- R66: a source and a destination that end at LMEM_SIZE, and one byte further. -/
theorem witness_regions :
    let ends (a n : Word) (s : State) : Prop := a.toNat + n.toNat ≤ s.params.lmemSize
    ends 0xFFFFF 1 State.reset ∧ ¬ends 0xFFFFF 2 State.reset ∧ ends 0x100000 0 State.reset ∧
      ¬ends 0xFFFFFFFF 0xFFFFFFFF State.reset := by decide +kernel

theorem witness_BcRinitPointsTheReader :
    let s := srcAt 0xFFFFF 1 State.reset
    let x := srcAt 0xFFFFF 2 State.reset
    s.srcAddr.toNat + s.srcLen.toNat ≤ s.params.lmemSize ∧
      x.params.lmemSize < x.srcAddr.toNat + x.srcLen.toNat := by decide +kernel

theorem witness_BcReadReturnsTheNextBits : (64 : BitVec 8).toNat ≤ 64 ∧ readerOk ad78 = true ∧
    64 < (65 : BitVec 8).toNat := by decide +kernel

/-- A destination beside the reader's region, one that overlaps its last byte, and one that ends past LMEM_SIZE. -/
theorem witness_BcGetbCopiesBytes :
    let s := dstAt 0x102 2 ad78
    let o := dstAt 0x101 2 ad78
    let x := dstAt 0xFFFFF 2 ad78
    readerOk ad78 = true ∧ x.params.lmemSize < x.dstAddr.toNat + x.dstLen.toNat ∧
      s.dstAddr.toNat + s.dstLen.toNat ≤ s.params.lmemSize ∧ (readerRegion s).overlaps (dstRegion s) = false ∧
      (readerRegion o).overlaps (dstRegion o) = true := by decide +kernel

theorem witness_BcWinitPointsTheWriter :
    let s := dstAt 0xFFFFF 1 State.reset
    let x := dstAt 0xFFFFF 2 State.reset
    s.dstAddr.toNat + s.dstLen.toNat ≤ s.params.lmemSize ∧
      x.params.lmemSize < x.dstAddr.toNat + x.dstLen.toNat := by decide +kernel

/-- A writer of one byte: 15 bits fit (7 of them pending), the sixteenth does not (V-B15). -/
theorem witness_BcWriteAppendsBits : let s := writerAt 0xFFFFF 1 State.reset
    writerOk s = true ∧ accClean s.wr ∧ roomFor s.wr (15 : BitVec 8).toNat ∧ ¬roomFor s.wr (16 : BitVec 8).toNat ∧
      (16 : BitVec 8).toNat ≤ 64 ∧ 64 < (65 : BitVec 8).toNat := by
  unfold accClean roomFor; decide +kernel

/-- Nothing pending; a partial byte with room; a partial byte in a full region. -/
theorem witness_BcFlushPadsThePartialByte :
    let s := writerAt 0x200 1 State.reset
    let p : State := { State.reset with wr := ⟨0x200, 1, 0, 3, 0xA0⟩ }
    let f : State := { State.reset with wr := ⟨0x200, 0, 0, 3, 0xA0⟩ }
    (writerOk s = true ∧ accClean s.wr ∧ s.wr.nacc = 0) ∧
      (writerOk p = true ∧ accClean p.wr ∧ p.wr.nacc ≠ 0 ∧ p.wr.bytes ≠ p.wr.cap) ∧
      writerOk f = true ∧ accClean f.wr ∧ f.wr.nacc ≠ 0 ∧ f.wr.bytes = f.wr.cap := by
  unfold accClean; decide +kernel

/-- A command from a source through the writer: a source past LMEM_SIZE; one that overlaps the writer's region; one that
does not, with room and (the 16th bit) without. For BC_PUTB. -/
theorem witness_BcPutbAppendsBytes :
    let s := writerAt 0x102 2 (srcAt 0x100 2 (start 0x100 [0xAD, 0x78]))
    let f := writerAt 0x102 1 (srcAt 0x100 2 (start 0x100 [0xAD, 0x78]))
    let o := writerAt 0x101 2 (srcAt 0x100 2 State.reset)
    let x := srcAt 0xFFFFF 2 State.reset
    (writerOk s = true ∧ accClean s.wr ∧ s.srcAddr.toNat + s.srcLen.toNat ≤ s.params.lmemSize ∧
      (srcRegion s).overlaps (writerRegion s) = false ∧ roomFor s.wr 16) ∧
      (writerOk f = true ∧ accClean f.wr ∧ (srcRegion f).overlaps (writerRegion f) = false ∧
        ((regionBytes f (srcRegion f)).flatMap fun b => bitsMsb 8 (b.zeroExtend 64)).length = 16 ∧
        ¬roomFor f.wr 16) ∧
      (writerOk o = true ∧ accClean o.wr ∧ (srcRegion o).overlaps (writerRegion o) = true) ∧
      writerOk x = true ∧ accClean x.wr ∧ x.params.lmemSize < x.srcAddr.toNat + x.srcLen.toNat := by
  unfold accClean roomFor; decide +kernel

/-! ### Huffman -/

/-- `01` then `02` twice: two symbols. -/
def counts12 : Byte → Nat := fun b => [(1, 1), (2, 2)].foldl (fun n p => if b.toNat = p.1 then p.2 else n) 0

/-- R171: a histogram with a tree, and the empty one. -/
theorem witness_BuildTreeMergesTheTwoLeast : buildTree counts12 = some (.node (.leaf 1) (.leaf 2)) ∧
    ∀ b : Byte, (fun _ => 0 : Byte → Nat) b = 0 := ⟨by decide +kernel, fun _ => rfl⟩

/-- R172: the right leaf of a tree is a codeword. -/
theorem witness_CodewordsAreThePaths : (⟨2, 1, 1⟩ : SymCode) ∈ codewords (.node (.leaf 1) (.leaf 2)) 0 0 := by
  decide

/-- The bytes of V-H11: symbol i occurs F(i + 1) times, for n symbols. -/
def fibBytes (n : Nat) : List Byte :=
  (List.range n).flatMap fun i => List.replicate (Nat.fib (i + 1)) (BitVec.ofNat 8 i)

/-- A state with the bytes of V-H11 as the source, and an LMEM that holds them. -/
def fibState (n : Nat) : State :=
  { State.reset with
    params := { defaultParams with lmemSize := 2 ^ 24 }
    lmem := Memory.writeList [] 0 (fibBytes n)
    srcLen := BitVec.ofNat 32 (fibBytes n).length }

/-- How often a byte occurs in V-H11's source. -/
def fibCount (n : Nat) (b : Byte) : Nat :=
  ((List.range n).map fun i => if BitVec.ofNat 8 i = b then Nat.fib (i + 1) else 0).sum

theorem count_fibBytes (n : Nat) : (fun b => (fibBytes n).count b) = fibCount n := by
  funext b
  simp [fibBytes, fibCount, List.count_flatMap, List.count_replicate, Function.comp_def]

theorem regionBytes_fibState {n k : Nat} (h : (fibBytes n).length = k) (hk : k < 2 ^ 32) :
    regionBytes (fibState n) (srcRegion (fibState n)) = fibBytes n := by
  have hl : (fibState n).srcLen.toNat = (fibBytes n).length := by
    simp [fibState]; omega
  apply List.ext_getElem
  · rw [regionBytes_length]; exact hl
  · intro i h1 h2
    simp only [regionBytes, List.getElem_map, List.getElem_range, srcRegion, memRead]
    have : Memory.read? (fibState n).lmem ((fibState n).srcAddr.toNat + i) = some (fibBytes n)[i] := by
      rw [show (fibState n).lmem = Memory.writeList [] 0 (fibBytes n) from rfl,
        show (fibState n).srcAddr.toNat = 0 from rfl, Memory.read?_writeList]
      simp [h2]
    rw [this]; rfl

theorem length_fibBytes (n : Nat) : (fibBytes n).length = ((List.range n).map fun i => Nat.fib (i + 1)).sum := by
  simp [fibBytes, List.length_flatMap]

/-- The depth of the code of V-H11's source. -/
def fibDepth (n : Nat) : Nat :=
  match buildTree (fibCount n) with
  | some root => maxDepth (codewords root 0 0)
  | none => 0

theorem fibDepth_33 : fibDepth 33 = 32 := by decide +kernel

theorem fibDepth_32 : fibDepth 32 = 31 := by decide +kernel

theorem fib_build {n d : Nat} (hl : (fibBytes n).length < 2 ^ 24) (hk : 2 ≤ (occurring (fibCount n)).length)
    (hd : fibDepth n = d) : let s := fibState n
    s.srcAddr.toNat + s.srcLen.toNat ≤ s.params.lmemSize ∧
      2 ≤ (regionBytes s (srcRegion s)).dedup.length ∧
      ∃ root, buildTree (fun b => (regionBytes s (srcRegion s)).count b) = some root ∧
        maxDepth (codewords root 0 0) = d := by
  intro s
  have hr : regionBytes s (srcRegion s) = fibBytes n := regionBytes_fibState rfl (by omega)
  have hs : s.srcAddr.toNat + s.srcLen.toNat = (fibBytes n).length := by
    show (0 : Word).toNat + (BitVec.ofNat 32 (fibBytes n).length).toNat = _
    simp
    omega
  have h2 : 2 ≤ (fibBytes n).dedup.length := by rw [← occurring_count, count_fibBytes]; exact hk
  rw [hr, hs]
  refine ⟨Nat.le_of_lt hl, h2, ?_⟩
  obtain ⟨root, h⟩ := buildTree_some (xs := fibBytes n) (by omega)
  refine ⟨root, h, ?_⟩
  rw [count_fibBytes] at h
  rw [← hd, fibDepth, h]

/-- V-H11: the depth is 32 with 33 symbols, and 31 with 32. -/
theorem witness_HufBuild_depth :
    (let s := fibState 33
    s.srcAddr.toNat + s.srcLen.toNat ≤ s.params.lmemSize ∧ 2 ≤ (regionBytes s (srcRegion s)).dedup.length ∧
      ∃ root, buildTree (fun b => (regionBytes s (srcRegion s)).count b) = some root ∧
        maxDepth (codewords root 0 0) = 32) ∧
    (let s := fibState 32
    s.srcAddr.toNat + s.srcLen.toNat ≤ s.params.lmemSize ∧ 2 ≤ (regionBytes s (srcRegion s)).dedup.length ∧
      ∃ root, buildTree (fun b => (regionBytes s (srcRegion s)).count b) = some root ∧
        maxDepth (codewords root 0 0) = 31) :=
  ⟨fib_build (by rw [length_fibBytes]; decide +kernel) (by decide +kernel) fibDepth_33,
    fib_build (by rw [length_fibBytes]; decide +kernel) (by decide +kernel) fibDepth_32⟩

/-- The greatest depth of a code with codewords bounds every length, and some codeword has it (R172). -/
theorem witness_HufBuild_greatest {cs : List SymCode} (h : cs ≠ []) :
    (∀ c ∈ cs, c.len ≤ maxDepth cs) ∧ ∃ c ∈ cs, c.len = maxDepth cs :=
  ⟨fun _ => maxDepth_ge, maxDepth_mem h⟩

/-- One distinct byte (V-E8), two (V-H2), and a source past LMEM_SIZE. -/
theorem witness_HufBuildBuildsTheTables :
    let e := srcAt 0 4 (start 0 [0x41, 0x41, 0x41, 0x41])
    let s := srcAt 0 2 (start 0 [0, 1])
    let x := srcAt 0xFFFFF 2 State.reset
    (e.srcAddr.toNat + e.srcLen.toNat ≤ e.params.lmemSize ∧ (regionBytes e (srcRegion e)).dedup.length < 2) ∧
      (s.srcAddr.toNat + s.srcLen.toNat ≤ s.params.lmemSize ∧ 2 ≤ (regionBytes s (srcRegion s)).dedup.length ∧
        buildTree (fun b => (regionBytes s (srcRegion s)).count b) = some (.node (.leaf 0) (.leaf 1)) ∧
        maxDepth (codewords (.node (.leaf 0) (.leaf 1)) 0 0) < 32) ∧
      x.params.lmemSize < x.srcAddr.toNat + x.srcLen.toNat := by decide +kernel

/-- V-H2's source, ready for HUF_BUILD. -/
def bytes01 : State := srcAt 0 2 (start 0 [0, 1])

theorem witness_BuiltLutPartitionsTheRange : bytes01.st.err = false ∧
    exec .hufBuild bytes01 = .next (after .hufBuild bytes01) ∧ (after .hufBuild bytes01).st.err = false ∧
    0 + 1 < (after .hufBuild bytes01).lutCnt.toNat :=
  ⟨by decide +kernel, exec_after (by decide +kernel), by decide +kernel, by decide +kernel⟩

/-- The codewords of V-E10. -/
def codes12 : Vector Codeword 256 := Vector.replicate 256 ⟨0, 0⟩ |>.set 0x41 ⟨0, 1⟩ |>.set 0x42 ⟨1, 1⟩

/-- A state for HUF_PACK with a source of V-E10's symbols and a writer of `n` bytes. -/
def packState (bs : List Byte) (n : Word) : State :=
  { writerAt 0x100 n (srcAt 0 (BitVec.ofNat 32 bs.length) (start 0 bs)) with cwtab := codes12 }

/-- Two bytes with room for the padded byte and without; a byte without a codeword after one with, and after eight in a
writer of no byte; the overlap; the region. -/
theorem witness_HufPackAppendsTheCodewords :
    let s := packState [0x41, 0x42] 1
    let f := packState [0x41, 0x42] 0
    let b := packState [0x41, 0x42, 0x43] 4
    let g := packState ([0x41, 0x41, 0x41, 0x41, 0x41, 0x41, 0x41, 0x41] ++ [0x43]) 0
    let bits := fun (s : State) (n : Nat) => ((regionBytes s (srcRegion s)).take n).flatMap (codeBits s.cwtab)
    let full := fun (s : State) => bits s 2 ++ padBits (writtenBits s.wr + (bits s 2).length)
    let o := writerAt 1 4 (srcAt 0 2 State.reset)
    let x := srcAt 0xFFFFF 2 State.reset
    (writerOk s = true ∧ accClean s.wr ∧ (srcRegion s).overlaps (writerRegion s) = false ∧
      s.srcAddr.toNat + s.srcLen.toNat ≤ s.params.lmemSize ∧
      (∀ b ∈ regionBytes s (srcRegion s), (cwAt s.cwtab b).len ≠ 0) ∧ roomFor s.wr (full s).length) ∧
    (writerOk f = true ∧ accClean f.wr ∧ (srcRegion f).overlaps (writerRegion f) = false ∧
      (∀ b ∈ regionBytes f (srcRegion f), (cwAt f.cwtab b).len ≠ 0) ∧ ¬roomFor f.wr (full f).length) ∧
    (writerOk b = true ∧ accClean b.wr ∧ (srcRegion b).overlaps (writerRegion b) = false ∧
      (cwAt b.cwtab ((regionBytes b (srcRegion b)).getD 2 0)).len = 0 ∧ roomFor b.wr (bits b 2).length ∧
      ∀ c ∈ (regionBytes b (srcRegion b)).take 2, (cwAt b.cwtab c).len ≠ 0) ∧
    (writerOk g = true ∧ accClean g.wr ∧ (srcRegion g).overlaps (writerRegion g) = false ∧
      (cwAt g.cwtab ((regionBytes g (srcRegion g)).getD 8 0)).len = 0 ∧ ¬roomFor g.wr (bits g 8).length ∧
      ∀ c ∈ (regionBytes g (srcRegion g)).take 8, (cwAt g.cwtab c).len ≠ 0) ∧
    (writerOk o = true ∧ accClean o.wr ∧ (srcRegion o).overlaps (writerRegion o) = true) ∧
      writerOk x = true ∧ accClean x.wr ∧ x.params.lmemSize < x.srcAddr.toNat + x.srcLen.toNat := by
  unfold accClean roomFor; decide +kernel

/-- LUTCNT = 256 and 257; two entries with room and, one byte less, without. -/
theorem witness_HufMetaWrAppendsTheBlock :
    let s := writerAt 0x100 24 (lut01 State.reset)
    let f := writerAt 0x100 23 (lut01 State.reset)
    let m : State := { State.reset with lutCnt := 256 }
    let n : State := { State.reset with lutCnt := 257 }
    (writerOk s = true ∧ accClean s.wr ∧ s.lutCnt.toNat ≤ 256 ∧ roomFor s.wr (96 + 48 * s.lutCnt.toNat)) ∧
      (writerOk f = true ∧ accClean f.wr ∧ ¬roomFor f.wr (96 + 48 * f.lutCnt.toNat)) ∧
      (writerOk m = true ∧ accClean m.wr ∧ m.lutCnt.toNat ≤ 256) ∧
      writerOk n = true ∧ accClean n.wr ∧ 256 < n.lutCnt.toNat := by
  unfold accClean roomFor; decide +kernel

/-- A reader over these bytes. -/
def readerOver (bs : List Byte) : State := readerAt 0 (BitVec.ofNat 32 bs.length) 0 (start 0 bs)

/-- n of the metadata block at R_POS (R180). -/
def metaN (s : State) : Nat := valueOf (streamBits s (s.rd.pos + 80) 16)

/-- m of the metadata block at R_POS (R180). -/
def metaM (s : State) : Nat := valueOf (streamBits s s.rd.pos 16)

/-- The header and the entries truncated by one byte, the counts 1, 2 and 257, a block whose check (d) fails, and
V-H2's. -/
theorem witness_HufMetaRdReadsTheBlock :
    let h := readerOver (meta01.take 11)
    let c1 := readerOver (meta01.take 11 ++ [1])
    let c257 := readerOver (meta01.take 10 ++ [1, 1])
    let e := readerOver (meta01.take 23)
    let d := readerOver (meta01.take 23 ++ [0])
    let s := readerOver meta01
    (readerOk h = true ∧ padCount h 96 ≠ 0) ∧ (readerOk c1 = true ∧ padCount c1 96 = 0 ∧ metaN c1 < 2) ∧
      (readerOk c257 = true ∧ padCount c257 96 = 0 ∧ 256 < metaN c257) ∧
      (readerOk e = true ∧ padCount e 96 = 0 ∧ metaN e = 2 ∧ padCount e (96 + 48 * metaN e) ≠ 0) ∧
      (readerOk d = true ∧ padCount d 96 = 0 ∧ metaN d = 2 ∧ padCount d (96 + 48 * metaN d) = 0 ∧
        lutFault (metaM d) (metaN d) (metaEntry d) = some (BitVec.ofNat 64 (4 * 2 ^ 56 + 1))) ∧
      readerOk s = true ∧ padCount s 96 = 0 ∧ metaN s = 2 ∧ padCount s (96 + 48 * metaN s) = 0 ∧
        lutFault (metaM s) (metaN s) (metaEntry s) = none := by decide +kernel

/-- The entries of a short table. -/
def table (l : List LutEntry) (i : Nat) : LutEntry := l.getD i ⟨0, 0, 0⟩

/-- R178: MAXLEN 0, 32 and 1 to 31; counts 1, 257, 2 and 256; and V-E14 to V-E17, each entry the first that fails. -/
theorem witness_LutCheckIsTheValidityPredicate :
    let c := table [⟨0x41, 1, 1⟩, ⟨0x42, 1, 2⟩]
    let d := table [⟨0x41, 1, 0⟩, ⟨0x42, 2, 2⟩, ⟨0x43, 2, 2⟩]
    let e := table [⟨0x41, 1, 0⟩, ⟨0x42, 0, 2⟩]
    let f := table [⟨0x41, 1, 0⟩, ⟨0x42, 2, 4⟩]
    ([0, 32].all fun m => !decide (1 ≤ m ∧ m ≤ 31)) = true ∧ ([1, 31].all fun m => decide (1 ≤ m ∧ m ≤ 31)) = true ∧
      ([1, 257].all fun n => !decide (2 ≤ n ∧ n ≤ 256)) = true ∧
      ([2, 256].all fun n => decide (2 ≤ n ∧ n ≤ 256)) = true ∧
      (0 < 2 ∧ (∀ j, j < 0 → entryFault 2 c j = none) ∧ (c 0).val.toNat ≠ 0) ∧
      (2 < 3 ∧ (∀ j, j < 2 → entryFault 2 d j = none) ∧ ¬(d (2 - 1)).val.toNat < (d 2).val.toNat) ∧
      (1 < 2 ∧ (∀ j, j < 1 → entryFault 2 e j = none) ∧ (e (1 - 1)).val.toNat < (e 1).val.toNat ∧
        ¬(1 ≤ (e 1).len.toNat ∧ (e 1).len.toNat ≤ 2)) ∧
      (∀ j, j < 1 → entryFault 2 f j = none) ∧ (f (1 - 1)).val.toNat < (f 1).val.toNat ∧
        1 ≤ (f 1).len.toNat ∧ (f 1).len.toNat ≤ 2 ∧ ¬(f 1).val.toNat < 2 ^ 2 := by decide +kernel

/-- V-H2's payload, with a destination of `n` bytes at `a`, and COUNT. -/
def decState (a n : Word) (c : DWord) : State :=
  { dstAt a n (lut01 (readerAt 0x100 1 0 (start 0x100 [0x40]))) with count := c }

/-- An invalid LUT (V-E13); a destination past LMEM_SIZE; COUNT one above DST_LEN, and equal to it; the overlap. -/
theorem witness_HufDecDecodesCountSymbols :
    let bad := fun (s : State) => lutFault s.maxLen.toNat s.lutCnt.toNat (lutAt s.lut)
    let x := decState 0xFFFFF 2 2
    let c := decState 0x200 1 2
    let o := decState 0x100 2 2
    let s := decState 0x200 2 2
    let fits := fun (s : State) => s.dstAddr.toNat + s.dstLen.toNat ≤ s.params.lmemSize
    (readerOk State.reset = true ∧ bad State.reset = some (BitVec.ofNat 64 (1 * 2 ^ 56))) ∧
      (readerOk x = true ∧ bad x = none ∧ ¬fits x) ∧
      (readerOk c = true ∧ bad c = none ∧ fits c ∧ c.dstLen.toNat < c.count.toNat) ∧
      (readerOk o = true ∧ bad o = none ∧ fits o ∧ o.count.toNat ≤ o.dstLen.toNat ∧
        (readerRegion o).overlaps (dstRegion o) = true) ∧
      readerOk s = true ∧ bad s = none ∧ fits s ∧ s.count.toNat ≤ s.dstLen.toNat ∧
        (readerRegion s).overlaps (dstRegion s) = false := by decide +kernel

/-- The writer prepared over V-H2's tables (R182). -/
def packed01 : State := writerAt 0x100 1 (after .hufBuild bytes01)

/-- The reader and the destination prepared over what the writer of `t` has written. -/
def reread (a n : Word) (t : State) : State := { dstAt a n t with rd := ⟨t.wr.base, t.wr.bytes, 0, 0⟩ }

/-- The reader and the destination prepared over what HUF_PACK wrote (R182). -/
def decode01 : State := reread 0x200 2 (after .hufPack packed01)

/-- The hypotheses that a prepared state keeps memory, parameters and tables. -/
theorem reread_kept (a n : Word) (t : State) : (reread a n t).lmem = t.lmem ∧ (reread a n t).params = t.params ∧
    (reread a n t).maxLen = t.maxLen ∧ (reread a n t).count = t.count ∧ (reread a n t).lutCnt = t.lutCnt ∧
    (reread a n t).lut = t.lut ∧ (reread a n t).rd = ⟨t.wr.base, t.wr.bytes, 0, 0⟩ :=
  ⟨rfl, rfl, rfl, rfl, rfl, rfl, rfl⟩

/-- The hypotheses that a state with a fresh writer keeps memory, parameters, codewords and source. -/
theorem writerAt_kept (a n : Word) (t : State) : (writerAt a n t).lmem = t.lmem ∧ (writerAt a n t).params = t.params ∧
    (writerAt a n t).cwtab = t.cwtab ∧ (writerAt a n t).srcAddr = t.srcAddr ∧ (writerAt a n t).srcLen = t.srcLen ∧
    (writerAt a n t).lut = t.lut ∧ (writerAt a n t).maxLen = t.maxLen := ⟨rfl, rfl, rfl, rfl, rfl, rfl, rfl⟩

/-- A command that does not write the LUT leaves it (R102). -/
theorem after_lut {i : Instr} {s : State} (h : exec i s = .next (after i s)) (hw : Group.lut ∉ writes i)
    (hw' : Group.lut ∉ raisedWrites i) : (after i s).lut = s.lut := by
  obtain ⟨r, hr, hl⟩ := runLaw h
  rw [hr]
  cases r with
  | ok u v => exact (hl.ok rfl).complete.2 .lut hw
  | raised e x v => exact ((hl.raised rfl).2.trapEntry e x).2 .lut hw'

/-- V-H2 end to end: the hypotheses on each of the five states. -/
theorem witness_HuffmanRoundTrip :
    (∀ i, i < 2 → ∃ v, Memory.read? bytes01.lmem (bytes01.srcAddr.toNat + i) = some v) ∧
      exec .hufBuild bytes01 = .next (after .hufBuild bytes01) ∧ (after .hufBuild bytes01).st.err = false ∧
      writerOk packed01 = true ∧ packed01.wr = ⟨0x100, 1, 0, 0, 0⟩ ∧ packed01.st.err = false ∧
      exec .hufPack packed01 = .next (after .hufPack packed01) ∧ (after .hufPack packed01).st.err = false ∧
      decode01.dstAddr.toNat + decode01.dstLen.toNat ≤ decode01.params.lmemSize ∧
      bytes01.srcLen.toNat ≤ decode01.dstLen.toNat ∧
      (readerRegion decode01).overlaps (dstRegion decode01) = false :=
  ⟨holds_values (bs := [0, 1]) (by decide +kernel), exec_after (by decide +kernel), by decide +kernel,
    by decide +kernel, by decide +kernel, by decide +kernel, exec_after (by decide +kernel), by decide +kernel,
    by decide +kernel, by decide +kernel, by decide +kernel⟩

/-- V-H2 end to end: the tables come through from HUF_BUILD to HUF_DEC. -/
theorem witness_HuffmanRoundTrip_tables : decode01.maxLen = (after .hufBuild bytes01).maxLen ∧
    decode01.count = (after .hufBuild bytes01).count ∧ decode01.lutCnt = (after .hufBuild bytes01).lutCnt ∧
    decode01.lut = (after .hufBuild bytes01).lut := by
  refine ⟨by decide +kernel, by decide +kernel, by decide +kernel, ?_⟩
  rw [decode01, (reread_kept _ _ _).2.2.2.2.2.1, after_lut (exec_after (by decide +kernel)) (by decide) (by decide),
    packed01, (writerAt_kept _ _ _).2.2.2.2.2.1]

/-! ### Transform and quantisation -/

/-- 1.0 and -1.0, whose sum is 0; 0.0 and -0.0 as factors; and the greatest finite value. -/
theorem witness_ArithmeticIsCorrectlyRounded :
    F64.isFinite 0x3FF0000000000000 = true ∧ F64.isFinite 0xBFF0000000000000 = true ∧
      F64.isFinite 0x7FEFFFFFFFFFFFFF = true ∧ F64.isZero 0xBFF0000000000000 = false ∧
      F64.value 0x3FF0000000000000 + F64.value 0xBFF0000000000000 = 0 ∧ F64.isFinite 0x8000000000000000 = true := by
  decide +kernel

/-- A NaN, a zero and a finite value that is not 0, each in each place. -/
theorem witness_SpecialOperandsFollowIeee : F64.isNan 0x7FF8000000000000 = true ∧
    F64.isFinite 0x8000000000000000 = true ∧ F64.isZero 0x8000000000000000 = true ∧
    F64.isFinite 0x0000000000000001 = true ∧ F64.isZero 0x0000000000000001 = false := by decide +kernel

/-- R13: the bound of exact conversion, and the two ends of the 16-bit integers. -/
theorem witness_ConversionsAreExact : (-(2 : Int) ^ 53).natAbs ≤ 2 ^ 53 ∧ F64.isZero 0x8000000000000000 = true ∧
    F64.toInt? 0xC0E0000000000000 = some (-32768) ∧ F64.isInt16 0x40DFFFC000000000 = true := by decide +kernel

/-- R212: infinity, 2^52, and one half below it. -/
theorem witness_RndHaRoundsHalfAwayFromZero : F64.isFinite 0x7FF0000000000000 = false ∧
    (F64.isFinite 0x4330000000000000 = true ∧ 2 ^ 52 ≤ |F64.value 0x4330000000000000|) ∧
    F64.isFinite 0x432FFFFFFFFFFFFF = true ∧ |F64.value 0x432FFFFFFFFFFFFF| < 2 ^ 52 := by decide +kernel

theorem scaledQ_get (s : State) (k : Fin 64) : (scaledQ s)[k.val] =
    F64.rndHa (F64.mul (nanAt s.draws k.val) (F64.ofNat (s.params.qtable[k.val]).toNat) s.quality) :=
  tabulate_get _ _ k.isLt

/-- V-T9: with QUALITY = 1.0 every scaled entry is good; with 0.03 the first is not. -/
theorem witness_QscaleScalesTheTable :
    let t := fun (s : State) (k : Fin 64) =>
      F64.rndHa (F64.mul (nanAt s.draws k.val) (F64.ofNat (s.params.qtable[k.val]).toNat) s.quality)
    (∀ k : Fin 64, F64.isQuietNan (nanAt 0 k.val) = true) ∧
      (∀ k, F64.isFinite (t State.reset k) = true ∧ 1 ≤ F64.value (t State.reset k)) ∧
      ¬(F64.isFinite (t { State.reset with quality := 0x3F9EB851EB851EB8 } 0) = true ∧
        1 ≤ F64.value (t { State.reset with quality := 0x3F9EB851EB851EB8 } 0)) := by
  refine ⟨fun k => nanAt_quiet 0 k.val, fun k => ?_, ?_⟩
  · have h := (by decide +kernel : ∀ k : Fin 64, F64.finiteGeOne (scaledQ State.reset)[k.val] = true) k
    rw [scaledQ_get] at h
    exact (finiteGeOne_iff _).1 h
  · rw [← finiteGeOne_iff]; decide +kernel

/-- Both datapaths; and a block, an exact element and a bound at which the accuracy property says something. -/
theorem witness_TransformsAreMatrixProducts : State.reset.params.dctImpl = .exact ∧
    ({ State.reset with params := { defaultParams with dctImpl := .butterfly 255 1 } } : State).params.dctImpl =
      .butterfly 255 1 ∧ (0 : ℚ) ≤ 1 ∧
    (∀ k : Fin 64, F64.isFinite (constant 0x406FE00000000000)[k.val] = true ∧
      |F64.value (constant 0x406FE00000000000)[k.val]| ≤ 255) ∧
    F64.isFinite (forwardExact 0 (constant 0x406FE00000000000))[0] = true := by
  refine ⟨rfl, rfl, by decide, ?_, by decide +kernel⟩
  decide +kernel

/-! ### Run length -/

/-- A sequence with 38 first, and a writer of `n` bytes. -/
def rleState (n : Word) : State := { writerAt 0x400 n State.reset with seq := ints [(0, 38)] }

/-- V-R8: index 5 is the first that cannot be coded; V-R1 with room for its 6 bytes, and for 5. -/
theorem witness_RlePackAppendsTheStream :
    let b : State := { writerAt 0x400 195 State.reset with seq := patterns [(0, F64.ofInt 3), (5, 0x3FE0000000000000)] }
    let codable := fun (s : State) (k : Fin 64) => F64.isZero s.seq[k.val] || F64.isInt16 s.seq[k.val]
    (writerOk b = true ∧ accClean b.wr ∧ codable b 5 = false ∧ ∀ j : Fin 64, j < 5 → codable b j = true) ∧
      (writerOk (rleState 6) = true ∧ accClean (rleState 6).wr ∧ (∀ k, codable (rleState 6) k = true) ∧
        roomFor (rleState 6).wr (rleStream (rleState 6).seq).length) ∧
      writerOk (rleState 5) = true ∧ accClean (rleState 5).wr ∧ (∀ k, codable (rleState 5) k = true) ∧
        ¬roomFor (rleState 5).wr (rleStream (rleState 5).seq).length := by
  unfold accClean roomFor
  rw [rleStream_length, rleStream_length]
  decide +kernel

/-- The first pair: truncated (V-R13), (5, 0) (V-R10), past index 63 (V-R12), the sentinel; and a pair at index 63, then
the sentinel (V-R5). -/
theorem witness_RleUnpackExpandsTheStream :
    let t := readerOver [0, 0]
    let z := readerOver [5, 0, 0]
    let p := readerOver [0x40, 0, 1]
    let e := readerOver [0, 0, 0]
    let s := readerOver [0x3F, 0x80, 0, 0, 0, 0]
    (readerOk t = true ∧ padCount t (24 * (0 + 1)) ≠ 0) ∧
      (readerOk z = true ∧ padCount z (24 * (0 + 1)) = 0 ∧ pairAt z 0 = 0 ∧ skipAt z 0 ≠ 0) ∧
      (readerOk p = true ∧ padCount p (24 * (0 + 1)) = 0 ∧ pairAt p 0 ≠ 0 ∧ 63 < placeAt p 0) ∧
      (readerOk e = true ∧ padCount e (24 * (0 + 1)) = 0 ∧ pairAt e 0 = 0 ∧ skipAt e 0 = 0) ∧
      readerOk s = true ∧ (∀ i, i < 1 → dataPair s i) ∧ padCount s (24 * (1 + 1)) = 0 ∧ pairAt s 1 = 0 ∧
        skipAt s 1 = 0 ∧ placeAt s 0 < 64 := by
  unfold dataPair; decide +kernel

/-- V-R1 packed, and the reader prepared over it. -/
def rleBack : State := reread 0x200 0 (after .rlePack (rleState 195))

theorem witness_RleRoundTrip : (rleState 195).params.legal ∧
    (∀ k : Fin 64, (F64.isZero (rleState 195).seq[k.val] || F64.isInt16 (rleState 195).seq[k.val]) = true) ∧
    writerOk (rleState 195) = true ∧ (rleState 195).wr.nacc = 0 ∧ (rleState 195).wr.acc = 0 ∧
    (rleState 195).st.err = false ∧ exec .rlePack (rleState 195) = .next (after .rlePack (rleState 195)) ∧
    (after .rlePack (rleState 195)).st.err = false ∧
    rleBack.rd = ⟨(rleState 195).wr.base + (rleState 195).wr.bytes,
      (after .rlePack (rleState 195)).wr.bytes - (rleState 195).wr.bytes, 0, 0⟩ :=
  ⟨defaultParams_legal, by decide +kernel, by decide +kernel, by decide +kernel, by decide +kernel, by decide +kernel,
    exec_after (by decide +kernel), by decide +kernel, by decide +kernel⟩

/-! ### Delta -/

/-- V-D1 with a writer of `n` bytes at `a`. -/
def deltaState (a n : Word) : State := writerAt a n (srcAt 0 6 (start 0 pixels))

/-- V-D1 with room for its 23 bytes, and for 22; V-D13; and a source past LMEM_SIZE. -/
theorem witness_DeltaEncAppendsTheRecord :
    let s := deltaState 6 23
    let f := deltaState 6 22
    let o := deltaState 5 23
    let x := srcAt 0xFFFFF 2 State.reset
    let n := fun (s : State) => (deltaRecord (regionBytes s (srcRegion s))).length
    (writerOk s = true ∧ accClean s.wr ∧ s.srcAddr.toNat + s.srcLen.toNat ≤ s.params.lmemSize ∧
      (srcRegion s).overlaps (writerRegion s) = false ∧ roomFor s.wr (n s)) ∧
      (writerOk f = true ∧ accClean f.wr ∧ (srcRegion f).overlaps (writerRegion f) = false ∧ ¬roomFor f.wr (n f)) ∧
      (writerOk o = true ∧ accClean o.wr ∧ (srcRegion o).overlaps (writerRegion o) = true) ∧
      writerOk x = true ∧ accClean x.wr ∧ x.params.lmemSize < x.srcAddr.toNat + x.srcLen.toNat := by
  unfold accClean roomFor; decide +kernel

/-- A reader over a record, with a destination of `n` bytes at 0x100. -/
def recordState (bs : List Byte) (n : Word) : State := dstAt 0x100 n (readerOver bs)

/-- N of the record at R_POS (R259). -/
def recN (s : State) : Nat := valueOf (streamBits s s.rd.pos 64)

/-- S of the record at R_POS (R259). -/
def recS (s : State) : Nat := valueOf (streamBits s (s.rd.pos + BitVec.ofNat 64 (64 + 8 * recN s)) 64)

/-- Where the sign stream of the record at R_POS begins (R259). -/
def recH (s : State) : Nat := 128 + 8 * recN s

/-- The rebuilt value of R261 at index `i`, for the bytes `x` before it. -/
def recAt (s : State) (x : Nat → Byte) (i : Nat) : Int :=
  let mag := fun i => valueOf (streamBits s (s.rd.pos + BitVec.ofNat 64 (64 + 8 * i)) 8)
  if i < 3 then mag i
  else if streamBit s (s.rd.pos + BitVec.ofNat 64 (recH s + (i - 3))) then ((x (i - 3)).toNat : Int) - mag i
  else ((x (i - 3)).toNat : Int) + mag i

/-- The header truncated; V-D8; V-D10; V-D11; V-D12; V-D1; V-D9; and V-D9 with the sign positive and 0xF6, which
rebuilds 256. -/
theorem witness_DeltaDecRebuildsTheBytes :
    let good := fun (s : State) => readerOk s = true ∧ s.dstAddr.toNat + s.dstLen.toNat ≤ s.params.lmemSize ∧
      (readerRegion s).overlaps (dstRegion s) = false
    let room := fun (s : State) => 8 * s.rd.len.toNat - (s.rd.pos + BitVec.ofNat 64 (recH s)).toNat
    let d8 := recordState record 4
    let d10 := recordState [0, 0, 0, 0, 0, 0, 0, 6, 0x0A, 0x14] 6
    let d11 := recordState ([0, 0, 0, 0, 0, 0, 0, 12] ++ List.replicate 12 0 ++ [0, 0, 0, 0, 0, 0, 0, 1, 0]) 12
    let d12 := recordState [0, 0, 0, 0, 0, 0, 0, 4, 1, 2, 3, 3, 0, 0, 0, 0, 0, 0, 0, 2, 0] 4
    let d1 := recordState record 6
    let d9 := recordState [0, 0, 0, 0, 0, 0, 0, 4, 0x0A, 0x14, 0x1E, 0x0B, 0, 0, 0, 0, 0, 0, 0, 1, 0x80] 4
    let up := recordState [0, 0, 0, 0, 0, 0, 0, 4, 0x0A, 0x14, 0x1E, 0xF6, 0, 0, 0, 0, 0, 0, 0, 1, 0] 4
    let x := fun i => pixels.getD i 0
    (good (recordState [0, 0, 0, 0, 0, 0, 0] 4) ∧ padCount (recordState [0, 0, 0, 0, 0, 0, 0] 4) 64 ≠ 0) ∧
      (good d8 ∧ padCount d8 64 = 0 ∧ d8.dstLen.toNat < recN d8) ∧
      (good d10 ∧ padCount d10 64 = 0 ∧ recN d10 ≤ d10.dstLen.toNat ∧ padCount d10 (recH d10) ≠ 0) ∧
      (good d11 ∧ recN d11 ≤ d11.dstLen.toNat ∧ padCount d11 (recH d11) = 0 ∧ 8 * recS d11 < recN d11 - 3) ∧
      (good d12 ∧ recN d12 ≤ d12.dstLen.toNat ∧ padCount d12 (recH d12) = 0 ∧ recN d12 - 3 ≤ 8 * recS d12 ∧
        room d12 < 8 * recS d12) ∧
      (good d1 ∧ padCount d1 (recH d1) = 0 ∧ recN d1 - 3 ≤ 8 * recS d1 ∧ 8 * recS d1 ≤ room d1 ∧
        ∀ i, i < recN d1 → ((x i).toNat : Int) = recAt d1 x i) ∧
      (good d9 ∧ padCount d9 (recH d9) = 0 ∧ 8 * recS d9 ≤ room d9 ∧ 3 < recN d9 ∧
        (∀ i, i < 3 → ((x i).toNat : Int) = recAt d9 x i) ∧ recAt d9 x 3 < 0) ∧
      good up ∧ 8 * recS up ≤ room up ∧ 3 < recN up ∧
        (∀ i, i < 3 → ((x i).toNat : Int) = recAt up x i) ∧ 255 < recAt up x 3 := by decide +kernel

/-- A region past LMEM_SIZE, and a destination over the record. -/
theorem witness_DeltaDecRebuildsTheBytes_regions :
    let x := dstAt 0xFFFFF 2 (readerOver record)
    let o := dstAt 22 1 (readerOver record)
    readerOk x = true ∧ x.params.lmemSize < x.dstAddr.toNat + x.dstLen.toNat ∧ readerOk o = true ∧
      o.dstAddr.toNat + o.dstLen.toNat ≤ o.params.lmemSize ∧ (readerRegion o).overlaps (dstRegion o) = true := by
  decide +kernel

/-- V-D1 encoded, and the reader and the destination prepared over it (P4). -/
def deltaBack : State := reread 0x200 6 (after .deltaEnc (deltaState 0x100 32))

theorem witness_DeltaRoundTrip :
    (∀ i, i < 6 → ∃ v, Memory.read? (deltaState 0x100 32).lmem ((deltaState 0x100 32).srcAddr.toNat + i) = some v) ∧
      writerOk (deltaState 0x100 32) = true ∧ (deltaState 0x100 32).wr = ⟨0x100, 32, 0, 0, 0⟩ ∧
      (deltaState 0x100 32).st.err = false ∧
      exec .deltaEnc (deltaState 0x100 32) = .next (after .deltaEnc (deltaState 0x100 32)) ∧
      (after .deltaEnc (deltaState 0x100 32)).st.err = false ∧
      deltaBack.dstAddr.toNat + deltaBack.dstLen.toNat ≤ deltaBack.params.lmemSize ∧
      (deltaState 0x100 32).srcLen.toNat ≤ deltaBack.dstLen.toNat ∧
      (readerRegion deltaBack).overlaps (dstRegion deltaBack) = false :=
  ⟨holds_values (bs := pixels) (by decide +kernel), by decide +kernel, by decide +kernel, by decide +kernel,
    exec_after (by decide +kernel), by decide +kernel, by decide +kernel, by decide +kernel, by decide +kernel⟩

/-! ### The whole machine -/

/-- A command that raises from a state with ERR = 0, after it has written (V-B15). -/
theorem witness_RaisesLeaveOnlyPartialEffects :
    let s : State := { writerAt 0x200 1 State.reset with wData := 0xFFFF }
    s.st.err = false ∧ exec (.bcWrite 16) s = .next (after (.bcWrite 16) s) ∧ (after (.bcWrite 16) s).st.err = true :=
  ⟨by decide +kernel, exec_after (by decide +kernel), by decide +kernel⟩

/-- A command that stores (V-B9), with the byte before and the byte after its region, and one that stores nothing. -/
theorem witness_StoresStayInTheRegion :
    let s : State := { start 0x200 [0xB5] with wr := ⟨0x200, 2, 1, 7, 0x78⟩ }
    exec .bcFlush s = .next (after .bcFlush s) ∧ storeRegion s .bcFlush = some ⟨0x200, 2⟩ ∧
      (⟨0x200, 2⟩ : Region).contains 0x1FF = false ∧ (⟨0x200, 2⟩ : Region).contains 0x202 = false ∧
      storeRegion s .nop = none :=
  ⟨exec_after (by decide +kernel), rfl, by decide, by decide, rfl⟩

theorem witness_HostWritesStoreOrAreIgnored : State.reset.st.busy = false ∧
    (Csr.blk 63 .hi).writable = true ∧ Csr.blk 63 .hi ≠ .ctrl ∧ Csr.blk 63 .hi ≠ .status ∧ Csr.blk 63 .hi ≠ .cmd ∧
    Csr.blk 63 .lo ≠ .blk 63 .hi ∧ (Csr.qs 0 .lo).writable = false := by decide +kernel

theorem witness_InexpressibleAccessesAreRefused :
    let w := hostTurn State.reset (.csrWrite 0x022 1)
    let r := hostTurn State.reset (.csrRead 0x3FFF)
    let n := hostTurn State.reset (.csrNarrow 0x020 2)
    (turn w = .host ∧ (0x022 : CsrOffset).toNat % 4 ≠ 0 ∧ w.script = [.csrWrite 0x022 1]) ∧
      (turn r = .host ∧ (0x3FFF : CsrOffset).toNat % 4 ≠ 0 ∧ r.script = [.csrRead 0x3FFF]) ∧
      turn n = .host ∧ n.script = [.csrNarrow 0x020 2] := by decide +kernel

/-- A state of the invariant that is not the one after reset: BC_READ 4 is latched, the reader stands on the last byte
of LMEM, and a partial byte is pending. -/
def running : State :=
  { latched 0x402 with rd := ⟨0xFFFFF, 1, 4, 0⟩, wr := ⟨0x200, 16, 0, 3, 0xA0⟩, lmem := [(0xFFFFF, 0xAD)] }

theorem inv_running : Inv running := by
  refine ⟨defaultParams_legal, ⟨by unfold Memory.wf; decide +kernel, by decide +kernel⟩,
    ⟨rfl, fun w h => ?_, fun _ => ⟨rfl, rfl, rfl, rfl⟩⟩,
    ⟨by decide +kernel, by decide +kernel, by unfold accClean; decide +kernel⟩, .inl rfl,
    finiteGeOne_resetQs defaultParams_legal⟩
  exact Option.some.inj h

theorem witness_EveryStepKeepsTheInvariant : Inv running ∧ ∃ t, step running = .next t ∧ t.rData = 0xD := by
  refine ⟨inv_running, ?_⟩
  cases h : step running with
  | next t =>
    have := (by decide +kernel : gives (step running) (fun t => t.rData == 0xD) = true)
    rw [h] at this
    exact ⟨t, rfl, eq_of_beq this⟩
  | fault _ => exact absurd (h ▸ (by decide +kernel : gives (step running) (fun _ => true) = true)) (by simp [gives])
  | refused _ => exact absurd (h ▸ (by decide +kernel : gives (step running) (fun _ => true) = true)) (by simp [gives])

/-- The core's turn, and the host's with a transaction that the interface can express. -/
theorem witness_StepsGoOn : Inv running ∧ turn running = .core ∧ Inv (hostTurn running (.csrRead 0x3FFC)) ∧
    turn (hostTurn running (.csrRead 0x3FFC)) = .host ∧ hostOpOk (.csrRead 0x3FFC) = true :=
  ⟨inv_running, by decide +kernel, inv_running, by decide +kernel, by decide +kernel⟩

end Sys2Proof.Tests
end

/-! ## The end of a command and the interrupt output (R51, R123, R286) -/

namespace Sys2Proof.Machine

/-- Both ends of a command set DONE (R123, R282). -/
@[simp] theorem Run.close_done (r : Run Unit) : r.close.st.done = true := by
  cases r <;> rfl

/-- A write of 1 to DONE clears it (R25). -/
theorem Status.acknowledged_done_of_set (f : Status) {v : Word} (hv : v.getLsbD 1 = true) :
    (f.acknowledged v).done = false := by
  simp [Status.acknowledged, hv]

/-- A command's run keeps CTRL.IE up to its end, whichever end it is (R102). -/
theorem RunLaw.close_ctrlIe {i : Instr} {s : State} {r : Run Unit} (law : RunLaw i s r) :
    r.close.ctrlIe = s.ctrlIe := by
  cases r with
  | ok a u =>
    obtain ⟨⟨⟨-, hie, -⟩, -⟩, -⟩ := law.ok rfl
    exact hie
  | raised e info u =>
    obtain ⟨-, ⟨⟨-, hie, -⟩, -⟩, -⟩ := law.raised rfl
    exact hie

/-- Every command that ends in a next state sets DONE (R123). -/
theorem exec_done {i : Instr} {s t : State} (h : exec i s = .next t) : t.st.done = true := by
  obtain ⟨r, rfl, -⟩ := runLaw h
  exact r.close_done

/-- No command writes CTRL.IE (R102). -/
theorem exec_ctrlIe {i : Instr} {s t : State} (h : exec i s = .next t) : t.ctrlIe = s.ctrlIe := by
  obtain ⟨r, rfl, law⟩ := runLaw h
  exact law.close_ctrlIe

/-- With DONE = 0 the interrupt output is low (R51). -/
theorem irq_eq_false_of_not_done {s : State} (h : s.st.done = false) : irq s = false := by
  simp [irq, h]

/-- With DONE = 1 the interrupt output is IE (R51). -/
theorem irq_eq_ctrlIe_of_done {s : State} (h : s.st.done = true) : irq s = s.ctrlIe := by
  simp [irq, h]

/-- Settles O13: a command's end sets DONE and keeps IE; acceptance and acknowledgement clear DONE. -/
theorem interruptFollowsCompletion : Obligations.InterruptFollowsCompletion := by
  refine ⟨fun _ => rfl, fun i s t h => ?completed, fun w s => ?accepted, fun v s hv => ?acknowledged⟩
  case completed => rw [irq_eq_ctrlIe_of_done (exec_done h), exec_ctrlIe h]
  case accepted => exact irq_eq_false_of_not_done s.st.accepted_done
  case acknowledged => exact irq_eq_false_of_not_done (s.st.acknowledged_done_of_set hv)

end Sys2Proof.Machine

/-! ## The dispatch of an illegal word (R104, R105, R125) -/

namespace Sys2Proof.Machine

/-- On a latched word that does not decode, the core's step is a raise of BadCommand with the word as info and nothing
before it (R125). -/
theorem coreStep_of_decode_error {s : State} {w : Word} {r : Reject} (hl : s.latch = some w)
    (hd : decode w = .error r) : coreStep s = .next (trapEntry .badCommand (w.zeroExtend 64) s) := by
  simp only [coreStep, hl, hd]
  rfl

/-- Settles O5: the turn is the core's, the word does not decode, and trap entry writes exactly the fields listed. -/
theorem illegalWordRaisesBadCommand : Obligations.IllegalWordRaisesBadCommand := by
  intro s w r hl hs hd
  have hl' : (taken s).latch = some w := hl
  calc step s
    _ = coreStep (taken s) := step_of_core (turn_of_latch hl hs)
    _ = .next (trapEntry .badCommand (w.zeroExtend 64) (taken s)) := coreStep_of_decode_error hl' hd

end Sys2Proof.Machine

/-! ## NOP, and the write to CMD (R121, R123, R124) -/

namespace Sys2Proof.Machine

/-- NOP is completion and nothing before it (R124). -/
theorem exec_nop (s : State) : exec .nop s = .next (complete s) := rfl

/-- Settles O6: NOP is completion, which writes exactly the fields listed (R123). -/
theorem nopOnlyCompletes : Obligations.NopOnlyCompletes := by
  refine ⟨?encoding, fun s => ?effect⟩
  case encoding => decide
  case effect => exact exec_nop s

/-- A host write to the offset of CMD is a write to CMD (R23). -/
theorem hostCsrWrite_cmd (w : Word) (s : State) : hostCsrWrite 0x018 w s = writeCmd w s := rfl

/-- With BUSY = 0 a write to CMD is accepted, whatever the word (R121). -/
theorem writeCmd_of_idle (w : Word) {s : State} (h : s.st.busy = false) : writeCmd w s = acceptCommand w s := by
  simp [writeCmd, h]

/-- With BUSY = 1 a write to CMD sets OVR and does nothing else (R121). -/
theorem writeCmd_of_busy (w : Word) {s : State} (h : s.st.busy = true) : writeCmd w s = setOvr s := by
  simp [writeCmd, h]

/-- On the host's turn, with a CMD write next, the step is that write (R108, R121). -/
theorem step_writeCmd {s : State} {w : Word} {rest : List HostOp} (ht : turn s = .host)
    (hs : s.script = .csrWrite 0x018 w :: rest) :
    step s = .next (writeCmd w { s with script := rest, sched := s.sched.tail }) := by
  rw [step_csrWrite ht hs (by decide), hostCsrWrite_cmd]

/-- Settles O8: the step is the write to CMD, and BUSY decides between acceptance and the drop. -/
theorem cmdWriteIsAcceptedOrDropped : Obligations.CmdWriteIsAcceptedOrDropped := by
  intro s w rest ht hs
  rw [step_writeCmd ht hs]
  refine ⟨fun hidle => ?accepted, fun hbusy => ?dropped⟩
  case accepted => exact congrArg Host.Outcome.next (writeCmd_of_idle w hidle)
  case dropped => exact congrArg Host.Outcome.next (writeCmd_of_busy w hbusy)

end Sys2Proof.Machine

/-! ## The cursors' set-up: BC_RINIT and BC_WINIT (R140, R144) -/

namespace Sys2Proof.Machine

/-- BC_RINIT ends where its run does (R140). -/
theorem exec_bcRinit (s : State) : exec .bcRinit s = .next (runBcRinit s).close := rfl

/-- BC_RINIT's run on a source region inside LMEM (R140). -/
theorem runBcRinit_of_valid {s : State} (h : s.srcAddr.toNat + s.srcLen.toNat ≤ s.params.lmemSize) :
    runBcRinit s = .ok () { s with
      rd := { base := s.srcAddr, len := s.srcLen, pos := 0, pad := 0 }
      st := { s.st with ur := false } } := by
  rw [runBcRinit, requireValid_src h, Run.andThen_ok]

/-- BC_RINIT's run on a source region that ends past LMEM (R66, R140). -/
theorem runBcRinit_of_invalid {s : State} (h : s.params.lmemSize < s.srcAddr.toNat + s.srcLen.toNat) :
    runBcRinit s = .raised .outOfRange (s.srcAddr.zeroExtend 64 + s.srcLen.zeroExtend 64) s := by
  rw [runBcRinit, requireValid_src_fails h, Run.andThen_raised]

/-- Settles O20: the region check decides between the new reader and the raise. -/
theorem bcRinitPointsTheReader : Obligations.BcRinitPointsTheReader := by
  refine ⟨by decide, fun s => ⟨fun hin => ?inside, fun hout => ?outside⟩⟩
  case inside => rw [exec_bcRinit, runBcRinit_of_valid hin, Run.close_ok]
  case outside => rw [exec_bcRinit, runBcRinit_of_invalid hout, Run.close_raised]

/-- BC_WINIT ends where its run does (R144). -/
theorem exec_bcWinit (s : State) : exec .bcWinit s = .next (runBcWinit s).close := rfl

/-- BC_WINIT's run on a destination region inside LMEM (R144). -/
theorem runBcWinit_of_valid {s : State} (h : s.dstAddr.toNat + s.dstLen.toNat ≤ s.params.lmemSize) :
    runBcWinit s = .ok () { s with
      wr := { base := s.dstAddr, cap := s.dstLen, bytes := 0, nacc := 0, acc := 0 } } := by
  rw [runBcWinit, requireValid_dst h, Run.andThen_ok]

/-- BC_WINIT's run on a destination region that ends past LMEM (R66, R144). -/
theorem runBcWinit_of_invalid {s : State} (h : s.params.lmemSize < s.dstAddr.toNat + s.dstLen.toNat) :
    runBcWinit s = .raised .outOfRange (s.dstAddr.zeroExtend 64 + s.dstLen.zeroExtend 64) s := by
  rw [runBcWinit, requireValid_dst_fails h, Run.andThen_raised]

/-- Settles O23: the region check decides between the new writer and the raise. -/
theorem bcWinitPointsTheWriter : Obligations.BcWinitPointsTheWriter := by
  refine ⟨by decide, fun s => ⟨fun hin => ?inside, fun hout => ?outside⟩⟩
  case inside => rw [exec_bcWinit, runBcWinit_of_valid hin, Run.close_ok]
  case outside => rw [exec_bcWinit, runBcWinit_of_invalid hout, Run.close_raised]

end Sys2Proof.Machine

/-! ## BC_GETB (R143) -/

namespace Sys2Proof.Machine

/-- The bytes BC_GETB stores: the reader's next DST_LEN fields of 8 bits (R143). -/
def getbBytes (s : State) : List Byte :=
  (fieldValues s s.rd.pos (List.replicate s.dstLen.toNat 8)).map (·.setWidth 8)

@[simp] theorem getbBytes_length (s : State) : (getbBytes s).length = s.dstLen.toNat := by
  simp [getbBytes]

/-- Byte `i` that BC_GETB stores is the value of the eight bits at R_POS + 8 i (R143). -/
theorem getbBytes_getElem? {s : State} {i : Nat} (h : i < s.dstLen.toNat) :
    (getbBytes s)[i]? = some (BitVec.ofNat 8 (valueOf (streamBits s (s.rd.pos + BitVec.ofNat 64 (8 * i)) 8))) := by
  rw [getbBytes, List.getElem?_map, fieldValues_replicate s 8 _ _ _ h, Option.map_some,
    BitVec.setWidth_ofNat_of_le (by decide)]

/-- BC_GETB's run on a destination region that ends past LMEM (R66, R143). -/
theorem runBcGetb_of_invalid {s : State} (h : s.params.lmemSize < s.dstAddr.toNat + s.dstLen.toNat) :
    runBcGetb s = .raised .outOfRange (s.dstAddr.zeroExtend 64 + s.dstLen.zeroExtend 64) s := by
  rw [runBcGetb, requireValid_dst_fails h, Run.andThen_raised]

/-- BC_GETB's run on a destination region that overlaps the reader's (R67, R143). -/
theorem runBcGetb_of_overlap {s : State} (h : s.dstAddr.toNat + s.dstLen.toNat ≤ s.params.lmemSize)
    (ho : (readerRegion s).overlaps (dstRegion s) = true) : runBcGetb s = .raised .overlap 0 s := by
  rw [runBcGetb, requireValid_dst h, Run.andThen_ok, requireDisjoint_of_overlap ho, Run.andThen_raised]

/-- BC_GETB's run past its checks: the reader moves over 8 DST_LEN bits, and their bytes are stored (R143). -/
theorem runBcGetb_of_disjoint {s : State} (h : s.dstAddr.toNat + s.dstLen.toNat ≤ s.params.lmemSize)
    (ho : (readerRegion s).overlaps (dstRegion s) = false) :
    runBcGetb s = .ok () { afterRead s (8 * s.dstLen.toNat) with
      lmem := Memory.writeList s.lmem s.dstAddr.toNat (getbBytes s) } := by
  rw [runBcGetb, requireValid_dst h, Run.andThen_ok, requireDisjoint_of_disjoint ho, Run.andThen_ok, readFields_eq,
    List.sum_replicate_nat, Nat.mul_comm]
  rfl

/-- LMEM after BC_GETB: the copied bytes inside the destination region, the old ones outside (R143). -/
theorem read?_writeList_getbBytes (s : State) (a : Nat) :
    Memory.read? (Memory.writeList s.lmem s.dstAddr.toNat (getbBytes s)) a =
      if s.dstAddr.toNat ≤ a ∧ a < s.dstAddr.toNat + s.dstLen.toNat then
        some (BitVec.ofNat 8 (valueOf (streamBits s (s.rd.pos + BitVec.ofNat 64 (8 * (a - s.dstAddr.toNat))) 8)))
      else Memory.read? s.lmem a := by
  rw [Memory.read?_writeList, getbBytes_length]
  split_ifs with ha
  · exact getbBytes_getElem? (by omega)
  · rfl

/-- With the reader's region inside LMEM, BC_GETB ends where its run does (R10). -/
theorem exec_bcGetb {s : State} (h : readerOk s = true) : exec .bcGetb s = .next (runBcGetb s).close :=
  finishReader_of_ok h

/-- Settles O22: the two checks in order, and the copy as one list write of the reader's next fields. -/
theorem bcGetbCopiesBytes : Obligations.BcGetbCopiesBytes := by
  refine ⟨by decide, fun s hrd => ?_⟩
  rw [exec_bcGetb hrd]
  refine ⟨fun hout => ?outside, fun hin => ⟨fun ho => ?overlap, fun ho => ⟨_, ?copy, read?_writeList_getbBytes s⟩⟩⟩
  case outside => rw [runBcGetb_of_invalid hout, Run.close_raised]
  case overlap => rw [runBcGetb_of_overlap hin ho, Run.close_raised]
  case copy => rw [runBcGetb_of_disjoint hin ho, Run.close_ok]

end Sys2Proof.Machine

/-! ## BC_FLUSH (R146, R148) -/

namespace Sys2Proof.Machine

/-- With the writer's region inside LMEM, BC_FLUSH ends where `flush` does (R10). -/
theorem exec_bcFlush {s : State} (h : writerOk s = true) : exec .bcFlush s = .next (flush s).close :=
  finishWriter_of_ok h

/-- With nothing pending, flush does nothing (R146). -/
theorem flush_of_nacc_eq_zero {s : State} (h : s.wr.nacc = 0) : flush s = .ok () s := if_pos h

/-- With bits pending, flush appends the zeros up to the byte (R146). -/
theorem flushBits_of_nacc_ne_zero {w : Writer} (h : w.nacc ≠ 0) :
    flushBits w = List.replicate (8 - w.nacc.val) false := if_neg h

/-- The bits that complete the partial byte fit exactly when one more byte does (R145). -/
theorem roomFor_partial_byte (w : Writer) : roomFor w (8 - w.nacc.val) ↔ w.bytes.toNat + 1 ≤ w.cap.toNat := by
  have hn := w.nacc.isLt
  rw [roomFor, writtenBits, show 8 * w.bytes.toNat + w.nacc.val + (8 - w.nacc.val) = (w.bytes.toNat + 1) * 8 by omega,
    Nat.mul_div_cancel _ (by decide)]

/-- Appending the bits that complete the partial byte leaves nothing pending (R146). -/
theorem Appends.nacc_eq_zero {s t : State} {bs : List Bool} (h : Appends s t bs)
    (hl : bs.length = 8 - s.wr.nacc.val) : t.wr.nacc = 0 := by
  obtain ⟨-, hwritten, -⟩ := h
  have hn := s.wr.nacc.isLt
  have hmod := writtenBits_mod t.wr
  rw [hwritten, hl, writtenBits] at hmod
  exact Fin.ext (by rw [Fin.val_zero]; omega)

/-- Settles O25: the flush is one bit string, which fits exactly when W_BYTES is below W_CAP. -/
theorem bcFlushPadsThePartialByte : Obligations.BcFlushPadsThePartialByte := by
  refine ⟨by decide, fun s hwr hacc => ?_⟩
  rw [exec_bcFlush hwr]
  have hready := writerReady_of hwr hacc
  obtain ⟨hfit, hfull⟩ := close_writeBitList hready (flush_eq_list s)
  refine ⟨fun h0 => ?empty, fun h0 hne => ?room, fun h0 heq => ?full⟩
  case empty => rw [flush_of_nacc_eq_zero h0, Run.close_ok]
  case room =>
    have hlt : s.wr.bytes.toNat < s.wr.cap.toNat :=
      Nat.lt_of_le_of_ne hready.1 fun h => hne (BitVec.eq_of_toNat_eq h)
    rw [flushBits_of_nacc_ne_zero h0, List.length_replicate, roomFor_partial_byte] at hfit
    obtain ⟨t, ht, happ⟩ := hfit hlt
    exact ⟨t, ht, happ, happ.nacc_eq_zero List.length_replicate⟩
  case full =>
    have htake : 8 * s.wr.cap.toNat + 7 - writtenBits s.wr = 7 - s.wr.nacc.val := by
      rw [writtenBits, heq]
      omega
    rw [flushBits_of_nacc_ne_zero h0, List.length_replicate, roomFor_partial_byte, htake, List.take_replicate,
      Nat.min_eq_left (by omega)] at hfull
    exact hfull (by rw [heq]; omega)

end Sys2Proof.Machine

/-! ## BC_PUTB (R149) -/

namespace Sys2Proof.Machine

/-- With the writer's region inside LMEM, BC_PUTB ends where its run does (R10). -/
theorem exec_bcPutb {s : State} (h : writerOk s = true) : exec .bcPutb s = .next (runBcPutb s).close :=
  finishWriter_of_ok h

/-- Bytes written as fields are their bits, each byte most significant bit first (R149). -/
theorem fieldBits_map_byteField (bs : List Byte) :
    fieldBits (bs.map byteField) = bs.flatMap fun b => bitsMsb 8 (b.zeroExtend 64) := by
  rw [fieldBits, List.flatMap_map]
  rfl

/-- BC_PUTB's run on a source region that ends past LMEM (R66, R149). -/
theorem runBcPutb_of_invalid {s : State} (h : s.params.lmemSize < s.srcAddr.toNat + s.srcLen.toNat) :
    runBcPutb s = .raised .outOfRange (s.srcAddr.zeroExtend 64 + s.srcLen.zeroExtend 64) s := by
  rw [runBcPutb, requireValid_src_fails h, Run.andThen_raised]

/-- BC_PUTB's run on a source region that overlaps the writer's (R67, R149). -/
theorem runBcPutb_of_overlap {s : State} (h : s.srcAddr.toNat + s.srcLen.toNat ≤ s.params.lmemSize)
    (ho : (srcRegion s).overlaps (writerRegion s) = true) : runBcPutb s = .raised .overlap 0 s := by
  rw [runBcPutb, requireValid_src h, Run.andThen_ok, requireDisjoint_of_overlap ho, Run.andThen_raised]

/-- BC_PUTB's run past its checks is the source's bits through the writer (R149). -/
theorem runBcPutb_of_disjoint {s : State} (h : s.srcAddr.toNat + s.srcLen.toNat ≤ s.params.lmemSize)
    (ho : (srcRegion s).overlaps (writerRegion s) = false) :
    runBcPutb s =
      writeBitList ((regionBytes s (srcRegion s)).flatMap fun b => bitsMsb 8 (b.zeroExtend 64)) s := by
  rw [runBcPutb, requireValid_src h, Run.andThen_ok, requireDisjoint_of_disjoint ho, Run.andThen_ok,
    writeFields_eq_list, fieldBits_map_byteField]

/-- Settles O26: the two checks in order, and then one bit string through the writer. -/
theorem bcPutbAppendsBytes : Obligations.BcPutbAppendsBytes := by
  refine ⟨by decide, fun s hwr hacc => ?_⟩
  rw [exec_bcPutb hwr]
  refine ⟨fun hout => ?outside, fun hin => ⟨fun ho => ?overlap, fun ho => ?append⟩⟩
  case outside => rw [runBcPutb_of_invalid hout, Run.close_raised]
  case overlap => rw [runBcPutb_of_overlap hin ho, Run.close_raised]
  case append => exact close_writeBitList (writerReady_of hwr hacc) (runBcPutb_of_disjoint hin ho)

end Sys2Proof.Machine

/-! ## BuildTree and the codewords (R171, R172) -/

namespace Sys2Proof.Machine

/-- The arena starts empty exactly when no symbol occurs (R171). -/
theorem arenaLeaves_eq_nil_iff (h : Byte → Nat) : arenaLeaves h = [] ↔ ∀ b, h b = 0 := by
  rw [← List.length_eq_zero_iff, ← occurring_length, List.length_eq_zero_iff, occurring, List.filter_eq_nil_iff]
  constructor
  · intro hnone b
    simpa using hnone (b, h b) (List.mem_map.2 ⟨b.toNat, List.mem_range.2 b.isLt, by simp⟩)
  · intro hzero p hp
    obtain ⟨n, -, rfl⟩ := List.mem_map.1 hp
    simp [hzero]

/-- There is no tree exactly when the arena starts empty (R171). -/
theorem buildTree_eq_none_iff (h : Byte → Nat) : buildTree h = none ↔ arenaLeaves h = [] := by
  rcases buildTree_spec h with ⟨hnil, hnone⟩ | ⟨t, hsome, -⟩
  · exact iff_of_true hnone hnil
  · refine iff_of_false (by simp [hsome]) fun hnil => ?_
    simp [buildTree, hnil] at hsome

/-- A tree that BuildTree answers is one that the merges of R171 build. -/
theorem builds_of_buildTree {h : Byte → Nat} {t : HufTree} (ht : buildTree h = some t) :
    Builds (arenaLeaves h) (arenaLeaves h).length t := by
  rcases buildTree_spec h with ⟨-, hnone⟩ | ⟨t', hsome, hbuilds⟩
  · simp [hnone] at ht
  · obtain rfl : t' = t := Option.some.inj (hsome.symm.trans ht)
    exact hbuilds

/-- Settles O27: the loop's merges are those of the relation, from the leaves in order of arrival. -/
theorem buildTreeMergesTheTwoLeast : Obligations.BuildTreeMergesTheTwoLeast := fun h =>
  ⟨(buildTree_eq_none_iff h).trans (arenaLeaves_eq_nil_iff h), fun _ => builds_of_buildTree, arenaLeaves_eq h,
    arenaLeaves_arr h⟩

/-- Settles O28: at the root, code and length start at 0, so they are the path's own. -/
theorem codewordsAreThePaths : Obligations.CodewordsAreThePaths := by
  intro t c
  rw [mem_codewords t c 0 0]
  simp only [Nat.zero_add, Nat.zero_mul]

end Sys2Proof.Machine

/-! ## HUF_BUILD (R170, R173, R174) -/

namespace Sys2Proof.Machine

/-- HUF_BUILD ends where its run does (R170). -/
theorem exec_hufBuild (s : State) : exec .hufBuild s = .next (runHufBuild s).close := rfl

/-- HUF_BUILD's run on a source region that ends past LMEM (R66, R170). -/
theorem runHufBuild_of_invalid {s : State} (h : s.params.lmemSize < s.srcAddr.toNat + s.srcLen.toNat) :
    runHufBuild s = .raised .outOfRange (s.srcAddr.zeroExtend 64 + s.srcLen.zeroExtend 64) s := by
  rw [runHufBuild, requireValid_src_fails h, Run.andThen_raised]

/-- HUF_BUILD's run past its check: the code is built with HIST already written (R170). -/
theorem runHufBuild_of_valid {s : State} (h : s.srcAddr.toNat + s.srcLen.toNat ≤ s.params.lmemSize) :
    runHufBuild s = buildCode (regionBytes s (srcRegion s))
      { s with hist := histogram (regionBytes s (srcRegion s)) } := by
  rw [runHufBuild, requireValid_src h, Run.andThen_ok]

/-- The 32-bit counts of fewer than 2^32 bytes do not overflow (R170). -/
theorem histogram_toNat {xs : List Byte} (h : xs.length < 2 ^ 32) (b : Fin 256) :
    (histogram xs)[b.val].toNat = xs.count (BitVec.ofNat 8 b.val) := by
  rw [histogram, tabulate_get _ b.val b.isLt, BitVec.toNat_ofNat]
  exact Nat.mod_eq_of_lt (lt_of_le_of_lt List.count_le_length h)

/-- CWTAB as a build of a tree leaves it (R170). -/
def builtCwtab (root : HufTree) : Vector Codeword 256 :=
  tabulate fun i => codewordOf (codewords root 0 0) (BitVec.ofNat 8 i.val)

/-- The LUT as a build of a tree leaves it, over the old one (R170, R174). -/
def builtLut (old : Vector LutEntry 256) (root : HufTree) : Vector LutEntry 256 :=
  fillLut old (flattenLut (maxDepth (codewords root 0 0)) (codewords root 0 0))

/-- CWTAB after a build holds every byte's codeword (R170). -/
theorem cwAt_builtCwtab (root : HufTree) (b : Byte) :
    cwAt (builtCwtab root) b = codewordOf (codewords root 0 0) b :=
  cwAt_tabulate (codewordOf (codewords root 0 0)) b

section tables
variable {xs : List Byte} {root : HufTree} (hr : buildTree (fun b => xs.count b) = some root)
include hr

/-- The symbols with a codeword are the bytes that occur (R170, R172). -/
theorem mem_iff_exists_codeword (b : Byte) : b ∈ xs ↔ ∃ c ∈ codewords root 0 0, c.sym = b := by
  rw [(buildTree_syms hr).2 b, List.count_pos_iff]

/-- There are as many codewords as distinct bytes (R170). -/
theorem codewords_length_eq_dedup : (codewords root 0 0).length = xs.dedup.length :=
  (buildTree_length hr).trans (occurring_count xs)

/-- CWTAB after a build holds (0, 0) for a byte that does not occur (R170). -/
theorem cwAt_builtCwtab_of_not_mem {b : Byte} (hb : b ∉ xs) : cwAt (builtCwtab root) b = ⟨0, 0⟩ := by
  rw [cwAt_builtCwtab]
  exact codewordOf_not_mem fun c hc hsym => hb ((mem_iff_exists_codeword hr b).2 ⟨c, hc, hsym⟩)

variable (hd : maxDepth (codewords root 0 0) < 32)
include hd

/-- CWTAB after a build holds every codeword's code and length, with no bit lost (R170). -/
theorem cwAt_builtCwtab_of_mem {c : SymCode} (hc : c ∈ codewords root 0 0) :
    (cwAt (builtCwtab root) c.sym).val.toNat = c.code ∧ (cwAt (builtCwtab root) c.sym).len.toNat = c.len := by
  have hlen : c.len < 32 := lt_of_le_of_lt (maxDepth_ge hc) hd
  have hcode : c.code < 2 ^ 32 :=
    lt_of_lt_of_le (codewords_code_lt hc) (Nat.pow_le_pow_right (by omega) hlen.le)
  rw [cwAt_builtCwtab, codewordOf_mem (buildTree_syms hr).1 hc, BitVec.toNat_ofNat, BitVec.toNat_ofNat]
  exact ⟨Nat.mod_eq_of_lt hcode, Nat.mod_eq_of_lt (by omega)⟩

variable (old : Vector LutEntry 256)

/-- LUT[i] after a build is the i-th codeword's entry (R174). -/
theorem lutAt_builtLut {i : Nat} (hi : i < (codewords root 0 0).length) :
    lutAt (builtLut old root) i = lutEntryOf (maxDepth (codewords root 0 0)) (codewords root 0 0)[i] :=
  lutAt_built (xs := xs) old hd (codewords_length_eq_dedup hr ▸ hi) hi

/-- VAL of LUT[i] after a build is the i-th codeword left-justified to D bits (R174). -/
theorem lutAt_builtLut_val {i : Nat} (hi : i < (codewords root 0 0).length) :
    (lutAt (builtLut old root) i).val.toNat = (codewords root 0 0)[i].start (maxDepth (codewords root 0 0)) := by
  obtain ⟨hstart, hpow⟩ := codewords_start_lt hd hi
  rw [lutAt_builtLut hr hd old hi, lutEntryOf_val (by omega)]

/-- Every codeword has its entry in the LUT after a build (R174). -/
theorem exists_lutAt_builtLut {c : SymCode} (hc : c ∈ codewords root 0 0) :
    ∃ i, i < xs.dedup.length ∧ (lutAt (builtLut old root) i).sym = c.sym ∧
      (lutAt (builtLut old root) i).len.toNat = c.len ∧
      (lutAt (builtLut old root) i).val.toNat = c.code * 2 ^ (maxDepth (codewords root 0 0) - c.len) := by
  have hlen := maxDepth_ge hc
  obtain ⟨i, hi, rfl⟩ := List.getElem_of_mem hc
  have hentry := lutAt_builtLut hr hd old hi
  refine ⟨i, codewords_length_eq_dedup hr ▸ hi, by rw [hentry, lutEntryOf], ?_, lutAt_builtLut_val hr hd old hi⟩
  rw [hentry, lutEntryOf, BitVec.toNat_ofNat]
  exact Nat.mod_eq_of_lt (by omega)

/-- The LUT after a build is strictly ascending in VAL over its first k entries (R174). -/
theorem lutAt_builtLut_strictMono {i j : Nat} (hij : i < j) (hj : j < xs.dedup.length) :
    (lutAt (builtLut old root) i).val.toNat < (lutAt (builtLut old root) j).val.toNat := by
  have hj' : j < (codewords root 0 0).length := codewords_length_eq_dedup hr ▸ hj
  have htiles := tiles_codewords root (code := 0) (len := 0) fun c hc => maxDepth_ge hc
  rw [lutAt_builtLut_val hr hd old (hij.trans hj'), lutAt_builtLut_val hr hd old hj']
  exact lt_of_lt_of_le (Nat.lt_add_of_pos_right (Nat.two_pow_pos _)) (htiles.mono hij hj')

/-- A build leaves the LUT's entries from k on as they were (R170). -/
theorem builtLut_of_le (i : Fin 256) (hi : xs.dedup.length ≤ i.val) : (builtLut old root)[i.val] = old[i.val] := by
  rw [builtLut, fillLut, tabulate_get _ i.val i.isLt, flattenLut_codewords hd fun c hc => maxDepth_ge hc]
  exact List.getD_eq_default _ _ (by rwa [List.length_map, codewords_length_eq_dedup hr])

/-- A build past its checks leaves the tree's tables (R170). -/
theorem buildCode_eq_built {s : State} (hk : 2 ≤ xs.dedup.length) :
    buildCode xs s = .ok () { s with
      cwtab := builtCwtab root
      lut := builtLut s.lut root
      lutCnt := BitVec.ofNat 16 xs.dedup.length
      maxLen := BitVec.ofNat 16 (maxDepth (codewords root 0 0))
      count := BitVec.ofNat 64 xs.length } :=
  buildCode_ok hk hr hd

end tables

/-- Settles O29: the checks in R170's order, each with HIST written; past them the tables are the tree's. -/
theorem hufBuildBuildsTheTables : Obligations.HufBuildBuildsTheTables := by
  refine ⟨by decide, fun s => ⟨fun hout => ?outside, fun hin => ?inside⟩⟩
  case outside => rw [exec_hufBuild, runHufBuild_of_invalid hout, Run.close_raised]
  case inside =>
    intro xs k
    have hrun : exec .hufBuild s = .next (buildCode xs { s with hist := histogram xs }).close := by
      rw [exec_hufBuild, runHufBuild_of_valid hin]
    have hlen : xs.length = s.srcLen.toNat := regionBytes_length s (srcRegion s)
    refine ⟨histogram xs, histogram_toNat (hlen ▸ s.srcLen.isLt), fun hk => ?empty, fun hk => ?code⟩
    case empty => rw [hrun, buildCode_emptyInput hk, Run.close_raised]
    case code =>
      obtain ⟨root, hr⟩ := buildTree_some (xs := xs) (by omega)
      refine ⟨root, hr, maxDepth (codewords root 0 0), fun c => maxDepth_ge,
        maxDepth_mem (codewords_ne_nil root 0 0), fun hlong => ?long, fun hd => ?tables⟩
      case long => rw [hrun, buildCode_codeTooLong hk hr hlong, Run.close_raised]
      case tables =>
        have hcount : BitVec.ofNat 64 xs.length = s.srcLen.zeroExtend 64 := by
          rw [hlen]
          exact BitVec.ofNat_toNat 64 s.srcLen
        rw [hrun, buildCode_eq_built hr hd hk, hcount, Run.close_ok]
        exact ⟨_, rfl, rfl, mem_iff_exists_codeword hr, fun c => cwAt_builtCwtab_of_mem hr hd,
          fun b => cwAt_builtCwtab_of_not_mem hr, fun c => exists_lutAt_builtLut hr hd s.lut,
          fun i j => lutAt_builtLut_strictMono hr hd s.lut, builtLut_of_le hr hd s.lut⟩

end Sys2Proof.Machine

/-! ## HUF_PACK and HUF_META_WR (R176, R177) -/

namespace Sys2Proof.Machine

/-- With the writer's region inside LMEM, HUF_PACK ends where its run does (R10). -/
theorem exec_hufPack {s : State} (h : writerOk s = true) : exec .hufPack s = .next (runHufPack s).close :=
  finishWriter_of_ok h

/-- HUF_PACK's run on a source region that ends past LMEM (R66, R176). -/
theorem runHufPack_of_invalid {s : State} (h : s.params.lmemSize < s.srcAddr.toNat + s.srcLen.toNat) :
    runHufPack s = .raised .outOfRange (s.srcAddr.zeroExtend 64 + s.srcLen.zeroExtend 64) s := by
  rw [runHufPack, requireValid_src_fails h, Run.andThen_raised]

/-- HUF_PACK's run on a source region that overlaps the writer's (R67, R176). -/
theorem runHufPack_of_overlap {s : State} (h : s.srcAddr.toNat + s.srcLen.toNat ≤ s.params.lmemSize)
    (ho : (srcRegion s).overlaps (writerRegion s) = true) : runHufPack s = .raised .overlap 0 s := by
  rw [runHufPack, requireValid_src h, Run.andThen_ok, requireDisjoint_of_overlap ho, Run.andThen_raised]

/-- HUF_PACK's run past its checks, when every source byte has a codeword: the codewords and the flush's zeros as one
bit string through the writer (R176). -/
theorem runHufPack_of_codewords {s : State} (hw : writerReady s.wr)
    (h : s.srcAddr.toNat + s.srcLen.toNat ≤ s.params.lmemSize)
    (ho : (srcRegion s).overlaps (writerRegion s) = false)
    (hall : ∀ b ∈ regionBytes s (srcRegion s), (cwAt s.cwtab b).len ≠ 0) :
    runHufPack s = writeBitList ((regionBytes s (srcRegion s)).flatMap (codeBits s.cwtab) ++
      padBits (writtenBits s.wr + ((regionBytes s (srcRegion s)).flatMap (codeBits s.cwtab)).length)) s := by
  rw [runHufPack, requireValid_src h, Run.andThen_ok, requireDisjoint_of_disjoint ho, Run.andThen_ok,
    packFields_good _ _ _ hall]
  simp only [writeFields_eq_list, fieldBits_cw, writeBitList_flush hw]

/-- HUF_PACK's run past its checks, when byte `i` is the first without a codeword: the codewords before it through the
writer, and then BadData(i) (R176). -/
theorem runHufPack_of_no_codeword {s : State} (h : s.srcAddr.toNat + s.srcLen.toNat ≤ s.params.lmemSize)
    (ho : (srcRegion s).overlaps (writerRegion s) = false) {i : Nat}
    (hi : i < (regionBytes s (srcRegion s)).length)
    (hbad : (cwAt s.cwtab (regionBytes s (srcRegion s))[i]).len = 0)
    (hbefore : ∀ b ∈ (regionBytes s (srcRegion s)).take i, (cwAt s.cwtab b).len ≠ 0) :
    runHufPack s =
      (writeBitList (((regionBytes s (srcRegion s)).take i).flatMap (codeBits s.cwtab)) s).andThen
        fun _ t => .raised .badData (BitVec.ofNat 64 i) t := by
  rw [runHufPack, requireValid_src h, Run.andThen_ok, requireDisjoint_of_disjoint ho, Run.andThen_ok,
    packFields_bad _ _ _ i hi hbad hbefore]
  simp only [writeFields_eq_list, fieldBits_cw, Nat.zero_add]

/-- A run that ends with a raise after one bit string through the writer: that raise when the bits fit, and otherwise
OutOfRange after those that fit (R145, R282). -/
theorem close_writeBitList_raise {s : State} {bits : List Bool} {r : Run Unit} {e : ErrorKind} {info : DWord}
    (hw : writerReady s.wr) (hr : r = (writeBitList bits s).andThen fun _ t => .raised e info t) :
    (roomFor s.wr bits.length → ∃ t,
      (.next r.close : Host.Outcome State Fault Refusal) = .next (trapEntry e info t) ∧ Appends s t bits) ∧
    (¬roomFor s.wr bits.length → ∃ t,
      (.next r.close : Host.Outcome State Fault Refusal) =
        .next (trapEntry .outOfRange (s.wr.base.zeroExtend 64 + s.wr.cap.zeroExtend 64) t) ∧
      Appends s t (bits.take (8 * s.wr.cap.toNat + 7 - writtenBits s.wr)) ∧
      t.wr.nacc = 7 ∧ t.wr.bytes = s.wr.cap) := by
  subst hr
  refine ⟨fun hroom => ?fits, fun hroom => ?overflows⟩
  case fits =>
    obtain ⟨t, ht, happ⟩ := writeBitList_appends bits hw hroom
    exact ⟨t, by rw [ht, Run.andThen_ok, Run.close_raised], happ⟩
  case overflows =>
    obtain ⟨t, ht, happ⟩ := writeBitList_overflow bits hw hroom
    exact ⟨t, by rw [ht, Run.andThen_raised, Run.close_raised]; rfl, happ⟩

/-- A bit string with zeros up to the byte behind it leaves nothing pending (R146). -/
theorem Appends.nacc_eq_zero_of_padBits {s t : State} {bs : List Bool}
    (h : Appends s t (bs ++ padBits (writtenBits s.wr + bs.length))) : t.wr.nacc = 0 := by
  obtain ⟨-, hwritten, -⟩ := h
  have hmod := writtenBits_mod t.wr
  rw [hwritten, List.length_append, padBits, List.length_replicate] at hmod
  exact Fin.ext (by rw [Fin.val_zero]; omega)

/-- Settles O31: the two checks in order, and then one bit string through the writer, up to the flush or to the first
byte without a codeword. -/
theorem hufPackAppendsTheCodewords : Obligations.HufPackAppendsTheCodewords := by
  refine ⟨by decide, fun s hwr hacc => ?_⟩
  rw [exec_hufPack hwr]
  have hready := writerReady_of hwr hacc
  refine ⟨fun hout => ?outside, fun hin => ⟨fun ho => ?overlap, fun ho =>
    ⟨fun hall => ?good, fun i hi hbad hb => ?bad⟩⟩⟩
  case outside => rw [runHufPack_of_invalid hout, Run.close_raised]
  case overlap => rw [runHufPack_of_overlap hin ho, Run.close_raised]
  case good =>
    obtain ⟨hfit, hfull⟩ := close_writeBitList hready (runHufPack_of_codewords hready hin ho hall)
    refine ⟨fun hroom => ?_, hfull⟩
    obtain ⟨t, ht, happ⟩ := hfit hroom
    exact ⟨t, ht, happ, happ.nacc_eq_zero_of_padBits⟩
  case bad => exact close_writeBitList_raise hready (runHufPack_of_no_codeword hin ho hi hbad hb)

/-- With the writer's region inside LMEM, HUF_META_WR ends where its run does (R10). -/
theorem exec_hufMetaWr {s : State} (h : writerOk s = true) : exec .hufMetaWr s = .next (runHufMetaWr s).close :=
  finishWriter_of_ok h

/-- The three fields of an entry, as bits (R77). -/
theorem fieldBits_entryFields (e : LutEntry) : fieldBits (entryFields e) =
    bitsMsb 8 (e.sym.zeroExtend 64) ++ bitsMsb 8 (e.len.zeroExtend 64) ++ bitsMsb 32 (e.val.zeroExtend 64) := by
  simp [fieldBits, entryFields]

/-- The metadata block's fields are its bit string (R77). -/
theorem fieldBits_metaFields (s : State) : fieldBits (metaFields s) = metaBits s := by
  simp only [← fieldBits_entryFields, metaBits, metaFields, fieldBits_append]
  simp [fieldBits, List.flatMap_assoc]

/-- The metadata block has 96 + 48 LUTCNT bits (R77, R177). -/
theorem metaBits_length (s : State) : (metaBits s).length = 96 + 48 * s.lutCnt.toNat := by
  simp only [metaBits, List.length_append, bitsMsb_length, List.length_flatMap, List.map_const',
    List.sum_replicate_nat, List.length_range]
  omega

/-- HUF_META_WR's run with LUTCNT above 256 (R177). -/
theorem runHufMetaWr_of_gt {s : State} (h : 256 < s.lutCnt.toNat) :
    runHufMetaWr s = .raised .invalidLut (lutInfo 2 s.lutCnt.toNat) s := if_pos h

/-- HUF_META_WR's run past its check is the metadata block through the writer (R177). -/
theorem runHufMetaWr_of_le {s : State} (h : s.lutCnt.toNat ≤ 256) :
    runHufMetaWr s = writeBitList (metaBits s) s := by
  rw [runHufMetaWr, if_neg (Nat.not_lt.2 h), writeFields_eq_list, fieldBits_metaFields]

/-- Settles O32: the check of LUTCNT, and then one bit string through the writer. -/
theorem hufMetaWrAppendsTheBlock : Obligations.HufMetaWrAppendsTheBlock := by
  refine ⟨by decide, fun s hwr hacc => ?_⟩
  rw [exec_hufMetaWr hwr]
  refine ⟨fun hgt => ?above, fun hle => ⟨metaBits_length s, ?append⟩⟩
  case above => rw [runHufMetaWr_of_gt hgt, Run.close_raised, lutInfo]
  case append => exact close_writeBitList (writerReady_of hwr hacc) (runHufMetaWr_of_le hle)

end Sys2Proof.Machine

/-! ## HUF_META_RD (R180) -/

namespace Sys2Proof.Machine

/-- With the reader's region inside LMEM, HUF_META_RD ends where its run does (R10). -/
theorem exec_hufMetaRd {s : State} (h : readerOk s = true) : exec .hufMetaRd s = .next (runHufMetaRd s).close :=
  finishReader_of_ok h

/-- The block's first field, MAXLEN (R77). -/
def metaMaxLen (s : State) : Nat := valueOf (streamBits s s.rd.pos 16)

/-- The block's second field, COUNT (R77). -/
def metaCount (s : State) : Nat := valueOf (streamBits s (s.rd.pos + 16) 64)

/-- The block's third field, LUTCNT (R77). -/
def metaLutCnt (s : State) : Nat := valueOf (streamBits s (s.rd.pos + 80) 16)

theorem toNat_metaMaxLen (s : State) : (BitVec.ofNat 64 (metaMaxLen s)).toNat = metaMaxLen s :=
  toNat_streamBits s _ (by decide)

theorem toNat_metaLutCnt (s : State) : (BitVec.ofNat 64 (metaLutCnt s)).toNat = metaLutCnt s :=
  toNat_streamBits s _ (by decide)

/-- The run after its header: three fields, 96 bits (R180). -/
theorem runHufMetaRd_eq (s : State) : runHufMetaRd s =
    metaRdEntries s.rd.pad (BitVec.ofNat 64 (metaMaxLen s)) (BitVec.ofNat 64 (metaCount s))
      (BitVec.ofNat 64 (metaLutCnt s)) (afterRead s 96) := by
  simp only [runHufMetaRd, readBits_eq, afterRead_add, afterRead_rd_pos, streamBits_afterRead]
  rfl

/-- A read under-ran exactly when PADBITS has moved (R141, R180). -/
theorem afterRead_pad_ne_iff (s : State) {n : Nat} (hn : n < 2 ^ 64) :
    (afterRead s n).rd.pad ≠ s.rd.pad ↔ padCount s n ≠ 0 := by
  rw [afterRead_rd_pad]
  exact pad_ne s.rd.pad (lt_of_le_of_lt (padCount_le s n) hn)

/-- The fields of the block's entries as HUF_META_RD reads them, behind the header (R77, R180). -/
def metaValues (s : State) : List DWord :=
  fieldValues s (s.rd.pos + BitVec.ofNat 64 96) (entryWidths (metaLutCnt s))

/-- The block's entries as HUF_META_RD reads them (R77, R180). -/
def metaEntries (s : State) : List LutEntry := entriesOf (metaValues s)

theorem entriesOf_metaValues (s : State) : entriesOf (metaValues s) = metaEntries s := rfl

theorem metaEntries_length (s : State) : (metaEntries s).length = metaLutCnt s :=
  (entriesOf_fieldValues s _ _).1

/-- Entry `i` read is the entry at its place in the block (R77). -/
theorem metaEntries_getD (s : State) (d : LutEntry) {i : Nat} (hi : i < metaLutCnt s) :
    (metaEntries s).getD i d = metaEntry s i := by
  have hget := (entriesOf_fieldValues s (metaLutCnt s) (s.rd.pos + BitVec.ofNat 64 96)).2 i hi
  rw [List.getD_eq_getElem?_getD, metaEntries, metaValues, hget, Option.getD_some, entryAt_meta]

/-- Reading the entries moves the reader to the block's end (R180). -/
theorem readFields_entryWidths (s : State) : readFields (entryWidths (metaLutCnt s)) (afterRead s 96) =
    (metaValues s, afterRead s (96 + 48 * metaLutCnt s)) := by
  rw [readFields_eq, fieldValues_afterRead, afterRead_add, entryWidths_sum, afterRead_rd_pos, metaValues]

/-- The validity check over the entries read is that over the entries of the block (R178, R180). -/
theorem lutFault_metaEntries (s : State) :
    lutFault (metaMaxLen s) (metaLutCnt s) (fun i => (metaEntries s).getD i ⟨0, 0, 0⟩) =
      lutFault (metaMaxLen s) (metaLutCnt s) (metaEntry s) :=
  lutFault_congr fun _ hi => metaEntries_getD s _ hi

/-- The LUT after a successful read: the block's entries, and the old ones behind them (R180). -/
theorem fillLut_metaEntries (s : State) (i : Fin 256) :
    (fillLut s.lut (metaEntries s))[i.val] = if i.val < metaLutCnt s then metaEntry s i.val else s.lut[i.val] := by
  rw [fillLut, tabulate_get _ i.val i.isLt]
  split_ifs with hi
  · exact metaEntries_getD s _ hi
  · exact List.getD_eq_default _ _ ((metaEntries_length s).trans_le (Nat.not_lt.1 hi))

/-- The run on a block truncated in its header (R180). -/
theorem runHufMetaRd_of_truncated_header {s : State} (hpad : padCount s 96 ≠ 0) :
    runHufMetaRd s = .raised .badData (s.rd.pos + 96) (afterRead s 96) := by
  rw [runHufMetaRd_eq, metaRdEntries, if_pos ((afterRead_pad_ne_iff s (by decide)).2 hpad)]
  rfl

/-- The run on a block whose count is outside 2 to 256 (R180). -/
theorem runHufMetaRd_of_count {s : State} (hpad : padCount s 96 = 0)
    (hn : metaLutCnt s < 2 ∨ 256 < metaLutCnt s) :
    runHufMetaRd s = .raised .invalidLut (lutInfo 2 (metaLutCnt s)) (afterRead s 96) := by
  have hread : ¬(afterRead s 96).rd.pad ≠ s.rd.pad := fun h => (afterRead_pad_ne_iff s (by decide)).1 h hpad
  rw [runHufMetaRd_eq, metaRdEntries, if_neg hread, toNat_metaLutCnt, if_pos hn]

section entries
variable {s : State} (hlo : 2 ≤ metaLutCnt s) (hhi : metaLutCnt s ≤ 256)
include hlo hhi

/-- The run on a block truncated in its entries (R180). -/
theorem runHufMetaRd_of_truncated_entries (h96 : padCount s 96 = 0)
    (hpad : padCount s (96 + 48 * metaLutCnt s) ≠ 0) :
    runHufMetaRd s = .raised .badData (s.rd.pos + BitVec.ofNat 64 (96 + 48 * metaLutCnt s))
      (afterRead s (96 + 48 * metaLutCnt s)) := by
  have hread : ¬(afterRead s 96).rd.pad ≠ s.rd.pad := fun h => (afterRead_pad_ne_iff s (by decide)).1 h h96
  rw [runHufMetaRd_eq, metaRdEntries, if_neg hread, toNat_metaLutCnt, if_neg (by omega), readFields_entryWidths]
  exact if_pos ((afterRead_pad_ne_iff s (by omega)).2 hpad)

/-- The run on a whole block comes to the validity check, over the block's entries (R178, R180). -/
theorem runHufMetaRd_of_whole (hpad : padCount s (96 + 48 * metaLutCnt s) = 0) :
    (∀ info, lutFault (metaMaxLen s) (metaLutCnt s) (metaEntry s) = some info →
      runHufMetaRd s = .raised .invalidLut info (afterRead s (96 + 48 * metaLutCnt s))) ∧
    (lutFault (metaMaxLen s) (metaLutCnt s) (metaEntry s) = none →
      runHufMetaRd s = .ok () { afterRead s (96 + 48 * metaLutCnt s) with
        maxLen := BitVec.ofNat 16 (metaMaxLen s)
        count := BitVec.ofNat 64 (metaCount s)
        lutCnt := BitVec.ofNat 16 (metaLutCnt s)
        lut := fillLut s.lut (metaEntries s) }) := by
  have h96 : padCount s 96 = 0 := by
    have hadd := padCount_add s 96 (48 * metaLutCnt s)
    omega
  have hread : ¬(afterRead s 96).rd.pad ≠ s.rd.pad := fun h => (afterRead_pad_ne_iff s (by decide)).1 h h96
  have hread' : ¬(afterRead s (96 + 48 * metaLutCnt s)).rd.pad ≠ s.rd.pad := fun h =>
    (afterRead_pad_ne_iff s (by omega)).1 h hpad
  rw [runHufMetaRd_eq, metaRdEntries, if_neg hread, toNat_metaLutCnt, if_neg (by omega), readFields_entryWidths,
    toNat_metaMaxLen, ← lutFault_metaEntries]
  simp only [if_neg hread', entriesOf_metaValues]
  refine ⟨fun info hinfo => ?invalid, fun hvalid => ?valid⟩
  case invalid => simp only [hinfo]
  case valid =>
    simp only [hvalid, BitVec.setWidth_ofNat_of_le (show 16 ≤ 64 by decide), afterRead_lut]

end entries

/-- Settles O33: the four checks in R180's order, and past them the block's fields in the tables. -/
theorem hufMetaRdReadsTheBlock : Obligations.HufMetaRdReadsTheBlock := by
  refine ⟨by decide, fun s hrd => ?_⟩
  intro m c n all
  rw [exec_hufMetaRd hrd]
  refine ⟨fun hpad => ?header, fun hpad => ⟨fun hn => ?count, fun hlo hhi =>
    ⟨fun hall => ?entries, fun hall => ?whole⟩⟩⟩
  case header => rw [runHufMetaRd_of_truncated_header hpad, Run.close_raised]
  case count =>
    rw [runHufMetaRd_of_count hpad hn, Run.close_raised]
    rfl
  case entries =>
    rw [runHufMetaRd_of_truncated_entries hlo hhi hpad hall, Run.close_raised]
    rfl
  case whole =>
    obtain ⟨hinvalid, hvalid⟩ := runHufMetaRd_of_whole hlo hhi hall
    refine ⟨fun info hinfo => ?_, fun hnone => ⟨fillLut s.lut (metaEntries s), ?_, fillLut_metaEntries s⟩⟩
    · rw [hinvalid info hinfo, Run.close_raised]
      rfl
    · rw [hvalid hnone, Run.close_ok]
      rfl

end Sys2Proof.Machine

/-! ## The LUT check (R178) -/

namespace Sys2Proof.Machine

section lutCheck
variable {m n i : Nat} {e : Nat → LutEntry}

/-- Check (a) fails (R178). -/
theorem lutFault_of_maxLen (hm : ¬(1 ≤ m ∧ m ≤ 31)) : lutFault m n e = some (lutInfo 1 m) :=
  if_pos (by simp only [Config.maxCwLen]; omega)

/-- Past check (a): check (b) fails (R178). -/
theorem lutFault_of_lutCnt (hm : 1 ≤ m ∧ m ≤ 31) (hn : ¬(2 ≤ n ∧ n ≤ 256)) :
    lutFault m n e = some (lutInfo 2 n) := by
  rw [lutFault, if_neg (by simp only [Config.maxCwLen]; omega),
    if_pos (by simp only [Config.lutEntries]; omega)]

/-- Past checks (a) and (b): the first entry with a fault gives the info (R178). -/
theorem lutFault_of_entry (hm : 1 ≤ m ∧ m ≤ 31) (hn : 2 ≤ n ∧ n ≤ 256) (hi : i < n)
    (hbefore : ∀ j, j < i → entryFault m e j = none) {info : DWord} (hfault : entryFault m e i = some info) :
    lutFault m n e = some info := by
  rw [lutFault, if_neg (by simp only [Config.maxCwLen]; omega),
    if_neg (by simp only [Config.lutEntries]; omega)]
  refine entriesFault_some n 0 i hi (fun j hj => ?_) ?_
  · rw [Nat.zero_add, hbefore j hj]
  · rw [Nat.zero_add, hfault]

/-- Check (c) fails (R178). -/
theorem entryFault_of_first (h : i = 0 ∧ (e 0).val.toNat ≠ 0) : entryFault m e i = some (lutInfo 3 i) := if_pos h

/-- Check (d) fails (R178). -/
theorem entryFault_of_order (h : 0 < i ∧ ¬(e (i - 1)).val.toNat < (e i).val.toNat) :
    entryFault m e i = some (lutInfo 4 i) := by
  rw [entryFault, if_neg (by omega), if_pos (by omega)]

section
variable (hfirst : i = 0 → (e 0).val.toNat = 0) (horder : 0 < i → (e (i - 1)).val.toNat < (e i).val.toNat)
include hfirst horder

/-- Past checks (c) and (d): check (e) fails (R178). -/
theorem entryFault_of_len (hlen : ¬(1 ≤ (e i).len.toNat ∧ (e i).len.toNat ≤ m)) :
    entryFault m e i = some (lutInfo 5 i) := by
  rw [entryFault, if_neg (by tauto), if_neg (by omega), if_pos (by omega)]

/-- Past checks (c) to (e): check (f) fails (R178). -/
theorem entryFault_of_val (hlen : 1 ≤ (e i).len.toNat ∧ (e i).len.toNat ≤ m) (hval : ¬(e i).val.toNat < 2 ^ m) :
    entryFault m e i = some (lutInfo 6 i) := by
  rw [entryFault, if_neg (by tauto), if_neg (by omega), if_neg (by omega), if_pos (by omega)]

end

end lutCheck

/-- Settles O34: validity is `lutFault_none`; each failing check gives its own info, behind the passed ones. -/
theorem lutCheckIsTheValidityPredicate : Obligations.LutCheckIsTheValidityPredicate := by
  intro m n e
  refine ⟨lutFault_none, lutFault_of_maxLen, fun hm1 hm31 => ⟨lutFault_of_lutCnt ⟨hm1, hm31⟩, ?entries⟩⟩
  intro hn2 hn256 i hi hbefore
  have hfaults : ∀ {info : DWord}, entryFault m e i = some info → lutFault m n e = some info :=
    lutFault_of_entry ⟨hm1, hm31⟩ ⟨hn2, hn256⟩ hi hbefore
  exact ⟨fun hc => hfaults (entryFault_of_first hc), fun hd => hfaults (entryFault_of_order hd),
    fun hfirst horder => ⟨fun he => hfaults (entryFault_of_len hfirst horder he),
      fun hlen1 hlenm hf => hfaults (entryFault_of_val hfirst horder ⟨hlen1, hlenm⟩ hf)⟩⟩

end Sys2Proof.Machine

/-! ## HUF_DEC (R179, R181) -/

namespace Sys2Proof.Machine

/-- With the reader's region inside LMEM, HUF_DEC ends where its run does (R10). -/
theorem exec_hufDec {s : State} (h : readerOk s = true) : exec .hufDec s = .next (runHufDec s).close :=
  finishReader_of_ok h

/-- HUF_DEC's run with a LUT that is not valid (R178, R181). -/
theorem runHufDec_of_invalidLut {s : State} {info : DWord}
    (hl : lutFault s.maxLen.toNat s.lutCnt.toNat (lutAt s.lut) = some info) :
    runHufDec s = .raised .invalidLut info s := by
  simp only [runHufDec, hl]

section valid
variable {s : State} (hl : lutFault s.maxLen.toNat s.lutCnt.toNat (lutAt s.lut) = none)
include hl

/-- HUF_DEC's run on a destination region that ends past LMEM (R66, R181). -/
theorem runHufDec_of_outside (h : s.params.lmemSize < s.dstAddr.toNat + s.dstLen.toNat) :
    runHufDec s = .raised .outOfRange (s.dstAddr.zeroExtend 64 + s.dstLen.zeroExtend 64) s := by
  simp only [runHufDec, hl, requireValid_dst_fails h, Run.andThen_raised]

/-- HUF_DEC's run with COUNT above DST_LEN (R181). -/
theorem runHufDec_of_count (h : s.dstAddr.toNat + s.dstLen.toNat ≤ s.params.lmemSize)
    (hc : s.dstLen.toNat < s.count.toNat) : runHufDec s = .raised .outOfRange s.count s := by
  simp only [runHufDec, hl, requireValid_dst h, Run.andThen_ok, if_pos hc]

/-- HUF_DEC's run on a destination region that overlaps the reader's (R67, R181). -/
theorem runHufDec_of_overlap (h : s.dstAddr.toNat + s.dstLen.toNat ≤ s.params.lmemSize)
    (hc : s.count.toNat ≤ s.dstLen.toNat) (ho : (readerRegion s).overlaps (dstRegion s) = true) :
    runHufDec s = .raised .overlap 0 s := by
  simp only [runHufDec, hl, requireValid_dst h, Run.andThen_ok, if_neg (Nat.not_lt.2 hc),
    requireDisjoint_of_overlap ho, Run.andThen_raised]

/-- HUF_DEC's run past its checks: the window's L bits, and then the loop over COUNT symbols (R181). -/
theorem runHufDec_of_disjoint (h : s.dstAddr.toNat + s.dstLen.toNat ≤ s.params.lmemSize)
    (hc : s.count.toNat ≤ s.dstLen.toNat) (ho : (readerRegion s).overlaps (dstRegion s) = false) :
    runHufDec s = .ok () (decodeLoop s.count.toNat s.dstAddr.toNat
      (BitVec.ofNat 64 (valueOf (streamBits s s.rd.pos s.maxLen.toNat))) (afterRead s s.maxLen.toNat)) := by
  simp only [runHufDec, hl, requireValid_dst h, Run.andThen_ok, if_neg (Nat.not_lt.2 hc),
    requireDisjoint_of_disjoint ho, readBits_eq, afterRead_count, afterRead_dstAddr]

end valid

/-- The first COUNT bytes of a destination region that COUNT fits in are no bytes of a disjoint reader region (R67). -/
theorem readerRegion_not_contains_dst {s : State} (hc : s.count.toNat ≤ s.dstLen.toNat)
    (ho : (readerRegion s).overlaps (dstRegion s) = false) {j : Nat} (hj : j < s.count.toNat) :
    (readerRegion s).contains (s.dstAddr.toNat + j) = false := by
  have hin : (dstRegion s).contains (s.dstAddr.toNat + j) = true :=
    decide_eq_true ⟨Nat.le_add_right _ _, Nat.add_lt_add_left (hj.trans_le hc) _⟩
  exact not_contains_of_disjoint ho hin

/-- Settles O35: the four checks in order, and then `decodeLoop_spec` from the window at offset 0. -/
theorem hufDecDecodesCountSymbols : Obligations.HufDecDecodesCountSymbols := by
  refine ⟨by decide, fun s hrd => ?_⟩
  rw [exec_hufDec hrd]
  refine ⟨fun info hl => ?lut, fun hl => ⟨fun hout => ?outside, fun hin => ⟨fun hc => ?count, fun hc =>
    ⟨fun ho => ?overlap, fun ho => ?decode⟩⟩⟩⟩
  case lut => rw [runHufDec_of_invalidLut hl, Run.close_raised]
  case outside => rw [runHufDec_of_outside hl hout, Run.close_raised]
  case count => rw [runHufDec_of_count hl hin hc, Run.close_raised]
  case overlap => rw [runHufDec_of_overlap hl hin hc ho, Run.close_raised]
  case decode =>
    obtain ⟨q, m, hloop, hq0, hsymbols, hframe⟩ := decodeLoop_spec s (lutFault_none.1 hl) s.count.toNat
      s.dstAddr.toNat 0 s.lmem (fun _ _ => rfl) fun _ hj => readerRegion_not_contains_dst hc ho hj
    refine ⟨q, m, ?_, hq0, hsymbols, hframe⟩
    rw [BitVec.add_zero, Nat.add_zero] at hloop
    rw [runHufDec_of_disjoint hl hin hc ho, Run.close_ok]
    exact congrArg (fun t => Host.Outcome.next (complete t)) hloop

end Sys2Proof.Machine

/-! ## rnd_ha (R212) -/

namespace Sys2Proof.Machine.F64

/-- A pattern that is not finite has the exponent field of R219's infinities and NaNs. -/
theorem expField_of_not_finite {x : DWord} (h : isFinite x = false) : expField x = 2047 := by
  simpa [isFinite] using h

/-- The magnitudes of 2^52 or more are the exponent fields from 1075 up. -/
theorem two_pow_52_le_abs_value_iff (x : DWord) : 2 ^ 52 ≤ |value x| ↔ 1075 ≤ expField x := by
  have hbinade : magValue (1074 * 2 ^ 52 + 2 ^ 52) = 2 ^ 52 := by
    rw [magValue_carry (by norm_num) fun _ => le_rfl]
    norm_num
  have hfrac := frac_lt x
  rw [abs_value, ← hbinade, magValue_strictMono.le_iff_le, mag]
  omega

/-- rnd_ha returns a pattern with an exponent field from 1075 up as it is (R212). -/
theorem rndHa_of_large {x : DWord} (h : 1075 ≤ expField x) : rndHa x = x := if_pos h

section small
variable {x : DWord} (h : expField x < 1075)
include h

/-- Below 2^52 rnd_ha is the rounded magnitude under the sign (R212). -/
theorem rndHa_of_small : rndHa x = roundPack (neg x) (roundHalfAway x) 0 := if_neg (Nat.not_le.2 h)

/-- Below 2^52 the significand's last place is a fraction's. -/
theorem expo_neg_of_small : expo x < 0 := by
  unfold expo
  split_ifs <;> omega

/-- Below 2^52 the magnitude is the significand over a power of two. -/
theorem abs_value_of_small : |value x| = (mant x : ℚ) / (2 ^ (-expo x).toNat : ℕ) := by
  have hk : expo x = -((-expo x).toNat : ℤ) := by
    have := expo_neg_of_small h
    omega
  rw [abs_value, ← mant_mul_expo]
  conv_lhs => rw [hk, zpow_neg, zpow_natCast, ← div_eq_mul_inv]
  push_cast
  rfl

/-- Below 2^52 the rounded magnitude is floor |x|, plus 1 when the part below is at least one half (R212). -/
theorem roundHalfAway_eq : (roundHalfAway x : ℤ) =
    ⌊|value x|⌋ + if 1 / 2 ≤ |value x| - ⌊|value x|⌋ then 1 else 0 := by
  rw [abs_value_of_small h, Int.self_sub_floor, Int.fract_div_natCast_eq_div_natCast_mod,
    Rat.floor_natCast_div_natCast, roundHalfAway]
  generalize hN : 2 ^ (-expo x).toNat = N
  have hpos : (0 : ℚ) < N := by exact_mod_cast hN ▸ Nat.two_pow_pos _
  have hhalf : (1 : ℚ) / 2 ≤ ((mant x % N : ℕ) : ℚ) / N ↔ N ≤ 2 * (mant x % N) := by
    rw [div_le_div_iff₀ two_pos hpos, one_mul, mul_comm]
    norm_cast
  simp only [hhalf]
  split_ifs <;> push_cast <;> ring

end small

/-- The rounded magnitude is one that binary64 represents exactly. -/
theorem roundHalfAway_le (x : DWord) : roundHalfAway x ≤ 2 ^ 53 := by
  have hmant := mant_lt x
  have hquot := Nat.div_le_self (mant x) (2 ^ (-expo x).toNat)
  simp only [roundHalfAway]
  split_ifs <;> omega

end Sys2Proof.Machine.F64

namespace Sys2Proof.Machine

/-- Settles O40: the exponent field decides whether x is returned; else the rounded magnitude is an integer of at most
2^53, which packs exactly under x's sign. -/
theorem rndHaRoundsHalfAwayFromZero : Obligations.RndHaRoundsHalfAwayFromZero := by
  intro x
  refine ⟨fun hinf => ?special, fun _ => ⟨fun hlarge => ?large, fun hsmall => ?small⟩⟩
  case special => exact F64.rndHa_of_large (by rw [F64.expField_of_not_finite hinf]; norm_num)
  case large => exact F64.rndHa_of_large ((F64.two_pow_52_le_abs_value_iff x).1 hlarge)
  case small =>
    have hexp : F64.expField x < 1075 := by
      rwa [← not_le, F64.two_pow_52_le_abs_value_iff, not_le] at hsmall
    obtain ⟨hfinite, hvalue, hneg⟩ := F64.roundPack_int (F64.neg x) (F64.roundHalfAway_le x)
    rw [F64.rndHa_of_small hexp, ← F64.roundHalfAway_eq hexp]
    refine ⟨hfinite, hneg, ?_⟩
    rw [hvalue, abs_mul, Nat.abs_cast]
    cases F64.neg x <;> simp

end Sys2Proof.Machine

/-! ## QSCALE (R214) -/

namespace Sys2Proof.Machine

/-- QSCALE ends where its run does (R214). -/
theorem exec_qscale (s : State) : exec .qscale s = .next (runQscale s).close := rfl

/-- An entry of the scaled table (R214). -/
theorem getElem_scaledQ (s : State) (k : Fin 64) : (scaledQ s)[k.val] =
    F64.rndHa (F64.mul (nanAt s.draws k.val) (F64.ofNat s.params.qtable[k.val].toNat) s.quality) :=
  tabulate_get _ _ k.isLt

/-- A search through all indices in ascending order stops at the first that passes. -/
theorem find?_finRange_of_first {n : Nat} {p : Fin n → Bool} {k : Fin n} (hk : p k = true)
    (hbefore : ∀ j, j < k → p j = false) : (List.finRange n).find? p = some k := by
  rw [← Fin.find?_eq_find?_finRange]
  exact Fin.find?_eq_some_iff.2 ⟨hk, hbefore⟩

/-- QSCALE's run when every scaled entry is a finite value of at least 1 (R214). -/
theorem runQscale_of_good {s : State} (h : ∀ k : Fin 64, F64.finiteGeOne (scaledQ s)[k.val] = true) :
    runQscale s = .ok () { s with qs := scaledQ s } := by
  have hnone : (List.finRange 64).find? (fun k => !F64.finiteGeOne (scaledQ s)[k.val]) = none :=
    List.find?_eq_none.2 fun k _ => by simp [h k]
  simp only [runQscale, hnone]

/-- QSCALE's run when `k` is the first bad index (R214). -/
theorem runQscale_of_first_bad {s : State} {k : Fin 64} (hk : F64.finiteGeOne (scaledQ s)[k.val] = false)
    (hbefore : ∀ j : Fin 64, j < k → F64.finiteGeOne (scaledQ s)[j.val] = true) :
    runQscale s = .raised .quantRange (BitVec.ofNat 64 k.val) s := by
  have hfirst : (List.finRange 64).find? (fun k => !F64.finiteGeOne (scaledQ s)[k.val]) = some k :=
    find?_finRange_of_first (by simp [hk]) fun j hj => by simp [hbefore j hj]
  simp only [runQscale, hfirst]

/-- Settles O41: the scaled table is `scaledQ`, and its test (`finiteGeOne_iff`) at the first bad index, if there is
one, decides between the new QS and the raise. -/
theorem qscaleScalesTheTable : Obligations.QscaleScalesTheTable := by
  refine ⟨by decide, fun s => ⟨fun k => nanAt s.draws k.val, fun k => nanAt_quiet s.draws k.val, ?_⟩⟩
  simp only [← getElem_scaledQ, ← finiteGeOne_iff, exec_qscale]
  refine ⟨fun hgood => ⟨scaledQ s, ?scaled, fun _ => rfl⟩, fun k hbad hbefore => ?raised⟩
  case scaled => rw [runQscale_of_good hgood, Run.close_ok]
  case raised => rw [runQscale_of_first_bad (Bool.eq_false_iff.2 hbad) hbefore, Run.close_raised]

end Sys2Proof.Machine

/-! ## QUANT and DEQUANT (R217, R218) -/

namespace Sys2Proof.Machine

/-- QUANT is completion with BLK quantised (R217). -/
theorem exec_quant (s : State) : exec .quant s = .next (complete { s with blk := quantised s }) := rfl

/-- DEQUANT is completion with BLK dequantised (R218). -/
theorem exec_dequant (s : State) : exec .dequant s = .next (complete { s with blk := dequantised s }) := rfl

/-- An element of the quantised block (R217). -/
theorem getElem_quantised (s : State) (k : Fin 64) :
    (quantised s)[k.val] = F64.rndHa (F64.div (nanAt s.draws k.val) s.blk[k.val] s.qs[k.val]) :=
  tabulate_get _ _ k.isLt

/-- An element of the dequantised block (R218). -/
theorem getElem_dequantised (s : State) (k : Fin 64) :
    (dequantised s)[k.val] = F64.rndHa (F64.mul (nanAt s.draws k.val) s.blk[k.val] s.qs[k.val]) :=
  tabulate_get _ _ k.isLt

/-- Settles O43: each command is completion with its tabulated block, and the NaN pattern of element k is `nanAt`'s. -/
theorem quantAndDequantRoundElementwise : Obligations.QuantAndDequantRoundElementwise := by
  refine ⟨by decide, by decide, fun s => ?_⟩
  have hquiet : ∀ k : Fin 64, F64.isQuietNan (nanAt s.draws k.val) = true := fun k => nanAt_quiet s.draws k.val
  exact ⟨⟨_, quantised s, hquiet, exec_quant s, getElem_quantised s⟩,
    ⟨_, dequantised s, hquiet, exec_dequant s, getElem_dequantised s⟩⟩

end Sys2Proof.Machine

/-! ## RLE_PACK (R243, R244) -/

namespace Sys2Proof.Machine

/-- With the writer's region inside LMEM, RLE_PACK ends where its run does (R10). -/
theorem exec_rlePack {s : State} (h : writerOk s = true) : exec .rlePack s = .next (runRlePack s).close :=
  finishWriter_of_ok h

/-- RLE_PACK's run when `k` is the first index whose value cannot be coded: nothing is written (R244). -/
theorem runRlePack_of_first_uncodable {s : State} {k : Fin 64} (hk : rleCodable s.seq[k.val] = false)
    (hbefore : ∀ j : Fin 64, j < k → rleCodable s.seq[j.val] = true) :
    runRlePack s = .raised .outOfRange (BitVec.ofNat 64 k.val) s := by
  have hfirst : (List.finRange 64).find? (fun k => !rleCodable s.seq[k.val]) = some k :=
    find?_finRange_of_first (by simp [hk]) fun j hj => by simp [hbefore j hj]
  simp only [runRlePack, hfirst]

/-- RLE_PACK's run when every value can be coded is the stream of R243 through the writer (R244). -/
theorem runRlePack_of_codable {s : State} (h : ∀ k : Fin 64, rleCodable s.seq[k.val] = true) :
    runRlePack s = writeBitList (rleStream s.seq) s := by
  have hnone : (List.finRange 64).find? (fun k => !rleCodable s.seq[k.val]) = none :=
    List.find?_eq_none.2 fun k _ => by simp [h k]
  simp only [runRlePack, hnone, writeFields_eq_list, rleStream_fields]

/-- Settles O45: the check of every value, and then one bit string through the writer. -/
theorem rlePackAppendsTheStream : Obligations.RlePackAppendsTheStream := by
  refine ⟨by decide, fun s hwr hacc => ?_⟩
  rw [exec_rlePack hwr]
  refine ⟨fun k hk hbefore => ?uncodable, fun hall => ⟨rleStream_length s.seq, ?append⟩⟩
  case uncodable => rw [runRlePack_of_first_uncodable hk hbefore, Run.close_raised]
  case append => exact close_writeBitList (writerReady_of hwr hacc) (runRlePack_of_codable hall)

end Sys2Proof.Machine

/-! ## RLE_UNPACK (R245) -/

namespace Sys2Proof.Machine

/-- With the reader's region inside LMEM, RLE_UNPACK ends where its run does (R10). -/
theorem exec_rleUnpack {s : State} (h : readerOk s = true) : exec .rleUnpack s = .next (runRleUnpack s).close :=
  finishReader_of_ok h

/-- Data pairs fill ever higher places, so within the first 65 pairs one does not fit (R245). -/
theorem exists_first_not_dataPair (s : State) : ∃ j, j ≤ 64 ∧ (∀ i, i < j → dataPair s i) ∧ ¬dataPair s j := by
  classical
  have h64 : ¬dataPair s 64 := fun ⟨_, _, hplace⟩ => by
    have hge := placeAt_ge s 64
    omega
  have hex : ∃ j, ¬dataPair s j := ⟨64, h64⟩
  exact ⟨Nat.find hex, Nat.find_min' hex h64, fun i hi => not_not.1 (Nat.find_min hex hi), Nat.find_spec hex⟩

/-- Pair j raises BadData: it is truncated, a zero value with a skip, or past index 63 (R245). -/
def badPair (s : State) (j : Nat) : Prop :=
  padCount s (24 * (j + 1)) ≠ 0 ∨ (pairAt s j = 0 ∧ skipAt s j ≠ 0) ∨ (pairAt s j ≠ 0 ∧ 63 < placeAt s j)

/-- `S` holds the values of the first j pairs at their places, and +0.0 elsewhere (R245). -/
def pairsPlaced (s : State) (j : Nat) (S : Vector DWord 64) : Prop :=
  (∀ i (h : placeAt s i < 64), i < j → S[placeAt s i] = F64.ofInt (BitVec.ofNat 16 (pairAt s i)).toInt) ∧
    ∀ k : Fin 64, (∀ i, i < j → placeAt s i ≠ k.val) → S[k.val] = 0

section turn
variable (fuel : Nat) (S : Vector DWord 64) {s : State} {j : Nat} (hj : j ≤ 64)
include hj

/-- A turn of RLE_UNPACK's loop at a pair that fails raises BadData after it (R245). -/
theorem unpackLoop_of_badPair (hbad : badPair s j) :
    unpackLoop (fuel + 1) s.rd.pad S (nextPlace s j) (afterRead s (24 * j)) =
      .raised .badData (afterRead s (24 * (j + 1))).rd.pos (afterRead s (24 * (j + 1))) := by
  rw [unpackLoop_step fuel S j s hj]
  obtain hpad | ⟨hvalue, hskip⟩ | ⟨hvalue, hpast⟩ := hbad
  · rw [if_pos hpad]
  · have hdata : ¬(skipAt s j = 0 ∧ pairAt s j = 0) := fun h => hskip h.1
    rw [if_neg hdata, if_pos hvalue, ite_self]
  · have hdata : ¬(skipAt s j = 0 ∧ pairAt s j = 0) := fun h => hvalue h.2
    rw [if_neg hdata, if_neg hvalue, if_pos hpast, ite_self]

/-- A turn of RLE_UNPACK's loop at the sentinel ends it (R245). -/
theorem unpackLoop_of_sentinel (hpad : padCount s (24 * (j + 1)) = 0) (hvalue : pairAt s j = 0)
    (hskip : skipAt s j = 0) :
    unpackLoop (fuel + 1) s.rd.pad S (nextPlace s j) (afterRead s (24 * j)) = .ok S (afterRead s (24 * (j + 1))) := by
  rw [unpackLoop_step fuel S j s hj, if_neg (not_not.2 hpad), if_pos ⟨hskip, hvalue⟩]

end turn

section pairs
variable {s : State} {j : Nat} (hd : ∀ i, i < j → dataPair s i)
include hd

/-- RLE_UNPACK's run behind j data pairs that fit: the loop goes on at pair j, with their values placed (R245). -/
theorem runRleUnpack_behind_dataPairs : j ≤ 64 ∧ ∃ S, pairsPlaced s j S ∧ runRleUnpack s =
    (unpackLoop (64 - j + 1) s.rd.pad S (nextPlace s j) (afterRead s (24 * j))).andThen
      fun S t => .ok () { t with seq := S } := by
  obtain ⟨hj, S, hloop, hplaced⟩ := unpack_run s hd j le_rfl
  refine ⟨hj, S, hplaced, ?_⟩
  rw [runRleUnpack, hloop, show 65 - j = 64 - j + 1 by omega]

/-- RLE_UNPACK's run when the pair behind j data pairs fails: SEQ is unchanged (R245). -/
theorem runRleUnpack_of_badPair (hbad : badPair s j) : runRleUnpack s =
    .raised .badData (afterRead s (24 * (j + 1))).rd.pos (afterRead s (24 * (j + 1))) := by
  obtain ⟨hj, S, -, hrun⟩ := runRleUnpack_behind_dataPairs hd
  rw [hrun, unpackLoop_of_badPair _ S hj hbad, Run.andThen_raised]

/-- RLE_UNPACK's run when the pair behind j data pairs is the sentinel: SEQ is written (R245). -/
theorem runRleUnpack_of_sentinel (hpad : padCount s (24 * (j + 1)) = 0) (hvalue : pairAt s j = 0)
    (hskip : skipAt s j = 0) : ∃ S, pairsPlaced s j S ∧
      runRleUnpack s = .ok () { afterRead s (24 * (j + 1)) with seq := S } := by
  obtain ⟨hj, S, hplaced, hrun⟩ := runRleUnpack_behind_dataPairs hd
  refine ⟨S, hplaced, ?_⟩
  rw [hrun, unpackLoop_of_sentinel _ S hj hpad hvalue hskip, Run.andThen_ok]

end pairs

/-- Settles O46: behind the data pairs that fit, the loop's next turn decides, and its ways to fail are `badPair`'s. -/
theorem rleUnpackExpandsTheStream : Obligations.RleUnpackExpandsTheStream := by
  refine ⟨by decide, fun s hrd => ⟨exists_first_not_dataPair s, fun j hd => ?_⟩⟩
  intro after
  rw [exec_rleUnpack hrd]
  have hraise : badPair s j → (.next (runRleUnpack s).close : Host.Outcome State Fault Refusal) =
      .next (trapEntry .badData after.rd.pos after) := fun hbad => by
    rw [runRleUnpack_of_badPair hd hbad, Run.close_raised]
  refine ⟨fun hpad => hraise (.inl hpad), fun hpad =>
    ⟨fun hvalue hskip => hraise (.inr (.inl ⟨hvalue, hskip⟩)),
      fun hvalue hpast => hraise (.inr (.inr ⟨hvalue, hpast⟩)), fun hvalue hskip => ?sentinel⟩⟩
  case sentinel =>
    obtain ⟨S, hplaced, hrun⟩ := runRleUnpack_of_sentinel hd hpad hvalue hskip
    exact ⟨S, by rw [hrun, Run.close_ok], hplaced⟩

end Sys2Proof.Machine

/-! ## DELTA_ENC (R259, R260) -/

namespace Sys2Proof.Machine

/-- With the writer's region inside LMEM, DELTA_ENC ends where its run does (R10). -/
theorem exec_deltaEnc {s : State} (h : writerOk s = true) : exec .deltaEnc s = .next (runDeltaEnc s).close :=
  finishWriter_of_ok h

/-- DELTA_ENC's run on a source region that ends past LMEM (R66, R260). -/
theorem runDeltaEnc_of_invalid {s : State} (h : s.params.lmemSize < s.srcAddr.toNat + s.srcLen.toNat) :
    runDeltaEnc s = .raised .outOfRange (s.srcAddr.zeroExtend 64 + s.srcLen.zeroExtend 64) s := by
  rw [runDeltaEnc, requireValid_src_fails h, Run.andThen_raised]

/-- DELTA_ENC's run on a source region that overlaps the writer's (R67, R260). -/
theorem runDeltaEnc_of_overlap {s : State} (h : s.srcAddr.toNat + s.srcLen.toNat ≤ s.params.lmemSize)
    (ho : (srcRegion s).overlaps (writerRegion s) = true) : runDeltaEnc s = .raised .overlap 0 s := by
  rw [runDeltaEnc, requireValid_src h, Run.andThen_ok, requireDisjoint_of_overlap ho, Run.andThen_raised]

/-- DELTA_ENC's run past its checks: the record as one bit string through the writer, and then DLEN (R260). -/
theorem runDeltaEnc_of_disjoint {s : State} (h : s.srcAddr.toNat + s.srcLen.toNat ≤ s.params.lmemSize)
    (ho : (srcRegion s).overlaps (writerRegion s) = false) :
    runDeltaEnc s = (writeBitList (deltaRecord (regionBytes s (srcRegion s))) s).andThen
      fun _ t => .ok () { t with dLen := s.srcLen.zeroExtend 64 } := by
  rw [runDeltaEnc, requireValid_src h, Run.andThen_ok, requireDisjoint_of_disjoint ho, Run.andThen_ok,
    writeFields_eq_list, deltaFields_bits]

/-- A run that ends with an update of the state after one bit string through the writer: the update when the bits fit,
and otherwise OutOfRange after those that fit, with no update (R145, R282). -/
theorem close_writeBitList_update {s : State} {bits : List Bool} {r : Run Unit} (f : State → State)
    (hw : writerReady s.wr) (hr : r = (writeBitList bits s).andThen fun _ t => .ok () (f t)) :
    (roomFor s.wr bits.length → ∃ t,
      (.next r.close : Host.Outcome State Fault Refusal) = .next (complete (f t)) ∧ Appends s t bits) ∧
    (¬roomFor s.wr bits.length → ∃ t,
      (.next r.close : Host.Outcome State Fault Refusal) =
        .next (trapEntry .outOfRange (s.wr.base.zeroExtend 64 + s.wr.cap.zeroExtend 64) t) ∧
      Appends s t (bits.take (8 * s.wr.cap.toNat + 7 - writtenBits s.wr)) ∧
      t.wr.nacc = 7 ∧ t.wr.bytes = s.wr.cap) := by
  subst hr
  refine ⟨fun hroom => ?fits, fun hroom => ?overflows⟩
  case fits =>
    obtain ⟨t, ht, happ⟩ := writeBitList_appends bits hw hroom
    exact ⟨t, by rw [ht, Run.andThen_ok, Run.close_ok], happ⟩
  case overflows =>
    obtain ⟨t, ht, happ⟩ := writeBitList_overflow bits hw hroom
    exact ⟨t, by rw [ht, Run.andThen_raised, Run.close_raised]; rfl, happ⟩

/-- Settles O48: the two checks in order, and then one bit string through the writer, with DLEN behind it. -/
theorem deltaEncAppendsTheRecord : Obligations.DeltaEncAppendsTheRecord := by
  refine ⟨by decide, fun s hwr hacc => ?_⟩
  rw [exec_deltaEnc hwr]
  refine ⟨fun hout => ?outside, fun hin => ⟨fun ho => ?overlap, fun ho => ⟨?length, ?append⟩⟩⟩
  case outside => rw [runDeltaEnc_of_invalid hout, Run.close_raised]
  case overlap => rw [runDeltaEnc_of_overlap hin ho, Run.close_raised]
  case length => rw [deltaRecord_length, regionBytes_length, srcRegion]
  case append =>
    obtain ⟨hfit, hfull⟩ := close_writeBitList_update _ (writerReady_of hwr hacc) (runDeltaEnc_of_disjoint hin ho)
    refine ⟨fun hroom => ?_, hfull⟩
    obtain ⟨t, ht, happ⟩ := hfit hroom
    exact ⟨t, _, ht, rfl, happ⟩

end Sys2Proof.Machine

/-! ## DELTA_DEC (R261) -/

namespace Sys2Proof.Machine

/-- N of the record at R_POS (R259). -/
def deltaCount (s : State) : Nat := valueOf (streamBits s s.rd.pos 64)

/-- The bits of the record at R_POS before its sign stream: N, the magnitudes and S (R259). -/
def deltaHead (s : State) : Nat := 128 + 8 * deltaCount s

/-- M[i] of the record at R_POS (R259). -/
def deltaMagnitude (s : State) (i : Nat) : Nat :=
  valueOf (streamBits s (s.rd.pos + BitVec.ofNat 64 (64 + 8 * i)) 8)

/-- S of the record at R_POS (R259). -/
def deltaSignBytes (s : State) : Nat :=
  valueOf (streamBits s (s.rd.pos + BitVec.ofNat 64 (64 + 8 * deltaCount s)) 64)

/-- G[j] of the record at R_POS: the difference is negative (R259). -/
def deltaMinus (s : State) (j : Nat) : Bool := streamBit s (s.rd.pos + BitVec.ofNat 64 (deltaHead s + j))

/-- The value that R261 rebuilds at index `i` from the record at R_POS and the bytes `x` before it. -/
def deltaRebuilt (s : State) (x : Nat → Byte) (i : Nat) : Int :=
  if i < 3 then deltaMagnitude s i
  else if deltaMinus s (i - 3) then ((x (i - 3)).toNat : Int) - deltaMagnitude s i
  else ((x (i - 3)).toNat : Int) + deltaMagnitude s i

/-- The magnitudes as DELTA_DEC reads them (R261). -/
def deltaMagnitudes (s : State) : List Byte :=
  (fieldValues s (s.rd.pos + BitVec.ofNat 64 64) (List.replicate (deltaCount s) 8)).map (·.setWidth 8)

/-- The sign bits as DELTA_DEC reads them (R261). -/
def deltaSigns (s : State) : List Bool :=
  (fieldValues s (s.rd.pos + BitVec.ofNat 64 (deltaHead s)) (List.replicate (8 * deltaSignBytes s) 1)).map
    fun g => decide (g ≠ 0)

/-- LMEM `m` is that of `s` with the first `k` of the bytes `x` at DST_ADDR (R261). -/
def storesBytes (s : State) (x : Nat → Byte) (k : Nat) (m : List Host.Cell) : Prop :=
  ∀ a, Memory.read? m a =
    if s.dstAddr.toNat ≤ a ∧ a < s.dstAddr.toNat + k then some (x (a - s.dstAddr.toNat))
    else Memory.read? s.lmem a

/-! ### The record's fields as they are read -/

theorem toNat_deltaCount (s : State) : (BitVec.ofNat 64 (deltaCount s)).toNat = deltaCount s :=
  toNat_streamBits s _ (by decide)

theorem toNat_deltaSignBytes (s : State) : (BitVec.ofNat 64 (deltaSignBytes s)).toNat = deltaSignBytes s :=
  toNat_streamBits s _ (by decide)

/-- Magnitude `i` read is the value of the eight bits at its place in the record (R259). -/
theorem deltaMagnitudes_getD {s : State} {i : Nat} (hi : i < deltaCount s) :
    ((deltaMagnitudes s).getD i 0).toNat = deltaMagnitude s i := by
  have hlt : deltaMagnitude s i < 2 ^ 8 := valueOf_streamBits_lt s _ 8
  have hbyte : (deltaMagnitudes s)[i]? = some (BitVec.ofNat 8 (deltaMagnitude s i)) := by
    rw [deltaMagnitudes, List.getElem?_map, fieldValues_replicate s 8 _ _ _ hi, BitVec.add_assoc,
      ← BitVec.ofNat_add, Option.map_some, BitVec.setWidth_ofNat_of_le (by decide), deltaMagnitude]
  rw [List.getD_eq_getElem?_getD, hbyte, Option.getD_some, BitVec.toNat_ofNat, Nat.mod_eq_of_lt hlt]

/-- A field of one bit is 0 exactly when the bit is. -/
theorem ofNat_streamBits_one_ne_zero (s : State) (p : DWord) :
    decide (BitVec.ofNat 64 (valueOf (streamBits s p 1)) ≠ 0) = streamBit s p := by
  have hbit : streamBits s p 1 = [streamBit s p] := by simp [streamBits]
  rw [hbit]
  cases streamBit s p <;> decide

/-- Sign bit `j` read is the bit at its place in the record (R259). -/
theorem deltaSigns_getD {s : State} {j : Nat} (hj : j < 8 * deltaSignBytes s) :
    (deltaSigns s).getD j false = deltaMinus s j := by
  rw [List.getD_eq_getElem?_getD, deltaSigns, List.getElem?_map, fieldValues_replicate s 1 _ _ _ hj,
    BitVec.add_assoc, ← BitVec.ofNat_add, Nat.one_mul, Option.map_some, Option.getD_some,
    ofNat_streamBits_one_ne_zero, deltaMinus]

/-- With enough sign bits, the loop's value at each index below N is the record's (R261). -/
theorem rebuildAt_record {s : State} (hsigns : deltaCount s - 3 ≤ 8 * deltaSignBytes s) (x : Nat → Byte) {i : Nat}
    (hi : i < deltaCount s) :
    rebuildAt (deltaMagnitudes s) (deltaSigns s) ((List.range i).map x) i = deltaRebuilt s x i := by
  rw [rebuildAt_eq, deltaRebuilt, deltaMagnitudes_getD hi]
  by_cases hverbatim : i < 3
  · rw [if_pos hverbatim, if_pos hverbatim]
  · rw [if_neg hverbatim, if_neg hverbatim, deltaSigns_getD (by omega)]

/-- A turn of DELTA_DEC's loop at a value outside 0..255 raises BadData with its index, and stores nothing (R261). -/
theorem rebuildLoop_of_not_byte {ms : List Byte} {gs : List Bool} {xs : List Byte} (dst k : Nat) (s : State)
    (h : rebuildAt ms gs xs xs.length < 0 ∨ 255 < rebuildAt ms gs xs xs.length) :
    rebuildLoop ms gs dst (k + 1) xs s = .raised .badData (BitVec.ofNat 64 xs.length) s := by
  rw [rebuildLoop]
  exact if_pos h

/-- When none of the next bits is past the end, the position behind them is not past it either (R141). -/
theorem toNat_pos_add_le_of_padCount_eq_zero {s : State} {n : Nat} (hn : 0 < n) (h : padCount s n = 0) :
    (s.rd.pos + BitVec.ofNat 64 n).toNat ≤ 8 * s.rd.len.toNat := by
  obtain ⟨k, rfl⟩ := Nat.exists_eq_succ_of_ne_zero hn.ne'
  have hlast : ¬pastEnd s (s.rd.pos + BitVec.ofNat 64 k) = true :=
    List.countP_eq_zero.1 h k (List.mem_range.2 k.lt_succ_self)
  have hlt : (s.rd.pos + BitVec.ofNat 64 k).toNat / 8 < s.rd.len.toNat := by simpa [pastEnd] using hlast
  rw [Nat.succ_eq_add_one, BitVec.ofNat_add, ← BitVec.add_assoc, BitVec.toNat_add]
  refine (Nat.mod_le _ _).trans ?_
  rw [BitVec.toNat_ofNat]
  omega

/-- A record's head that the destination's length bounds under-ran exactly when PADBITS has moved (R141, R261). -/
theorem afterRead_deltaHead_pad_ne_iff {s : State} (hn : deltaCount s ≤ s.dstLen.toNat) :
    (afterRead s (deltaHead s)).rd.pad ≠ s.rd.pad ↔ padCount s (deltaHead s) ≠ 0 := by
  have hlt : deltaHead s < 2 ^ 64 := by
    have hdst := s.dstLen.isLt
    rw [deltaHead]
    omega
  exact afterRead_pad_ne_iff s hlt

/-! ### The run, check by check -/

/-- With the reader's region inside LMEM, DELTA_DEC ends where its run does (R10). -/
theorem exec_deltaDec {s : State} (h : readerOk s = true) : exec .deltaDec s = .next (runDeltaDec s).close :=
  finishReader_of_ok h

/-- DELTA_DEC's run on a destination region that ends past LMEM (R66, R261). -/
theorem runDeltaDec_of_invalid {s : State} (h : s.params.lmemSize < s.dstAddr.toNat + s.dstLen.toNat) :
    runDeltaDec s = .raised .outOfRange (s.dstAddr.zeroExtend 64 + s.dstLen.zeroExtend 64) s := by
  rw [runDeltaDec, requireValid_dst_fails h, Run.andThen_raised]

section valid
variable {s : State} (hin : s.dstAddr.toNat + s.dstLen.toNat ≤ s.params.lmemSize)
include hin

/-- DELTA_DEC's run on a destination region that overlaps the reader's (R67, R261). -/
theorem runDeltaDec_of_overlap (ho : (readerRegion s).overlaps (dstRegion s) = true) :
    runDeltaDec s = .raised .overlap 0 s := by
  rw [runDeltaDec, requireValid_dst hin, Run.andThen_ok, requireDisjoint_of_overlap ho, Run.andThen_raised]

variable (ho : (readerRegion s).overlaps (dstRegion s) = false)
include ho

/-- The run past its region checks: the two checks of N, with the rest of the record read behind them (R261). -/
theorem runDeltaDec_of_disjoint : runDeltaDec s =
    if (afterRead s 64).rd.pad ≠ s.rd.pad then .raised .badData (afterRead s 64).rd.pos (afterRead s 64)
    else if s.dstLen.toNat < deltaCount s then .raised .outOfRange (BitVec.ofNat 64 (deltaCount s)) (afterRead s 64)
    else deltaDecTail (deltaCount s) (deltaMagnitudes s) s.rd.pad (BitVec.ofNat 64 (deltaSignBytes s))
      (afterRead s (deltaHead s)) := by
  have hn : (BitVec.ofNat 64 (valueOf (streamBits s s.rd.pos 64))).toNat = deltaCount s := toNat_deltaCount s
  have hhead : 64 + 8 * deltaCount s + 64 = deltaHead s := by rw [deltaHead]; omega
  simp only [runDeltaDec, requireValid_dst hin, requireDisjoint_of_disjoint ho, Run.andThen_ok, readBits_eq,
    readFields_eq, afterRead_add, fieldValues_afterRead, streamBits_afterRead, afterRead_rd_pos, afterRead_dstLen,
    List.sum_replicate_nat, hn, Nat.mul_comm (deltaCount s) 8, hhead]
  rfl

/-- The run on a record truncated in N (R261). -/
theorem runDeltaDec_of_truncated_count (hpad : padCount s 64 ≠ 0) :
    runDeltaDec s = .raised .badData (s.rd.pos + 64) (afterRead s 64) := by
  rw [runDeltaDec_of_disjoint hin ho, if_pos ((afterRead_pad_ne_iff s (by decide)).2 hpad)]
  rfl

variable (hcount : padCount s 64 = 0)
include hcount

/-- The run on a record of more bytes than the destination holds (R261). -/
theorem runDeltaDec_of_count (hn : s.dstLen.toNat < deltaCount s) :
    runDeltaDec s = .raised .outOfRange (BitVec.ofNat 64 (deltaCount s)) (afterRead s 64) := by
  rw [runDeltaDec_of_disjoint hin ho, if_neg ((afterRead_pad_ne_iff s (by decide)).not_left.2 hcount), if_pos hn]

variable (hn : deltaCount s ≤ s.dstLen.toNat)
include hn

/-- The run on a record whose N passes its checks (R261). -/
theorem runDeltaDec_of_counted : runDeltaDec s =
    deltaDecTail (deltaCount s) (deltaMagnitudes s) s.rd.pad (BitVec.ofNat 64 (deltaSignBytes s))
      (afterRead s (deltaHead s)) := by
  rw [runDeltaDec_of_disjoint hin ho, if_neg ((afterRead_pad_ne_iff s (by decide)).not_left.2 hcount),
    if_neg (Nat.not_lt.2 hn)]

/-- The run on a record truncated in its magnitudes or in S (R261). -/
theorem runDeltaDec_of_truncated_head (hhead : padCount s (deltaHead s) ≠ 0) : runDeltaDec s =
    .raised .badData (s.rd.pos + BitVec.ofNat 64 (deltaHead s)) (afterRead s (deltaHead s)) := by
  rw [runDeltaDec_of_counted hin ho hcount hn, deltaDecTail,
    if_pos ((afterRead_deltaHead_pad_ne_iff hn).2 hhead), afterRead_rd_pos]

variable (hhead : padCount s (deltaHead s) = 0)
include hhead

/-- The run on a record with a whole head: the two checks of S, the sign stream, and the loop over the bytes (R261). -/
theorem runDeltaDec_of_whole_head : runDeltaDec s =
    if 8 * deltaSignBytes s < deltaCount s - 3 then
      .raised .badData (BitVec.ofNat 64 (deltaSignBytes s)) (afterRead s (deltaHead s))
    else if 8 * s.rd.len.toNat < 8 * deltaSignBytes s + (s.rd.pos + BitVec.ofNat 64 (deltaHead s)).toNat then
      .raised .badData (s.rd.pos + BitVec.ofNat 64 (deltaHead s)) (afterRead s (deltaHead s))
    else
      (rebuildLoop (deltaMagnitudes s) (deltaSigns s) s.dstAddr.toNat (deltaCount s) []
        (afterRead s (deltaHead s + 8 * deltaSignBytes s))).andThen fun _ v =>
          .ok () { v with dLen := BitVec.ofNat 64 (deltaCount s) } := by
  rw [runDeltaDec_of_counted hin ho hcount hn, deltaDecTail,
    if_neg ((afterRead_deltaHead_pad_ne_iff hn).not_left.2 hhead), toNat_deltaSignBytes, readFields_eq,
    List.sum_replicate_nat, Nat.mul_one, afterRead_add, fieldValues_afterRead]
  rfl

/-- The run on a record with too few sign bits (R261). -/
theorem runDeltaDec_of_few_signs (hsigns : 8 * deltaSignBytes s < deltaCount s - 3) : runDeltaDec s =
    .raised .badData (BitVec.ofNat 64 (deltaSignBytes s)) (afterRead s (deltaHead s)) := by
  rw [runDeltaDec_of_whole_head hin ho hcount hn hhead, if_pos hsigns]

variable (hsigns : deltaCount s - 3 ≤ 8 * deltaSignBytes s)
include hsigns

/-- The run on a record whose sign stream goes past the reader's end (R261). -/
theorem runDeltaDec_of_signs_past_end
    (hend : 8 * s.rd.len.toNat - (s.rd.pos + BitVec.ofNat 64 (deltaHead s)).toNat < 8 * deltaSignBytes s) :
    runDeltaDec s =
      .raised .badData (s.rd.pos + BitVec.ofNat 64 (deltaHead s)) (afterRead s (deltaHead s)) := by
  rw [runDeltaDec_of_whole_head hin ho hcount hn hhead, if_neg (Nat.not_lt.2 hsigns), if_pos (by omega)]

variable (hend : 8 * deltaSignBytes s ≤ 8 * s.rd.len.toNat - (s.rd.pos + BitVec.ofNat 64 (deltaHead s)).toNat)
include hend

/-- The run on a whole record is the loop over its bytes, with DLEN behind it (R261). -/
theorem runDeltaDec_of_whole : runDeltaDec s =
    (rebuildLoop (deltaMagnitudes s) (deltaSigns s) s.dstAddr.toNat (deltaCount s) []
      (afterRead s (deltaHead s + 8 * deltaSignBytes s))).andThen fun _ v =>
        .ok () { v with dLen := BitVec.ofNat 64 (deltaCount s) } := by
  have hinside : (s.rd.pos + BitVec.ofNat 64 (deltaHead s)).toNat ≤ 8 * s.rd.len.toNat :=
    toNat_pos_add_le_of_padCount_eq_zero (by rw [deltaHead]; omega) hhead
  rw [runDeltaDec_of_whole_head hin ho hcount hn hhead, if_neg (Nat.not_lt.2 hsigns), if_neg (by omega)]

section bytes
variable {x : Nat → Byte} {k : Nat} (hk : k ≤ deltaCount s)
  (hx : ∀ i, i < k → ((x i).toNat : Int) = deltaRebuilt s x i)
include hk hx

/-- The run on a whole record whose first `k` rebuilt values are bytes: they are stored, and the loop goes on at index
`k` (R261). -/
theorem runDeltaDec_behind_bytes : ∃ m, storesBytes s x k m ∧
    runDeltaDec s = (rebuildLoop (deltaMagnitudes s) (deltaSigns s) s.dstAddr.toNat (deltaCount s - k)
      ((List.range k).map x) { afterRead s (deltaHead s + 8 * deltaSignBytes s) with lmem := m }).andThen fun _ v =>
        .ok () { v with dLen := BitVec.ofNat 64 (deltaCount s) } := by
  obtain ⟨m, hloop, hread⟩ := rebuildLoop_prefix (deltaMagnitudes s) (deltaSigns s) s.dstAddr.toNat x
    (deltaCount s - k) k 0 (afterRead s (deltaHead s + 8 * deltaSignBytes s)) fun j _ hj => by
      rw [rebuildAt_record hsigns x (by omega), hx j (by omega)]
  refine ⟨m, ?memory, ?run⟩
  case memory => simpa only [storesBytes, Nat.add_zero, afterRead_lmem] using hread
  case run =>
    rw [Nat.add_sub_cancel' hk, Nat.zero_add] at hloop
    rw [runDeltaDec_of_whole hin ho hcount hn hhead hsigns hend, ← hloop]
    rfl

end bytes

variable {x : Nat → Byte}

/-- The run on a whole record whose rebuilt values are all bytes (R261). -/
theorem runDeltaDec_of_bytes (hx : ∀ i, i < deltaCount s → ((x i).toNat : Int) = deltaRebuilt s x i) :
    ∃ m, storesBytes s x (deltaCount s) m ∧
      runDeltaDec s = .ok () { afterRead s (deltaHead s + 8 * deltaSignBytes s) with
        lmem := m
        dLen := BitVec.ofNat 64 (deltaCount s) } := by
  obtain ⟨m, hm, hrun⟩ := runDeltaDec_behind_bytes hin ho hcount hn hhead hsigns hend le_rfl hx
  rw [Nat.sub_self] at hrun
  exact ⟨m, hm, hrun⟩

/-- The run on a whole record whose rebuilt value at `k` is the first that is no byte (R261). -/
theorem runDeltaDec_of_first_not_byte {k : Nat} (hk : k < deltaCount s)
    (hx : ∀ i, i < k → ((x i).toNat : Int) = deltaRebuilt s x i)
    (hbad : deltaRebuilt s x k < 0 ∨ 255 < deltaRebuilt s x k) :
    ∃ m, storesBytes s x k m ∧
      runDeltaDec s = .raised .badData (BitVec.ofNat 64 k)
        { afterRead s (deltaHead s + 8 * deltaSignBytes s) with lmem := m } := by
  obtain ⟨m, hm, hrun⟩ := runDeltaDec_behind_bytes hin ho hcount hn hhead hsigns hend hk.le hx
  have hlen : ((List.range k).map x).length = k := by rw [List.length_map, List.length_range]
  have hturn := rebuildLoop_of_not_byte (ms := deltaMagnitudes s) (gs := deltaSigns s) (xs := (List.range k).map x)
    s.dstAddr.toNat (deltaCount s - (k + 1)) { afterRead s (deltaHead s + 8 * deltaSignBytes s) with lmem := m }
    (by rwa [hlen, rebuildAt_record hsigns x hk])
  rw [show deltaCount s - (k + 1) + 1 = deltaCount s - k by omega, hlen] at hturn
  exact ⟨m, hm, by rw [hrun, hturn, Run.andThen_raised]⟩

end valid

/-- Settles O49: the checks in R261's order, and then the loop, which runs over all N bytes or up to the first value
that is none. -/
theorem deltaDecRebuildsTheBytes : Obligations.DeltaDecRebuildsTheBytes := by
  refine ⟨by decide, fun s hrd => ?_⟩
  rw [exec_deltaDec hrd]
  refine ⟨fun hout => ?outside, fun hin => ⟨fun ho => ?overlap, fun ho => ?record⟩⟩
  case outside => rw [runDeltaDec_of_invalid hout, Run.close_raised]
  case overlap => rw [runDeltaDec_of_overlap hin ho, Run.close_raised]
  case record =>
    refine ⟨fun hcount => ?truncatedCount, fun hcount hn => ?count, fun hcount hn => ⟨fun hhead => ?truncatedHead,
      fun hhead => ⟨fun hfew => ?fewSigns, fun hsigns hpast => ?signsPastEnd, fun hsigns hend x =>
        ⟨fun hx => ?rebuilt, fun k hk hx hbad => ?badByte⟩⟩⟩⟩
    case truncatedCount => rw [runDeltaDec_of_truncated_count hin ho hcount, Run.close_raised]
    case count =>
      rw [runDeltaDec_of_count hin ho hcount hn, Run.close_raised]
      rfl
    case truncatedHead =>
      rw [runDeltaDec_of_truncated_head hin ho hcount hn hhead, Run.close_raised]
      rfl
    case fewSigns =>
      rw [runDeltaDec_of_few_signs hin ho hcount hn hhead hfew, Run.close_raised]
      rfl
    case signsPastEnd =>
      rw [runDeltaDec_of_signs_past_end hin ho hcount hn hhead hsigns hpast, Run.close_raised]
      rfl
    case rebuilt =>
      obtain ⟨m, hm, hrun⟩ := runDeltaDec_of_bytes hin ho hcount hn hhead hsigns hend hx
      exact ⟨m, by rw [hrun, Run.close_ok]; rfl, hm⟩
    case badByte =>
      obtain ⟨m, hm, hrun⟩ := runDeltaDec_of_first_not_byte hin ho hcount hn hhead hsigns hend hk hx hbad
      exact ⟨m, by rw [hrun, Run.close_raised]; rfl, hm⟩

end Sys2Proof.Machine

/-! ## Trap entry (R282) -/

namespace Sys2Proof.Machine

/-- A command that raises ends in trap entry from the state of the raise (R282). -/
theorem finish_raised (e : ErrorKind) (info : DWord) (s : State) :
    finish (.raised e info s) = .next (trapEntry e info s) := by
  rw [finish, Run.close_raised]

/-- Trap entry's status: ERR and DONE 1, BUSY 0, and UR and OVR as they were (R282). -/
theorem Status.failed_eq (f : Status) : f.failed = { f with err := true, busy := false, done := true } := rfl

/-- Settles O51: the raise ends in trap entry, whose record update is the listed fields once its status is written
out. -/
theorem trapEntryIsTheWholeMechanism : Obligations.TrapEntryIsTheWholeMechanism := by
  intro e info s
  rw [finish_raised, trapEntry, Status.failed_eq]

end Sys2Proof.Machine

/-! ## The soft reset (R310, R311) -/

namespace Sys2Proof.Machine

/-- A host write to the offset of CTRL is a write to CTRL, at any BUSY (R23). -/
theorem hostCsrWrite_ctrl (v : Word) (s : State) : hostCsrWrite 0x004 v s = writeCtrl v s := rfl

/-- A write of 1 to SRST is the soft reset, whatever its IE bit (R24, R311). -/
theorem writeCtrl_of_srst {v : Word} (s : State) (h : v.getLsbD 0 = true) : writeCtrl v s = softReset s := by
  rw [writeCtrl, if_pos h]

/-- On the host's turn, with a write of 1 to SRST next, the step is the soft reset (R108, R311). -/
theorem step_softReset {s : State} {v : Word} {rest : List HostOp} (ht : turn s = .host)
    (hs : s.script = .csrWrite 0x004 v :: rest) (hv : v.getLsbD 0 = true) :
    step s = .next (softReset { s with script := rest, sched := s.sched.tail }) := by
  rw [step_csrWrite ht hs (by decide), hostCsrWrite_ctrl, writeCtrl_of_srst _ hv]

/-- Entry k of the QS that a reset leaves is QTABLE's, as a binary64 (R310). -/
theorem resetQs_get (q : Vector Word 64) (k : Fin 64) : (resetQs q)[k.val] = F64.ofNat (q[k.val]).toNat := by
  rw [resetQs, tabulate_get]

/-- Settles O11: at any BUSY the step is the soft reset, whose `softReset_` laws are R310's column field by field; the
tables are read entry by entry. -/
theorem softResetPreservesTheBuffers : Obligations.SoftResetPreservesTheBuffers := by
  intro s v rest ht hs hv
  refine ⟨_, step_softReset ht hs hv, ?column⟩
  case column => simp [resetQs_get]

end Sys2Proof.Machine


/-! ## The opcode map, read both ways (R100, R103, R104, R107) -/

namespace Sys2Proof

/-- The fields of a word put together from its three fields (R100). -/
theorem fields_append (rsv : BitVec 16) (n o : BitVec 8) :
    rsvField (rsv ++ n ++ o) = rsv ∧ countField (rsv ++ n ++ o) = n ∧ opcField (rsv ++ n ++ o) = o := by
  have hw : (rsv ++ n ++ o : BitVec 32).toNat = 2 ^ 8 * (2 ^ 8 * rsv.toNat + n.toNat) + o.toNat := by
    rw [Machine.toNat_fields, Machine.toNat_fields]
  refine ⟨?_, ?_, ?_⟩ <;> apply BitVec.eq_of_toNat_eq
  · rw [rsvField, BitVec.extractLsb'_toNat, Nat.shiftRight_eq_div_pow, hw]
    omega
  · rw [countField, BitVec.extractLsb'_toNat, Nat.shiftRight_eq_div_pow, hw]
    omega
  · rw [opcField, BitVec.extractLsb'_toNat, Nat.shiftRight_eq_div_pow, hw]
    omega

/-- A word is its three fields (R100). -/
theorem append_fields (w : Word) : rsvField w ++ countField w ++ opcField w = w := by
  apply BitVec.eq_of_toNat_eq
  rw [Machine.toNat_fields, Machine.toNat_fields]
  simp only [rsvField, countField, opcField, BitVec.extractLsb'_toNat, Nat.shiftRight_eq_div_pow]
  omega

/-- A word is a command's exactly when its fields are: RSV 0, the command's count and its opcode (R100, R103). -/
theorem encode_eq_iff (i : Instr) (w : Word) :
    encode i = w ↔ rsvField w = 0 ∧ countField w = countOf i ∧ opcField w = opcode i := by
  constructor
  · rintro rfl
    exact fields_append 0 (countOf i) (opcode i)
  · rintro ⟨hrsv, hcount, hopc⟩
    rw [encode, ← hrsv, ← hcount, ← hopc, append_fields]

/-- The count a row takes: legal where the command uses N, and else 0 (R104 (c), (d)). -/
def OpcodeRow.takes (r : OpcodeRow) (n : BitVec 8) : Prop := if r.usesCount then countLegal n else n = 0

/-- A row accepts exactly RSV = 0 with a count that it takes, and gives its command (R104 (b) to (d)). -/
theorem decodeRow_eq_ok_iff {r : OpcodeRow} {n : BitVec 8} {rsv : BitVec 16} {i : Instr} :
    decodeRow r n rsv = .ok i ↔ rsv = 0 ∧ r.takes n ∧ r.make n = i := by
  unfold decodeRow OpcodeRow.takes
  split_ifs <;> simp_all

/-- What ties a row of the opcode map to the encoder: its command has the row's opcode and, for a count that the row
takes, that count, and it is well formed (R103). -/
def OpcodeRow.Sound (r : OpcodeRow) : Prop :=
  ∀ n, r.takes n → opcode (r.make n) = r.opc ∧ countOf (r.make n) = n ∧ (r.make n).wellFormed = true

theorem plainRow_sound {opc : BitVec 8} {i : Instr} (ho : opcode i = opc) (hc : countOf i = 0)
    (hw : i.wellFormed = true) : (plainRow opc i).Sound := by
  rintro n rfl
  exact ⟨ho, hc, hw⟩

/-- The control and bit-cursor rows are tied to the encoder (R103). -/
theorem cursorRows_sound : ∀ r ∈ cursorRows, r.Sound := by
  have hcounted : (⟨0x02, true, .bcRead⟩ : OpcodeRow).Sound ∧ (⟨0x04, true, .bcWrite⟩ : OpcodeRow).Sound :=
    ⟨fun _ hn => ⟨rfl, rfl, decide_eq_true hn⟩, fun _ hn => ⟨rfl, rfl, decide_eq_true hn⟩⟩
  simp only [cursorRows, List.forall_mem_cons, List.not_mem_nil, false_imp_iff, implies_true, and_true]
  exact ⟨plainRow_sound rfl rfl rfl, plainRow_sound rfl rfl rfl, hcounted.1, plainRow_sound rfl rfl rfl, hcounted.2,
    plainRow_sound rfl rfl rfl, plainRow_sound rfl rfl rfl, plainRow_sound rfl rfl rfl⟩

/-- The other rows are tied to the encoder (R103). -/
theorem plainRows_sound : ∀ r ∈ huffmanRows ++ (transformRows ++ streamRows), r.Sound := by
  simp only [huffmanRows, transformRows, streamRows, List.forall_mem_append, List.forall_mem_cons, List.not_mem_nil,
    false_imp_iff, implies_true, and_true]
  and_intros <;> exact plainRow_sound rfl rfl rfl

/-- Every row of the opcode map is tied to the encoder (R103). -/
theorem opcodeRows_sound : ∀ r ∈ opcodeRows, r.Sound := by
  rw [opcodeRows, List.append_assoc, List.append_assoc, List.forall_mem_append]
  exact ⟨cursorRows_sound, plainRows_sound⟩

/-- A well-formed command has its own row in the opcode map, which takes its count (R103). -/
theorem exists_row_of_wellFormed {i : Instr} (h : i.wellFormed = true) :
    ∃ r, opcodeRows.find? (fun r => r.opc == opcode i) = some r ∧ r.takes (countOf i) ∧ r.make (countOf i) = i := by
  cases i with
  | bcRead n => exact ⟨_, rfl, (decide_eq_true_iff.1 h : countLegal n), rfl⟩
  | bcWrite n => exact ⟨_, rfl, (decide_eq_true_iff.1 h : countLegal n), rfl⟩
  | _ => exact ⟨_, rfl, rfl, rfl⟩

/-- Decoding finds the row of the word's opcode, which accepts the other two fields (R103, R104). -/
theorem decode_eq_ok_iff {w : Word} {i : Instr} :
    decode w = .ok i ↔ ∃ r, opcodeRows.find? (fun r => r.opc == opcField w) = some r ∧
      rsvField w = 0 ∧ r.takes (countField w) ∧ r.make (countField w) = i := by
  unfold decode
  cases opcodeRows.find? (fun r => r.opc == opcField w) with
  | none => simp
  | some r => simp [decodeRow_eq_ok_iff]

/-- Settles O1: a row of the map is tied to the encoder, and every well-formed command has its row. -/
theorem decodeAndEncodeAgree : Obligations.DecodeAndEncodeAgree := by
  intro w i
  rw [decode_eq_ok_iff, encode_eq_iff]
  constructor
  · rintro ⟨r, hfind, hrsv, htakes, rfl⟩
    obtain ⟨hopc, hcount, hwf⟩ := opcodeRows_sound r (List.mem_of_find?_eq_some hfind) _ htakes
    have hrow : r.opc = opcField w := by simpa using List.find?_some hfind
    exact ⟨hwf, hrsv, hcount.symm, (hopc.trans hrow).symm⟩
  · rintro ⟨hwf, hrsv, hcount, hopc⟩
    obtain ⟨r, hfind, htakes, hmake⟩ := exists_row_of_wellFormed hwf
    rw [hcount, hopc]
    exact ⟨r, hfind, hrsv, htakes, hmake⟩

/-- A word is illegal exactly when its opcode has no row, or RSV is not 0, or the row does not take its count (R104). -/
theorem decode_eq_error_iff {w : Word} :
    (∃ e, decode w = .error e) ↔ ∀ r, opcodeRows.find? (fun r => r.opc == opcField w) = some r →
      rsvField w = 0 → ¬r.takes (countField w) := by
  have hor : (∃ e, decode w = .error e) ↔ ¬∃ i, decode w = .ok i := by
    cases decode w <;> simp
  rw [hor]
  simp only [decode_eq_ok_iff]
  push Not
  exact ⟨fun h r hf hr ht => h _ r hf hr ht rfl, fun h _ r hf hr ht _ => h r hf hr ht⟩

/-- The rows' opcodes, as R103 lists them. -/
theorem opcodeRows_opcodes : opcodeRows.map (fun r => r.opc.toNat) =
    [0x00, 0x01, 0x02, 0x03, 0x04, 0x05, 0x06, 0x07, 0x10, 0x11, 0x12, 0x13, 0x14, 0x20, 0x21, 0x22, 0x23, 0x24,
      0x30, 0x31, 0x38, 0x39, 0x40, 0x41] := rfl

/-- The rows that use N are those of opcodes 0x02 and 0x04 (R101, R103). -/
theorem usesCount_iff : ∀ r ∈ opcodeRows, (r.usesCount = true ↔ r.opc.toNat ∈ [0x02, 0x04]) := by
  simp [opcodeRows, cursorRows, huffmanRows, transformRows, streamRows, plainRow]

/-- An opcode has a row exactly when R103 lists it. -/
theorem find?_opcodeRows_eq_none_iff (o : BitVec 8) : opcodeRows.find? (fun r => r.opc == o) = none ↔
    o.toNat ∉ opcodeRows.map fun r => r.opc.toNat := by
  simp [List.find?_eq_none, BitVec.toNat_inj]

/-- Settles O2: a word without a row is case (a); with one, the row fails to take RSV or the count in cases (b) to
(d). -/
theorem illegalWordsAreTheFourCases : Obligations.IllegalWordsAreTheFourCases := by
  intro w
  rw [decode_eq_error_iff, ← opcodeRows_opcodes]
  change _ ↔ (opcField w).toNat ∉ _ ∨ rsvField w ≠ 0 ∨ ((opcField w).toNat ∉ _ ∧ countField w ≠ 0) ∨
    ((opcField w).toNat ∈ _ ∧ 64 < (countField w).toNat)
  rw [← find?_opcodeRows_eq_none_iff]
  cases hfind : opcodeRows.find? (fun r => r.opc == opcField w) with
  | none => simp
  | some r =>
    simp only [Option.some.injEq, forall_eq', reduceCtorEq, false_or]
    have hrow : r.opc = opcField w := by simpa using List.find?_some hfind
    have huses := usesCount_iff r (List.mem_of_find?_eq_some hfind)
    rw [hrow] at huses
    rw [← huses]
    unfold OpcodeRow.takes
    cases r.usesCount <;> simp [countLegal, imp_iff_not_or]

/-- Settles O3: each word is the encoding of its well-formed command, so it decodes to it (O1). -/
theorem opcodeMapWordsDecode : Obligations.OpcodeMapWordsDecode := by
  have hdec : ∀ {w : Word} {i : Instr}, i.wellFormed = true ∧ encode i = w → decode w = .ok i :=
    (decodeAndEncodeAgree _ _).2
  exact ⟨hdec (by decide), hdec (by decide), hdec (by decide), hdec (by decide), hdec (by decide), hdec (by decide),
    hdec (by decide), hdec (by decide), hdec (by decide), hdec (by decide)⟩

end Sys2Proof

namespace Sys2Proof.Machine

/-- On a latched word that decodes, the core's step runs the command (R125). -/
theorem coreStep_of_decode_ok {s : State} {w : Word} {i : Instr} (hl : s.latch = some w) (hd : decode w = .ok i) :
    coreStep s = exec i s := by
  simp only [coreStep, hl, hd]

/-- Settles O4: the turn is the core's, and the word decodes. -/
theorem stepRunsTheDecodedCommand : Obligations.StepRunsTheDecodedCommand := by
  intro s w i hl hs hd
  have hl' : (taken s).latch = some w := hl
  calc step s
    _ = coreStep (taken s) := step_of_core (turn_of_latch hl hs)
    _ = exec i (taken s) := coreStep_of_decode_ok hl' hd

end Sys2Proof.Machine


/-! ## What every command does, read off its run's law (R102, R123, R280, R282, R283) -/

namespace Sys2Proof.Machine

/-- A command that raises has changed only state of its row (R102, R283). -/
theorem raisedWrites_subset_writes (i : Instr) : raisedWrites i ⊆ writes i := by
  cases i <;> simp [raisedWrites, writes]

/-- The two ends of a command that gives a next state: completion in the frame of its row (R102, R123), or a raise of an
error of its row in the frame of what a raise leaves (R280, R282, R283). -/
theorem exec_next_cases {i : Instr} {s t : State} (h : exec i s = .next t) :
    (∃ u, t = complete u ∧ Kept (writes i) s u) ∨
      ∃ e info u, t = trapEntry e info u ∧ e ∈ raises i ∧ Kept (raisedWrites i) s u := by
  obtain ⟨r, rfl, law⟩ := runLaw h
  cases r with
  | ok a u => exact .inl ⟨u, rfl, law.ok rfl⟩
  | raised e info u => exact .inr ⟨e, info, u, rfl, law.raised rfl⟩

/-- A command that sets ERR has raised (R123, R282). -/
theorem exec_raised {i : Instr} {s t : State} (h : exec i s = .next t) (h0 : s.st.err = false)
    (h1 : t.st.err = true) : ∃ e info u, t = trapEntry e info u ∧ e ∈ raises i ∧ Kept (raisedWrites i) s u := by
  refine (exec_next_cases h).resolve_left ?_
  rintro ⟨u, rfl, hk⟩
  rw [complete_st, Status.completed_err, hk.err, h0] at h1
  cases h1

/-- Settles O7: completion keeps ERR, ERRCODE and ERRINFO; trap entry sets ERR with an error's code. -/
theorem everyCommandCompletes : Obligations.EveryCommandCompletes := by
  intro i s t h
  obtain ⟨u, rfl, hk⟩ | ⟨e, info, u, rfl, -, -⟩ := exec_next_cases h
  · exact ⟨rfl, rfl, rfl, .inl ⟨hk.err, hk.errCode, hk.errInfo⟩⟩
  · exact ⟨rfl, rfl, rfl, .inr ⟨rfl, e, rfl⟩⟩

/-- Settles O52: ERR is set by a raise, whose error is of the command's row. -/
theorem commandsRaiseOnlyTheirErrors : Obligations.CommandsRaiseOnlyTheirErrors := by
  intro i s t h h0 h1
  obtain ⟨e, info, u, rfl, he, -⟩ := exec_raised h h0 h1
  exact ⟨e, he, raises_ne_encodingError he, rfl⟩

/-- Settles O53: both ends keep the frame, since a raise writes only state of the command's row. -/
theorem commandsWriteOnlyTheirRow : Obligations.CommandsWriteOnlyTheirRow := by
  intro i s t h
  obtain ⟨u, rfl, hk⟩ | ⟨e, info, u, rfl, -, hk⟩ := exec_next_cases h
  · exact hk.complete
  · exact (hk.mono (raisedWrites_subset_writes i)).trapEntry e info

/-- Settles O55: ERR is set by a raise, which is in the frame of R283's list. -/
theorem raisesLeaveOnlyPartialEffects : Obligations.RaisesLeaveOnlyPartialEffects := by
  intro i s t h h0 h1
  obtain ⟨e, info, u, rfl, -, hk⟩ := exec_raised h h0 h1
  exact hk.trapEntry e info

/-- A command's end stores nothing (R123, R282). -/
@[simp] theorem Run.close_lmem (r : Run Unit) : r.close.lmem = r.state.lmem := by
  cases r <;> rfl

/-- Settles O54: a run stores only inside its region, and the command's end stores nothing. -/
theorem storesStayInTheRegion : Obligations.StoresStayInTheRegion := by
  intro i s t h a ha
  obtain ⟨r, rfl, law⟩ := runLaw h
  rw [Run.close_lmem, law.stores a ha]

end Sys2Proof.Machine

/-! ## The invariant: reset and the core's step (R6, R34, R48, R60, R66, R217, R280, R310) -/

namespace Sys2Proof.Machine

/-- The parts of the invariant that do not speak of the latch and STATUS. -/
structure InvBody (s : State) : Prop where
  params : s.params.legal
  lmem : lmemOk s
  cursors : cursorsOk s
  errCode : errCodeOk s
  qs : qsOk s

theorem inv_iff {s : State} : Inv s ↔ InvBody s ∧ latchOk s :=
  ⟨fun ⟨hp, hm, hl, hc, he, hq⟩ => ⟨⟨hp, hm, hc, he, hq⟩, hl⟩,
    fun ⟨⟨hp, hm, hc, he, hq⟩, hl⟩ => ⟨hp, hm, hl, hc, he, hq⟩⟩

/-- With BUSY = 0 the latch is empty, and nothing else is asked of it (R48). -/
theorem latchOk_of_idle {s : State} (hb : s.st.busy = false) (hl : s.latch = none) : latchOk s := by
  simp [latchOk, hb, hl]

/-- Both cursors at the empty region at address 0, as a reset leaves them, meet the invariant (R310). -/
theorem cursorsOk_of_reset {s : State} (hr : s.rd = ⟨0, 0, 0, 0⟩) (hw : s.wr = ⟨0, 0, 0, 0, 0⟩) : cursorsOk s := by
  simp [cursorsOk, readerOk, writerOk, readerRegion, writerRegion, Region.valid, accClean, hr, hw]

/-- QS as a reset leaves it meets the invariant, for a legal table (R217, R310). -/
theorem qsOk_of_reset {s : State} (hp : s.params.legal) (hq : s.qs = resetQs s.params.qtable) : qsOk s := by
  intro k
  rw [hq]
  exact finiteGeOne_resetQs hp k

/-- Power-on reset meets the invariant, for legal parameters (R310). -/
theorem inv_powerOn {p : Config.Params} (hp : p.legal) : Inv (State.powerOn p) := by
  refine inv_iff.2 ⟨⟨hp, ?memory, cursorsOk_of_reset rfl rfl, .inl rfl, qsOk_of_reset hp rfl⟩,
    latchOk_of_idle rfl rfl⟩
  case memory => simp [lmemOk, Memory.wf]

/-- Settles O58: the default parameters are legal. -/
theorem resetMeetsTheInvariant : Obligations.ResetMeetsTheInvariant := inv_powerOn defaultParams_legal

/-- Completion ends in a state of the invariant (R123). -/
theorem inv_complete {u : State} (h : InvBody u) : Inv (complete u) :=
  inv_iff.2 ⟨⟨h.params, h.lmem, h.cursors, h.errCode, h.qs⟩, latchOk_of_idle rfl rfl⟩

/-- Trap entry ends in a state of the invariant, for an error that some command raises (R280, R282). -/
theorem inv_trapEntry {e : ErrorKind} (info : DWord) {u : State} (h : InvBody u) (he : e ≠ .encodingError) :
    Inv (trapEntry e info u) :=
  inv_iff.2 ⟨⟨h.params, h.lmem, h.cursors, .inr ⟨e, he, rfl⟩, h.qs⟩, latchOk_of_idle rfl rfl⟩

/-- A frame keeps ERRCODE's standing until the command's end. -/
theorem Kept.errCodeOk {ws : List Group} {s u : State} (hk : Kept ws s u) (h : errCodeOk s) : errCodeOk u := by
  simpa only [Machine.errCodeOk, hk.errCode] using h

/-- A frame keeps the parameters (log 5). -/
theorem Kept.params {ws : List Group} {s u : State} (hk : Kept ws s u) : u.params = s.params := by
  obtain ⟨⟨⟨hp, -⟩, -⟩, -⟩ := hk
  exact hp

/-- A command's run ends in a state of the invariant, with the parameters as they were. -/
theorem RunLaw.inv_close {i : Instr} {s : State} {r : Run Unit} (law : RunLaw i s r) (h : InvBody s) :
    Inv r.close ∧ r.close.params = s.params := by
  have body : ∀ {ws : List Group}, Kept ws s r.state → InvBody r.state := fun hk =>
    ⟨hk.params ▸ h.params, law.lmem h.lmem, law.cursors h.cursors, hk.errCodeOk h.errCode, law.qs h.qs⟩
  cases r with
  | ok a u => exact ⟨inv_complete (body (law.ok rfl)), (law.ok rfl).params⟩
  | raised e info u =>
    obtain ⟨he, hk⟩ := law.raised rfl
    exact ⟨inv_trapEntry info (body hk) (raises_ne_encodingError he), hk.params⟩

/-- Taking a turn off the schedule keeps the invariant (log 7). -/
theorem inv_taken {s : State} (h : Inv s) : Inv (taken s) := h

/-- The core's step keeps the invariant (R122, R125). -/
theorem inv_coreStep {s t : State} (h : Inv s) (hstep : coreStep s = .next t) : Inv t ∧ t.params = s.params := by
  have hbody := (inv_iff.1 h).1
  cases hl : s.latch with
  | none =>
    simp only [coreStep, hl] at hstep
    cases hstep
    exact ⟨h, rfl⟩
  | some w =>
    cases hd : decode w with
    | ok i =>
      rw [coreStep_of_decode_ok hl hd] at hstep
      obtain ⟨r, rfl, law⟩ := runLaw hstep
      exact law.inv_close hbody
    | error e =>
      rw [coreStep_of_decode_error hl hd] at hstep
      cases hstep
      exact ⟨inv_trapEntry _ hbody (by decide), rfl⟩

end Sys2Proof.Machine


/-! ## The CSR map (R23, R47) -/

namespace Sys2Proof.Machine

/-- The named words stand at their own offsets (R23). -/
theorem csrOffsetNat_of_mem_namedCsrs : ∀ p ∈ namedCsrs, csrOffsetNat p.2 = p.1 := by
  decide

/-- The half that an aligned offset names stands 0 or 4 bytes into its element (R47). -/
theorem halfOffset_halfAt {o : Nat} (h : o % 4 = 0) : halfOffset (halfAt o) = o % 8 := by
  unfold halfAt
  split_ifs <;> simp only [halfOffset] <;> omega

/-- A half is found at its offset within an element (R47). -/
theorem halfAt_add_halfOffset {b : Nat} (hb : b % 8 = 0) (h : Half) : halfAt (b + halfOffset h) = h := by
  cases h
  · exact if_pos (by simp only [halfOffset]; omega)
  · exact if_neg (by simp only [halfOffset]; omega)

theorem halfOffset_cases (h : Half) : halfOffset h = 0 ∨ halfOffset h = 4 := by
  cases h
  · exact .inl rfl
  · exact .inr rfl

/-- The offset of an assigned word is aligned and inside the CSR space (R23). -/
theorem csrOffsetNat_range (c : Csr) : csrOffsetNat c < 0x4000 ∧ csrOffsetNat c % 4 = 0 := by
  have hh := halfOffset_cases
  cases c with
  | lutVal i | lutSymLen i | cwVal i | cwLen i | hist i | q i => simp only [csrOffsetNat]; omega
  | blk k h | seq k h | qs k h => have := hh h; simp only [csrOffsetNat]; omega
  | errInfo h | wData h | rData h | rPos h | padBits h | count h | quality h | dLen h =>
    have := hh h
    simp only [csrOffsetNat]
    omega
  | _ => decide

theorem csrOffset_toNat (c : Csr) : (csrOffset c).toNat = csrOffsetNat c := by
  have := (csrOffsetNat_range c).1
  rw [csrOffset, BitVec.toNat_ofNat]
  omega

theorem finOfNat_val {n : Nat} [NeZero n] {o : Nat} (i : Fin n) (h : o = i.val) : Fin.ofNat n o = i := by
  subst h
  exact Fin.ofNat_val_eq_self i

/-- The element and the half that an offset into an array of 64-bit elements names (R47). -/
theorem elementAt {n : Nat} [NeZero n] {base : Nat} (hb : base % 8 = 0) (k : Fin n) (h : Half) :
    Fin.ofNat n ((base + 8 * k.val + halfOffset h - base) / 8) = k ∧ halfAt (base + 8 * k.val + halfOffset h) = h := by
  have hh := halfOffset_cases h
  exact ⟨finOfNat_val k (by omega), halfAt_add_halfOffset (by omega) h⟩

/-- The entry and the word that an offset into a table of two words per entry names (R40, R41). -/
theorem entryAtOffset {n : Nat} [NeZero n] {base : Nat} (hb : base % 8 = 0) (i : Fin n) :
    (Fin.ofNat n ((base + 8 * i.val - base) / 8) = i ∧ halfAt (base + 8 * i.val) = .lo) ∧
      Fin.ofNat n ((base + 4 + 8 * i.val - base) / 8) = i ∧ halfAt (base + 4 + 8 * i.val) = .hi := by
  refine ⟨elementAt hb i .lo, ?_⟩
  rw [Nat.add_right_comm base 4]
  exact elementAt hb i .hi

/-- Every assigned word is found at its own offset (R23). -/
theorem csrOf_csrOffset (c : Csr) : csrOf (csrOffset c) = some c := by
  have hh := halfOffset_cases
  unfold csrOf
  rw [csrOffset_toNat]
  cases c with
  | lutVal i | lutSymLen i =>
    obtain ⟨⟨hi, hlo⟩, hi', hhi⟩ := entryAtOffset (base := 0x800) (by decide) i
    simp (disch := omega) only [csrOffsetNat, if_neg, if_pos, hi, hlo, hi', hhi]
  | cwVal i | cwLen i =>
    obtain ⟨⟨hi, hlo⟩, hi', hhi⟩ := entryAtOffset (base := 0x1000) (by decide) i
    simp (disch := omega) only [csrOffsetNat, if_neg, if_pos, hi, hlo, hi', hhi]
  | hist i =>
    have hi : Fin.ofNat 256 ((0x1800 + 4 * i.val - 0x1800) / 4) = i := finOfNat_val i (by omega)
    simp (disch := omega) only [csrOffsetNat, if_neg, if_pos, hi]
  | q k =>
    have hk : Fin.ofNat 64 ((0x2600 + 4 * k.val - 0x2600) / 4) = k := finOfNat_val k (by omega)
    simp (disch := omega) only [csrOffsetNat, if_neg, if_pos, hk]
  | blk k h =>
    have := hh h
    obtain ⟨hk, hhalf⟩ := elementAt (base := 0x2000) (by decide) k h
    simp (disch := omega) only [csrOffsetNat, if_neg, if_pos, hk, hhalf]
  | seq k h =>
    have := hh h
    obtain ⟨hk, hhalf⟩ := elementAt (base := 0x2200) (by decide) k h
    simp (disch := omega) only [csrOffsetNat, if_neg, if_pos, hk, hhalf]
  | qs k h =>
    have := hh h
    obtain ⟨hk, hhalf⟩ := elementAt (base := 0x2400) (by decide) k h
    simp (disch := omega) only [csrOffsetNat, if_neg, if_pos, hk, hhalf]
  | errInfo h | wData h | rData h | rPos h | padBits h | count h | quality h | dLen h => cases h <;> rfl
  | _ => rfl

/-- Settles O15. -/
theorem csrMapRoundTrip : Obligations.CsrMapRoundTrip := fun c =>
  ⟨(csrOffsetNat_range c).1, (csrOffsetNat_range c).2, csrOf_csrOffset c⟩

/-- A word found at an aligned offset is the one whose own offset that is (R23). -/
theorem csrOffset_of_csrOf {off : CsrOffset} {c : Csr} (ha : off.toNat % 4 = 0) (h : csrOf off = some c) :
    off = csrOffset c := by
  apply BitVec.eq_of_toNat_eq
  rw [csrOffset_toNat]
  have hhalf := halfOffset_halfAt ha
  unfold csrOf at h
  generalize off.toNat = o at *
  simp only at h
  split_ifs at h with h0 h1 h2 h3 h4 h5 h6 h7 h8
  · obtain ⟨p, hp, rfl⟩ := Option.map_eq_some_iff.1 h
    have hmem := csrOffsetNat_of_mem_namedCsrs p (List.mem_of_find?_eq_some hp)
    have : p.1 = o := by simpa using List.find?_some hp
    omega
  · cases hw : halfAt o
    all_goals
      rw [hw] at h hhalf
      cases h
      simp only [csrOffsetNat, Fin.val_ofNat, halfOffset] at hhalf ⊢
      omega
  · cases hw : halfAt o
    all_goals
      rw [hw] at h hhalf
      cases h
      simp only [csrOffsetNat, Fin.val_ofNat, halfOffset] at hhalf ⊢
      omega
  all_goals
    cases h
    simp only [csrOffsetNat, Fin.val_ofNat]
    omega

/-- The reserved offsets are those that R23's map leaves out. -/
theorem csrOf_eq_none_iff {off : CsrOffset} (ha : off.toNat % 4 = 0) : csrOf off = none ↔
    off.toNat = 0x01C ∨ off.toNat = 0x068 ∨ off.toNat = 0x06C ∨ (0x090 ≤ off.toNat ∧ off.toNat ≤ 0x7FC) ∨
      (0x1C00 ≤ off.toNat ∧ off.toNat ≤ 0x1FFC) ∨ 0x2700 ≤ off.toNat := by
  unfold csrOf
  generalize off.toNat = o at *
  simp only
  split_ifs with h0
  · simp only [Option.map_eq_none_iff, List.find?_eq_none, namedCsrs, controlCsrs, operandCsrs, cursorCsrs, coderCsrs,
      List.forall_mem_append, List.forall_mem_cons, beq_iff_eq]
    simp
    omega
  all_goals
    simp only [true_iff, false_iff]
    omega

end Sys2Proof.Machine


/-! ## The host's writes, word by word (R23, R24, R25, R47, R60, R320) -/

namespace Sys2Proof.Machine

/-- CTRL, STATUS and CMD, whose writes have rules of their own (R24, R25, R121). -/
def Csr.special (c : Csr) : Prop := c = .ctrl ∨ c = .status ∨ c = .cmd

/-- A host write to a word that is not special is the busy protocol's, and so is one to a reserved offset (R23,
R320). -/
theorem hostCsrWrite_protected {off : CsrOffset} (v : Word) (s : State) (h : ∀ c, csrOf off = some c → ¬c.special) :
    hostCsrWrite off v s = writeProtected (csrOf off) v s := by
  unfold hostCsrWrite
  split
  case h_4 => rfl
  all_goals rename_i hc; exact absurd (by simp [Csr.special]) (h _ hc)

/-- Everything a host CSR write can be (R23). -/
theorem hostCsrWrite_cases (off : CsrOffset) (v : Word) (s : State) :
    hostCsrWrite off v s = writeCtrl v s ∨ hostCsrWrite off v s = acknowledge v s ∨
      hostCsrWrite off v s = writeCmd v s ∨ hostCsrWrite off v s = writeProtected (csrOf off) v s := by
  unfold hostCsrWrite
  split
  · exact .inl rfl
  · exact .inr (.inl rfl)
  · exact .inr (.inr (.inl rfl))
  · exact .inr (.inr (.inr rfl))

/-- While BUSY = 1 a protected write sets OVR and does nothing else (R320). -/
theorem writeProtected_of_busy (c : Option Csr) (v : Word) {s : State} (h : s.st.busy = true) :
    writeProtected c v s = setOvr s := by
  unfold writeProtected
  rw [if_pos h]

/-- With BUSY = 0 a protected write to an assigned word is stored as its access kind says (R23). -/
theorem writeProtected_of_idle (c : Csr) (v : Word) {s : State} (h : s.st.busy = false) :
    writeProtected (some c) v s = storeCsr c v s := by
  simp only [writeProtected, h, Bool.false_eq_true, if_false]

/-- With BUSY = 0 a write to a reserved offset changes nothing (R23). -/
theorem writeProtected_none_of_idle (v : Word) {s : State} (h : s.st.busy = false) : writeProtected none v s = s := by
  simp only [writeProtected, h, Bool.false_eq_true, if_false]

/-- While BUSY = 1 an LMEM write sets OVR and does nothing else (R320). -/
theorem hostLmemWrite_of_busy (a : Nat) (v : Byte) {s : State} (h : s.st.busy = true) :
    hostLmemWrite a v s = setOvr s := by
  rw [hostLmemWrite, if_pos h]

section idle
variable {s : State} (h : s.st.busy = false)
include h

/-- With BUSY = 0 an LMEM write below LMEM_SIZE stores its byte (R60). -/
theorem hostLmemWrite_of_lt {a : Nat} (v : Byte) (ha : a < s.params.lmemSize) :
    hostLmemWrite a v s = memWrite s a v := by
  simp only [hostLmemWrite, h, ha, Bool.false_eq_true, if_false, if_true]

/-- With BUSY = 0 an LMEM write at or above LMEM_SIZE changes nothing (R60). -/
theorem hostLmemWrite_of_ge {a : Nat} (v : Byte) (ha : s.params.lmemSize ≤ a) : hostLmemWrite a v s = s := by
  simp only [hostLmemWrite, h, Nat.not_lt.2 ha, Bool.false_eq_true, if_false]

/-- With BUSY = 0 an LMEM read below LMEM_SIZE returns the byte (R60). -/
theorem hostLmemRead_of_lt {a : Nat} (ha : a < s.params.lmemSize) :
    (hostLmemRead a s).hostData = (memRead s a).zeroExtend 32 := by
  simp only [hostLmemRead, h, ha, Bool.false_eq_true, if_false, if_true]

/-- With BUSY = 0 an LMEM read at or above LMEM_SIZE returns 0x00 (R60). -/
theorem hostLmemRead_of_ge {a : Nat} (ha : s.params.lmemSize ≤ a) : (hostLmemRead a s).hostData = 0 := by
  simp only [hostLmemRead, h, Nat.not_lt.2 ha, Bool.false_eq_true, if_false]

/-- With BUSY = 0 a host write to a word that is not special is stored as its access kind says (R23). -/
theorem hostCsrWrite_of_idle {c : Csr} (v : Word) (hc : ¬c.special) :
    hostCsrWrite (csrOffset c) v s = storeCsr c v s := by
  rw [hostCsrWrite_protected, csrOf_csrOffset, writeProtected_of_idle c v h]
  rintro d hd
  rw [csrOf_csrOffset] at hd
  cases hd
  exact hc

end idle

/-- While BUSY = 1 an LMEM read returns a draw (R320). -/
theorem hostLmemRead_of_busy (a : Nat) {s : State} (h : s.st.busy = true) :
    (hostLmemRead a s).hostData = (Config.freeByte s.draws a).zeroExtend 32 := by
  simp only [hostLmemRead, h, if_true]

/-- Settles O9: the two kept offsets are those of CTRL and STATUS, and every other write is dropped. -/
theorem writesWhileBusyAreDropped : Obligations.WritesWhileBusyAreDropped := by
  intro s rest ht hbusy
  refine ⟨fun off v ha hctrl hstatus hs => ?csr, fun a v hs => ?memory⟩
  case csr =>
    rw [step_csrWrite ht hs ha]
    have hb : ({ s with script := rest, sched := s.sched.tail } : State).st.busy = true := hbusy
    by_cases hcmd : csrOf off = some .cmd
    · obtain rfl := csrOffset_of_csrOf ha hcmd
      exact congrArg Host.Outcome.next (writeCmd_of_busy v hb)
    · rw [hostCsrWrite_protected, writeProtected_of_busy _ v hb]
      · rfl
      · rintro c hc (rfl | rfl | rfl)
        · exact hctrl (csrOffset_of_csrOf ha hc)
        · exact hstatus (csrOffset_of_csrOf ha hc)
        · exact hcmd hc
  case memory =>
    exact (step_lmemWrite ht hs).trans (congrArg Host.Outcome.next (hostLmemWrite_of_busy a v hbusy))

/-- Settles O10: the step is the write to STATUS, bit by bit. -/
theorem statusWriteAcknowledges : Obligations.StatusWriteAcknowledges := by
  intro s v rest ht hs
  have hstep : step s = .next (acknowledge v { s with script := rest, sched := s.sched.tail }) :=
    step_csrWrite ht hs (by decide)
  refine ⟨_, hstep, rfl, rfl, ?bits⟩
  case bits => simp [Status.acknowledged]

/-- Settles O12: the step is the write to CTRL, which with SRST = 0 takes IE. -/
theorem ctrlWriteSetsInterruptEnable : Obligations.CtrlWriteSetsInterruptEnable := by
  intro s v rest ht hs hv
  rw [step_csrWrite ht hs (by decide), hostCsrWrite_ctrl, writeCtrl, hv]
  rfl

/-- Settles O19: an LMEM access below LMEM_SIZE is a store and a read of LMEM; above it is ignored. -/
theorem hostLmemAccess : Obligations.HostLmemAccess := by
  intro s a v hidle
  refine ⟨fun ha => ?below, fun ha => ⟨hostLmemWrite_of_ge hidle v ha, hostLmemRead_of_ge hidle ha⟩⟩
  case below =>
    rw [hostLmemWrite_of_lt hidle v ha]
    refine ⟨?_, rfl, fun b hb => Memory.read?_write_other s.lmem a b v hb⟩
    rw [hostLmemRead_of_lt (s := memWrite s a v) hidle ha, memRead, memWrite_lmem, Memory.read?_write_same,
      Option.getD_some]

/-- Settles O57: a host access that the interface cannot express is refused before it acts. -/
theorem inexpressibleAccessesAreRefused : Obligations.InexpressibleAccessesAreRefused := by
  intro s rest ht
  rw [step_of_host ht]
  have hal : ∀ off : CsrOffset, off.toNat % 4 ≠ 0 → aligned off = false := fun off h => decide_eq_false h
  refine ⟨fun off v ha hs => ?_, fun off ha hs => ?_, fun off n hs => ?_⟩
  · simp only [hostStep, taken_script, hs, hostAct, hal off ha, Bool.false_eq_true, if_false]
  · simp only [hostStep, taken_script, hs, hostAct, hal off ha, Bool.false_eq_true, if_false]
  · simp only [hostStep, taken_script, hs, hostAct]

/-! ### Reads (R23, R60, R108, R320) -/

/-- The words that a host may rely on while BUSY = 1 are the seven that R320 names. -/
theorem stableWhileBusy_iff (c : Csr) : stableWhileBusy c = true ↔
    c ∈ [Csr.id, .ctrl, .status, .cmd, .errCode, .errInfo .lo, .errInfo .hi] := by
  cases c with
  | errInfo h => cases h <;> simp [stableWhileBusy]
  | _ => simp [stableWhileBusy]

/-- With BUSY = 0 a read gives the word's value (R23). -/
theorem csrRead_of_idle {s : State} (c : Csr) (h : s.st.busy = false) : csrRead s c = csrValue s c := by
  simp [csrRead, h]

/-- A word that R320 names gives its value also while BUSY = 1. -/
theorem csrRead_of_stable {s : State} {c : Csr} (h : stableWhileBusy c = true) : csrRead s c = csrValue s c := by
  simp [csrRead, h]

/-- While BUSY = 1 a read of any other word gives a draw (R320). -/
theorem csrRead_of_busy {s : State} {c : Csr} (hb : s.st.busy = true) (hc : stableWhileBusy c = false) :
    csrRead s c = Config.freeWord s.draws &&& csrMask c := by
  simp [csrRead, hb, hc]

/-- A host read of an assigned word learns what a read of it gives (R108). -/
theorem hostCsrRead_hostData {off : CsrOffset} {c : Csr} (s : State) (h : csrOf off = some c) :
    (hostCsrRead off s).hostData = csrRead s c := by
  simp only [hostCsrRead, h]

/-- A host read of a reserved offset learns 0 (R23). -/
theorem hostCsrRead_hostData_reserved {off : CsrOffset} (s : State) (h : csrOf off = none) :
    (hostCsrRead off s).hostData = 0 := by
  simp only [hostCsrRead, h]

/-- Settles O16: the map's own gaps; a reserved offset reads 0 and ignores an idle write. -/
theorem reservedOffsetsReadZero : Obligations.ReservedOffsetsReadZero := by
  refine ⟨fun off ha => csrOf_eq_none_iff ha, fun off v s hnone => ⟨hostCsrRead_hostData_reserved s hnone,
    fun hidle => ?_⟩⟩
  rw [hostCsrWrite_protected v s (by simp [hnone]), hnone, writeProtected_none_of_idle v hidle]

/-- A poll of `wait` is a read of STATUS, and keeps the line until DONE reads 1 (R108). -/
theorem pollDone_eq (s : State) : pollDone s = { s with
    hostData := csrValue s .status
    script := if s.st.done then s.script else .waitDone :: s.script
    draws := s.draws + 1 } := by
  have hread : hostCsrRead (csrOffset .status) s = { s with hostData := csrValue s .status, draws := s.draws + 1 } := by
    simp only [hostCsrRead, csrOf_csrOffset, csrRead_of_stable (s := s) (c := .status) rfl]
  rw [pollDone, hread]

/-- Settles O17: a read's step is a record update of what the host learns, and the value is `csrRead`'s or LMEM's. -/
theorem hostReadsHaveNoSideEffect : Obligations.HostReadsHaveNoSideEffect := by
  intro s rest ht learns stable
  refine ⟨fun off ha hs => ⟨_, step_csrRead ht hs ha, fun c hc => ?csr⟩,
    fun a hs => ⟨_, step_lmemRead ht hs, ?memory⟩, fun hs => ?poll⟩
  case csr =>
    have hv := hostCsrRead_hostData { s with script := rest, sched := s.sched.tail } hc
    refine ⟨fun h => hv.trans ?value, fun hb hns => hv.trans ?draw⟩
    case value =>
      obtain hidle | hstable := h
      · exact csrRead_of_idle c hidle
      · exact csrRead_of_stable ((stableWhileBusy_iff c).2 hstable)
    case draw =>
      exact csrRead_of_busy hb (Bool.eq_false_iff.2 fun h => hns ((stableWhileBusy_iff c).1 h))
  case memory =>
    refine ⟨fun hb => hostLmemRead_of_busy a hb, fun hidle ha => hostLmemRead_of_ge hidle ha, fun hidle ha => ?below⟩
    case below =>
      have hv := hostLmemRead_of_lt (s := { s with script := rest, sched := s.sched.tail }) hidle ha
      refine ⟨fun b hb => hv.trans ?_, fun hnone => hv.trans ?_⟩
      · rw [memRead, hb, Option.getD_some]
      · rw [memRead, hnone, Option.getD_none]
  case poll => rw [step_waitDone ht hs, pollDone_eq]; rfl

end Sys2Proof.Machine


/-! ## What every word of the map reads as, and what a host write to it changes (R22 to R47, R310) -/

namespace Sys2Proof.Machine

/-- Settles O14: R310's power-on column is `State.powerOn`'s, field by field, and the table of R211 is evaluated. -/
theorem powerOnReset : Obligations.PowerOnReset := by
  have htable : defaultParams.qtable.toList.map (·.toNat) =
      [16, 11, 10, 16, 24, 40, 51, 61, 12, 12, 14, 19, 26, 58, 60, 55,
        14, 13, 16, 24, 40, 57, 69, 56, 14, 17, 22, 29, 51, 87, 80, 62,
        18, 22, 37, 56, 68, 109, 103, 77, 24, 35, 55, 64, 81, 104, 113, 92,
        49, 64, 78, 87, 103, 121, 120, 101, 72, 92, 95, 98, 112, 100, 103, 99] := by decide
  unfold Obligations.PowerOnReset
  rw [reset_eq]
  exact ⟨rfl, rfl, rfl, rfl, rfl, rfl, rfl, rfl, rfl, rfl, rfl, rfl, rfl, rfl, rfl, rfl, rfl, rfl, rfl, rfl,
    fun i => by simp, resetQs_get _, rfl, rfl, htable, rfl, rfl⟩

/-! ### The bits of a word that a narrow register uses (R23) -/

theorem and_allOnes_word (v : Word) : v &&& 0xFFFFFFFF = v := BitVec.and_allOnes

/-- The low `n` bits of a word, as the mask of R23's "width used" takes them. -/
theorem toNat_and_mask (v : Word) {n : Nat} (h : n ≤ 32) :
    (v &&& BitVec.ofNat 32 (2 ^ n - 1)).toNat = v.toNat % 2 ^ n := by
  have : 2 ^ n ≤ 2 ^ 32 := Nat.pow_le_pow_right (by decide) h
  rw [BitVec.toNat_and, BitVec.toNat_ofNat, Nat.mod_eq_of_lt (by omega), Nat.and_two_pow_sub_one_eq_mod]

/-- A 16-bit register reads back as the low half of the word written to it (R36, R37). -/
theorem zeroExtend_low16 (v : Word) : (v.extractLsb' 0 16).zeroExtend 32 = v &&& 0xFFFF := by
  apply BitVec.eq_of_toNat_eq
  have := toNat_and_mask v (n := 16) (by decide)
  simp at this ⊢
  omega

/-- LEN and SYM of a LUT entry read back as the low half of the word written to them (R40). -/
theorem zeroExtend_lenSym (v : Word) : (v.extractLsb' 8 8 ++ v.extractLsb' 0 8).zeroExtend 32 = v &&& 0xFFFF := by
  apply BitVec.eq_of_toNat_eq
  have := toNat_and_mask v (n := 16) (by decide)
  rw [BitVec.zeroExtend, BitVec.toNat_setWidth, toNat_fields]
  simp at this ⊢
  omega

/-! ### A store to a word of the map (R23, R47) -/

/-- A write to one word of an array of 64-bit elements leaves its other words (R47). -/
theorem half_set_of_ne (xs : Vector DWord 64) {k j : Fin 64} {h g : Half} (v : Word) (hne : ¬(j = k ∧ g = h)) :
    half g (xs.set k.val (withHalf h v xs[k.val]))[j.val] = half g xs[j.val] := by
  by_cases hj : j = k
  · subst hj
    rw [Vector.getElem_set_self, half_withHalf_other fun hg => hne ⟨rfl, hg⟩]
  · rw [Vector.getElem_set_ne _ _ fun hv => hj (Fin.ext hv.symm)]

/-- A read-write word reads as the bits of the value that the map uses (R23). -/
theorem csrValue_storeCsr_same {c : Csr} (v : Word) (s : State) (hc : c.writable = true) :
    csrValue (storeCsr c v s) c = v &&& csrMask c := by
  cases c with
  | srcAddr | srcLen | dstAddr | dstLen => exact (and_allOnes_word v).symm
  | wData h | count h | quality h => exact (half_withHalf h v _).trans (and_allOnes_word v).symm
  | maxLen | lutCnt => exact zeroExtend_low16 v
  | lutVal i => simpa [csrValue, storeCsr, csrMask] using (and_allOnes_word v).symm
  | lutSymLen i => simpa [csrValue, storeCsr, csrMask] using zeroExtend_lenSym v
  | blk k h | seq k h => simpa [csrValue, storeCsr, csrMask, half_withHalf] using (and_allOnes_word v).symm
  | _ => exact Bool.noConfusion hc

/-- A store to one word leaves what every other word reads as (R23, R47). -/
theorem csrValue_storeCsr_of_ne {c d : Csr} (v : Word) (s : State) (hd : d ≠ c) :
    csrValue (storeCsr c v s) d = csrValue s d := by
  cases c with
  | srcAddr => cases d with | srcAddr => exact absurd rfl hd | _ => rfl
  | srcLen => cases d with | srcLen => exact absurd rfl hd | _ => rfl
  | dstAddr => cases d with | dstAddr => exact absurd rfl hd | _ => rfl
  | dstLen => cases d with | dstLen => exact absurd rfl hd | _ => rfl
  | maxLen => cases d with | maxLen => exact absurd rfl hd | _ => rfl
  | lutCnt => cases d with | lutCnt => exact absurd rfl hd | _ => rfl
  | wData h => cases d with
    | wData g => exact half_withHalf_other (fun hg => hd (congrArg _ hg)) v s.wData
    | _ => rfl
  | count h => cases d with
    | count g => exact half_withHalf_other (fun hg => hd (congrArg _ hg)) v s.count
    | _ => rfl
  | quality h => cases d with
    | quality g => exact half_withHalf_other (fun hg => hd (congrArg _ hg)) v s.quality
    | _ => rfl
  | blk k h => cases d with
    | blk j g => exact half_set_of_ne s.blk v fun ⟨hj, hg⟩ => hd (hj ▸ hg ▸ rfl)
    | _ => rfl
  | seq k h => cases d with
    | seq j g => exact half_set_of_ne s.seq v fun ⟨hj, hg⟩ => hd (hj ▸ hg ▸ rfl)
    | _ => rfl
  | lutVal i => cases d with
    | lutVal j =>
      have hij : i.val ≠ j.val := fun h => hd (Fin.ext h ▸ rfl)
      simp [csrValue, storeCsr, hij]
    | lutSymLen j =>
      simp only [csrValue, storeCsr, Vector.getElem_set]
      split_ifs with h
      · simp only [h]
      · rfl
    | _ => rfl
  | lutSymLen i => cases d with
    | lutSymLen j =>
      have hij : i.val ≠ j.val := fun h => hd (Fin.ext h ▸ rfl)
      simp [csrValue, storeCsr, hij]
    | lutVal j =>
      simp only [csrValue, storeCsr, Vector.getElem_set]
      split_ifs with h
      · simp only [h]
      · rfl
    | _ => rfl
  | _ => rfl

/-- A store to a word that is not read-write changes nothing (R23). -/
theorem storeCsr_of_not_writable {c : Csr} (v : Word) (s : State) (hc : c.writable = false) : storeCsr c v s = s := by
  cases c with
  | srcAddr | srcLen | dstAddr | dstLen | wData | maxLen | lutCnt | count | quality | lutVal | lutSymLen | blk | seq =>
    exact Bool.noConfusion hc
  | _ => rfl

theorem Csr.not_special_of_writable {c : Csr} (hc : c.writable = true) : ¬c.special := by
  rintro (rfl | rfl | rfl) <;> exact Bool.false_ne_true hc

section idle
variable {s : State} (hidle : s.st.busy = false)
include hidle

/-- With BUSY = 0 every word reads as its value after a host write to a read-write word (R23). -/
theorem csrRead_hostCsrWrite {c : Csr} (v : Word) (hc : c.writable = true) (d : Csr) :
    csrRead (hostCsrWrite (csrOffset c) v s) d = csrValue (storeCsr c v s) d := by
  obtain ⟨-, -, hst, -⟩ := storeCsr_frame c v s
  rw [hostCsrWrite_of_idle hidle v (Csr.not_special_of_writable hc), csrRead_of_idle d (hst ▸ hidle)]

/-- With BUSY = 0 a host write to a read-write word is what a later read of it returns (R23). -/
theorem csrRead_hostCsrWrite_same {c : Csr} (v : Word) (hc : c.writable = true) :
    csrRead (hostCsrWrite (csrOffset c) v s) c = v &&& csrMask c := by
  rw [csrRead_hostCsrWrite hidle v hc, csrValue_storeCsr_same v s hc]

/-- With BUSY = 0 a host write to a read-write word changes no other word (R23). -/
theorem csrRead_hostCsrWrite_of_ne {c d : Csr} (v : Word) (hc : c.writable = true) (hd : d ≠ c) :
    csrRead (hostCsrWrite (csrOffset c) v s) d = csrRead s d := by
  rw [csrRead_hostCsrWrite hidle v hc, csrValue_storeCsr_of_ne v s hd, csrRead_of_idle d hidle]

end idle

/-- Settles O18: the halves are words of the map, so a write to one is read back and leaves the other. -/
theorem registerHalvesAreIndependent : Obligations.RegisterHalvesAreIndependent := by
  intro s k v hidle
  have hsame : ∀ c : Csr, c.writable = true → csrMask c = 0xFFFFFFFF →
      csrRead (hostCsrWrite (csrOffset c) v s) c = v := fun c hc hm => by
    rw [csrRead_hostCsrWrite_same hidle v hc, hm, and_allOnes_word]
  refine ⟨⟨hsame _ rfl rfl, ?_, hsame _ rfl rfl, ?_, fun j h hj => ?_⟩, hsame _ rfl rfl, ?_, hsame _ rfl rfl, ?_⟩
  all_goals refine csrRead_hostCsrWrite_of_ne hidle v rfl ?_
  case refine_3 => exact fun he => hj (Csr.blk.inj he).1
  all_goals exact fun he => by cases he

/-! ### The values of the words (R22 to R47) -/

/-- CTRL's only bit that reads as anything but 0 is IE, bit 1 (R24). -/
theorem ctrl_getLsbD (s : State) (i : Nat) : (csrValue s .ctrl).getLsbD i = (decide (i = 1) && s.ctrlIe) := by
  have hbits : ∀ j, (BitVec.ofBool s.ctrlIe ++ (0 : BitVec 1)).getLsbD j =
      if j < 1 then (0 : BitVec 1).getLsbD j else (BitVec.ofBool s.ctrlIe).getLsbD (j - 1) :=
    fun j => BitVec.getLsbD_append
  rw [csrValue, BitVec.zeroExtend, BitVec.getLsbD_setWidth, hbits]
  match i with
  | 0 | 1 => simp
  | i + 2 => simp

/-- The bits of a word put together from flags, the last one first (R25). -/
theorem getLsbD_append_ofBool {n : Nat} (x : BitVec n) (b : Bool) (i : Nat) :
    (x ++ BitVec.ofBool b).getLsbD i = if i = 0 then b else x.getLsbD (i - 1) := by
  rw [BitVec.getLsbD_append]
  cases i <;> simp

/-- STATUS bit by bit (R25). -/
theorem status_getLsbD (f : Status) (i : Nat) : (statusWord f).getLsbD i =
    if i = 0 then f.busy else if i = 1 then f.done else if i = 2 then f.err
    else if i = 3 then f.ur else if i = 4 then f.ovr else false := by
  unfold statusWord
  refine (getLsbD_append_ofBool _ f.busy i).trans ?_
  simp only [getLsbD_append_ofBool]
  match i with
  | 0 | 1 | 2 | 3 | 4 => rfl
  | i + 5 => simp

/-- W_ACC holds NACC in bits [11:8] and ACC in bits [7:0] (R34). -/
theorem wAccWord_toNat (w : Writer) : (wAccWord w).toNat = 256 * w.nacc.val + w.acc.toNat := by
  have := w.acc.isLt
  have := w.nacc.isLt
  rw [wAccWord, BitVec.zeroExtend, BitVec.toNat_setWidth, toNat_fields, BitVec.toNat_ofNat]
  omega

/-- SYMLEN holds LEN in bits [15:8] and SYM in bits [7:0] (R40). -/
theorem symLen_toNat (l y : Byte) : ((l ++ y).zeroExtend 32 : Word).toNat = 256 * l.toNat + y.toNat := by
  exact (BitVec.toNat_setWidth_of_le (by decide)).trans (toNat_fields l y)

/-- Settles O56: the words' values by their formats, and the host's writes by the store's laws. -/
theorem hostWritesStoreOrAreIgnored : Obligations.HostWritesStoreOrAreIgnored := by
  refine ⟨fun s => ?values, fun s c v hidle => ⟨csrRead_of_idle c hidle, fun hctrl hstatus hcmd =>
    ⟨fun hc => ?stored, fun hc => ?ignored⟩⟩⟩
  case values =>
    exact ⟨ctrl_getLsbD s, status_getLsbD s.st, rfl, BitVec.toNat_setWidth_of_le (by decide), toNat_halves _, rfl, rfl, rfl, rfl,
      rfl, toNat_halves _, toNat_halves _, rfl, rfl, toNat_halves _, toNat_halves _, rfl, rfl, rfl, wAccWord_toNat _,
      BitVec.toNat_setWidth_of_le (by decide), BitVec.toNat_setWidth_of_le (by decide), toNat_halves _, toNat_halves _, toNat_halves _,
      fun i => ⟨rfl, symLen_toNat _ _, rfl, BitVec.toNat_setWidth_of_le (by decide), rfl⟩,
      fun k => ⟨toNat_halves _, toNat_halves _, toNat_halves _, rfl⟩⟩
  case stored =>
    exact ⟨csrRead_hostCsrWrite_same hidle v hc, fun d hd => csrRead_hostCsrWrite_of_ne hidle v hc hd⟩
  case ignored =>
    rw [hostCsrWrite_of_idle hidle v (by simp [Csr.special, hctrl, hstatus, hcmd]), storeCsr_of_not_writable v s hc]

end Sys2Proof.Machine


/-! ## The host's step keeps the invariant, and no step faults (R10, R62, R66, R121, R122, R311, R320) -/

namespace Sys2Proof.Machine

/-- The invariant speaks only of the parameters, LMEM, the cursors' regions and the writer, QS, the latch and CMD, and
the error record with BUSY, DONE and ERR. -/
theorem inv_congr {s u : State} (hp : u.params = s.params) (hm : u.lmem = s.lmem)
    (hr : u.rd.base = s.rd.base ∧ u.rd.len = s.rd.len) (hw : u.wr = s.wr) (hq : u.qs = s.qs)
    (hst : u.st.busy = s.st.busy ∧ u.st.done = s.st.done ∧ u.st.err = s.st.err) (hl : u.latch = s.latch)
    (hc : u.cmd = s.cmd) (he : u.errCode = s.errCode ∧ u.errInfo = s.errInfo) (h : Inv s) : Inv u := by
  obtain ⟨hbody, hlatch⟩ := inv_iff.1 h
  refine inv_iff.2 ⟨⟨hp ▸ hbody.params, lmemOk_congr hp hm hbody.lmem, cursorsOk_congr hp hr hw hbody.cursors, ?_,
    qsOk_congr hq hbody.qs⟩, latchOk_congr hst hl hc he hlatch⟩
  simpa only [errCodeOk, he.1] using hbody.errCode

/-- Setting OVR keeps the invariant (R320). -/
theorem inv_setOvr {s : State} (h : Inv s) : Inv (setOvr s) :=
  inv_congr rfl rfl ⟨rfl, rfl⟩ rfl rfl ⟨rfl, rfl, rfl⟩ rfl rfl ⟨rfl, rfl⟩ h

/-- A store to a CSR word keeps the invariant: no read-write word is part of it (R23). -/
theorem inv_storeCsr (c : Csr) (v : Word) {s : State} (h : Inv s) : Inv (storeCsr c v s) := by
  obtain ⟨hp, hm, hst, hl, hc, he, hi, hr, hw, hq⟩ := storeCsr_frame c v s
  exact inv_congr hp hm (hr ▸ ⟨rfl, rfl⟩) hw hq (hst ▸ ⟨rfl, rfl, rfl⟩) hl hc ⟨he, hi⟩ h

/-- The host's acknowledgement keeps the invariant: it only clears bits (R25, R285). -/
theorem inv_acknowledge (v : Word) {s : State} (h : Inv s) : Inv (acknowledge v s) := by
  obtain ⟨hbody, hbusy, hcmd, hclear⟩ := inv_iff.1 h
  refine inv_iff.2 ⟨⟨hbody.params, hbody.lmem, hbody.cursors, hbody.errCode, hbody.qs⟩, hbusy, hcmd, fun hb => ?_⟩
  obtain ⟨hdone, herr, hcode, hinfo⟩ := hclear hb
  exact ⟨by simp [Status.acknowledged, hdone], by simp [Status.acknowledged, herr], hcode, hinfo⟩

/-- Acceptance keeps the invariant: the latch and CMD take the word, and the error record is cleared (R121). -/
theorem inv_acceptCommand (w : Word) {s : State} (h : Inv s) : Inv (acceptCommand w s) := by
  have hbody := (inv_iff.1 h).1
  exact inv_iff.2 ⟨⟨hbody.params, hbody.lmem, hbody.cursors, .inl rfl, hbody.qs⟩, rfl,
    fun _ hw => Option.some.inj hw, fun _ => ⟨rfl, rfl, rfl, rfl⟩⟩

/-- The soft reset keeps the invariant (R311). -/
theorem inv_softReset {s : State} (h : Inv s) : Inv (softReset s) := by
  have hbody := (inv_iff.1 h).1
  exact inv_iff.2 ⟨⟨hbody.params, hbody.lmem, cursorsOk_of_reset rfl rfl, .inl rfl, qsOk_of_reset hbody.params rfl⟩,
    latchOk_of_idle rfl rfl⟩

/-- A host write to CTRL keeps the invariant (R24, R311). -/
theorem inv_writeCtrl (v : Word) {s : State} (h : Inv s) : Inv (writeCtrl v s) ∧ (writeCtrl v s).params = s.params := by
  unfold writeCtrl
  split_ifs
  · exact ⟨inv_softReset h, rfl⟩
  · exact ⟨h, rfl⟩

/-- A host write to CMD keeps the invariant (R121). -/
theorem inv_writeCmd (w : Word) {s : State} (h : Inv s) : Inv (writeCmd w s) ∧ (writeCmd w s).params = s.params := by
  unfold writeCmd
  split_ifs
  · exact ⟨inv_setOvr h, rfl⟩
  · exact ⟨inv_acceptCommand w h, rfl⟩

/-- A host write under the busy protocol keeps the invariant (R23, R320). -/
theorem inv_writeProtected (c : Option Csr) (v : Word) {s : State} (h : Inv s) :
    Inv (writeProtected c v s) ∧ (writeProtected c v s).params = s.params := by
  cases hb : s.st.busy with
  | true =>
    rw [writeProtected_of_busy c v hb]
    exact ⟨inv_setOvr h, rfl⟩
  | false =>
    cases c with
    | none =>
      rw [writeProtected_none_of_idle v hb]
      exact ⟨h, rfl⟩
    | some c =>
      rw [writeProtected_of_idle c v hb]
      exact ⟨inv_storeCsr c v h, (storeCsr_frame c v s).1⟩

/-- A host CSR write keeps the invariant (R23). -/
theorem inv_hostCsrWrite (off : CsrOffset) (v : Word) {s : State} (h : Inv s) :
    Inv (hostCsrWrite off v s) ∧ (hostCsrWrite off v s).params = s.params := by
  obtain he | he | he | he := hostCsrWrite_cases off v s
  all_goals rw [he]
  · exact inv_writeCtrl v h
  · exact ⟨inv_acknowledge v h, rfl⟩
  · exact inv_writeCmd v h
  · exact inv_writeProtected _ v h

/-- A host LMEM write keeps the invariant: it stores only below LMEM_SIZE (R60). -/
theorem inv_hostLmemWrite (a : Nat) (v : Byte) {s : State} (h : Inv s) :
    Inv (hostLmemWrite a v s) ∧ (hostLmemWrite a v s).params = s.params := by
  unfold hostLmemWrite
  split_ifs with _ ha
  · exact ⟨inv_setOvr h, rfl⟩
  · obtain ⟨hbody, hlatch⟩ := inv_iff.1 h
    have hmem := lmemOk_memWrite (v := v) hbody.lmem ha
    exact ⟨inv_iff.2 ⟨⟨hbody.params, hmem, hbody.cursors, hbody.errCode, hbody.qs⟩, hlatch⟩, rfl⟩
  · exact ⟨h, rfl⟩

/-- The host's transaction keeps the invariant (R20). -/
theorem inv_hostAct {op : HostOp} {s t : State} (h : Inv s) (hact : hostAct op s = .next t) :
    Inv t ∧ t.params = s.params := by
  cases op with
  | csrWrite off v =>
    simp only [hostAct] at hact
    split_ifs at hact
    cases hact
    exact inv_hostCsrWrite off v h
  | csrRead off =>
    simp only [hostAct] at hact
    split_ifs at hact
    cases hact
    exact ⟨h, rfl⟩
  | csrNarrow off n => cases hact
  | lmemWrite a v =>
    cases hact
    exact inv_hostLmemWrite a v h
  | lmemRead a =>
    cases hact
    exact ⟨h, rfl⟩
  | waitDone =>
    cases hact
    exact ⟨h, rfl⟩

/-- The host's step keeps the invariant (R20). -/
theorem inv_hostStep {s t : State} (h : Inv s) (hstep : hostStep s = .next t) : Inv t ∧ t.params = s.params := by
  unfold hostStep at hstep
  split at hstep
  · cases hstep
    exact ⟨h, rfl⟩
  next op rest hs => exact inv_hostAct (s := { s with script := rest }) h hstep

/-- Settles O59: the core's step and the host's each keep the invariant and the parameters. -/
theorem everyStepKeepsTheInvariant : Obligations.EveryStepKeepsTheInvariant := by
  intro s t h hstep
  cases ht : turn s with
  | core =>
    rw [step_of_core ht] at hstep
    exact inv_coreStep (s := taken s) (inv_taken h) hstep
  | host =>
    rw [step_of_host ht] at hstep
    exact inv_hostStep (s := taken s) (inv_taken h) hstep

/-! ### Progress (R62, R122, R126) -/

/-- BC_READ of a legal count is its run's end (R142). -/
theorem exec_bcRead {n : BitVec 8} {s : State} (hn : countLegal n) (hr : readerOk s = true) :
    exec (.bcRead n) s = .next (runBcRead n s).close :=
  (if_pos hn).trans (finishReader_of_ok hr)

/-- The term BC_READ of a count above 64 raises BadCommand (R105, log 15). -/
theorem exec_bcRead_of_illegal {n : BitVec 8} (s : State) (hn : ¬countLegal n) :
    exec (.bcRead n) s = .next (badCommand (encode (.bcRead n)) s).close :=
  if_neg hn

/-- BC_WRITE of a legal count is its run's end (R147). -/
theorem exec_bcWrite {n : BitVec 8} {s : State} (hn : countLegal n) (hw : writerOk s = true) :
    exec (.bcWrite n) s = .next (writeBits n.toNat s.wData s).close :=
  (if_pos hn).trans (finishWriter_of_ok hw)

/-- The term BC_WRITE of a count above 64 raises BadCommand (R105, log 15). -/
theorem exec_bcWrite_of_illegal {n : BitVec 8} (s : State) (hn : ¬countLegal n) :
    exec (.bcWrite n) s = .next (badCommand (encode (.bcWrite n)) s).close :=
  if_neg hn

/-- With both cursors' regions in LMEM every command gives a next state (R10, R126). -/
theorem exec_next (i : Instr) {s : State} (hr : readerOk s = true) (hw : writerOk s = true) :
    ∃ t, exec i s = .next t := by
  cases i with
  | bcRead n =>
    by_cases hn : countLegal n
    · exact ⟨_, exec_bcRead hn hr⟩
    · exact ⟨_, exec_bcRead_of_illegal s hn⟩
  | bcGetb | hufMetaRd | hufDec | rleUnpack | deltaDec => exact ⟨_, finishReader_of_ok hr⟩
  | bcWrite n =>
    by_cases hn : countLegal n
    · exact ⟨_, exec_bcWrite hn hw⟩
    · exact ⟨_, exec_bcWrite_of_illegal s hn⟩
  | bcFlush | bcPutb | hufPack | hufMetaWr | rlePack | deltaEnc => exact ⟨_, finishWriter_of_ok hw⟩
  | _ => exact ⟨_, rfl⟩

/-- From a state of the invariant the core's step gives a next state (R122, R126). -/
theorem coreStep_next {s : State} (h : Inv s) : ∃ t, coreStep s = .next t := by
  obtain ⟨hr, hw, -⟩ := (inv_iff.1 h).1.cursors
  cases hl : s.latch with
  | none => exact ⟨s, by simp only [coreStep, hl]⟩
  | some w =>
    cases hd : decode w with
    | ok i =>
      rw [coreStep_of_decode_ok hl hd]
      exact exec_next i hr hw
    | error e => exact ⟨_, coreStep_of_decode_error hl hd⟩

/-- A transaction that the interface can express gives a next state (R62). -/
theorem hostAct_next {op : HostOp} (s : State) (h : hostOpOk op = true) : ∃ t, hostAct op s = .next t := by
  cases op with
  | csrWrite | csrRead => exact ⟨_, if_pos h⟩
  | csrNarrow => cases h
  | lmemWrite | lmemRead | waitDone => exact ⟨_, rfl⟩

/-- Settles O60: the core's commands end since the cursors' regions lie in LMEM, the host's transactions when they can
be expressed. -/
theorem stepsGoOn : Obligations.StepsGoOn := by
  intro s h hop
  cases ht : turn s with
  | core =>
    rw [step_of_core ht]
    exact coreStep_next (inv_taken h)
  | host =>
    rw [step_of_host ht]
    cases hs : s.script with
    | nil => exact ⟨taken s, by simp only [hostStep, taken_script, hs]⟩
    | cons op rest =>
      obtain ⟨t, hact⟩ := hostAct_next { taken s with script := rest } (hop ht op (by simp [hs]))
      exact ⟨t, by simpa only [hostStep, taken_script, hs] using hact⟩

end Sys2Proof.Machine


/-! ## BC_READ and BC_WRITE (R142, R145, R147) -/

namespace Sys2Proof.Machine

/-- The encoding of a command as a number: COUNT above the opcode (R100, R103). -/
theorem encode_toNat (i : Instr) : (encode i).toNat = (countOf i).toNat * 256 + (opcode i).toNat := by
  have h0 : (0 : BitVec 16).toNat = 0 := rfl
  rw [encode, toNat_fields, toNat_fields, h0]
  omega

/-- BC_READ's run reads n bits into RDATA (R142). -/
theorem runBcRead_eq (n : BitVec 8) (s : State) : runBcRead n s = .ok () { afterRead s n.toNat with
    rData := BitVec.ofNat 64 (valueOf (streamBits s s.rd.pos n.toNat)) } := by
  rw [runBcRead, readBits_eq]

/-- The raise of an illegal word is trap entry with the word as info (R105). -/
theorem close_badCommand (w : Word) (s : State) :
    (badCommand w s).close = trapEntry .badCommand (BitVec.ofNat 64 w.toNat) s := by
  rw [BitVec.ofNat_toNat]
  rfl

/-- Settles O21: the run is a read of n bits, or BadCommand with the word of the term. -/
theorem bcReadReturnsTheNextBits : Obligations.BcReadReturnsTheNextBits := by
  refine fun n s => ⟨fun hn => ⟨encode_toNat _, fun hr => ?_⟩, fun hn => ?_⟩
  · rw [exec_bcRead hn hr, runBcRead_eq]
    rfl
  · rw [exec_bcRead_of_illegal s (Nat.not_le.2 hn), close_badCommand, encode_toNat]
    rfl

/-- Settles O24: the run is the low n bits through the writer, or BadCommand with the word of the term. -/
theorem bcWriteAppendsBits : Obligations.BcWriteAppendsBits := by
  refine fun n s => ⟨fun hn => ⟨encode_toNat _, fun hw hacc => ?_⟩, fun hn => ?_⟩
  · rw [exec_bcWrite hn hw]
    have hclose := close_writeBitList (writerReady_of hw hacc) (writeBits_eq_list n.toNat s.wData s)
    rwa [bitsMsb_length] at hclose
  · rw [exec_bcWrite_of_illegal s (Nat.not_le.2 hn), close_badCommand, encode_toNat]
    rfl

end Sys2Proof.Machine


/-! ## The transforms and the zig-zag order (R210, R213, R215, R216, R220, R240 to R242) -/

namespace Sys2Proof.Machine

/-- DCT_FWD is completion with BLK transformed (R215). -/
theorem exec_dctFwd (s : State) : exec .dctFwd s = .next (complete { s with blk := forwardDct s }) := rfl

/-- DCT_INV is completion with BLK transformed back (R216). -/
theorem exec_dctInv (s : State) : exec .dctInv s = .next (complete { s with blk := inverseDct s }) := rfl

/-- An element of an 8×8 array given by its elements (R210). -/
theorem at8_tabulate (f : Fin 64 → DWord) (i j : Fin 8) : at8 (tabulate f) i j = f ⟨8 * i.val + j.val, by omega⟩ :=
  tabulate_get f _ _

/-- The free pattern of an operation of one element of MatMul: the products' by `m`, the sums' by `10 + m` (R213,
I3). -/
def elementNan (draws site n : Nat) : DWord :=
  if n < 10 then nanAt draws (site + 2 * n) else nanAt draws (site + 2 * (n - 10) + 1)

theorem elementNan_quiet (draws site n : Nat) : F64.isQuietNan (elementNan draws site n) = true := by
  unfold elementNan
  split_ifs
  · exact nanAt_quiet _ _
  · exact nanAt_quiet _ _

/-- An element of MatMul is `dot8` of a row and a column (R213). -/
theorem at8_matMul (draws base : Nat) (a b : Vector DWord 64) (i j : Fin 8) : at8 (matMul draws base a b) i j =
    dot8 draws (base + 16 * (8 * i.val + j.val)) (fun m => at8 a i m) (fun m => at8 b m j) := by
  have hi : (8 * i.val + j.val) / 8 = i.val := by omega
  have hj : (8 * i.val + j.val) % 8 = j.val := by omega
  rw [matMul, at8_tabulate]
  simp only [hi, hj]

/-- The transpose (R210). -/
theorem at8_transpose8 (v : Vector DWord 64) (i j : Fin 8) : at8 (transpose8 v) i j = at8 v j i := by
  have hi : (8 * i.val + j.val) / 8 = i.val := by omega
  have hj : (8 * i.val + j.val) % 8 = j.val := by omega
  rw [transpose8, at8_tabulate]
  simp only [hi, hj]

/-- Settles O42: MatMul's elements are `dot8` unrolled, and the datapath is exact or within a butterfly's bound. -/
theorem transformsAreMatrixProducts : Obligations.TransformsAreMatrixProducts := by
  refine ⟨by decide, by decide, fun draws base a b i j => ?element, by decide +kernel, at8_transpose8 basisT,
    fun s => ⟨fun hexact => ?exact, fun limit bound himpl hbound => ?butterfly⟩⟩
  case element =>
    exact ⟨elementNan draws (base + 16 * (8 * i.val + j.val)), elementNan_quiet draws _,
      at8_matMul draws base a b i j⟩
  case exact =>
    refine ⟨⟨0, 1024, ?_⟩, 0, 1024, ?_⟩
    · rw [exec_dctFwd, forwardDct, datapath_exact hexact, forwardExact]
    · rw [exec_dctInv, inverseDct, datapath_exact hexact, inverseExact]
  case butterfly =>
    exact ⟨⟨0, 1024, _, exec_dctFwd s, datapath_accurate himpl hbound false _⟩,
      0, 1024, _, exec_dctInv s, datapath_accurate himpl hbound true _⟩

/-! ### The zig-zag order -/

/-- An element moved by ZZ_READ (R241). -/
theorem getElem_zigzagOf (b : Vector DWord 64) (k : Fin 64) : (zigzagOf b)[k.val] = b[(zz k).val] :=
  tabulate_get _ _ _

/-- An element moved by ZZ_WRITE (R242). -/
theorem getElem_unzigzagOf (q : Vector DWord 64) (i : Fin 64) : (unzigzagOf q)[i.val] = q[(zzPlace i).val] :=
  tabulate_get _ _ _

/-- ZZ_WRITE undoes ZZ_READ (R242). -/
theorem unzigzagOf_zigzagOf (b : Vector DWord 64) : unzigzagOf (zigzagOf b) = b := by
  refine Vector.ext fun i hi => ?_
  rw [getElem_unzigzagOf _ ⟨i, hi⟩, getElem_zigzagOf]
  simp only [zz_place]

/-- ZZ_READ undoes ZZ_WRITE (R242). -/
theorem zigzagOf_unzigzagOf (q : Vector DWord 64) : zigzagOf (unzigzagOf q) = q := by
  refine Vector.ext fun k hk => ?_
  rw [getElem_zigzagOf _ ⟨k, hk⟩, getElem_unzigzagOf]
  simp only [place_zz]

theorem exec_zzRead (s : State) : exec .zzRead s = .next (complete { s with seq := zigzagOf s.blk }) := rfl

theorem exec_zzWrite (s : State) : exec .zzWrite s = .next (complete { s with blk := unzigzagOf s.seq }) := rfl

/-- Settles O44: the order is a table with an inverse, and the two moves are its two directions. -/
theorem zigZagMovesPatternsInOrder : Obligations.ZigZagMovesPatternsInOrder := by
  refine ⟨by decide, by decide, by decide +kernel,
    Function.bijective_iff_has_inverse.2 ⟨zzPlace, place_zz, zz_place⟩, fun s =>
    ⟨zigzagOf s.blk, unzigzagOf s.seq, exec_zzRead s, exec_zzWrite s, getElem_zigzagOf s.blk, fun k => ?_, ?_, ?_⟩⟩
  · rw [getElem_unzigzagOf]
    simp only [place_zz]
  · rw [exec_zzWrite, unzigzagOf_zigzagOf]
  · rw [exec_zzRead, zigzagOf_unzigzagOf]

end Sys2Proof.Machine


/-! ## Binary64 arithmetic and conversions (R13, R109, R219) -/

namespace Sys2Proof.Machine.F64

/-! ### Finite operands -/

theorem isNan_of_isFinite {a : DWord} (h : isFinite a = true) : isNan a = false := by
  simp only [isFinite, bne_iff_ne, ne_eq] at h
  simp [isNan, h]

theorem isInf_of_isFinite {a : DWord} (h : isFinite a = true) : isInf a = false := by
  simp only [isFinite, bne_iff_ne, ne_eq] at h
  simp [isInf, h]

theorem value_of_mant_eq_zero {a : DWord} (h : mant a = 0) : value a = 0 := by
  simp [value, h]

/-- A quotient with dividend 0 is 0, with no sticky bit. -/
theorem quotient_zero_left (q : Nat) : quotient 0 q = 0 := by simp [quotient]

/-- A pattern of no significand is the zero of its sign. -/
theorem roundPack_zero (n : Bool) (e : Int) : roundPack n 0 e = signBit n := if_pos rfl

section finite
variable (nan : DWord) {a b : DWord} (ha : isFinite a = true) (hb : isFinite b = true)
include ha hb

theorem add_of_finite : add nan a b = addFinite a b := by
  simp [add, isNan_of_isFinite ha, isNan_of_isFinite hb, isInf_of_isFinite ha, isInf_of_isFinite hb]

theorem mul_of_finite : mul nan a b = roundPack (neg a != neg b) (mant a * mant b) (expo a + expo b) := by
  simp [mul, isNan_of_isFinite ha, isNan_of_isFinite hb, isInf_of_isFinite ha, isInf_of_isFinite hb]

theorem div_of_finite (h0 : isZero b = false) :
    div nan a b = roundPack (neg a != neg b) (quotient (mant a) (mant b)) (expo a - expo b - 111) := by
  simp [div, isNan_of_isFinite ha, isNan_of_isFinite hb, isInf_of_isFinite ha, isInf_of_isFinite hb, h0]

end finite

/-- The exponent of a sum's exact value: the smaller of the operands' (R13). -/
def sumExpo (a b : DWord) : Int := min (expo a) (expo b)

/-- A sum's exact significand in units of `2 ^ sumExpo a b`. -/
def sumScaled (a b : DWord) : Int := scaled a (sumExpo a b) + scaled b (sumExpo a b)

theorem sumScaled_value (a b : DWord) : (sumScaled a b : ℚ) * 2 ^ sumExpo a b = value a + value b := by
  rw [sumScaled, Int.cast_add, add_mul, scaled_value a (e := sumExpo a b) (min_le_left _ _),
    scaled_value b (e := sumExpo a b) (min_le_right _ _)]

theorem addFinite_of_zero {a b : DWord} (h : sumScaled a b = 0) : addFinite a b = signBit (neg a && neg b) := if_pos h

theorem addFinite_of_ne_zero {a b : DWord} (h : sumScaled a b ≠ 0) :
    addFinite a b = roundPack (decide (sumScaled a b < 0)) (sumScaled a b).natAbs (sumExpo a b) := if_neg h

/-- The sum of two finite values is their exact sum rounded once (R13, R219). -/
theorem addFinite_rounds (a b : DWord) : RoundsTo (value a + value b) (addFinite a b) := by
  by_cases h : sumScaled a b = 0
  · rw [addFinite_of_zero h, ← sumScaled_value, h, Int.cast_zero, zero_mul]
    exact roundsTo_zero _
  · have hr := roundPack_rounds' (decide (sumScaled a b < 0)) (sumScaled a b).natAbs (sumExpo a b)
    rwa [← mul_assoc, natAbs_sign, sumScaled_value, ← addFinite_of_ne_zero h] at hr

/-- An exact sum of 0 is -0.0 only of two negatives (R219). -/
theorem addFinite_of_value_zero {a b : DWord} (h : value a + value b = 0) :
    addFinite a b = signBit (neg a && neg b) := by
  rw [← sumScaled_value] at h
  have hs := (mul_eq_zero.1 h).resolve_right (two_zpow_pos _).ne'
  exact addFinite_of_zero (by exact_mod_cast hs)

/-- The product of two values, from their signs, significands and exponents. -/
theorem value_mul (a b : DWord) : value a * value b =
    (if neg a != neg b then -1 else 1) * (((mant a * mant b : ℕ) : ℚ) * 2 ^ (expo a + expo b)) := by
  rw [value, value, mul_neg_sign, zpow_add₀ two_ne_zero]
  push_cast
  ring

/-- The quotient of two values, from their signs, significands and exponents. -/
theorem value_div (a b : DWord) : value a / value b =
    (if neg a != neg b then -1 else 1) * ((mant a : ℚ) / mant b * 2 ^ (expo a - expo b)) := by
  have hsign : (if neg b then -1 else 1 : ℚ)⁻¹ = if neg b then -1 else 1 := by split_ifs <;> norm_num
  rw [value, value, mul_neg_sign, zpow_sub₀ two_ne_zero, div_eq_mul_inv, mul_inv, mul_inv, hsign]
  ring

/-- A quotient by a significand that is not 0 is rounded once (R13, R219). -/
theorem roundPack_quotient_rounds (n : Bool) {p q : ℕ} (hq : 0 < q) (hpq : 0 < p → q < 2 ^ 53 * p) (e : ℤ) :
    RoundsTo ((if n then -1 else 1) * ((p : ℚ) / q * 2 ^ e)) (roundPack n (quotient p q) (e - 111)) := by
  obtain rfl | hp := Nat.eq_zero_or_pos p
  · simpa [quotient_zero_left, roundPack_zero] using roundsTo_zero n
  · obtain ⟨hpos, hstands⟩ := quotient_standsFor hq (hpq hp) e
    exact roundPack_standsFor n hpos hstands

end Sys2Proof.Machine.F64

namespace Sys2Proof.Machine

open F64 in
/-- Settles O37: each operation is `roundPack` of its exact value, the quotient through its sticky bit. -/
theorem arithmeticIsCorrectlyRounded : Obligations.ArithmeticIsCorrectlyRounded := by
  intro nan a b ha hb
  refine ⟨?sum, ?product, fun h0 => ?quotient⟩
  case sum =>
    rw [add_of_finite nan ha hb]
    exact ⟨addFinite_rounds a b, addFinite_of_value_zero⟩
  case product =>
    rw [mul_of_finite nan ha hb, value_mul]
    exact ⟨roundPack_rounds' _ _ _, roundPack_neg _ _ _⟩
  case quotient =>
    rw [div_of_finite nan ha hb h0, value_div]
    have := mant_lt b
    exact ⟨roundPack_quotient_rounds _ (mant_pos h0) (fun _ => by omega) _, roundPack_neg _ _ _⟩

end Sys2Proof.Machine

/-! ### Infinities and NaN -/

namespace Sys2Proof.Machine.F64

@[simp] theorem isNan_inf (n : Bool) : isNan (inf n) = false := by cases n <;> decide

@[simp] theorem isInf_inf (n : Bool) : isInf (inf n) = true := by cases n <;> decide

@[simp] theorem isZero_inf (n : Bool) : isZero (inf n) = false := by cases n <;> decide

@[simp] theorem neg_inf (n : Bool) : neg (inf n) = n := by cases n <;> decide

/-- Zeros are the finite patterns of value 0 (R13). -/
theorem isZero_iff_value (x : DWord) : isZero x = true ↔ isFinite x = true ∧ value x = 0 := by
  rw [isZero_iff, isFinite_iff, ← abs_eq_zero, abs_value, magValue_eq_zero]
  exact ⟨fun h => ⟨h ▸ by decide, h⟩, fun h => h.2⟩

/-- `is_int16` is the range of the integer a pattern stands for (R13). -/
theorem isInt16_iff (x : DWord) :
    isInt16 x = true ↔ isFinite x = true ∧ ∃ i : Int, value x = i ∧ -32768 ≤ i ∧ i ≤ 32767 := by
  unfold isInt16
  cases h : toInt? x with
  | some i =>
    obtain ⟨hf, hv⟩ := (toInt_iff x i).1 h
    simp [hf, hv]
  | none =>
    refine ⟨fun hn => absurd hn Bool.false_ne_true, fun ⟨hf, i, hv, _⟩ => ?_⟩
    rw [(toInt_iff x i).2 ⟨hf, hv⟩] at h
    cases h

/-- A power of ten with an integer exponent, as the quotient that `Decimal.bits` divides. -/
theorem ten_zpow (e : ℤ) : (10 : ℚ) ^ e = (10 ^ e.toNat : ℕ) / (10 ^ (-e).toNat : ℕ) := by
  conv_lhs => rw [← Int.toNat_sub_toNat_neg e, zpow_sub₀ (by norm_num), zpow_natCast, zpow_natCast]
  push_cast
  rfl

/-- The dividend of a decimal's quotient: its digits, scaled by a power of ten that is not negative (R109). -/
def Decimal.dividend (x : Decimal) : Nat := x.digits * 10 ^ x.exp10.toNat

/-- The divisor of a decimal's quotient, a power of ten (R109). -/
def Decimal.divisor (x : Decimal) : Nat := 10 ^ (-x.exp10).toNat

theorem Decimal.divisor_pos (x : Decimal) : 0 < x.divisor := Nat.pow_pos (by decide)

/-- A decimal's value is its quotient, with its sign (R109). -/
theorem Decimal.value_eq (x : Decimal) : x.value = (if x.neg then -1 else 1) * ((x.dividend : ℚ) / x.divisor) := by
  rw [Decimal.value, ten_zpow, Decimal.dividend, Decimal.divisor]
  push_cast
  ring

/-- A decimal's pattern is the rounded quotient, with as many more bits as the divisor has (R109). -/
theorem Decimal.bits_eq (x : Decimal) : x.bits = roundPack x.neg
    (quotient (x.dividend * 2 ^ Nat.log2 x.divisor) x.divisor) (-(Nat.log2 x.divisor : ℤ) - 111) := by
  rw [← neg_add']
  rfl

/-- A decimal's pattern is its value rounded once (R109, log 21). -/
theorem Decimal.bits_rounds (x : Decimal) : RoundsTo x.value x.bits := by
  obtain ⟨-, hlog⟩ := log2_bounds x.divisor_pos
  rw [pow_succ] at hlog
  have hsize : 0 < x.dividend * 2 ^ Nat.log2 x.divisor → x.divisor < 2 ^ 53 * (x.dividend * 2 ^ Nat.log2 x.divisor) :=
    fun hp => by
      have := Nat.le_mul_of_pos_left (2 ^ Nat.log2 x.divisor) (Nat.pos_of_mul_pos_right hp)
      omega
  have hround := roundPack_quotient_rounds x.neg x.divisor_pos hsize (-(Nat.log2 x.divisor : ℤ))
  rw [← Decimal.bits_eq] at hround
  convert hround using 1
  rw [Decimal.value_eq, zpow_neg, zpow_natCast]
  push_cast
  field_simp

end Sys2Proof.Machine.F64

namespace Sys2Proof.Machine

/-- Settles O38: the operations' first tests, on NaN, infinities and zeros. -/
theorem specialOperandsFollowIeee : Obligations.SpecialOperandsFollowIeee := by
  refine fun nan a b => ⟨fun hnan => ?nan, fun n m => ?infinities, fun n hb => ?infinity, fun ha hb => ?byZero⟩
  case nan =>
    have h : (F64.isNan a || F64.isNan b) = true := by simpa using hnan
    exact ⟨if_pos h, if_pos h, if_pos h⟩
  case infinities =>
    refine ⟨?_, by simp [F64.mul], by simp [F64.div]⟩
    cases n <;> cases m <;> simp [F64.add]
  case infinity =>
    have hn := F64.isNan_of_isFinite hb
    have hi := F64.isInf_of_isFinite hb
    exact ⟨by simp [F64.add, hn, hi], by simp [F64.add, hn, hi], by simp [F64.div, hn, hi], by simp [F64.div, hn, hi],
      fun h0 => by simp [F64.mul, hn, hi, h0], fun h0 => by simp [F64.mul, hn, hi, h0]⟩
  case byZero =>
    have hbfin := ((F64.isZero_iff_value b).1 hb).1
    simp [F64.div, F64.isNan_of_isFinite ha, F64.isInf_of_isFinite ha, F64.isNan_of_isFinite hbfin,
      F64.isInf_of_isFinite hbfin, hb]

/-- Settles O39: integers up to 2^53 are their own rounding; a decimal is one rounded quotient. -/
theorem conversionsAreExact : Obligations.ConversionsAreExact := by
  refine ⟨fun i hi => ?ofInt, fun n hn => ?ofNat, F64.isZero_iff_value, F64.toInt_iff, F64.isInt16_iff,
    fun x => ⟨x.bits_rounds, F64.roundPack_neg _ _ _⟩⟩
  case ofInt =>
    obtain ⟨hf, hv, -⟩ := F64.roundPack_int (decide (i < 0)) hi
    exact ⟨hf, hv.trans (F64.natAbs_sign i)⟩
  case ofNat =>
    obtain ⟨hf, hv, -⟩ := F64.roundPack_int false hn
    exact ⟨hf, hv.trans (one_mul _)⟩

end Sys2Proof.Machine


/-! ## From the writer to the reader (R33, R34, R145): what every round trip shares -/

namespace Sys2Proof.Machine

/-- A run whose outcome has no ERR has completed (R123, R282). -/
theorem Run.ok_of_close_err {r : Run Unit} (h : r.close.st.err = false) : ∃ u, r = .ok () u := by
  cases r with
  | ok a u => exact ⟨u, rfl⟩
  | raised e info u => cases h

/-- A writer that starts a byte has a clean ACC (R34). -/
theorem accClean_of_acc_eq_zero {w : Writer} (h : w.acc = 0) : accClean w := by
  simp [accClean, h]

/-- One bit string through the writer that does not raise had room, and was appended (R145). -/
theorem appends_of_writeBitList_ok {s u : State} {bits : List Bool} (hw : writerReady s.wr)
    (h : writeBitList bits s = .ok () u) : roomFor s.wr bits.length ∧ Appends s u bits := by
  by_cases hroom : roomFor s.wr bits.length
  · obtain ⟨v, hv, happ⟩ := writeBitList_appends bits hw hroom
    rw [h] at hv
    cases hv
    exact ⟨hroom, happ⟩
  · obtain ⟨v, hv, -⟩ := writeBitList_overflow bits hw hroom
    rw [h] at hv
    cases hv

/-- A bit string of whole bytes leaves the writer as far inside a byte as it was (R34). -/
theorem Appends.nacc_eq_of_bytes {s t : State} {bs : List Bool} (h : Appends s t bs) (h0 : s.wr.nacc = 0)
    (hl : bs.length % 8 = 0) : t.wr.nacc = 0 := by
  obtain ⟨-, hwritten, -⟩ := h
  have h0' : s.wr.nacc.val = 0 := by rw [h0]; rfl
  have hmod := writtenBits_mod t.wr
  rw [hwritten, writtenBits] at hmod
  exact Fin.ext (by rw [Fin.val_zero]; omega)

/-- The bytes that an append completes lie inside W_CAP when there was room (R145). -/
theorem Appends.bytes_le_cap {s t : State} {bs : List Bool} (h : Appends s t bs) (hroom : roomFor s.wr bs.length) :
    t.wr.bytes.toNat ≤ s.wr.cap.toNat := by
  obtain ⟨hle, -⟩ := h.ready hroom
  rwa [h.wr_cap] at hle

/-- A reader over the bytes that an append completed lies in LMEM (R10, R34). -/
theorem Appends.readerOk {s t d : State} {bits : List Bool} (h : Appends s t bits) (hw : writerOk s = true)
    (hroom : roomFor s.wr bits.length) (hb : d.rd.base.toNat = s.wr.base.toNat + s.wr.bytes.toNat)
    (hl : d.rd.len.toNat = t.wr.bytes.toNat - s.wr.bytes.toNat) (hp : d.params = s.params) : readerOk d = true := by
  obtain ⟨hcap, -⟩ := writerOk_bounds hw
  have hbytes := h.bytes_le_cap hroom
  have hmono := h.bytes_le
  rw [readerOk_iff, hp]
  omega

/-- The registers of a reader placed over the bytes that an append completed do not wrap, since there is at least one
such byte (R6, R34). -/
theorem Appends.region_toNat {s t d : State} {bits : List Bool} (h : Appends s t bits) (hlegal : s.params.legal)
    (hw : writerOk s = true) (hroom : roomFor s.wr bits.length) (h0 : s.wr.nacc = 0) (hbits : 8 ≤ bits.length)
    (hb : d.rd.base = s.wr.base + s.wr.bytes) (hl : d.rd.len = t.wr.bytes - s.wr.bytes) :
    d.rd.base.toNat = s.wr.base.toNat + s.wr.bytes.toNat ∧ d.rd.len.toNat = t.wr.bytes.toNat - s.wr.bytes.toNat := by
  obtain ⟨hcap, -⟩ := writerOk_bounds hw
  obtain ⟨-, hsize, -⟩ := hlegal
  have hle := h.bytes_le_cap hroom
  have hmono := h.bytes_le
  obtain ⟨-, hwritten, -⟩ := h
  have htn := t.wr.nacc.isLt
  unfold writtenBits at hwritten
  refine ⟨?_, ?_⟩
  · rw [hb, BitVec.toNat_add, Nat.mod_eq_of_lt (by omega)]
  · rw [hl, BitVec.toNat_sub_of_le (by rwa [BitVec.le_def])]

section wrote
variable {d : State} {bits : List Bool} (h : Wrote d bits) (hpos : d.rd.pos = 0)
include h hpos

/-- A reader that has read the whole string stands at its end (R33). -/
theorem Wrote.afterRead_pos : (afterRead d bits.length).rd.pos.toNat = 8 * d.rd.len.toNat := by
  have hlen := h.len
  have hlt := d.rd.len.isLt
  have hzero : (0 : DWord).toNat = 0 := rfl
  rw [afterRead_rd_pos, hpos, BitVec.toNat_add, BitVec.toNat_ofNat, hzero]
  omega

/-- A reader that has read the whole string has padded nothing (R33). -/
theorem Wrote.afterRead_pad (hpad : d.rd.pad = 0) : (afterRead d bits.length).rd.pad = 0 := by
  have hzero : Machine.padCount d bits.length = 0 := h.padCount hpos le_rfl
  rw [afterRead, hpad, hzero]
  rfl

end wrote

end Sys2Proof.Machine

/-! ## RLE_PACK and RLE_UNPACK undo each other (R246) -/

namespace Sys2Proof.Machine

/-- RLE_PACK of values that can be coded, without an error, has appended the stream (R243, R244). -/
theorem rlePack_appends {s t : State} (hw : writerOk s = true) (hacc : accClean s.wr)
    (hall : ∀ k : Fin 64, rleCodable s.seq[k.val] = true) (hex : exec .rlePack s = .next t) (herr : t.st.err = false) :
    ∃ u, t = complete u ∧ roomFor s.wr (rleStream s.seq).length ∧ Appends s u (rleStream s.seq) := by
  rw [exec_rlePack hw, runRlePack_of_codable hall] at hex
  cases hex
  obtain ⟨u, hu⟩ := Run.ok_of_close_err herr
  exact ⟨u, by rw [hu, Run.close_ok], appends_of_writeBitList_ok (writerReady_of hw hacc) hu⟩

/-- The sentinel stands behind the pairs of the non-zero coefficients (R243). -/
theorem rleStream_eq (q : Vector DWord 64) :
    rleStream q = (nzBelow q 64).flatMap (pairBits q) ++ List.replicate 24 false := by
  rw [nzBelow, List.take_of_length_le (by simp)]
  rfl

theorem rleStream_length_eq (q : Vector DWord 64) : (rleStream q).length = 24 * ((nzBelow q 64).length + 1) := by
  rw [rleStream_eq, List.length_append, flatMap_pairs_length, List.length_replicate]
  omega

section walk
variable {q : Vector DWord 64} {d : State} (hw : Wrote d (rleStream q)) (hpos : d.rd.pos = 0)
include hw hpos

/-- The pair behind the data pairs of a packed stream is the sentinel (R245). -/
theorem Wrote.sentinel : skipAt d (nzBelow q 64).length = 0 ∧ pairAt d (nzBelow q 64).length = 0 := by
  have hbits : Machine.streamBits d (BitVec.ofNat 64 (24 * (nzBelow q 64).length)) 24 = List.replicate 24 false := by
    have hw' := hw
    rw [rleStream_eq, ← List.append_nil (_ ++ _)] at hw'
    have hpart := hw'.part
    rwa [flatMap_pairs_length, List.length_replicate] at hpart
  have hsplit : Machine.streamBits d (BitVec.ofNat 64 (24 * (nzBelow q 64).length)) 8 ++
      Machine.streamBits d (BitVec.ofNat 64 (24 * (nzBelow q 64).length + 8)) 16 =
        List.replicate 8 false ++ List.replicate 16 false := by
    rw [BitVec.ofNat_add, ← streamBits_add]
    exact hbits
  obtain ⟨hskip, hpair⟩ := List.append_inj hsplit (by simp)
  refine ⟨?_, ?_⟩
  · rw [skipAt, hpos, zero_add, hskip]
    decide
  · rw [pairAt, hpos, zero_add, hpair]
    decide

/-- RLE_UNPACK's run on a packed stream gives the coefficients back, every zero as +0.0 (R245, R246). -/
theorem Wrote.runRleUnpack (hall : ∀ k : Fin 64, (F64.isZero q[k.val] || F64.isInt16 q[k.val]) = true) :
    ∃ S : Vector DWord 64, runRleUnpack d = .ok () { afterRead d (rleStream q).length with seq := S } ∧
      ∀ k : Fin 64, S[k.val] = if F64.isZero q[k.val] then 0 else q[k.val] := by
  obtain ⟨hpairs, -, hfound⟩ := rle_walk hw hpos hall 64 le_rfl
  obtain ⟨hskip, hvalue⟩ := hw.sentinel hpos
  have hpad : Machine.padCount d (24 * ((nzBelow q 64).length + 1)) = 0 := hw.padCount hpos (rleStream_length_eq q).ge
  obtain ⟨S, ⟨hplaced, hrest⟩, hrun⟩ := runRleUnpack_of_sentinel (fun i hi => (hpairs i hi).1) hpad hvalue hskip
  refine ⟨S, by rw [hrun, rleStream_length_eq], fun k => ?_⟩
  split_ifs with hz
  case pos =>
    refine hrest k fun i hi hplace => ?_
    obtain ⟨-, k', -, hk', hz', -⟩ := hpairs i hi
    obtain rfl : k' = k := Fin.ext (hk'.symm.trans hplace)
    rw [hz] at hz'
    cases hz'
  case neg =>
    have hz : F64.isZero q[k.val] = false := Bool.eq_false_iff.2 hz
    obtain ⟨i, hi, hplace⟩ := hfound k k.isLt hz
    obtain ⟨-, k', -, hk', -, hpair⟩ := hpairs i hi
    obtain rfl : k' = k := Fin.ext (hk'.symm.trans hplace)
    have hint : F64.isInt16 q[k'.val] = true := by simpa [hz] using hall k'
    have hS := hplaced i (by omega) hi
    rw [hpair, BitVec.ofNat_toNat, BitVec.setWidth_eq, (int16_back hz hint).2] at hS
    simpa only [hplace] using hS

end walk

/-- Settles O47: the stream that RLE_PACK appends is the one that RLE_UNPACK walks over. -/
theorem rleRoundTrip : Obligations.RleRoundTrip := by
  intro s t d hlegal hall hw hn hacc _ hex herr hm hp hrd
  obtain ⟨u, rfl, hroom, happ⟩ := rlePack_appends hw (accClean_of_acc_eq_zero hacc) hall hex herr
  have hlen := rleStream_length_eq s.seq
  have hu : u.wr.nacc = 0 := happ.nacc_eq_of_bytes hn (by omega)
  obtain ⟨hbase, hlenEq⟩ := happ.region_toNat hlegal hw hroom hn (by omega) (congrArg Reader.base hrd)
    (congrArg Reader.len hrd)
  have hwrote : Wrote d (rleStream s.seq) := happ.wrote hn hu hm hbase hlenEq
  have hpos : d.rd.pos = 0 := by rw [hrd]
  obtain ⟨S, hrun, hS⟩ := hwrote.runRleUnpack hpos hall
  have hparams : d.params = s.params := by rw [hp, complete_params, happ.1]
  refine ⟨_, by rw [exec_rleUnpack (happ.readerOk hw hroom hbase hlenEq hparams), hrun, Run.close_ok], ?_, ?_, hS⟩
  · exact hwrote.afterRead_pos hpos
  · exact hwrote.afterRead_pad hpos (by rw [hrd])

end Sys2Proof.Machine


/-! ## DELTA_ENC and DELTA_DEC undo each other (R262) -/

namespace Sys2Proof.Machine

/-- DELTA_ENC that does not raise has found its source region valid and apart from the writer's, and has appended the
record (R259, R260). -/
theorem deltaEnc_appends {s t : State} (hw : writerOk s = true) (hacc : accClean s.wr)
    (hex : exec .deltaEnc s = .next t) (herr : t.st.err = false) :
    ∃ u, t = complete { u with dLen := s.srcLen.zeroExtend 64 } ∧
      roomFor s.wr (deltaRecord (regionBytes s (srcRegion s))).length ∧
      Appends s u (deltaRecord (regionBytes s (srcRegion s))) := by
  rw [exec_deltaEnc hw] at hex
  cases hex
  obtain ⟨v, hv⟩ := Run.ok_of_close_err herr
  have hin : s.srcAddr.toNat + s.srcLen.toNat ≤ s.params.lmemSize := by
    by_contra hout
    rw [runDeltaEnc_of_invalid (Nat.not_le.1 hout)] at hv
    cases hv
  have ho : (srcRegion s).overlaps (writerRegion s) = false := by
    by_contra ho
    rw [runDeltaEnc_of_overlap hin (Bool.not_eq_false _ ▸ ho)] at hv
    cases hv
  rw [runDeltaEnc_of_disjoint hin ho] at hv
  obtain ⟨_, u, hu, hend⟩ := Run.andThen_eq_ok.1 hv
  cases hend
  refine ⟨u, ?_, appends_of_writeBitList_ok (writerReady_of hw hacc) hu⟩
  rw [runDeltaEnc_of_disjoint hin ho, hv, Run.close_ok]

/-! ### The fields of a record that was written (R259) -/

section record
variable {d : State} {xs : List Byte} (hw : Wrote d (deltaRecord xs)) (hpos : d.rd.pos = 0) (hxs : xs.length < 2 ^ 32)

/-- The magnitude stream as bits (R259). -/
def magnitudeBits (xs : List Byte) : List Bool :=
  (List.range xs.length).flatMap fun i => bitsMsb 8 (BitVec.ofNat 64 (magnitudeByte xs i))

theorem magnitudeBits_length (xs : List Byte) : (magnitudeBits xs).length = 8 * xs.length := by
  have hlen := deltaRecord_length xs
  simp only [deltaRecord, List.length_append, bitsMsb_length, signString, List.length_map, List.length_range] at hlen
  rw [magnitudeBits]
  omega

/-- The record before its sign stream (R259). -/
def recordHead (xs : List Byte) : List Bool :=
  bitsMsb 64 (BitVec.ofNat 64 xs.length) ++ magnitudeBits xs ++ bitsMsb 64 (BitVec.ofNat 64 ((xs.length - 3 + 7) / 8))

theorem deltaRecord_eq (xs : List Byte) : deltaRecord xs = recordHead xs ++ signString xs := rfl

theorem recordHead_length (xs : List Byte) : (recordHead xs).length = 128 + 8 * xs.length := by
  simp only [recordHead, List.length_append, bitsMsb_length, magnitudeBits_length]
  omega

/-- Bit `j` of the sign stream of a byte string (R259). -/
theorem getElem?_deltaRecord_sign {j : Nat} (hj : j < xs.length - 3) :
    (deltaRecord xs)[128 + 8 * xs.length + j]? = some (decide ((xs.getD (j + 3) 0).toNat < (xs.getD j 0).toNat)) := by
  rw [deltaRecord_eq, List.getElem?_append_right (by rw [recordHead_length]; omega), recordHead_length,
    Nat.add_sub_cancel_left, signString, List.getElem?_map, List.getElem?_range (by omega)]
  simp [hj]

include hw hpos

/-- A field of the record is read at its place (R61, R259). -/
theorem Wrote.recordField {n : Nat} {v : DWord} {as cs : List Bool}
    (hsplit : deltaRecord xs = as ++ bitsMsb n v ++ cs) :
    valueOf (Machine.streamBits d (d.rd.pos + BitVec.ofNat 64 as.length) n) = v.toNat % 2 ^ n := by
  rw [hsplit] at hw
  have hpart := hw.part
  rw [bitsMsb_length] at hpart
  rw [hpos, zero_add, hpart, valueOf_bitsMsb]

/-- Magnitude `i` of the record is that of byte `i` (R259). -/
theorem Wrote.deltaMagnitude {i : Nat} (hi : i < xs.length) : Machine.deltaMagnitude d i = magnitudeByte xs i := by
  obtain ⟨as, cs, hbits, has⟩ := flatMap_const_split (fun i => bitsMsb 8 (BitVec.ofNat 64 (magnitudeByte xs i))) 8
    xs.length i (fun _ => bitsMsb_length _ _) hi
  have hfield := hw.recordField hpos (as := bitsMsb 64 (BitVec.ofNat 64 xs.length) ++ as) (n := 8)
    (v := BitVec.ofNat 64 (magnitudeByte xs i))
    (cs := cs ++ bitsMsb 64 (BitVec.ofNat 64 ((xs.length - 3 + 7) / 8)) ++ signString xs)
    (by rw [deltaRecord, hbits]; simp only [List.append_assoc])
  have hlt := magnitudeByte_lt xs i
  rw [List.length_append, bitsMsb_length, has, BitVec.toNat_ofNat] at hfield
  rw [Machine.deltaMagnitude, hfield]
  omega

include hxs

/-- N of the record is the number of bytes (R259). -/
theorem Wrote.deltaCount : Machine.deltaCount d = xs.length := by
  have hfield := hw.recordField hpos (as := []) (n := 64) (v := BitVec.ofNat 64 xs.length)
    (cs := magnitudeBits xs ++ bitsMsb 64 (BitVec.ofNat 64 ((xs.length - 3 + 7) / 8)) ++ signString xs)
    (by rw [deltaRecord, magnitudeBits]; simp only [List.append_assoc, List.nil_append])
  rw [List.length_nil, BitVec.add_zero, BitVec.toNat_ofNat] at hfield
  rw [Machine.deltaCount, hfield]
  omega

/-- The record's head ends before the sign stream (R259). -/
theorem Wrote.deltaHead : Machine.deltaHead d = 128 + 8 * xs.length := by
  rw [Machine.deltaHead, hw.deltaCount hpos hxs]

/-- S of the record is the sign stream's length in bytes (R259). -/
theorem Wrote.deltaSignBytes : Machine.deltaSignBytes d = (xs.length - 3 + 7) / 8 := by
  have hfield := hw.recordField hpos (as := bitsMsb 64 (BitVec.ofNat 64 xs.length) ++ magnitudeBits xs) (n := 64)
    (v := BitVec.ofNat 64 ((xs.length - 3 + 7) / 8)) (cs := signString xs) (by rw [deltaRecord, magnitudeBits])
  rw [List.length_append, bitsMsb_length, magnitudeBits_length, BitVec.toNat_ofNat] at hfield
  rw [Machine.deltaSignBytes, hw.deltaCount hpos hxs, hfield]
  omega

/-- Sign bit `j` of the record says which of the two bytes it compares is the smaller (R259). -/
theorem Wrote.deltaMinus {j : Nat} (hj : j < xs.length - 3) :
    Machine.deltaMinus d j = decide ((xs.getD (j + 3) 0).toNat < (xs.getD j 0).toNat) := by
  have hlen := deltaRecord_length xs
  have hbit := hw.bit (128 + 8 * xs.length + j) (by omega)
  rw [Machine.deltaMinus, hw.deltaHead hpos hxs, hpos, zero_add, hbit]
  exact List.getElem_eq_iff _ |>.2 (getElem?_deltaRecord_sign hj)

/-- The value rebuilt at an index is the byte there (R261). -/
theorem Wrote.deltaRebuilt {i : Nat} (hi : i < xs.length) :
    ((xs.getD i 0).toNat : Int) = Machine.deltaRebuilt d (fun j => xs.getD j 0) i := by
  unfold Machine.deltaRebuilt
  rw [hw.deltaMagnitude hpos hi, magnitudeByte]
  by_cases hverbatim : i < 3
  · rw [if_pos hverbatim, if_pos hverbatim]
  · rw [if_neg hverbatim, if_neg hverbatim, hw.deltaMinus hpos hxs (by omega), show i - 3 + 3 = i by omega]
    simp only
    split_ifs with hminus
    · have := of_decide_eq_true hminus
      omega
    · have := of_decide_eq_false (Bool.eq_false_iff.2 hminus)
      omega

/-- DELTA_DEC's run on a record that was written stores the bytes (R261, R262). -/
theorem Wrote.runDeltaDec (hin : d.dstAddr.toNat + d.dstLen.toNat ≤ d.params.lmemSize)
    (ho : (readerRegion d).overlaps (dstRegion d) = false) (hfits : xs.length ≤ d.dstLen.toNat) :
    ∃ u, Machine.runDeltaDec d = .ok () u ∧ u.dLen = BitVec.ofNat 64 xs.length ∧
      storesBytes d (fun i => xs.getD i 0) xs.length u.lmem := by
  have hlen := deltaRecord_length xs
  have hcount := hw.deltaCount hpos hxs
  have hhead := hw.deltaHead hpos hxs
  have hsigns := hw.deltaSignBytes hpos hxs
  have hbytes := hw.len
  have hend : (d.rd.pos + BitVec.ofNat 64 (Machine.deltaHead d)).toNat = 128 + 8 * xs.length := by
    rw [hpos, zero_add, hhead, BitVec.toNat_ofNat]
    omega
  obtain ⟨m, hm, hrun⟩ := runDeltaDec_of_bytes hin ho (hw.padCount hpos (by omega)) (by omega)
    (hw.padCount hpos (by omega)) (by omega) (by omega) (x := fun i => xs.getD i 0)
    fun i hi => hw.deltaRebuilt hpos hxs (hcount ▸ hi)
  rw [hcount] at hm hrun
  exact ⟨_, hrun, rfl, hm⟩

end record

/-- A byte of a region that holds a value, read out of the region's list. -/
theorem getD_regionBytes {s : State} {r : Region} {i : Nat} (hi : i < r.len.toNat) {v : Byte}
    (hv : Memory.read? s.lmem (r.base.toNat + i) = some v) : (regionBytes s r).getD i 0 = v := by
  rw [List.getD_eq_getElem?_getD, regionBytes, List.getElem?_map, List.getElem?_range hi]
  simp [memRead, hv]

/-- Settles O50: the record that DELTA_ENC appends is the one that DELTA_DEC reads. -/
theorem deltaRoundTrip : Obligations.DeltaRoundTrip := by
  intro s t d hvalues hw hbytes hn hacc _ hex herr hm hp hrd hin hfits ho
  obtain ⟨u, rfl, hroom, happ⟩ := deltaEnc_appends hw (accClean_of_acc_eq_zero hacc) hex herr
  have hxs : (regionBytes s (srcRegion s)).length = s.srcLen.toNat := regionBytes_length s _
  have hlt := s.srcLen.isLt
  have hu : u.wr.nacc = 0 := happ.nacc_eq_of_bytes hn (by rw [deltaRecord_length]; omega)
  have hbytes' : s.wr.bytes.toNat = 0 := by rw [hbytes]; rfl
  have hbase : d.rd.base.toNat = s.wr.base.toNat + s.wr.bytes.toNat := by
    rw [hrd, hbytes', Nat.add_zero, ← happ.wr_base]
    rfl
  have hlen : d.rd.len.toNat = u.wr.bytes.toNat - s.wr.bytes.toNat := by
    rw [hrd, hbytes', Nat.sub_zero]
    rfl
  have hwrote := happ.wrote hn hu hm hbase hlen
  have hparams : d.params = s.params := by rw [hp, complete_params, happ.1]
  obtain ⟨v, hrun, hdLen, hstored⟩ := hwrote.runDeltaDec (by rw [hrd]) (by omega) hin ho (by omega)
  refine ⟨hu, _, by rw [exec_deltaDec (happ.readerOk hw hroom hbase hlen hparams), hrun, Run.close_ok], ?dLen,
    fun i hi => ?byte⟩
  case dLen =>
    rw [hdLen, hxs, BitVec.ofNat_toNat]
  case byte =>
    obtain ⟨b, hb⟩ := hvalues i hi
    rw [hb, ← getD_regionBytes (r := srcRegion s) hi hb]
    refine (hstored _).trans ((if_pos (by omega)).trans ?_)
    rw [Nat.add_sub_cancel_left]

end Sys2Proof.Machine


/-! ## The built LUT partitions the value range (R175) -/

namespace Sys2Proof.Machine

/-- The state after a build of a tree for a byte string, before completion (R170). -/
def builtState (s : State) (xs : List Byte) (root : HufTree) : State :=
  { s with
    hist := histogram xs
    cwtab := builtCwtab root
    lut := builtLut s.lut root
    lutCnt := BitVec.ofNat 16 xs.dedup.length
    maxLen := BitVec.ofNat 16 (maxDepth (codewords root 0 0))
    count := BitVec.ofNat 64 xs.length }

/-- What a build that raises nothing has found (R170, R173): a valid source region, two symbols or more, and a tree of
depth at most 31. -/
structure BuildOk (s : State) (xs : List Byte) (root : HufTree) : Prop where
  source : s.srcAddr.toNat + s.srcLen.toNat ≤ s.params.lmemSize
  bytes : xs = regionBytes s (srcRegion s)
  symbols : 2 ≤ xs.dedup.length
  tree : buildTree (fun b => xs.count b) = some root
  depth : maxDepth (codewords root 0 0) < 32

/-- HUF_BUILD without an error has built a tree and left its tables (R170). -/
theorem hufBuild_built {s t : State} (hex : exec .hufBuild s = .next t) (herr : t.st.err = false) :
    ∃ xs root, BuildOk s xs root ∧ t = complete (builtState s xs root) := by
  rw [exec_hufBuild] at hex
  cases hex
  obtain ⟨v, hv⟩ := Run.ok_of_close_err herr
  have hin : s.srcAddr.toNat + s.srcLen.toNat ≤ s.params.lmemSize := by
    by_contra hout
    rw [runHufBuild_of_invalid (Nat.not_le.1 hout)] at hv
    cases hv
  have hrun := runHufBuild_of_valid hin
  have hk : 2 ≤ (regionBytes s (srcRegion s)).dedup.length := by
    by_contra hk
    rw [hrun, buildCode_emptyInput (Nat.not_le.1 hk)] at hv
    cases hv
  obtain ⟨root, hr⟩ := buildTree_some (Nat.le_of_succ_le hk)
  have hd : maxDepth (codewords root 0 0) < 32 := by
    by_contra hd
    rw [hrun, buildCode_codeTooLong hk hr (Nat.not_lt.1 hd)] at hv
    cases hv
  refine ⟨_, root, ⟨hin, rfl, hk, hr, hd⟩, ?_⟩
  rw [hrun, buildCode_eq_built hr hd hk, Run.close_ok]
  rfl

/-- The codewords tile the range of D-bit values (R175). -/
theorem tiles_root (root : HufTree) :
    Tiles (maxDepth (codewords root 0 0)) 0 (codewords root 0 0) (2 ^ maxDepth (codewords root 0 0)) := by
  simpa using tiles_codewords root (code := 0) (len := 0) fun c hc => maxDepth_ge hc

/-- LUTCNT after a build is the number of distinct bytes (R170). -/
theorem builtState_lutCnt (s : State) (xs : List Byte) (root : HufTree) :
    (builtState s xs root).lutCnt.toNat = xs.dedup.length := by
  have := dedup_length_le xs
  rw [builtState, BitVec.toNat_ofNat]
  omega

section built
variable {s : State} {xs : List Byte} {root : HufTree} (h : BuildOk s xs root)
include h

/-- A build's source has fewer than 2^32 bytes (R30). -/
theorem BuildOk.length : xs.length = s.srcLen.toNat := by
  rw [h.bytes, regionBytes_length, srcRegion]

/-- There are as many codewords as distinct bytes (R170). -/
theorem BuildOk.codewords_length : (codewords root 0 0).length = xs.dedup.length := codewords_length_eq_dedup h.tree

/-- MAXLEN after a build is the depth of the tree (R173). -/
theorem BuildOk.maxLen : (builtState s xs root).maxLen.toNat = maxDepth (codewords root 0 0) := by
  have := h.depth
  rw [builtState, BitVec.toNat_ofNat]
  omega

/-- COUNT after a build is the number of source bytes (R170). -/
theorem BuildOk.count : (builtState s xs root).count.toNat = xs.length := by
  have := s.srcLen.isLt
  rw [builtState, BitVec.toNat_ofNat, h.length]
  omega

/-- LUT[i] after a build in its three fields: the i-th codeword's (R174). -/
theorem BuildOk.lutAt {i : Nat} (hi : i < (codewords root 0 0).length) :
    (Machine.lutAt (builtState s xs root).lut i).sym = (codewords root 0 0)[i].sym ∧
      (Machine.lutAt (builtState s xs root).lut i).len.toNat = (codewords root 0 0)[i].len ∧
      (Machine.lutAt (builtState s xs root).lut i).val.toNat =
        (codewords root 0 0)[i].start (maxDepth (codewords root 0 0)) := by
  have hentry := lutAt_builtLut h.tree h.depth s.lut hi
  have hle : (codewords root 0 0)[i].len ≤ _ := maxDepth_ge (List.getElem_mem hi)
  have hdepth := h.depth
  refine ⟨by rw [builtState, hentry, lutEntryOf], ?_, lutAt_builtLut_val h.tree h.depth s.lut hi⟩
  rw [builtState, hentry, lutEntryOf, BitVec.toNat_ofNat]
  omega

/-- The LUT after a build is valid (R175, R178). -/
theorem BuildOk.lutValid : Machine.lutValid (builtState s xs root).maxLen.toNat (builtState s xs root).lutCnt.toNat
    (Machine.lutAt (builtState s xs root).lut) := by
  have hcodes := h.codewords_length
  have hk := h.symbols
  have hdepth := h.depth
  rw [h.maxLen, builtState_lutCnt]
  refine ⟨⟨maxDepth_pos (by omega), by omega⟩, ⟨hk, dedup_length_le xs⟩, ?first, fun i h0 hi => ?rising,
    fun i hi => ?len, fun i hi => ?val⟩
  case first =>
    obtain ⟨-, -, hval⟩ := h.lutAt (i := 0) (by omega)
    rw [hval, ((tiles_root root).get 0 (by omega)).1 rfl]
  case rising => exact lutAt_builtLut_strictMono h.tree h.depth s.lut (by omega) hi
  case len =>
    obtain ⟨-, hlen, -⟩ := h.lutAt (i := i) (by omega)
    rw [hlen]
    exact ⟨codewords_len_pos (by omega) (List.getElem_mem _), maxDepth_ge (List.getElem_mem _)⟩
  case val =>
    obtain ⟨-, -, hval⟩ := h.lutAt (i := i) (by omega)
    rw [hval]
    exact (codewords_start_lt h.depth _).1

end built

/-- Settles O30: the LUT's intervals are the tiles of the codewords. -/
theorem builtLutPartitionsTheRange : Obligations.BuiltLutPartitionsTheRange := by
  intro s t _ hex herr
  obtain ⟨xs, root, h, rfl⟩ := hufBuild_built hex herr
  have hcodes := h.codewords_length
  have hk := h.symbols
  refine ⟨h.lutValid, fun i hi => ?next, ?last⟩
  all_goals simp only [complete_maxLen, complete_lutCnt, complete_lut, h.maxLen, builtState_lutCnt] at *
  case next =>
    obtain ⟨-, hlen, hval⟩ := h.lutAt (i := i) (by omega)
    obtain ⟨-, -, hval'⟩ := h.lutAt (i := i + 1) (by omega)
    rw [hval', hval, hlen]
    obtain ⟨-, hnext, -⟩ := (tiles_root root).get i (by omega)
    exact hnext (by omega)
  case last =>
    obtain ⟨-, hlen, hval⟩ := h.lutAt (i := xs.dedup.length - 1) (by omega)
    rw [hval, hlen]
    obtain ⟨-, -, hend⟩ := (tiles_root root).get (xs.dedup.length - 1) (by omega)
    exact hend (by omega)

end Sys2Proof.Machine


/-! ## HUF_BUILD, HUF_PACK and HUF_DEC give the source bytes back (R182) -/

namespace Sys2Proof.Machine

/-- The codewords of a byte string, one after the other (R176). -/
def codedBits (root : HufTree) (xs : List Byte) : List Bool := xs.flatMap (codeBits (builtCwtab root))

/-- HUF_PACK over a build's own bytes, without an error, has appended their codewords and the flush's zeros (R176). -/
theorem hufPack_appends {s p t : State} {xs : List Byte} {root : HufTree} (h : BuildOk s xs root)
    (hcw : p.cwtab = builtCwtab root) (hbytes : regionBytes p (srcRegion p) = xs) (hw : writerOk p = true)
    (hacc : accClean p.wr) (hex : exec .hufPack p = .next t) (herr : t.st.err = false) :
    ∃ u zeros, t = complete u ∧ roomFor p.wr (codedBits root xs ++ zeros).length ∧
      Appends p u (codedBits root xs ++ zeros) ∧ u.wr.nacc = 0 := by
  rw [exec_hufPack hw] at hex
  cases hex
  obtain ⟨u, hu⟩ := Run.ok_of_close_err herr
  have hin : p.srcAddr.toNat + p.srcLen.toNat ≤ p.params.lmemSize := by
    by_contra hout
    rw [runHufPack_of_invalid (Nat.not_le.1 hout)] at hu
    cases hu
  have ho : (srcRegion p).overlaps (writerRegion p) = false := by
    by_contra ho
    rw [runHufPack_of_overlap hin (Bool.not_eq_false _ ▸ ho)] at hu
    cases hu
  have hall : ∀ b ∈ regionBytes p (srcRegion p), (cwAt p.cwtab b).len ≠ 0 := by
    intro b hb hzero
    rw [hbytes] at hb
    obtain ⟨c, hc, rfl⟩ := (mem_iff_exists_codeword h.tree b).1 hb
    have hpos := codewords_len_pos (by rw [h.codewords_length]; exact h.symbols) hc
    have hlen := (cwAt_builtCwtab_of_mem h.tree h.depth hc).2
    rw [← hcw, hzero] at hlen
    exact absurd (hlen.symm.trans rfl : c.len = 0) (by omega)
  have hready := writerReady_of hw hacc
  have hrun := runHufPack_of_codewords hready hin ho hall
  rw [hcw, hbytes] at hrun
  have hlist := hrun.symm.trans hu
  obtain ⟨hroom, happ⟩ := appends_of_writeBitList_ok hready hlist
  exact ⟨u, _, by rw [hu, Run.close_ok], hroom, happ, happ.nacc_eq_zero_of_padBits⟩

/-! ### The window over a packed stream (R179, R181) -/

section window
variable {s : State} {xs : List Byte} {root : HufTree} (h : BuildOk s xs root)
include h

/-- A codeword's bits in a packed stream are its code, in its length (R172, R176). -/
theorem BuildOk.codeBits {c : SymCode} (hc : c ∈ codewords root 0 0) :
    (Machine.codeBits (builtCwtab root) c.sym).length = c.len ∧
      valueOf (Machine.codeBits (builtCwtab root) c.sym) = c.code := by
  obtain ⟨hval, hlen⟩ := cwAt_builtCwtab_of_mem h.tree h.depth hc
  have hcode := codewords_code_lt hc
  refine ⟨by rw [Machine.codeBits, bitsMsb_length, hlen], ?_⟩
  rw [Machine.codeBits, valueOf_bitsMsb, hlen, BitVec.zeroExtend, BitVec.toNat_setWidth_of_le (by decide), hval]
  exact Nat.mod_eq_of_lt hcode

/-- The entry whose tile holds the window is the one that lookup finds (R175, R179). -/
theorem BuildOk.lookup_unique {i w : Nat} (hi : i < (codewords root 0 0).length) {x : LutEntry}
    (hlo : (codewords root 0 0)[i].start (maxDepth (codewords root 0 0)) ≤ w)
    (hhi : w < (codewords root 0 0)[i].start (maxDepth (codewords root 0 0)) +
      2 ^ (maxDepth (codewords root 0 0) - (codewords root 0 0)[i].len))
    (hx : IsLookup (Machine.lutAt (builtState s xs root).lut) (builtState s xs root).lutCnt.toNat w x) :
    x = Machine.lutAt (builtState s xs root).lut i := by
  obtain ⟨j, hj, rfl, hle, habove⟩ := hx
  rw [builtState_lutCnt, ← h.codewords_length] at hj habove
  obtain ⟨-, -, hvali⟩ := h.lutAt hi
  obtain ⟨-, -, hvalj⟩ := h.lutAt hj
  obtain hij | rfl | hij := lt_trichotomy i j
  · have := (tiles_root root).mono hij hj
    omega
  · rfl
  · have := habove i hij hi
    omega

/-- A window that begins with a codeword lies in that codeword's tile (R174, R175). -/
theorem BuildOk.window_in_tile {d : State} {as cs : List Bool} {c : SymCode} (hc : c ∈ codewords root 0 0)
    (hw : Wrote d (as ++ Machine.codeBits (builtCwtab root) c.sym ++ cs)) :
    c.start (maxDepth (codewords root 0 0)) ≤
        valueOf (streamBits d (BitVec.ofNat 64 as.length) (maxDepth (codewords root 0 0))) ∧
      valueOf (streamBits d (BitVec.ofNat 64 as.length) (maxDepth (codewords root 0 0))) <
        c.start (maxDepth (codewords root 0 0)) + 2 ^ (maxDepth (codewords root 0 0) - c.len) := by
  obtain ⟨hlen, hval⟩ := h.codeBits hc
  have hpart := hw.part
  rw [hlen] at hpart
  have hsplit : maxDepth (codewords root 0 0) = c.len + (maxDepth (codewords root 0 0) - c.len) :=
    (Nat.add_sub_cancel' (maxDepth_ge hc)).symm
  have hrest := valueOf_streamBits_lt d (BitVec.ofNat 64 as.length + BitVec.ofNat 64 c.len)
    (maxDepth (codewords root 0 0) - c.len)
  have hwindow : valueOf (streamBits d (BitVec.ofNat 64 as.length) (maxDepth (codewords root 0 0))) =
      c.start (maxDepth (codewords root 0 0)) + valueOf (streamBits d
        (BitVec.ofNat 64 as.length + BitVec.ofNat 64 c.len) (maxDepth (codewords root 0 0) - c.len)) := by
    conv_lhs => rw [hsplit, streamBits_add, valueOf_append, hpart, hval, streamBits_length]
    rfl
  omega

end window

/-- A decoder's tables are those of a build, and its reader stands at the start of the packed stream (R181, R182). -/
structure DecodesBuild (d s : State) (xs : List Byte) (root : HufTree) (zeros : List Bool) : Prop where
  built : BuildOk s xs root
  wrote : Wrote d (codedBits root xs ++ zeros)
  maxLen : d.maxLen = (builtState s xs root).maxLen
  lutCnt : d.lutCnt = (builtState s xs root).lutCnt
  lut : d.lut = (builtState s xs root).lut
  count : d.count = (builtState s xs root).count
  pos : d.rd.pos = 0
  pad : d.rd.pad = 0

section decode
variable {d s : State} {xs : List Byte} {root : HufTree} {zeros : List Bool} (h : DecodesBuild d s xs root zeros)
include h

theorem DecodesBuild.depth : d.maxLen.toNat = maxDepth (codewords root 0 0) := by
  rw [h.maxLen, h.built.maxLen]

/-- At the start of byte `i`'s codeword, lookup finds that byte and its codeword's length (R179, R181). -/
theorem DecodesBuild.lookup {i : Nat} (hi : i < xs.length) {x : LutEntry}
    (hx : IsLookup (lutAt d.lut) d.lutCnt.toNat (valueOf (streamBits d
      (d.rd.pos + BitVec.ofNat 64 (codedBits root (xs.take i)).length) d.maxLen.toNat)) x) :
    x.sym = xs[i] ∧ (codedBits root (xs.take i)).length + x.len.toNat = (codedBits root (xs.take (i + 1))).length := by
  obtain ⟨c, hc, hsym⟩ := (mem_iff_exists_codeword h.built.tree xs[i]).1 (List.getElem_mem hi)
  have hsucc : codedBits root (xs.take (i + 1)) = codedBits root (xs.take i) ++ codeBits (builtCwtab root) c.sym := by
    rw [codedBits, List.take_succ_eq_append_getElem hi, List.flatMap_append, hsym]
    simp [codedBits]
  have hstream : codedBits root xs = codedBits root (xs.take (i + 1)) ++ codedBits root (xs.drop (i + 1)) := by
    rw [codedBits, codedBits, codedBits, ← List.flatMap_append, List.take_append_drop]
  have hwrote := h.wrote
  rw [hstream, hsucc, List.append_assoc] at hwrote
  obtain ⟨hlo, hhi⟩ := h.built.window_in_tile hc hwrote
  rw [h.pos, zero_add, h.depth, h.lut, h.lutCnt] at hx
  obtain ⟨j, hj, rfl⟩ := List.getElem_of_mem hc
  obtain rfl := h.built.lookup_unique hj hlo hhi hx
  obtain ⟨hsymj, hlenj, -⟩ := h.built.lutAt hj
  refine ⟨hsymj.trans hsym, ?_⟩
  rw [hsucc, List.length_append, (h.built.codeBits hc).1, hlenj]

/-- Reading the window and every codeword pads at most the window's own bits (R141, R182). -/
theorem DecodesBuild.pad_le : (d.rd.pad + BitVec.ofNat 64
    (padCount d (d.maxLen.toNat + (codedBits root xs).length))).toNat ≤ d.maxLen.toNat := by
  have hnone : padCount d (codedBits root xs).length = 0 :=
    h.wrote.padCount h.pos (by rw [List.length_append]; exact Nat.le_add_right _ _)
  have hle := padCount_le (afterRead d (codedBits root xs).length) d.maxLen.toNat
  have hlt := d.maxLen.isLt
  rw [h.pad, zero_add, Nat.add_comm, padCount_add, hnone, BitVec.toNat_ofNat]
  omega

/-- HUF_DEC's run over a build's own packed stream stores the source bytes (R181, R182). -/
theorem DecodesBuild.exec_hufDec (hrd : readerOk d = true) (hin : d.dstAddr.toNat + d.dstLen.toNat ≤ d.params.lmemSize)
    (hfits : xs.length ≤ d.dstLen.toNat) (ho : (readerRegion d).overlaps (dstRegion d) = false) :
    ∃ u, exec .hufDec d = .next (complete u) ∧ u.rd.pad.toNat ≤ d.maxLen.toNat ∧
      ∀ i (hi : i < xs.length), Memory.read? u.lmem (d.dstAddr.toNat + i) = some xs[i] := by
  have hvalid : lutFault d.maxLen.toNat d.lutCnt.toNat (lutAt d.lut) = none :=
    lutFault_none.2 (by rw [h.maxLen, h.lutCnt, h.lut]; exact h.built.lutValid)
  have hcount : d.count.toNat = xs.length := by rw [h.count, h.built.count]
  obtain ⟨-, hchecked⟩ := hufDecDecodesCountSymbols.2 d hrd
  obtain ⟨-, hplaced⟩ := hchecked hvalid
  obtain ⟨-, hcounted⟩ := hplaced hin
  obtain ⟨-, hdecodes⟩ := hcounted (by omega)
  obtain ⟨q, m, hexec, hq0, hsyms, -⟩ := hdecodes ho
  rw [hcount] at hexec hsyms
  have hq : ∀ i, i ≤ xs.length → q i = (codedBits root (xs.take i)).length := by
    intro i
    induction i with
    | zero => exact fun _ => hq0
    | succ i ih =>
      intro hi
      obtain ⟨x, hx, hstep, -⟩ := hsyms i (by omega)
      rw [ih (by omega)] at hx hstep
      rw [hstep, (h.lookup (by omega) hx).2]
  refine ⟨_, hexec, ?pad, fun i hi => ?byte⟩
  case pad =>
    rw [hq _ le_rfl, List.take_length]
    exact h.pad_le
  case byte =>
    obtain ⟨x, hx, -, hread⟩ := hsyms i hi
    rw [hq i hi.le] at hx
    rw [← (h.lookup hi hx).1]
    exact hread

end decode

/-- Settles O36: the packed stream is the codewords of the bytes, and each window finds its own codeword. -/
theorem huffmanRoundTrip : Obligations.HuffmanRoundTrip := by
  intro s b p t d _ hbuild hberr hvalues hpm hpp hcw hsa hsl hw hbytes hn hacc _ hpack hperr hdm hdp hmax hcount hcnt
    hlut hrd hin hfits ho
  obtain ⟨xs, root, h, rfl⟩ := hufBuild_built hbuild hberr
  have hsrc : srcRegion p = srcRegion s := by rw [srcRegion, hsa, hsl]; rfl
  have hxs : regionBytes p (srcRegion p) = xs := by
    rw [hsrc, h.bytes]
    exact regionBytes_congr hvalues hpm
  obtain ⟨u, zeros, rfl, hroom, happ, hu⟩ :=
    hufPack_appends h hcw hxs hw (accClean_of_acc_eq_zero hacc) hpack hperr
  have hbytes' : p.wr.bytes.toNat = 0 := by rw [hbytes]; rfl
  have hbase : d.rd.base.toNat = p.wr.base.toNat + p.wr.bytes.toNat := by
    rw [hrd, hbytes', Nat.add_zero, ← happ.wr_base]
    rfl
  have hlen : d.rd.len.toNat = u.wr.bytes.toNat - p.wr.bytes.toNat := by
    rw [hrd, hbytes', Nat.sub_zero]
    rfl
  have hparams : d.params = p.params := by rw [hdp, complete_params, happ.1]
  have hdec : DecodesBuild d s xs root zeros := ⟨h, happ.wrote hn hu hdm hbase hlen, hmax, hcnt, hlut, hcount,
    by rw [hrd], by rw [hrd]⟩
  have hlength := h.length
  obtain ⟨v, hexec, hpad, hread⟩ :=
    hdec.exec_hufDec (happ.readerOk hw hroom hbase hlen hparams) hin (by omega) ho
  refine ⟨v, hexec, hpad, fun i hi => ?_⟩
  obtain ⟨w, hv⟩ := hvalues i hi
  have hbyte := getD_regionBytes (r := srcRegion s) hi hv
  rw [← h.bytes, List.getD_eq_getElem _ _ (by omega)] at hbyte
  rw [hread i (by omega), hv, hbyte]

end Sys2Proof.Machine
